-- ==== Sys2Proof/Word.lean ====
section
/-! DEFINITION. The word types of the AACU (`10_state.md` R21, `20_memory.md` R60): widths only. -/

namespace Sys2Proof

/-- A byte of IB, OB, PIX, REF or REC. -/
abbrev Byte := BitVec 8

/-- A 16-bit register or element: the coder registers, the symbol latch, a table entry, a
quantiser entry, a ZZ element. -/
abbrev Half := BitVec 16

/-- A 32-bit register, a command word, a COEF element, one word of the host's window. -/
abbrev Word := BitVec 32

end Sys2Proof
end

