-- ==== Sys2Proof/Syntax.lean ====
section
/-! DEFINITION. The 36 commands of AACU-CS version 1, one constructor per row of the opcode map
(`30_encoding.md` R95). Operands that travel in registers (ARG0, ARG1, the symbol latch, CNT) are
not operands of the word. -/

namespace Sys2Proof

/-- A command of the AACU. `m` is a context number (R93), `hdr` and `inter` the flag F[0] (R94),
`n` a bit count, `bits` an alphabet width, `s` a symbol (R92). -/
inductive Instr where
  /-- NOP (`45_system.md` R270). -/
  | nop
  /-- RESET (`45_system.md` R272). -/
  | reset
  /-- CLRW (`45_system.md` R274). -/
  | clrw
  /-- BW_INIT (`40_bitio.md` R113). -/
  | bwInit (hdr : Bool)
  /-- BW_PUT (`40_bitio.md` R114). -/
  | bwPut (n : Nat)
  /-- BW_FLUSH (`40_bitio.md` R116). -/
  | bwFlush
  /-- BR_INIT (`40_bitio.md` R117). -/
  | brInit
  /-- BR_GET (`40_bitio.md` R119). -/
  | brGet (n : Nat)
  /-- BR_PEEK (`40_bitio.md` R120). -/
  | brPeek (n : Nat)
  /-- BR_SKIP (`40_bitio.md` R121). -/
  | brSkip (n : Nat)
  /-- MDL_INIT (`41_model.md` R133). -/
  | mdlInit (m : Fin 16) (bits : Nat)
  /-- MDL_INIT_STD (`41_model.md` R135). -/
  | mdlInitStd
  /-- MDL_UPD (`41_model.md` R137). -/
  | mdlUpd (m : Fin 16) (s : Nat)
  /-- MDL_I2S (`41_model.md` R141). -/
  | mdlI2s (m : Fin 16) (s : Nat)
  /-- MDL_S2I (`41_model.md` R143). -/
  | mdlS2i (m : Fin 16)
  /-- MDL_SCALE (`41_model.md` R145). -/
  | mdlScale (m : Fin 16)
  /-- AC_ENC_INIT (`42_coder.md` R161). -/
  | acEncInit
  /-- AC_ENC (`42_coder.md` R167). -/
  | acEnc
  /-- AC_ENC_FLUSH (`42_coder.md` R169). -/
  | acEncFlush
  /-- AC_DEC_INIT (`42_coder.md` R172). -/
  | acDecInit
  /-- AC_DEC_CNT (`42_coder.md` R174). -/
  | acDecCnt
  /-- AC_DEC_RM (`42_coder.md` R177). -/
  | acDecRm
  /-- SYM_ENC (`42_coder.md` R179). -/
  | symEnc (m : Fin 16) (s : Nat)
  /-- SYM_DEC (`42_coder.md` R181). -/
  | symDec (m : Fin 16)
  /-- BLK_LOAD (`43_block.md` R202). -/
  | blkLoad (inter : Bool)
  /-- BLK_FDCT (`43_block.md` R206). -/
  | blkFdct
  /-- BLK_QUANT (`43_block.md` R208). -/
  | blkQuant (inter : Bool)
  /-- BLK_LAST (`43_block.md` R210). -/
  | blkLast
  /-- BLK_MIDX (`43_block.md` R212). -/
  | blkMidx
  /-- BLK_ENC (`43_block.md` R215). -/
  | blkEnc
  /-- BLK_DEC (`43_block.md` R218). -/
  | blkDec
  /-- BLK_DEQ (`43_block.md` R220). -/
  | blkDeq (inter : Bool)
  /-- BLK_IDCT (`43_block.md` R222). -/
  | blkIdct
  /-- BLK_RECON (`43_block.md` R224). -/
  | blkRecon (inter : Bool)
  /-- RLE_ENC (`44_rle.md` R252). -/
  | rleEnc
  /-- RLE_DEC (`44_rle.md` R258). -/
  | rleDec
deriving DecidableEq, Repr

end Sys2Proof
end

