-- ==== Sys2Proof/WellFormed.lean ====
section
/-! DEFINITION. Which commands have a command word: every number fits its field of format C
(`30_encoding.md` R90, R92). A value that fits its field but is out of its legal range (a bit count
of 33, an alphabet width of 0) is well formed: the command is recognised and raises ERR_OPERAND
when it runs (R97). -/

namespace Sys2Proof

/-- A bit count fits IMM[5:0]. -/
abbrev countFits (n : Nat) : Prop := n < 64

/-- An alphabet width fits IMM[3:0]. -/
abbrev widthFits (bits : Nat) : Prop := bits < 16

/-- A symbol fits IMM[15:0]. -/
abbrev symbolFits (s : Nat) : Prop := s < 65536

/-- The command can be written as a command word. -/
abbrev Instr.WellFormed (i : Instr) : Prop :=
  (match i with
  | .bwPut n => decide (countFits n)
  | .brGet n => decide (countFits n)
  | .brPeek n => decide (countFits n)
  | .brSkip n => decide (countFits n)
  | .mdlInit _ bits => decide (widthFits bits)
  | .mdlUpd _ s => decide (symbolFits s)
  | .mdlI2s _ s => decide (symbolFits s)
  | .symEnc _ s => decide (symbolFits s)
  | .nop => true
  | .reset => true
  | .clrw => true
  | .bwInit _ => true
  | .bwFlush => true
  | .brInit => true
  | .mdlInitStd => true
  | .mdlS2i _ => true
  | .mdlScale _ => true
  | .acEncInit => true
  | .acEnc => true
  | .acEncFlush => true
  | .acDecInit => true
  | .acDecCnt => true
  | .acDecRm => true
  | .symDec _ => true
  | .blkLoad _ => true
  | .blkFdct => true
  | .blkQuant _ => true
  | .blkLast => true
  | .blkMidx => true
  | .blkEnc => true
  | .blkDec => true
  | .blkDeq _ => true
  | .blkIdct => true
  | .blkRecon _ => true
  | .rleEnc => true
  | .rleDec => true : Bool) = true

end Sys2Proof
end

