-- ==== Sys2Proof/Decode.lean ====
section
/-! DEFINITION. Reading a command word and writing one (`30_encoding.md` R90 to R100). -/

namespace Sys2Proof

/-- Why a word is no command. Each is reported to the host as ERR_ILLEGAL_CMD. -/
inductive DecodeError where
  /-- The opcode is not in the opcode map (R96). -/
  | noSuchOpcode
  /-- A bit that must be zero is one (R97). -/
  | mustBeZero
  /-- The opcode belongs to the RLE unit and the unit is absent (R98). -/
  | unitAbsent
deriving DecidableEq, Repr

/-- The four fields of format C (R90). -/
structure Fields where
  opc : Nat
  m : Nat
  f : Nat
  imm : Nat
deriving DecidableEq, Repr

/-- OPC 31:24, M 23:20, F 19:16, IMM 15:0 (R90). -/
def fieldsOf (w : Word) : Fields :=
  { opc := w.toNat / 2 ^ 24
    m := w.toNat / 2 ^ 20 % 16
    f := w.toNat / 2 ^ 16 % 16
    imm := w.toNat % 2 ^ 16 }

/-- The command word with these fields. -/
def wordOf (opc m f imm : Nat) : Word :=
  BitVec.ofNat 32 (opc * 2 ^ 24 + m * 2 ^ 20 + f * 2 ^ 16 + imm)

/-- Accept a command if its must-be-zero bits are zero (R97). -/
def onlyIf (ok : Bool) (i : Instr) : Except DecodeError Instr :=
  if ok then .ok i else .error .mustBeZero

/-- M, F and IMM must be zero. -/
def decodePlain (w : Fields) (i : Instr) : Except DecodeError Instr :=
  onlyIf (w.m == 0 && w.f == 0 && w.imm == 0) i

/-- The flag F[0]; everything else must be zero. -/
def decodeFlag (w : Fields) (i : Bool → Instr) : Except DecodeError Instr :=
  onlyIf (w.m == 0 && decide (w.f ≤ 1) && w.imm == 0) (i (w.f == 1))

/-- A bit count in IMM[5:0]; everything else must be zero. -/
def decodeCount (w : Fields) (i : Nat → Instr) : Except DecodeError Instr :=
  onlyIf (w.m == 0 && w.f == 0 && decide (w.imm < 64)) (i w.imm)

/-- A context in M; F and IMM must be zero. -/
def decodeCtx (w : Fields) (i : Fin 16 → Instr) : Except DecodeError Instr :=
  onlyIf (w.f == 0 && w.imm == 0) (i (Fin.ofNat 16 w.m))

/-- A context in M and an alphabet width in IMM[3:0]; everything else must be zero. -/
def decodeCtxWidth (w : Fields) (i : Fin 16 → Nat → Instr) : Except DecodeError Instr :=
  onlyIf (w.f == 0 && decide (w.imm < 16)) (i (Fin.ofNat 16 w.m) w.imm)

/-- A context in M and a symbol in IMM; F must be zero. -/
def decodeCtxSymbol (w : Fields) (i : Fin 16 → Nat → Instr) : Except DecodeError Instr :=
  onlyIf (w.f == 0) (i (Fin.ofNat 16 w.m) w.imm)

/-- The opcode map (R95), over the fields of a word. A decoder tells the command from OPC alone and
then checks the must-be-zero bits (R100). -/
def decodeFields (w : Fields) : Except DecodeError Instr :=
  match w.opc with
  | 0x00 => decodePlain w .nop
  | 0x01 => decodePlain w .reset
  | 0x02 => decodePlain w .clrw
  | 0x10 => decodeFlag w .bwInit
  | 0x11 => decodeCount w .bwPut
  | 0x12 => decodePlain w .bwFlush
  | 0x18 => decodePlain w .brInit
  | 0x19 => decodeCount w .brGet
  | 0x1A => decodeCount w .brPeek
  | 0x1B => decodeCount w .brSkip
  | 0x20 => decodeCtxWidth w .mdlInit
  | 0x21 => decodePlain w .mdlInitStd
  | 0x22 => decodeCtxSymbol w .mdlUpd
  | 0x23 => decodeCtxSymbol w .mdlI2s
  | 0x24 => decodeCtx w .mdlS2i
  | 0x25 => decodeCtx w .mdlScale
  | 0x30 => decodePlain w .acEncInit
  | 0x31 => decodePlain w .acEnc
  | 0x32 => decodePlain w .acEncFlush
  | 0x38 => decodePlain w .acDecInit
  | 0x39 => decodePlain w .acDecCnt
  | 0x3A => decodePlain w .acDecRm
  | 0x3C => decodeCtxSymbol w .symEnc
  | 0x3D => decodeCtx w .symDec
  | 0x40 => decodeFlag w .blkLoad
  | 0x41 => decodePlain w .blkFdct
  | 0x42 => decodeFlag w .blkQuant
  | 0x43 => decodePlain w .blkLast
  | 0x44 => decodePlain w .blkMidx
  | 0x45 => decodePlain w .blkEnc
  | 0x48 => decodePlain w .blkDec
  | 0x49 => decodeFlag w .blkDeq
  | 0x4A => decodePlain w .blkIdct
  | 0x4B => decodeFlag w .blkRecon
  | 0x50 => decodePlain w .rleEnc
  | 0x51 => decodePlain w .rleDec
  | _ => .error .noSuchOpcode

/-- The command a word stands for when every unit is present (R95 to R97). -/
def decode (w : Word) : Except DecodeError Instr := decodeFields (fieldsOf w)

/-- The commands of the optional RLE unit (`44_rle.md`). -/
def Instr.isRle : Instr → Bool
  | .rleEnc => true
  | .rleDec => true
  | _ => false

/-- The command a word stands for on an AACU with or without the RLE unit (R98). -/
def decodeFor (hasRle : Bool) (w : Word) : Except DecodeError Instr :=
  match decode w with
  | .ok i => if i.isRle && !hasRle then .error .unitAbsent else .ok i
  | .error e => .error e

/-- The flag bit of a word. -/
def flagBit (b : Bool) : Nat := if b then 1 else 0

/-- The command word of a command (R95). -/
def encode : Instr → Word
  | .nop => wordOf 0x00 0 0 0
  | .reset => wordOf 0x01 0 0 0
  | .clrw => wordOf 0x02 0 0 0
  | .bwInit hdr => wordOf 0x10 0 (flagBit hdr) 0
  | .bwPut n => wordOf 0x11 0 0 n
  | .bwFlush => wordOf 0x12 0 0 0
  | .brInit => wordOf 0x18 0 0 0
  | .brGet n => wordOf 0x19 0 0 n
  | .brPeek n => wordOf 0x1A 0 0 n
  | .brSkip n => wordOf 0x1B 0 0 n
  | .mdlInit m bits => wordOf 0x20 m 0 bits
  | .mdlInitStd => wordOf 0x21 0 0 0
  | .mdlUpd m s => wordOf 0x22 m 0 s
  | .mdlI2s m s => wordOf 0x23 m 0 s
  | .mdlS2i m => wordOf 0x24 m 0 0
  | .mdlScale m => wordOf 0x25 m 0 0
  | .acEncInit => wordOf 0x30 0 0 0
  | .acEnc => wordOf 0x31 0 0 0
  | .acEncFlush => wordOf 0x32 0 0 0
  | .acDecInit => wordOf 0x38 0 0 0
  | .acDecCnt => wordOf 0x39 0 0 0
  | .acDecRm => wordOf 0x3A 0 0 0
  | .symEnc m s => wordOf 0x3C m 0 s
  | .symDec m => wordOf 0x3D m 0 0
  | .blkLoad inter => wordOf 0x40 0 (flagBit inter) 0
  | .blkFdct => wordOf 0x41 0 0 0
  | .blkQuant inter => wordOf 0x42 0 (flagBit inter) 0
  | .blkLast => wordOf 0x43 0 0 0
  | .blkMidx => wordOf 0x44 0 0 0
  | .blkEnc => wordOf 0x45 0 0 0
  | .blkDec => wordOf 0x48 0 0 0
  | .blkDeq inter => wordOf 0x49 0 (flagBit inter) 0
  | .blkIdct => wordOf 0x4A 0 0 0
  | .blkRecon inter => wordOf 0x4B 0 (flagBit inter) 0
  | .rleEnc => wordOf 0x50 0 0 0
  | .rleDec => wordOf 0x51 0 0 0

/-- The command the decoder reads from an instruction of `nbits` bits whose bits are `w`: one
command is one 32-bit word (R90), bit 0 its least significant bit, and bits above `nbits` are zero.
The default parameters have the RLE unit. -/
def decodeTableWord (nbits w : Nat) : Option Instr :=
  match decodeFor true (BitVec.ofNat 32 (w % 2 ^ nbits)) with
  | .ok i => some i
  | .error _ => none

end Sys2Proof
end

