-- ==== Sys2Proof/Config.lean ====
section
/-! DEFINITION. The implementation parameters of the AACU (`00_scope.md` R8 to R10) and what the spec
leaves open for ever: the value of an illegal host read and a transform pair other than the reference
one (`93_implementation_defined.md` U2, U18).

The parameters that a model may vary without breaking a rule (`92_eei_decisions.md`, last paragraph,
and `93_implementation_defined.md` U13, U16 to U19) are the fields of `Config`, which `State`
carries unchanged; the others are constants here at the default of R9. -/

namespace Sys2Proof

/-- The function pair FDCT, IDCT, a parameter (`43_block.md` R203). -/
inductive Transform where
  /-- The default, the integer reference pair of R204 and R205. -/
  | reference
  /-- Any other pair that meets R207, told apart by a number: `Config.otherFdct` and
  `Config.otherIdct`. -/
  | other (id : Nat)
deriving DecidableEq, Repr

/-- The parameters that may vary. The defaults are `Sys2Proof.Machine.defaultConfig`.
DESIGN CHOICE, safe: notes/assumptions/2.md. -/
structure Config where
  /-- OB_CAP, the capacity of OB in bytes (D19). -/
  obCap : Nat
  /-- IB_CAP, the capacity of IB in bytes (D19). -/
  ibCap : Nat
  /-- HAS_RLE, whether the RLE unit is present (D2). -/
  hasRle : Bool
  /-- RLE_MIN_RUN, the shortest run the RLE encoder writes as a run (D24). -/
  rleMinRun : Nat
  /-- ZIGZAG, scan index to raster index (`10_state.md` R49). -/
  zigzag : Vector (Fin 64) 64
  /-- FDCT and IDCT, the transform pair (D17). -/
  transform : Transform
deriving DecidableEq, Repr

/-- The capacities a parameter may take: 1 to 2^20 bytes (`00_scope.md` R9). -/
abbrev Config.capOk (cap : Nat) : Prop := 1 ≤ cap ∧ cap ≤ 2 ^ 20

/-- The values the spec allows the parameters: the capacities of R9, a zig-zag table that is a
permutation of 0 to 63 with ZIGZAG[0] = 0 (`10_state.md` R49), and a shortest run that its field of
CFG can hold (`10_state.md` R24; DEDUCED, safe: notes/assumptions/2.md). -/
structure Config.Valid (c : Config) : Prop where
  ob : Config.capOk c.obCap
  ib : Config.capOk c.ibCap
  minRun : 1 ≤ c.rleMinRun ∧ c.rleMinRun ≤ 127
  zigzagInjective : ∀ i j : Fin 64, c.zigzag.get i = c.zigzag.get j → i = j
  zigzagZero : c.zigzag.get 0 = 0

namespace Config

/-- MAXIMUM_SCALE (`00_scope.md` R8). -/
abbrev maximumScale : Nat := 16383

/-- BITS_MAX, the widest alphabet of a context (`00_scope.md` R9). -/
abbrev bitsMax : Nat := 11

/-- NMODEL, the number of contexts (`00_scope.md` R9). -/
abbrev nModel : Nat := 16

/-- MTLEN, the entries of one table (`00_scope.md` R10). -/
abbrev mtLen : Nat := 2050

/-- FLUSH_TAIL, the zero bits at the end of a segment (`00_scope.md` R9). -/
abbrev flushTail : Nat := 14

/-- COEF_MAX; COEF_MIN is its negative (`00_scope.md` R9). -/
abbrev coefMax : Nat := 1023

/-- OFF_DC (`00_scope.md` R10). -/
abbrev offDc : Nat := 1023

/-- RLE_MAX_RUN (`00_scope.md` R9). -/
abbrev rleMaxRun : Nat := 127

/-- RLE_MAX_LIT (`00_scope.md` R9). -/
abbrev rleMaxLit : Nat := 127

/-- PACKET_HEADER_SIZE in bytes (`00_scope.md` R8). -/
abbrev packetHeaderSize : Nat := 4

/-- The value that the `k`-th illegal host read returns: the spec gives none
(`93_implementation_defined.md` U2, "any value"), and nothing in Lean can evaluate this constant.
DESIGN CHOICE, safe: notes/assumptions/8.md. -/
opaque freeRead : Nat → Word

/-- FDCT of a pair other than the reference one: of the 64 inputs, the output at an index, where R207
does not require a value (`Sys2Proof.Machine.otherForward`). The spec asks for two total functions of
the 64 inputs (`43_block.md` R203, R207); nothing in Lean can evaluate this constant. DESIGN CHOICE,
safe: notes/assumptions/4.md. -/
opaque otherFdct : Nat → Vector Int 64 → Nat → Int

/-- IDCT of such a pair. DESIGN CHOICE, safe: notes/assumptions/4.md. -/
opaque otherIdct : Nat → Vector Int 64 → Nat → Int

end Config

end Sys2Proof
end

