-- ==== Sys2Proof/Machine/Params.lean ====
section
/-! DEFINITION. The default values of the implementation parameters that may vary
(`00_scope.md` R9, `10_state.md` R49, `93_implementation_defined.md` U14). -/

namespace Sys2Proof.Machine

/-- The conventional 8 by 8 zig-zag order, scan index to raster index (`10_state.md` R49). -/
def zigzagDefault : Vector (Fin 64) 64 :=
  #v[ 0,  1,  8, 16,  9,  2,  3, 10,
     17, 24, 32, 25, 18, 11,  4,  5,
     12, 19, 26, 33, 40, 48, 41, 34,
     27, 20, 13,  6,  7, 14, 21, 28,
     35, 42, 49, 56, 57, 50, 43, 36,
     29, 22, 15, 23, 30, 37, 44, 51,
     58, 59, 52, 45, 38, 31, 39, 46,
     53, 60, 61, 54, 47, 55, 62, 63]

/-- The default parameters (`00_scope.md` R9). -/
def defaultConfig : Config :=
  { obCap := 65536, ibCap := 65536, hasRle := true, rleMinRun := 3, zigzag := zigzagDefault
    transform := .reference }

end Sys2Proof.Machine
end

