-- ==== Sys2Proof/Machine/State.lean ====
section
/-! DEFINITION. The state of one AACU (`10_state.md` R20 to R50) with the queue of host actions that
drives it (`20_memory.md` R75), the two kinds of stop, and the state after hardware reset (R50). -/

namespace Sys2Proof.Machine

/-- A block memory or matrix: 64 elements in raster or scan order (`10_state.md` R42 to R47). -/
abbrev Block (w : Nat) := Vector (BitVec w) 64

/-- The rows a table is held in: MTLEN = 2050 = 41 * 50 (notes/assumptions/18.md). -/
abbrev tableRows : Nat := 41

/-- The entries of one row of a table. -/
abbrev tableCols : Nat := 50

/-- The table of one context: MTLEN = 2050 entries, logical index `i` at element `i + 1`
(`10_state.md` R37, R38), element `e` in row `e / 50`, column `e % 50`. -/
abbrev Table := Vector (Vector Half tableCols) tableRows

/-- A byte buffer (`10_state.md` R48): the bytes that differ from what an unlisted byte reads as
(`unlistedByte`), addresses strictly rising. -/
abbrev Memory := List Host.Cell

/-- What a byte of IB or OB that nothing has written reads as. The spec gives no value
(`10_state.md` R50). DESIGN CHOICE, unsafe: notes/assumptions/5.md. -/
abbrev unlistedByte : Byte := 0

/-- The width of a host access (`20_memory.md` R61). -/
inductive BusWidth where
  | byte
  | half
  | word
deriving DecidableEq, Repr

/-- The contents of the memories after a hardware reset: the spec leaves them unspecified
(`10_state.md` R50) and "a model takes the initial memory as an unconstrained input"
(`93_implementation_defined.md` U1). -/
structure PowerUp where
  tables : Vector Table 16
  pix : Block 8
  ref : Block 8
  recon : Block 8
  coef : Block 32
  zz : Block 16
  qf0 : Block 16
  qf1 : Block 16
  qi0 : Block 16
  qi1 : Block 16
  ib : List Host.Cell
  ob : List Host.Cell
deriving DecidableEq, Repr

/-- What acts on the AACU from outside, one action at a time (`20_memory.md` R75,
`70_reset_and_hazards.md` R310). Addresses are offsets in the host's window (`20_memory.md` R60). -/
inductive HostAction where
  /-- The host reads. -/
  | read (width : BusWidth) (addr : Nat)
  /-- The host writes; a write of a word to CMD executes a command. -/
  | write (width : BusWidth) (addr : Nat) (data : Word)
  /-- The platform resets the AACU, whose memories then hold `contents`. -/
  | hardwareReset (contents : PowerUp)
deriving DecidableEq, Repr

/-- The state of one AACU. Every field but the last four is the spec's. -/
structure State where
  /-- STATUS (`10_state.md` R23). -/
  status : Word
  /-- FCODE (`60_exceptions.md` R281). -/
  fcode : Byte
  /-- FINFO (`60_exceptions.md` R281). -/
  finfo : Word
  /-- ARG0 (`10_state.md` R25). -/
  arg0 : Word
  /-- ARG1 (`10_state.md` R25). -/
  arg1 : Word
  /-- RET0 (`10_state.md` R26). -/
  ret0 : Word
  /-- RET1 (`10_state.md` R26). -/
  ret1 : Word
  /-- SYM_LOW (`10_state.md` R27). -/
  symLow : Half
  /-- SYM_HIGH (`10_state.md` R27). -/
  symHigh : Half
  /-- SYM_SCALE (`10_state.md` R27). -/
  symScale : Half
  /-- CNT (`10_state.md` R28). -/
  cnt : Half
  /-- ELOW (`10_state.md` R29). -/
  elow : Half
  /-- EHIGH (`10_state.md` R29). -/
  ehigh : Half
  /-- EUF (`10_state.md` R30). -/
  euf : Word
  /-- DLOW (`10_state.md` R31). -/
  dlow : Half
  /-- DHIGH (`10_state.md` R31). -/
  dhigh : Half
  /-- DCODE (`10_state.md` R31). -/
  dcode : Half
  /-- WPOS (`10_state.md` R33). -/
  wpos : Word
  /-- RPOS (`10_state.md` R34). -/
  rpos : Word
  /-- RLEN (`10_state.md` R34). -/
  rlen : Word
  /-- CMDCNT (`10_state.md` R22). -/
  cmdcnt : Word
  /-- MBITS[0..15] (`10_state.md` R37). -/
  mbits : Vector (BitVec 4) 16
  /-- T[0..15] (`10_state.md` R37, R38). -/
  tables : Vector Table 16
  /-- PIX (`10_state.md` R42). -/
  pix : Block 8
  /-- REF (`10_state.md` R43). -/
  ref : Block 8
  /-- REC (`10_state.md` R44). -/
  recon : Block 8
  /-- COEF (`10_state.md` R45). -/
  coef : Block 32
  /-- ZZ (`10_state.md` R46). -/
  zz : Block 16
  /-- QF0 (`10_state.md` R47). -/
  qf0 : Block 16
  /-- QF1 (`10_state.md` R47). -/
  qf1 : Block 16
  /-- QI0 (`10_state.md` R47). -/
  qi0 : Block 16
  /-- QI1 (`10_state.md` R47). -/
  qi1 : Block 16
  /-- IB (`10_state.md` R48). -/
  ib : Memory
  /-- OB (`10_state.md` R48). -/
  ob : Memory
  /-- The model's own: the implementation parameters, which no step changes.
  DESIGN CHOICE, safe: notes/assumptions/2.md. -/
  cfg : Config
  /-- The model's own: the actions still to come, oldest first.
  DESIGN CHOICE, safe: notes/assumptions/1.md. -/
  host : List HostAction
  /-- The model's own: the value the last host read returned.
  DESIGN CHOICE, safe: notes/assumptions/9.md. -/
  hostData : Word
  /-- The model's own: how many free values host reads have taken.
  DESIGN CHOICE, safe: notes/assumptions/8.md. -/
  freeCount : Nat
deriving DecidableEq, Repr

/-- The ways a run can stop with a fault: none. A fault of the spec is a change of STATUS, FCODE and
FINFO after which the unit still answers (`60_exceptions.md` R285, R288), so no meaning raises a
stop; leaving the type empty is safe (notes/assumptions/14.md). -/
inductive Fault : Type where
deriving DecidableEq, Repr

/-- The ways a run can be refused. -/
inductive Refusal where
  /-- Raised by an arm of `exec` whose instruction has no meaning yet; safe. No arm is left so. -/
  | notModelled (mnemonic : String)
deriving DecidableEq, Repr

/-- The machine right after hardware reset (`10_state.md` R50): the registers of R21 at their reset
values, every context uninitialised, the memories at the model's choice of zero
(DESIGN CHOICE, unsafe: notes/assumptions/5.md and 6.md), no host action waiting. -/
def State.reset : State :=
  { status := 0, fcode := 0, finfo := 0
    arg0 := 0, arg1 := 0, ret0 := 0, ret1 := 0
    symLow := 0, symHigh := 0, symScale := 0, cnt := 0
    elow := 0, ehigh := 0xFFFF, euf := 0
    dlow := 0, dhigh := 0xFFFF, dcode := 0
    wpos := 0, rpos := 0, rlen := 0, cmdcnt := 0
    mbits := Vector.replicate 16 0
    tables := Vector.replicate 16 (Vector.replicate tableRows (Vector.replicate tableCols 0))
    pix := Vector.replicate 64 0
    ref := Vector.replicate 64 0
    recon := Vector.replicate 64 0
    coef := Vector.replicate 64 0
    zz := Vector.replicate 64 0
    qf0 := Vector.replicate 64 0
    qf1 := Vector.replicate 64 0
    qi0 := Vector.replicate 64 0
    qi1 := Vector.replicate 64 0
    ib := [], ob := []
    cfg := defaultConfig
    host := [], hostData := 0, freeCount := 0 }

end Sys2Proof.Machine
end

