-- ==== Sys2Proof/Machine/Flags.lean ====
section
/-! DEFINITION. The flags of STATUS (`10_state.md` R23). The AACU has no condition codes: these
flags only gate whether a command is accepted (`60_exceptions.md` R283). -/

namespace Sys2Proof.Machine

/-- The flags STATUS holds. -/
inductive Flag where
  | fault
  | bwAct
  | bwHdr
  | brAct
  | encAct
  | decAct
  | clipw
deriving DecidableEq, Repr

/-- The bit of STATUS that holds a flag (R23). -/
def flagPos : Flag → Nat
  | .fault => 0
  | .bwAct => 1
  | .bwHdr => 2
  | .brAct => 3
  | .encAct => 4
  | .decAct => 5
  | .clipw => 8

/-- A flag of a STATUS value. -/
def statusFlag (status : Word) (f : Flag) : Bool := status.getLsbD (flagPos f)

/-- A STATUS value with one flag set or cleared. -/
def statusWith (status : Word) (f : Flag) (b : Bool) : Word :=
  if b then status ||| BitVec.twoPow 32 (flagPos f)
  else status &&& ~~~(BitVec.twoPow 32 (flagPos f))

/-- A flag of the machine. -/
def flag (s : State) (f : Flag) : Bool := statusFlag s.status f

/-- `STATUS.f <- b`. -/
def setFlag (f : Flag) (b : Bool) (s : State) : State :=
  { s with status := statusWith s.status f b }

/-- The bits of STATUS that read as zero: 6, 7 and 9 to 31 (R23). -/
abbrev statusReserved : Word := 0xFFFFFEC0

end Sys2Proof.Machine
end

