-- ==== Sys2Proof/Machine/Memory.lean ====
section
/-! DEFINITION. The byte buffers IB and OB (`10_state.md` R48, `20_memory.md` R64, R65): reading and
writing a byte, the canonical form, a bit of the stream, a buffer made of any list of bytes. -/

namespace Sys2Proof.Machine

/-- Every address is at least `lo`, addresses rise strictly, and no byte equals `unlistedByte`. -/
def cellsWf : Nat → Memory → Bool
  | _, [] => true
  | lo, (a, v) :: t => decide (lo ≤ a) && v != unlistedByte && cellsWf (a + 1) t

/-- The canonical form of a byte buffer: equal contents are equal lists. -/
def memoryWf (m : Memory) : Bool := cellsWf 0 m

/-- The byte at address `a` (MemRead, `00_scope.md` R15). -/
def readByte : Memory → Nat → Byte
  | [], _ => unlistedByte
  | (b, u) :: t, a => if a < b then unlistedByte else if a = b then u else readByte t a

/-- Put a byte in front of the rest of a buffer, unless it is what an unlisted byte reads as. -/
def consByte (a : Nat) (v : Byte) (rest : Memory) : Memory :=
  if v = unlistedByte then rest else (a, v) :: rest

/-- Write one byte (MemWrite, `00_scope.md` R15); the form stays canonical. -/
def writeByte : Memory → Nat → Byte → Memory
  | [], a, v => consByte a v []
  | (b, u) :: t, a, v =>
    if a < b then consByte a v ((b, u) :: t)
    else if a = b then consByte a v t
    else (b, u) :: writeByte t a v

/-- Stream bit `k` of a buffer: bit `7 - (k mod 8)` of byte `k div 8`, most significant bit first
(`20_memory.md` R64). -/
def streamBit (m : Memory) (k : Nat) : Bool := (readByte m (k / 8)).getLsbD (7 - k % 8)

/-- Set stream bit `k` to one: `byte | (0x80 >> (k mod 8))` (`40_bitio.md` R111). -/
def setStreamBit (m : Memory) (k : Nat) : Memory :=
  writeByte m (k / 8) (readByte m (k / 8) ||| ((0x80 : Byte) >>> (k % 8)))

/-- Write the four bytes of `v` from address 0, least significant first: the packet length header
(`20_memory.md` R65). -/
def writeHeader (m : Memory) (v : Word) : Memory :=
  writeByte (writeByte (writeByte (writeByte m 0 (v.extractLsb' 0 8)) 1 (v.extractLsb' 8 8))
    2 (v.extractLsb' 16 8)) 3 (v.extractLsb' 24 8)

/-- The buffer of capacity `cap` that holds the given bytes, in canonical form: bytes beyond the
capacity do not exist, and of two bytes for one address the first counts. -/
def memoryOf (cap : Nat) : List Host.Cell → Memory
  | [] => []
  | (a, v) :: t => if a < cap then writeByte (memoryOf cap t) a v else memoryOf cap t

/-- `addrs` of every listed byte lie below the capacity. -/
def withinCap (cap : Nat) (m : Memory) : Bool := m.all fun c => decide (c.1 < cap)

end Sys2Proof.Machine
end

