-- ==== Sys2Proof/Machine/Ops.lean ====
section
/-! DEFINITION. The shared operations of every command: how the pseudocode of a command runs and
stops at a `raise`, taking a fault (`60_exceptions.md` R285) and leaving it (`45_system.md` R272),
the frame of a command (`60_exceptions.md` R284, R286 to R288), and the named register updates. -/

namespace Sys2Proof.Machine

/-! ## Taking a fault, and the way out of it -/

/-- The fault codes (`60_exceptions.md` R281). -/
inductive ErrCode where
  | illegalCmd
  | seq
  | operand
  | modelUninit
  | modelCfg
  | badTriple
  | obFull
  | brOverrun
  | badSymbol
  | desync
  | badIndex
  | coefRange
  | rleFormat
  | rleOverrun
  | ufOvf
deriving DecidableEq, Repr

/-- The value FCODE takes (`60_exceptions.md` R281). -/
def errByte : ErrCode → Byte
  | .illegalCmd => 0x01
  | .seq => 0x02
  | .operand => 0x03
  | .modelUninit => 0x04
  | .modelCfg => 0x05
  | .badTriple => 0x06
  | .obFull => 0x07
  | .brOverrun => 0x08
  | .badSymbol => 0x09
  | .desync => 0x0A
  | .badIndex => 0x0B
  | .coefRange => 0x0C
  | .rleFormat => 0x0D
  | .rleOverrun => 0x0E
  | .ufOvf => 0x0F

/-- `Fault(CODE, info)` (`00_scope.md` R16). -/
structure Trap where
  code : ErrCode
  info : Word
deriving DecidableEq, Repr

/-- What a fault does, all of it (`60_exceptions.md` R285): STATUS.FAULT, FCODE and FINFO are
written; the command ends and CMDCNT is not incremented. -/
def raiseFault (t : Trap) (s : State) : State :=
  { s with status := statusWith s.status .fault true, fcode := errByte t.code, finfo := t.info }

/-- RESET, the only way out of a fault besides hardware reset (`45_system.md` R272, `60_exceptions.md`
R289): every register takes its reset value and every context becomes uninitialised; the tables,
the block memories, the matrices, IB and OB keep their contents. -/
def softReset (s : State) : State :=
  { s with
    status := 0, fcode := 0, finfo := 0
    arg0 := 0, arg1 := 0, ret0 := 0, ret1 := 0
    symLow := 0, symHigh := 0, symScale := 0, cnt := 0
    elow := 0, ehigh := 0xFFFF, euf := 0
    dlow := 0, dhigh := 0xFFFF, dcode := 0
    wpos := 0, rpos := 0, rlen := 0
    mbits := Vector.replicate 16 0
    cmdcnt := 0 }

/-- Hardware reset (`10_state.md` R50, `70_reset_and_hazards.md` R310): the registers and MBITS as
RESET leaves them, and the memories hold the given contents, which the spec leaves unspecified
(`93_implementation_defined.md` U1; notes/assumptions/7.md). -/
def hardReset (p : PowerUp) (s : State) : State :=
  { softReset s with
    tables := p.tables, pix := p.pix, ref := p.ref, recon := p.recon, coef := p.coef, zz := p.zz
    qf0 := p.qf0, qf1 := p.qf1, qi0 := p.qi0, qi1 := p.qi1
    ib := memoryOf s.cfg.ibCap p.ib, ob := memoryOf s.cfg.obCap p.ob }

/-! ## Running pseudocode -/

/-- What running pseudocode from a state gives: a result and the state reached, or a raised fault
and the state the pseudocode had made up to the raise (`60_exceptions.md` R287). -/
inductive Run (α : Type) where
  | done (a : α) (s : State)
  | raised (t : Trap) (s : State)
deriving DecidableEq, Repr

/-- Go on with `k` where a run is done; a raised fault ends the command (`00_scope.md` R16). -/
def Run.andThen {α β : Type} (r : Run α) (k : α → State → Run β) : Run β :=
  match r with
  | .done a s => k a s
  | .raised t s => .raised t s

/-- `require ok else raise t`, inside pseudocode (`00_scope.md` R16). -/
def demand (ok : Bool) (t : Trap) (s : State) : Run Unit :=
  if ok then .done () s else .raised t s

/-- One of the checks a command's rule lists: it holds, or the fault is raised. -/
structure Check where
  ok : Bool
  trap : Trap
deriving DecidableEq, Repr

/-- A command reports the first fault that its checks meet (`60_exceptions.md` R284). -/
def firstFailing : List Check → Option Trap
  | [] => none
  | c :: cs => if c.ok then firstFailing cs else some c.trap

/-- The end of a command that completes: CMDCNT counts it, modulo 2^32 (`10_state.md` R22). -/
def retire (s : State) : State := { s with cmdcnt := s.cmdcnt + 1 }

/-- The frame of every command but RESET: it is ignored while STATUS.FAULT is 1 (`60_exceptions.md`
R288); a failing check faults and changes nothing else (R286); a fault raised by the pseudocode keeps
what the pseudocode has written (R287); a completed command is counted (`10_state.md` R22). -/
def runCommand (checks : List Check) (body : State → Run Unit) (s : State) :
    Host.Outcome State Fault Refusal :=
  if flag s .fault then .next s
  else
    match firstFailing checks with
    | some t => .next (raiseFault t s)
    | none =>
      match body s with
      | .done _ t => .next (retire t)
      | .raised e t => .next (raiseFault e t)

/-- A body that only updates the state. -/
def always (f : State → State) (s : State) : Run Unit := .done () (f s)

/-! ## Named register updates -/

/-- `RET0 <- v`. -/
def setRet0 (v : Word) (s : State) : State := { s with ret0 := v }

/-- `RET1 <- v`. -/
def setRet1 (v : Word) (s : State) : State := { s with ret1 := v }

/-- `CNT <- v`. -/
def setCnt (v : Half) (s : State) : State := { s with cnt := v }

/-- `SYM_LOW <- low ; SYM_HIGH <- high` (`10_state.md` R27). -/
def setLatchBounds (low high : Half) (s : State) : State := { s with symLow := low, symHigh := high }

/-- `SYM_SCALE <- scale` (`10_state.md` R27). -/
def setLatchScale (scale : Half) (s : State) : State := { s with symScale := scale }

/-- `ELOW <- low ; EHIGH <- high` (`10_state.md` R29). -/
def setEnc (low high : Half) (s : State) : State := { s with elow := low, ehigh := high }

/-- `EUF <- v` (`10_state.md` R30). -/
def setEuf (v : Word) (s : State) : State := { s with euf := v }

/-- `DLOW <- low ; DHIGH <- high` (`10_state.md` R31). -/
def setDec (low high : Half) (s : State) : State := { s with dlow := low, dhigh := high }

/-- `DCODE <- code` (`10_state.md` R31). -/
def setDcode (code : Half) (s : State) : State := { s with dcode := code }

/-- `WPOS <- v` (`10_state.md` R33). -/
def setWpos (v : Word) (s : State) : State := { s with wpos := v }

/-- `RPOS <- v` (`10_state.md` R34). -/
def setRpos (v : Word) (s : State) : State := { s with rpos := v }

/-- `RLEN <- v` (`10_state.md` R34). -/
def setRlen (v : Word) (s : State) : State := { s with rlen := v }

/-- The byte buffer OB becomes `m`. -/
def setOb (m : Memory) (s : State) : State := { s with ob := m }

/-- `MBITS[m] <- bits` (`10_state.md` R37). -/
def setMbits (m : Fin 16) (bits : BitVec 4) (s : State) : State :=
  { s with mbits := s.mbits.set m bits }

/-- The table of context `m` becomes `t`. -/
def setTable (m : Fin 16) (t : Table) (s : State) : State :=
  { s with tables := s.tables.set m t }

/-- COEF becomes `b`. -/
def setCoef (b : Block 32) (s : State) : State := { s with coef := b }

/-- ZZ becomes `b`. -/
def setZz (b : Block 16) (s : State) : State := { s with zz := b }

/-- REC becomes `b`. -/
def setRecon (b : Block 8) (s : State) : State := { s with recon := b }

/-! ## Integer helpers -/

/-- `asr(v, n)`: floor division by `2^n`, for either sign (`00_scope.md` R13). -/
def asr (v : Int) (n : Nat) : Int := v / 2 ^ n

/-- `clamp(v, lo, hi)` (`00_scope.md` R13). -/
def clampInt (v lo hi : Int) : Int := if v < lo then lo else if v > hi then hi else v

/-- The sum of `f 0` to `f (n - 1)`. -/
def sumBelow : Nat → (Nat → Int) → Int
  | 0, _ => 0
  | n + 1, f => sumBelow n f + f n

/-- The 32-bit image of a number, as a store keeps it (`00_scope.md` R11). -/
def wordOfNat (n : Nat) : Word := BitVec.ofNat 32 n

end Sys2Proof.Machine
end

