-- ==== Sys2Proof/Machine/Operands.lean ====
section
/-! DEFINITION. The operand forms of the commands: the checks that more than one command makes on
the unit state, a bit count, a context, a symbol, the symbol latch and the standard contexts, and how
a context, a symbol and a table entry are named (`60_exceptions.md` R283, `41_model.md` R131, R132,
`42_coder.md` R163, `43_block.md` R214). -/

namespace Sys2Proof.Machine

/-! ## Unit state and bit counts -/

/-- The flag must be 1, else ERR_SEQ with the opcode (`60_exceptions.md` R281, R283). -/
def needSet (s : State) (f : Flag) (opc : Word) : Check := ⟨flag s f, ⟨.seq, opc⟩⟩

/-- The flag must be 0, else ERR_SEQ with the opcode (`60_exceptions.md` R281, R283). -/
def needClear (s : State) (f : Flag) (opc : Word) : Check := ⟨!flag s f, ⟨.seq, opc⟩⟩

/-- A bit position must be byte-aligned, else ERR_SEQ with the opcode (`20_memory.md` R68). -/
def needAligned (pos : Word) (opc : Word) : Check := ⟨pos.toNat % 8 == 0, ⟨.seq, opc⟩⟩

/-- A bit count is at most 32 (`30_encoding.md` R92, `40_bitio.md` R114, R119). -/
def countLegal (n : Nat) : Check := ⟨decide (n ≤ 32), ⟨.operand, wordOfNat n⟩⟩

/-- The reader still has `n` bits (`40_bitio.md` R119). -/
def bitsAvailable (s : State) (n : Nat) : Check :=
  ⟨decide (s.rpos.toNat + n ≤ s.rlen.toNat), ⟨.brOverrun, s.rpos⟩⟩

/-! ## Contexts, symbols and table entries -/

/-- The alphabet width of a context, 0 if it is not initialised (`10_state.md` R37). -/
def ctxBits (s : State) (m : Fin 16) : Nat := (s.mbits.get m).toNat

/-- `L = 2^bits`, the number of symbols of the context (`41_model.md` R132). -/
def ctxLen (s : State) (m : Fin 16) : Nat := 2 ^ ctxBits s m

/-- The table of a context. -/
def ctxTable (s : State) (m : Fin 16) : Table := s.tables.get m

/-- The element `e` of a table: the count at logical index `e - 1` (`10_state.md` R38). -/
def tableElem (t : Table) (e : Nat) : Half :=
  if h : e < Config.mtLen then
    have row : e / tableCols < tableRows := Nat.div_lt_of_lt_mul h
    t[e / tableCols][e % tableCols]'(Nat.mod_lt _ (by decide))
  else 0

/-- The table whose element `e` is `f e`. -/
def tableOf (f : Nat → Half) : Table :=
  Vector.ofFn fun r => Vector.ofFn fun c => f (tableCols * r.val + c.val)

/-- `T[m][i]` for a logical index `i` of 0 or more. -/
def ctxCount (s : State) (m : Fin 16) (i : Nat) : Half := tableElem (ctxTable s m) (i + 1)

/-- `T[m][L]`, the scale of a context (`10_state.md` R39). -/
def ctxScale (s : State) (m : Fin 16) : Half := ctxCount s m (ctxLen s m)

/-- CtxInit (`41_model.md` R132). -/
def ctxInit (s : State) (m : Fin 16) : Check :=
  ⟨ctxBits s m != 0, ⟨.modelUninit, wordOfNat m⟩⟩

/-- SymOk: the symbol is at most `N = L - 1` (`41_model.md` R132). -/
def symOk (s : State) (m : Fin 16) (sym : Nat) : Check :=
  ⟨decide (sym < ctxLen s m), ⟨.operand, wordOfNat sym⟩⟩

/-! ## The symbol latch -/

/-- The information of ERR_BAD_TRIPLE: `SYM_LOW + 65536 * SYM_HIGH` (`60_exceptions.md` R281). -/
def tripleInfo (s : State) : Word := wordOfNat (s.symLow.toNat + 65536 * s.symHigh.toNat)

/-- The scale is legal: the scale-only form of TripleOk (`42_coder.md` R163). -/
def scaleLegal (s : State) : Bool :=
  decide (1 ≤ s.symScale.toNat) && decide (s.symScale.toNat ≤ Config.maximumScale)

/-- The symbol latch is a legal triple (`42_coder.md` R163). -/
def tripleLegal (s : State) : Bool :=
  decide (s.symLow.toNat < s.symHigh.toNat) && decide (s.symHigh.toNat ≤ s.symScale.toNat) &&
    scaleLegal s

/-- The scale-only check of AC_DEC_CNT (`42_coder.md` R163, R174). -/
def scaleOk (s : State) : Check := ⟨scaleLegal s, ⟨.badTriple, tripleInfo s⟩⟩

/-- TripleOk (`42_coder.md` R163). -/
def tripleOk (s : State) : Check := ⟨tripleLegal s, ⟨.badTriple, tripleInfo s⟩⟩

/-! ## The standard contexts -/

/-- The widths of the standard contexts 0 to 11 (`41_model.md` R131, `43_block.md` R214). -/
def stdBits : List (Fin 16 × Nat) :=
  [(0, 3), (1, 4), (2, 5), (3, 6), (4, 7), (5, 8), (6, 9), (7, 10), (8, 11), (9, 11), (10, 6),
   (11, 4)]

/-- M_DC, the context of the DC coefficient (`41_model.md` R131). -/
abbrev mDc : Fin 16 := 9

/-- M_LAST, the context of the last non-zero position (`41_model.md` R131). -/
abbrev mLast : Fin 16 := 10

/-- M_IDX, the context of the bucket index (`41_model.md` R131). -/
abbrev mIdx : Fin 16 := 11

/-- M_COEFk, the context of bucket `k`, 0 to 8 (`41_model.md` R131). -/
def mCoef (k : Nat) : Fin 16 := Fin.ofNat 16 k

/-- StdCtxOk: the first standard context, in ascending order, without its standard width raises
ERR_MODEL_CFG (`43_block.md` R214). -/
def stdCtxOk (s : State) : List Check :=
  stdBits.map fun c => ⟨ctxBits s c.1 == c.2, ⟨.modelCfg, wordOfNat c.1⟩⟩

end Sys2Proof.Machine
end

