-- ==== Sys2Proof/Machine/Bus.lean ====
section
/-! DEFINITION. The host's window (`20_memory.md` R60, R61, `10_state.md` R21): which element an
access reaches, what a read returns and what a write stores. -/

namespace Sys2Proof.Machine

/-- One element of an address space (`20_memory.md` R60). -/
inductive Location where
  | reg (n : Nat)
  | pix (i : Fin 64)
  | ref (i : Fin 64)
  | recon (i : Fin 64)
  | coef (i : Fin 64)
  | zz (i : Fin 64)
  | qf0 (i : Fin 64)
  | qf1 (i : Fin 64)
  | qi0 (i : Fin 64)
  | qi1 (i : Fin 64)
  | zigzag (i : Fin 64)
  | mbits (m : Fin 16)
  | mt (m : Fin 16) (e : Fin 2050)
  | ib (i : Nat)
  | ob (i : Nat)
deriving DecidableEq, Repr

/-- The element of MT at an offset from its base: contexts lie 0x4000 apart (`20_memory.md` R60). -/
def mtLocation (offset : Nat) : Option Location :=
  if h : offset % 0x4000 / 4 < 2050 then
    some (.mt (Fin.ofNat 16 (offset / 0x4000)) ⟨offset % 0x4000 / 4, h⟩)
  else none

/-- The element a word access at a word-aligned address reaches (`20_memory.md` R60). -/
def wordLocation (addr : Nat) : Option Location :=
  let i := Fin.ofNat 64 (addr % 0x100 / 4)
  if 0x10000 ≤ addr ∧ addr < 0x50000 then mtLocation (addr - 0x10000)
  else
    match addr / 0x100 with
    | 0x00 => some (.reg (addr / 4))
    | 0x10 => some (.pix i)
    | 0x11 => some (.ref i)
    | 0x12 => some (.recon i)
    | 0x13 => some (.coef i)
    | 0x14 => some (.zz i)
    | 0x15 => some (.qf0 i)
    | 0x16 => some (.qf1 i)
    | 0x17 => some (.qi0 i)
    | 0x18 => some (.qi1 i)
    | 0x19 => some (.zigzag i)
    | 0x1A => if addr % 0x100 / 4 < 16 then some (.mbits (Fin.ofNat 16 (addr % 0x100 / 4))) else none
    | _ => none

/-- The base of IB (`20_memory.md` R60). -/
abbrev ibBase : Nat := 0x100000

/-- The base of OB (`20_memory.md` R60). -/
abbrev obBase : Nat := 0x200000

/-- The element a byte access reaches: only IB and OB have 8-bit accesses (`20_memory.md` R61). -/
def byteLocation (c : Config) (addr : Nat) : Option Location :=
  if ibBase ≤ addr ∧ addr < ibBase + c.ibCap then some (.ib (addr - ibBase))
  else if obBase ≤ addr ∧ addr < obBase + c.obCap then some (.ob (addr - obBase))
  else none

/-- The element an access reaches; none for the accesses R61 calls illegal: another width, a
misaligned address, an address in no space, an index at or beyond the element count. -/
def locate (c : Config) (width : BusWidth) (addr : Nat) : Option Location :=
  match width with
  | .byte => byteLocation c addr
  | .half => none
  | .word => if addr % 4 = 0 then wordLocation addr else none

/-- CFG: BITS_MAX in 3:0, NMODEL in 8:4, FLUSH_TAIL in 13:9, HAS_RLE in 16, RLE_MIN_RUN in 23:17
(`10_state.md` R24). -/
def cfgWord (c : Config) : Word :=
  BitVec.ofNat 32 (Config.bitsMax + Config.nModel * 2 ^ 4 + Config.flushTail * 2 ^ 9 +
    c.hasRle.toNat * 2 ^ 16 + c.rleMinRun % 2 ^ 7 * 2 ^ 17)

/-- What the host reads from register `n`, zero-extended (`10_state.md` R21): CMD and the reserved
registers 26 to 63 read as zero. -/
def readReg (s : State) (n : Nat) : Word :=
  match n with
  | 1 => s.status
  | 2 => s.fcode.setWidth 32
  | 3 => s.finfo
  | 4 => s.arg0
  | 5 => s.arg1
  | 6 => s.ret0
  | 7 => s.ret1
  | 8 => s.symLow.setWidth 32
  | 9 => s.symHigh.setWidth 32
  | 10 => s.symScale.setWidth 32
  | 11 => s.cnt.setWidth 32
  | 12 => s.elow.setWidth 32
  | 13 => s.ehigh.setWidth 32
  | 14 => s.euf
  | 15 => s.dlow.setWidth 32
  | 16 => s.dhigh.setWidth 32
  | 17 => s.dcode.setWidth 32
  | 18 => s.wpos
  | 19 => s.rpos
  | 20 => s.rlen
  | 21 => s.cmdcnt
  | 22 => 0x41414355
  | 23 => wordOfNat s.cfg.obCap
  | 24 => wordOfNat s.cfg.ibCap
  | 25 => cfgWord s.cfg
  | _ => 0

/-- What a legal host read returns: the element zero-extended, except COEF (the s32 itself) and ZZ
(sign-extended) (`20_memory.md` R61). -/
def readLocation (s : State) : Location → Word
  | .reg n => readReg s n
  | .pix i => s.pix[i].setWidth 32
  | .ref i => s.ref[i].setWidth 32
  | .recon i => s.recon[i].setWidth 32
  | .coef i => s.coef[i]
  | .zz i => s.zz[i].signExtend 32
  | .qf0 i => s.qf0[i].setWidth 32
  | .qf1 i => s.qf1[i].setWidth 32
  | .qi0 i => s.qi0[i].setWidth 32
  | .qi1 i => s.qi1[i].setWidth 32
  | .zigzag i => wordOfNat (s.cfg.zigzag.get i)
  | .mbits m => (s.mbits.get m).setWidth 32
  | .mt m e => (tableElem (s.tables.get m) e).setWidth 32
  | .ib i => (readByte s.ib i).setWidth 32
  | .ob i => (readByte s.ob i).setWidth 32

/-- What a host write to register `n` stores: only ARG0, ARG1, the symbol latch and CNT are written,
the latch and CNT keeping the low 16 bits (`10_state.md` R21, R25, R27, R28). CMD is not stored. -/
def writeReg (n : Nat) (v : Word) (s : State) : State :=
  match n with
  | 4 => { s with arg0 := v }
  | 5 => { s with arg1 := v }
  | 8 => { s with symLow := v.setWidth 16 }
  | 9 => { s with symHigh := v.setWidth 16 }
  | 10 => { s with symScale := v.setWidth 16 }
  | 11 => { s with cnt := v.setWidth 16 }
  | _ => s

/-- What a legal host write stores: the low bits that the element keeps (`20_memory.md` R61); a write
to a read-only space has no effect. -/
def writeLocation (loc : Location) (v : Word) (s : State) : State :=
  match loc with
  | .reg n => writeReg n v s
  | .pix i => { s with pix := s.pix.set i (v.setWidth 8) }
  | .ref i => { s with ref := s.ref.set i (v.setWidth 8) }
  | .recon _ => s
  | .coef i => { s with coef := s.coef.set i v }
  | .zz i => { s with zz := s.zz.set i (v.setWidth 16) }
  | .qf0 i => { s with qf0 := s.qf0.set i (v.setWidth 16) }
  | .qf1 i => { s with qf1 := s.qf1.set i (v.setWidth 16) }
  | .qi0 i => { s with qi0 := s.qi0.set i (v.setWidth 16) }
  | .qi1 i => { s with qi1 := s.qi1.set i (v.setWidth 16) }
  | .zigzag _ => s
  | .mbits _ => s
  | .mt _ _ => s
  | .ib i => { s with ib := writeByte s.ib i (v.setWidth 8) }
  | .ob _ => s

/-- A host read: it returns the element, or, where R61 calls it illegal, an unspecified value; it
changes nothing of the AACU (`20_memory.md` R61, `93_implementation_defined.md` U2). -/
def hostRead (width : BusWidth) (addr : Nat) (s : State) : State :=
  match locate s.cfg width addr with
  | some loc => { s with hostData := readLocation s loc }
  | none => { s with hostData := Config.freeRead s.freeCount, freeCount := s.freeCount + 1 }

/-- A host write to anything but CMD; an illegal one has no effect (`20_memory.md` R61). -/
def hostStore (width : BusWidth) (addr : Nat) (v : Word) (s : State) : State :=
  match locate s.cfg width addr with
  | some loc => writeLocation loc v s
  | none => s

/-- The access that writes CMD: an aligned 32-bit write to register 0 (`10_state.md` R21). -/
def isCmd (c : Config) (width : BusWidth) (addr : Nat) : Bool :=
  locate c width addr == some (.reg 0)

end Sys2Proof.Machine
end

