-- ==== Sys2Proof/Machine/BitIO.lean ====
section
/-! DEFINITION. The bit writer and the bit reader: the primitives PutBit, GetBit, PeekBits and the
commands BW_INIT, BW_PUT, BW_FLUSH, BR_INIT, BR_GET, BR_PEEK, BR_SKIP (`40_bitio.md`). -/

namespace Sys2Proof.Machine

/-! ## Writer primitives -/

/-- PutBit (`40_bitio.md` R111). Writing a 0 only advances WPOS. -/
def putBit (b : Bool) (s : State) : Run Unit :=
  (demand (decide (s.wpos.toNat < 8 * s.cfg.obCap)) ⟨.obFull, s.wpos⟩ s).andThen fun _ s =>
    .done () (setWpos (s.wpos + 1) (if b then setOb (setStreamBit s.ob s.wpos.toNat) s else s))

/-- `PutBit(b)`, `n` times. -/
def putRepeat (b : Bool) : Nat → State → Run Unit
  | 0, s => .done () s
  | n + 1, s => (putBit b s).andThen fun _ s => putRepeat b n s

/-- PutBits: the low `n` bits of `v`, most significant first (`40_bitio.md` R112). -/
def putBits (v : Word) : Nat → State → Run Unit
  | 0, s => .done () s
  | n + 1, s => (putBit (v.getLsbD n) s).andThen fun _ s => putBits v n s

/-- PutByte (`40_bitio.md` R112). -/
def putByte (v : Byte) (s : State) : Run Unit := putBits (v.setWidth 32) 8 s

/-! ## Reader primitives -/

/-- GetBit (`40_bitio.md` R118). -/
def getBit (s : State) : Run Bool :=
  (demand (decide (s.rpos.toNat + 1 ≤ s.rlen.toNat)) ⟨.brOverrun, s.rpos⟩ s).andThen fun _ s =>
    .done (streamBit s.ib s.rpos.toNat) (setRpos (s.rpos + 1) s)

/-- The number that the `n` stream bits from `k` spell, most significant first. -/
def bitsValue (m : Memory) (k : Nat) : Nat → Nat
  | 0 => 0
  | n + 1 => 2 * bitsValue m k n + (streamBit m (k + n)).toNat

/-- PeekBits (`40_bitio.md` R118): it does not move RPOS. -/
def peekBits (n : Nat) (s : State) : Run Nat :=
  (demand (decide (s.rpos.toNat + n ≤ s.rlen.toNat)) ⟨.brOverrun, s.rpos⟩ s).andThen fun _ s =>
    .done (bitsValue s.ib s.rpos.toNat n) s

/-- GetBits (`40_bitio.md` R118): the whole read is checked before anything is consumed. -/
def getBits (n : Nat) (s : State) : Run Nat :=
  (peekBits n s).andThen fun v s => .done v (setRpos (wordOfNat (s.rpos.toNat + n)) s)

/-! ## Commands -/

/-- What BW_INIT does after its checks (`40_bitio.md` R113): OB is all zero. -/
def startWriter (hdr : Bool) (s : State) : State :=
  setFlag .bwHdr hdr (setFlag .bwAct true (setWpos (if hdr then 32 else 0) (setOb [] s)))

/-- BW_INIT (`40_bitio.md` R113). -/
def execBwInit (hdr : Bool) (s : State) : Host.Outcome State Fault Refusal :=
  runCommand
    [needClear s .encAct 0x10,
     ⟨!hdr || decide (Config.packetHeaderSize ≤ s.cfg.obCap), ⟨.obFull, 0⟩⟩]
    (always (startWriter hdr)) s

/-- BW_PUT (`40_bitio.md` R114). -/
def execBwPut (n : Nat) (s : State) : Host.Outcome State Fault Refusal :=
  runCommand
    [needSet s .bwAct 0x11, countLegal n,
     ⟨decide (s.wpos.toNat + n ≤ 8 * s.cfg.obCap), ⟨.obFull, s.wpos⟩⟩]
    (putBits s.arg0 n) s

/-- The byte count WPOS has reached, the last byte padded: `(WPOS + 7) div 8` (`40_bitio.md` R116). -/
def bytesWritten (s : State) : Nat := (s.wpos.toNat + 7) / 8

/-- The number of payload bytes BW_FLUSH reports: all of them, or those after the header
(`40_bitio.md` R116). -/
def payloadBytes (s : State) : Word :=
  if flag s .bwHdr then wordOfNat (bytesWritten s) - 4 else wordOfNat (bytesWritten s)

/-- What BW_FLUSH does after its checks (`40_bitio.md` R116). -/
def flushWriter (s : State) : State :=
  setFlag .bwHdr false <| setFlag .bwAct false <|
  setRet1 (payloadBytes s) <| setRet0 (wordOfNat (bytesWritten s)) <|
  setOb (if flag s .bwHdr then writeHeader s.ob (payloadBytes s) else s.ob) <|
  setWpos (wordOfNat (8 * bytesWritten s)) s

/-- BW_FLUSH (`40_bitio.md` R116). -/
def execBwFlush (s : State) : Host.Outcome State Fault Refusal :=
  runCommand [needSet s .bwAct 0x12, needClear s .encAct 0x12] (always flushWriter) s

/-- What BR_INIT does after its check (`40_bitio.md` R117). -/
def startReader (s : State) : State :=
  setFlag .decAct false (setFlag .brAct true
    (setRlen (wordOfNat (s.arg0.toNat + s.arg1.toNat)) (setRpos s.arg0 s)))

/-- BR_INIT (`40_bitio.md` R117). -/
def execBrInit (s : State) : Host.Outcome State Fault Refusal :=
  runCommand
    [⟨decide (s.arg0.toNat + s.arg1.toNat ≤ 8 * s.cfg.ibCap), ⟨.operand, s.arg1⟩⟩]
    (always startReader) s

/-- The checks BR_GET, BR_PEEK and BR_SKIP share (`40_bitio.md` R119 to R121). -/
def readChecks (opc : Word) (n : Nat) (s : State) : List Check :=
  [needSet s .brAct opc, countLegal n, bitsAvailable s n]

/-- BR_GET (`40_bitio.md` R119). -/
def execBrGet (n : Nat) (s : State) : Host.Outcome State Fault Refusal :=
  runCommand (readChecks 0x19 n s)
    (fun s => (getBits n s).andThen fun v s => .done () (setRet0 (wordOfNat v) s)) s

/-- BR_PEEK (`40_bitio.md` R120). -/
def execBrPeek (n : Nat) (s : State) : Host.Outcome State Fault Refusal :=
  runCommand (readChecks 0x1A n s)
    (fun s => (peekBits n s).andThen fun v s => .done () (setRet0 (wordOfNat v) s)) s

/-- BR_SKIP (`40_bitio.md` R121). -/
def execBrSkip (n : Nat) (s : State) : Host.Outcome State Fault Refusal :=
  runCommand (readChecks 0x1B n s)
    (always fun s => setRpos (wordOfNat (s.rpos.toNat + n)) s) s

end Sys2Proof.Machine
end

