-- ==== Sys2Proof/Machine/Model.lean ====
section
/-! DEFINITION. The frequency models: initialise, update and rescale, the two conversions, and the
commands MDL_INIT, MDL_INIT_STD, MDL_UPD, MDL_I2S, MDL_S2I, MDL_SCALE (`41_model.md`). A table's
element `e` holds the count of logical index `e - 1` (`10_state.md` R38). -/

namespace Sys2Proof.Machine

/-! ## Initialise -/

/-- `for i from -1 to L: T[i] <- i + 1` (`41_model.md` R133); entries above `L` are not written. -/
def initTable (t : Table) (len : Nat) : Table :=
  tableOf fun e => if e ≤ len + 1 then BitVec.ofNat 16 e else tableElem t e

/-- What MDL_INIT does to a context after its check (`41_model.md` R133). -/
def initCtx (m : Fin 16) (bits : Nat) (s : State) : State :=
  setMbits m (BitVec.ofNat 4 bits) (setTable m (initTable (ctxTable s m) (2 ^ bits)) s)

/-- MDL_INIT (`41_model.md` R133). -/
def execMdlInit (m : Fin 16) (bits : Nat) (s : State) : Host.Outcome State Fault Refusal :=
  runCommand
    [⟨decide (1 ≤ bits) && decide (bits ≤ Config.bitsMax), ⟨.operand, wordOfNat bits⟩⟩]
    (always (initCtx m bits)) s

/-- `MDL_INIT m, bits` for each of the listed contexts, in order (`41_model.md` R135). -/
def initCtxs (cs : List (Fin 16 × Nat)) (s : State) : State :=
  cs.foldl (fun s c => initCtx c.1 c.2 s) s

/-- MDL_INIT_STD (`41_model.md` R135). -/
def execMdlInitStd (s : State) : Host.Outcome State Fault Refusal :=
  runCommand [] (always (initCtxs stdBits)) s

/-! ## Update and rescale -/

/-- `for i from sym + 1 to L: T[i] <- T[i] + 1` (`41_model.md` R136). -/
def bumpTable (t : Table) (len sym : Nat) : Table :=
  tableOf fun e =>
    if sym + 2 ≤ e ∧ e ≤ len + 1 then tableElem t e + 1 else tableElem t e

/-- The element `e` of a rescaled table: half the old count, raised above its already rescaled left
neighbour; index -1 is not touched (`41_model.md` R139). -/
def rescaledElem (t : Table) : Nat → Half
  | 0 => tableElem t 0
  | e + 1 =>
    let half := tableElem t (e + 1) / 2
    let left := rescaledElem t e
    if half ≤ left then left + 1 else half

/-- Rescale (`41_model.md` R139): indices 0 to `L`; entries above `L` are not touched. -/
def rescaleTable (t : Table) (len : Nat) : Table :=
  tableOf fun e => if e ≤ len + 1 then rescaledElem t e else tableElem t e

/-- Update (`41_model.md` R136): widen the interval of `sym` by one, and rescale when the total
reaches MAXIMUM_SCALE. -/
def updateTable (t : Table) (len sym : Nat) : Table :=
  let t' := bumpTable t len sym
  if Config.maximumScale ≤ (tableElem t' (len + 1)).toNat then rescaleTable t' len else t'

/-- `Update(m, sym)` (`41_model.md` R136). -/
def updateCtx (m : Fin 16) (sym : Nat) (s : State) : State :=
  setTable m (updateTable (ctxTable s m) (ctxLen s m) sym) s

/-- MDL_UPD (`41_model.md` R137). -/
def execMdlUpd (m : Fin 16) (sym : Nat) (s : State) : Host.Outcome State Fault Refusal :=
  runCommand [ctxInit s m, symOk s m sym] (always (updateCtx m sym)) s

/-! ## Conversions -/

/-- `SYM_LOW <- T[m][sym] ; SYM_HIGH <- T[m][sym + 1]` (`41_model.md` R141). -/
def latchBoundsOf (m : Fin 16) (sym : Nat) (s : State) : State :=
  setLatchBounds (ctxCount s m sym) (ctxCount s m (sym + 1)) s

/-- `SYM_SCALE <- T[m][L]` (`41_model.md` R145). -/
def latchScaleOf (m : Fin 16) (s : State) : State := setLatchScale (ctxScale s m) s

/-- MDL_I2S (`41_model.md` R141). -/
def execMdlI2s (m : Fin 16) (sym : Nat) (s : State) : Host.Outcome State Fault Refusal :=
  runCommand [ctxInit s m, symOk s m sym]
    (always fun s => latchScaleOf m (latchBoundsOf m sym s)) s

/-- The element of `Find(m, count)` (`41_model.md` R142), scanning down from element `e`: the result
is `c + 1` for the symbol `c`, and 0 for the virtual index -1. -/
def findElem (t : Table) (count : Nat) : Nat → Nat
  | 0 => 0
  | e + 1 => if count < (tableElem t (e + 1)).toNat then findElem t count e else e + 1

/-- `Find(m, count) + 1`, scanning from `N`, whose element is `L` (`41_model.md` R142). -/
def ctxFind (s : State) (m : Fin 16) (count : Nat) : Nat :=
  findElem (ctxTable s m) count (ctxLen s m)

/-- What MDL_S2I does after its checks (`41_model.md` R143). -/
def takeSymbol (m : Fin 16) (s : State) : State :=
  let sym := ctxFind s m s.cnt.toNat - 1
  latchScaleOf m (latchBoundsOf m sym (setRet0 (wordOfNat sym) s))

/-- MDL_S2I (`41_model.md` R143). -/
def execMdlS2i (m : Fin 16) (s : State) : Host.Outcome State Fault Refusal :=
  runCommand
    [ctxInit s m,
     ⟨decide (s.cnt.toNat < (ctxScale s m).toNat), ⟨.operand, s.cnt.setWidth 32⟩⟩,
     ⟨ctxFind s m s.cnt.toNat != 0, ⟨.badSymbol, s.cnt.setWidth 32⟩⟩]
    (always (takeSymbol m)) s

/-- MDL_SCALE (`41_model.md` R145). -/
def execMdlScale (m : Fin 16) (s : State) : Host.Outcome State Fault Refusal :=
  runCommand [ctxInit s m]
    (always fun s => setRet0 ((ctxScale s m).setWidth 32) (latchScaleOf m s)) s

end Sys2Proof.Machine
end

