-- ==== Sys2Proof/Machine/Coder.lean ====
section
/-! DEFINITION. The arithmetic coder: narrowing, the two renormalisation loops, the commands
AC_ENC_INIT, AC_ENC, AC_ENC_FLUSH, AC_DEC_INIT, AC_DEC_CNT, AC_DEC_RM and the composites SYM_ENC and
SYM_DEC (`42_coder.md`). -/

namespace Sys2Proof.Machine

/-! ## Narrowing -/

/-- `range = high - low + 1` (`42_coder.md` R164). -/
def rangeOf (low high : Half) : Int := high.toNat - low.toNat + 1

/-- `new_low` of Narrow (`42_coder.md` R164). -/
def narrowLow (low high lc sc : Half) : Int :=
  low.toNat + rangeOf low high * lc.toNat / sc.toNat

/-- `new_high` of Narrow (`42_coder.md` R164). -/
def narrowHigh (low high hc sc : Half) : Int :=
  low.toNat + rangeOf low high * hc.toNat / sc.toNat - 1

/-- The low register after a shift: a 0 comes in (`42_coder.md` R162, R165). -/
def shiftLow (v : Half) : Half := v <<< 1

/-- The high register after a shift: a 1 comes in (`42_coder.md` R162, R165). -/
def shiftHigh (v : Half) : Half := v <<< 1 ||| 1

/-- The top bits agree (`42_coder.md` R165). -/
def topsAgree (low high : Half) : Bool := low.getLsbD 15 == high.getLsbD 15

/-- The E3 condition, met when the top bits differ: low = 01.., high = 10.. (`42_coder.md` R165). -/
def isE3 (low high : Half) : Bool := low.getLsbD 14 && !high.getLsbD 14

/-- "Clear the straddling bits" of the low register (`42_coder.md` R165). -/
def e3Low (v : Half) : Half := v &&& 0x3FFF

/-- "Clear the straddling bits" of the high register (`42_coder.md` R165). -/
def e3High (v : Half) : Half := v ||| 0x4000

/-- The passes a renormalisation loop can make: at most 16, from any registers (`42_coder.md` R165,
`70_reset_and_hazards.md` R330; notes/assumptions/13.md). -/
abbrev renormPasses : Nat := 16

/-! ## Encoder -/

/-- What AC_ENC_INIT does after its checks (`42_coder.md` R161). -/
def openEncoder (s : State) : State := setFlag .encAct true (setEuf 0 (setEnc 0 0xFFFF s))

/-- AC_ENC_INIT (`42_coder.md` R161). -/
def execAcEncInit (s : State) : Host.Outcome State Fault Refusal :=
  runCommand [needSet s .bwAct 0x30, needClear s .encAct 0x30] (always openEncoder) s

/-- `while EUF > 0: PutBit(b) ; EUF <- EUF - 1`, EUF being the count left (`42_coder.md` R165). -/
def drainPending (b : Bool) : Nat → State → Run Unit
  | 0, s => .done () s
  | n + 1, s => (putBit b s).andThen fun _ s => drainPending b n (setEuf (s.euf - 1) s)

/-- Emit a settled bit and the pending opposite bits (`42_coder.md` R165, R166). -/
def emitBit (b : Bool) (s : State) : Run Unit :=
  (putBit b s).andThen fun _ s => drainPending (!b) s.euf.toNat s

/-- Both encoder registers shifted by one (`42_coder.md` R165). -/
def shiftEnc (s : State) : State := setEnc (shiftLow s.elow) (shiftHigh s.ehigh) s

/-- One E3 step of the encoder, before its shift: one more pending bit (`42_coder.md` R165). -/
def deferBit (s : State) : Run Unit :=
  (demand (decide (s.euf.toNat < 2 ^ 32 - 1)) ⟨.ufOvf, s.euf⟩ s).andThen fun _ s =>
    .done () (setEnc (e3Low s.elow) (e3High s.ehigh) (setEuf (s.euf + 1) s))

/-- EncRenorm (`42_coder.md` R165) with a bound on its passes. -/
def encRenorm : Nat → State → Run Unit
  | 0, s => .done () s
  | n + 1, s =>
    if topsAgree s.elow s.ehigh then
      (emitBit (s.ehigh.getLsbD 15) s).andThen fun _ s => encRenorm n (shiftEnc s)
    else if isE3 s.elow s.ehigh then
      (deferBit s).andThen fun _ s => encRenorm n (shiftEnc s)
    else .done () s

/-- The encoder interval narrowed by the symbol latch (`42_coder.md` R164, R167). -/
def narrowEnc (s : State) : State :=
  setEnc (BitVec.ofInt 16 (narrowLow s.elow s.ehigh s.symLow s.symScale))
    (BitVec.ofInt 16 (narrowHigh s.elow s.ehigh s.symHigh s.symScale)) s

/-- Encode the triple in the symbol latch (`42_coder.md` R167). -/
def encodeLatch (s : State) : Run Unit := encRenorm renormPasses (narrowEnc s)

/-- AC_ENC (`42_coder.md` R167). -/
def execAcEnc (s : State) : Host.Outcome State Fault Refusal :=
  runCommand [needSet s .encAct 0x31, tripleOk s] encodeLatch s

/-- What AC_ENC_FLUSH does after its check (`42_coder.md` R169): ELOW[14], `EUF + 1` copies of its
complement, FLUSH_TAIL zero bits. -/
def closeSegment (s : State) : Run Unit :=
  (putBit (s.elow.getLsbD 14) s).andThen fun _ s =>
  (putRepeat (!s.elow.getLsbD 14) (s.euf.toNat + 1) s).andThen fun _ s =>
  (putRepeat false Config.flushTail (setEuf 0 s)).andThen fun _ s =>
  .done () (setFlag .encAct false s)

/-- AC_ENC_FLUSH (`42_coder.md` R169). -/
def execAcEncFlush (s : State) : Host.Outcome State Fault Refusal :=
  runCommand [needSet s .encAct 0x32] closeSegment s

/-! ## Decoder -/

/-- What AC_DEC_INIT does after its checks (`42_coder.md` R172). -/
def openDecoder (s : State) : Run Unit :=
  (getBits 16 (setDec 0 0xFFFF s)).andThen fun v s =>
    .done () (setFlag .decAct true (setDcode (BitVec.ofNat 16 v) s))

/-- AC_DEC_INIT (`42_coder.md` R172). -/
def execAcDecInit (s : State) : Host.Outcome State Fault Refusal :=
  runCommand [needSet s .brAct 0x38, bitsAvailable s 16] openDecoder s

/-- The count of AC_DEC_CNT: `((DCODE - DLOW + 1) * SYM_SCALE - 1) div range`
(`42_coder.md` R174). -/
def countOf (low high code scale : Half) : Int :=
  (((code.toNat : Int) - low.toNat + 1) * scale.toNat - 1) / rangeOf low high

/-- `CNT <- count` (`42_coder.md` R174). -/
def takeCount (s : State) : State :=
  setCnt (BitVec.ofInt 16 (countOf s.dlow s.dhigh s.dcode s.symScale)) s

/-- What AC_DEC_CNT does after its checks (`42_coder.md` R174). -/
def reportCount (s : State) : State :=
  let t := takeCount s
  setRet0 (t.cnt.setWidth 32) t

/-- AC_DEC_CNT (`42_coder.md` R174). -/
def execAcDecCnt (s : State) : Host.Outcome State Fault Refusal :=
  runCommand [needSet s .decAct 0x39, scaleOk s] (always reportCount) s

/-- The shift of one decoder pass: both bounds first, then DCODE takes the next stream bit
(`42_coder.md` R176). -/
def shiftDec (s : State) : Run Unit :=
  (getBit (setDec (shiftLow s.dlow) (shiftHigh s.dhigh) s)).andThen fun b s =>
    .done () (setDcode (s.dcode <<< 1 ||| (BitVec.ofBool b).setWidth 16) s)

/-- One E3 step of the decoder, before its shift (`42_coder.md` R176). -/
def straddleDec (s : State) : State :=
  setDec (e3Low s.dlow) (e3High s.dhigh) (setDcode (s.dcode ^^^ 0x4000) s)

/-- DecRenorm (`42_coder.md` R176) with a bound on its passes. -/
def decRenorm : Nat → State → Run Unit
  | 0, s => .done () s
  | n + 1, s =>
    if topsAgree s.dlow s.dhigh then
      (shiftDec s).andThen fun _ s => decRenorm n s
    else if isE3 s.dlow s.dhigh then
      (shiftDec (straddleDec s)).andThen fun _ s => decRenorm n s
    else .done () s

/-- The decoder interval narrowed by the symbol latch (`42_coder.md` R164, R177). -/
def narrowDec (s : State) : State :=
  setDec (BitVec.ofInt 16 (narrowLow s.dlow s.dhigh s.symLow s.symScale))
    (BitVec.ofInt 16 (narrowHigh s.dlow s.dhigh s.symHigh s.symScale)) s

/-- Remove the triple in the symbol latch from the stream (`42_coder.md` R177). -/
def removeLatch (s : State) : Run Unit := decRenorm renormPasses (narrowDec s)

/-- DCODE lies in the interval of the triple being removed (`42_coder.md` R177). -/
def codeInside (s : State) : Bool :=
  decide (narrowLow s.dlow s.dhigh s.symLow s.symScale ≤ s.dcode.toNat) &&
    decide ((s.dcode.toNat : Int) ≤ narrowHigh s.dlow s.dhigh s.symHigh s.symScale)

/-- AC_DEC_RM (`42_coder.md` R177). -/
def execAcDecRm (s : State) : Host.Outcome State Fault Refusal :=
  runCommand
    [needSet s .decAct 0x3A, tripleOk s, ⟨codeInside s, ⟨.desync, s.dcode.setWidth 32⟩⟩]
    removeLatch s

/-! ## Composites -/

/-- EncSym (`42_coder.md` R179): the triple of the symbol, its coding, the update of the context. -/
def encSym (m : Fin 16) (sym : Nat) (s : State) : Run Unit :=
  (encodeLatch (latchScaleOf m (latchBoundsOf m sym s))).andThen fun _ s =>
    .done () (updateCtx m sym s)

/-- SYM_ENC (`42_coder.md` R179). -/
def execSymEnc (m : Fin 16) (sym : Nat) (s : State) : Host.Outcome State Fault Refusal :=
  runCommand [needSet s .encAct 0x3C, ctxInit s m, symOk s m sym] (encSym m sym) s

/-- DecSym (`42_coder.md` R181), which answers the symbol. DEDUCED, unsafe: RET0 is written by
SYM_DEC at its end and not by this helper form (notes/assumptions/10.md, 11.md). -/
def decSym (m : Fin 16) (s : State) : Run Nat :=
  let s := takeCount (latchScaleOf m s)
  let e := ctxFind s m s.cnt.toNat
  (demand (e != 0) ⟨.badSymbol, s.cnt.setWidth 32⟩ s).andThen fun _ s =>
  (removeLatch (latchBoundsOf m (e - 1) s)).andThen fun _ s =>
  .done (e - 1) (updateCtx m (e - 1) s)

/-- SYM_DEC (`42_coder.md` R181). -/
def execSymDec (m : Fin 16) (s : State) : Host.Outcome State Fault Refusal :=
  runCommand [needSet s .decAct 0x3D, ctxInit s m]
    (fun s => (decSym m s).andThen fun c s => .done () (setRet0 (wordOfNat c) s)) s

end Sys2Proof.Machine
end

