-- ==== Sys2Proof/Machine/Transform.lean ====
section
/-! DEFINITION. The block transform: the default integer reference pair of `43_block.md` R204 and
R205, and the choice of the pair by the parameter of R203 (notes/assumptions/4.md). -/

namespace Sys2Proof.Machine

/-- The table K, row after row (`43_block.md` R204). -/
def dctTable : List Int :=
  [5793,  5793,  5793,  5793,  5793,  5793,  5793,  5793,
   8035,  6811,  4551,  1598, -1598, -4551, -6811, -8035,
   7568,  3135, -3135, -7568, -7568, -3135,  3135,  7568,
   6811, -1598, -8035, -4551,  4551,  8035,  1598, -6811,
   5793, -5793, -5793,  5793,  5793, -5793, -5793,  5793,
   4551, -8035,  1598,  6811, -6811, -1598,  8035, -4551,
   3135, -7568,  7568, -3135, -3135,  7568, -7568,  3135,
   1598, -4551,  6811, -8035,  8035, -6811,  4551, -1598]

/-- `K[u][x]` (`43_block.md` R204). -/
def dctK (u x : Nat) : Int := dctTable.getD (8 * u + x) 0

/-- `asr(v + 2^27, 28)`, the one rounding of a transform (`43_block.md` R204, R205). -/
def roundTransform (v : Int) : Int := asr (v + 2 ^ 27) 28

/-- FDCT at the raster index `p = 8 * u + v` (`43_block.md` R204). -/
def fdct (x : Nat → Int) (p : Nat) : Int :=
  roundTransform (sumBelow 8 fun r => sumBelow 8 fun c =>
    dctK (p / 8) r * dctK (p % 8) c * x (8 * r + c))

/-- IDCT at the raster index `p = 8 * x + y` (`43_block.md` R205). -/
def idct (c : Nat → Int) (p : Nat) : Int :=
  roundTransform (sumBelow 8 fun u => sumBelow 8 fun v =>
    dctK u (p / 8) * dctK v (p % 8) * c (8 * u + v))

/-- The 64 inputs of a transform. -/
def transformInputs (x : Nat → Int) : Vector Int 64 := Vector.ofFn fun i => x i.val

/-- All 64 inputs are equal. -/
def constantInputs (v : Vector Int 64) : Bool := decide (∀ p : Fin 64, v[p] = v[0])

/-- FDCT of a pair other than the reference one: a free function of the 64 inputs, but for the value
that R207 requires of every pair, zero outside index 0 for a constant block (`43_block.md` R203,
R207). -/
def otherForward (id : Nat) (v : Vector Int 64) (p : Nat) : Int :=
  if constantInputs v && p != 0 then 0 else Config.otherFdct id v p

/-- FDCT of the pair that the AACU has (`43_block.md` R203). -/
def forwardTransform (t : Transform) (x : Nat → Int) (p : Nat) : Int :=
  match t with
  | .reference => fdct x p
  | .other id => otherForward id (transformInputs x) p

/-- IDCT of the pair that the AACU has (`43_block.md` R203). -/
def inverseTransform (t : Transform) (c : Nat → Int) (p : Nat) : Int :=
  match t with
  | .reference => idct c p
  | .other id => Config.otherIdct id (transformInputs c) p

end Sys2Proof.Machine
end

