-- ==== Sys2Proof/Machine/Block.lean ====
section
/-! DEFINITION. The block pipeline: BLK_LOAD, BLK_FDCT, BLK_QUANT, BLK_LAST, BLK_MIDX, BLK_ENC,
BLK_DEC, BLK_DEQ, BLK_IDCT, BLK_RECON (`43_block.md`). Unsigned elements enter the arithmetic
zero-extended, COEF and ZZ sign-extended (`20_memory.md` R82). -/

namespace Sys2Proof.Machine

/-! ## Reading elements as numbers -/

/-- COEF[p]. -/
def coefInt (s : State) (p : Nat) : Int := if h : p < 64 then s.coef[p].toInt else 0

/-- ZZ[i]. -/
def zzInt (s : State) (i : Nat) : Int := if h : i < 64 then s.zz[i].toInt else 0

/-- QF0 or QF1 (`43_block.md` R208). -/
def forwardMatrix (inter : Bool) (s : State) : Block 16 := if inter then s.qf1 else s.qf0

/-- QI0 or QI1 (`43_block.md` R220). -/
def inverseMatrix (inter : Bool) (s : State) : Block 16 := if inter then s.qi1 else s.qi0

/-! ## Load and transform -/

/-- `PIX[p]`, less `REF[p]` for an inter block (`43_block.md` R202). -/
def loadedPixel (inter : Bool) (s : State) (p : Fin 64) : Int :=
  if inter then (s.pix[p].toNat : Int) - s.ref[p].toNat else s.pix[p].toNat

/-- BLK_LOAD after its (empty) checks (`43_block.md` R202). -/
def loadBlock (inter : Bool) (s : State) : State :=
  setCoef (Vector.ofFn fun p => BitVec.ofInt 32 (loadedPixel inter s p)) s

/-- BLK_LOAD (`43_block.md` R202). -/
def execBlkLoad (inter : Bool) (s : State) : Host.Outcome State Fault Refusal :=
  runCommand [] (always (loadBlock inter)) s

/-- COEF replaced by a transform of itself, all inputs read first, outputs stored as s32
(`43_block.md` R206, R222). -/
def transformBlock (f : (Nat → Int) → Nat → Int) (s : State) : State :=
  setCoef (Vector.ofFn fun p => BitVec.ofInt 32 (f (coefInt s) p)) s

/-- BLK_FDCT (`43_block.md` R206). -/
def execBlkFdct (s : State) : Host.Outcome State Fault Refusal :=
  runCommand [] (always (transformBlock (forwardTransform s.cfg.transform))) s

/-- BLK_IDCT (`43_block.md` R222). -/
def execBlkIdct (s : State) : Host.Outcome State Fault Refusal :=
  runCommand [] (always (transformBlock (inverseTransform s.cfg.transform))) s

/-! ## Quantise, last non-zero, bucket -/

/-- The quantised value of scan index `i` before the clip: `asr(COEF[p] * QF[p] + 32768, 16)` with
`p = ZIGZAG[i]` (`43_block.md` R208, R209). -/
def quantised (inter : Bool) (s : State) (i : Fin 64) : Int :=
  let p := s.cfg.zigzag.get i
  asr (s.coef[p].toInt * (forwardMatrix inter s)[p].toNat + 32768) 16

/-- A value outside COEF_MIN to COEF_MAX is clipped (`43_block.md` R208). -/
def outOfRange (q : Int) : Bool := decide (q > Config.coefMax) || decide (q < -Config.coefMax)

/-- Some coefficient is clipped (`43_block.md` R208). -/
def anyClipped (inter : Bool) (s : State) : Bool :=
  (List.finRange 64).any fun i => outOfRange (quantised inter s i)

/-- BLK_QUANT after its (empty) checks (`43_block.md` R208): CLIPW is sticky. -/
def quantBlock (inter : Bool) (s : State) : State :=
  let t := setZz (Vector.ofFn fun i =>
    BitVec.ofInt 16 (clampInt (quantised inter s i) (-Config.coefMax) Config.coefMax)) s
  if anyClipped inter s then setFlag .clipw true t else t

/-- BLK_QUANT (`43_block.md` R208). -/
def execBlkQuant (inter : Bool) (s : State) : Host.Outcome State Fault Refusal :=
  runCommand [] (always (quantBlock inter)) s

/-- The scan of LastNZ from index `i` down (`43_block.md` R211). -/
def lastFrom (s : State) : Nat → Nat
  | 0 => 0
  | i + 1 => if zzInt s (i + 1) = 0 then lastFrom s i else i + 1

/-- LastNZ (`43_block.md` R211). -/
def lastNz (s : State) : Nat := lastFrom s 63

/-- BLK_LAST (`43_block.md` R210). -/
def execBlkLast (s : State) : Host.Outcome State Fault Refusal :=
  runCommand [] (always fun s => setRet0 (wordOfNat (lastNz s)) s) s

/-- The largest magnitude among the first `n` coefficients of ZZ. -/
def maxAbsBelow (s : State) : Nat → Nat
  | 0 => 0
  | n + 1 => max (maxAbsBelow s n) (zzInt s n).natAbs

/-- `mx`, the largest magnitude in ZZ, the DC coefficient included (`43_block.md` R212). -/
def maxAbs (s : State) : Nat := maxAbsBelow s 64

/-- `mx <= COEF_MAX`, else ERR_COEF_RANGE (`43_block.md` R212, R215). -/
def coefRangeOk (s : State) : Check :=
  ⟨decide (maxAbs s ≤ Config.coefMax), ⟨.coefRange, wordOfNat (maxAbs s)⟩⟩

/-- `Bucket(mx)`: the smallest `k` in 0 to 8 with `mx < 2^(k+2)` (`43_block.md` R212). -/
def bucket (mx : Nat) : Nat := ((List.range 9).find? fun k => decide (mx < 2 ^ (k + 2))).getD 8

/-- BLK_MIDX (`43_block.md` R212). -/
def execBlkMidx (s : State) : Host.Outcome State Fault Refusal :=
  runCommand [coefRangeOk s]
    (always fun s => setRet1 (wordOfNat (maxAbs s)) (setRet0 (wordOfNat (bucket (maxAbs s))) s)) s

/-! ## Entropy coding -/

/-- `OFF(k) = 2^(k+2) - 1` (`43_block.md` R213). -/
def coefOffset (k : Nat) : Nat := 2 ^ (k + 2) - 1

/-- The symbol of the coefficient at scan index `i` under an offset (`43_block.md` R213). -/
def coefSymbol (s : State) (off i : Nat) : Nat := (zzInt s i + off).toNat

/-- Code the `n` coefficients from scan index `i` on in bucket `k` (`43_block.md` R215). -/
def encCoefs (k : Nat) : Nat → Nat → State → Run Unit
  | 0, _, s => .done () s
  | n + 1, i, s =>
    (encSym (mCoef k) (coefSymbol s (coefOffset k) i) s).andThen fun _ s => encCoefs k n (i + 1) s

/-- The bucket of BLK_ENC: coded after a non-zero `last`, 0 otherwise (`43_block.md` R215). -/
def encBucket (last : Nat) (s : State) : Run Nat :=
  if last = 0 then .done 0 s
  else (encSym mIdx (bucket (maxAbs s)) s).andThen fun _ s => .done (bucket (maxAbs s)) s

/-- BLK_ENC after its checks (`43_block.md` R215). -/
def encodeBlock (s : State) : Run Unit :=
  let last := lastNz s
  (encSym mLast last s).andThen fun _ s =>
  (encBucket last s).andThen fun k s =>
  (encSym mDc (coefSymbol s Config.offDc 0) s).andThen fun _ s =>
  (encCoefs k last 1 s).andThen fun _ s =>
  .done () (setRet1 (wordOfNat k) (setRet0 (wordOfNat last) s))

/-- BLK_ENC (`43_block.md` R215). -/
def execBlkEnc (s : State) : Host.Outcome State Fault Refusal :=
  runCommand ([needSet s .encAct 0x45] ++ stdCtxOk s ++ [coefRangeOk s]) encodeBlock s

/-- `ZZ[i] <- v`, kept as s16. -/
def putZz (i : Nat) (v : Int) (s : State) : State :=
  if h : i < 64 then setZz (s.zz.set i (BitVec.ofInt 16 v)) s else s

/-- Decode one coefficient with the context `m` and the offset `off` into ZZ[i]; a symbol above
`2 * off` is never encoded (`43_block.md` R218). -/
def decCoef (m : Fin 16) (off i : Nat) (s : State) : Run Unit :=
  (decSym m s).andThen fun sym s =>
  (demand (decide (sym ≤ 2 * off)) ⟨.coefRange, wordOfNat sym⟩ s).andThen fun _ s =>
  .done () (putZz i ((sym : Int) - off) s)

/-- Decode the `n` coefficients from scan index `i` on in bucket `k` (`43_block.md` R218). -/
def decCoefs (k : Nat) : Nat → Nat → State → Run Unit
  | 0, _, s => .done () s
  | n + 1, i, s =>
    (decCoef (mCoef k) (coefOffset k) i s).andThen fun _ s => decCoefs k n (i + 1) s

/-- The bucket of BLK_DEC: decoded after a non-zero `last`, at most 8 (`43_block.md` R218). -/
def decBucket (last : Nat) (s : State) : Run Nat :=
  if last = 0 then .done 0 s
  else (decSym mIdx s).andThen fun k s =>
    (demand (decide (k ≤ 8)) ⟨.badIndex, wordOfNat k⟩ s).andThen fun _ s => .done k s

/-- `for i from last + 1 to 63: ZZ[i] <- 0` (`43_block.md` R218). -/
def clearZzAfter (last : Nat) (s : State) : State :=
  setZz (Vector.ofFn fun i => if last < i.val then 0 else s.zz[i]) s

/-- BLK_DEC after its checks (`43_block.md` R218). -/
def decodeBlock (s : State) : Run Unit :=
  (decSym mLast s).andThen fun last s =>
  (decBucket last s).andThen fun k s =>
  (decCoef mDc Config.offDc 0 s).andThen fun _ s =>
  (decCoefs k last 1 s).andThen fun _ s =>
  .done () (setRet1 (wordOfNat k) (setRet0 (wordOfNat last) (clearZzAfter last s)))

/-- BLK_DEC (`43_block.md` R218). -/
def execBlkDec (s : State) : Host.Outcome State Fault Refusal :=
  runCommand ([needSet s .decAct 0x48] ++ stdCtxOk s) decodeBlock s

/-! ## Dequantise and reconstruct -/

/-- `asr(ZZ[i] * QI[i], 4)` (`43_block.md` R220). -/
def dequantised (inter : Bool) (s : State) (i : Fin 64) : Int :=
  asr (s.zz[i].toInt * (inverseMatrix inter s)[i].toNat) 4

/-- BLK_DEQ after its (empty) checks (`43_block.md` R220): in scan order, element ZIGZAG[i] takes the
value of scan index `i`; then the DC coefficient is `8 * ZZ[0]`. -/
def dequantBlock (inter : Bool) (s : State) : State :=
  let c := (List.finRange 64).foldl
    (fun c i => c.set (s.cfg.zigzag.get i) (BitVec.ofInt 32 (dequantised inter s i))) s.coef
  setCoef (c.set 0 (BitVec.ofInt 32 (8 * s.zz[0].toInt))) s

/-- BLK_DEQ (`43_block.md` R220). -/
def execBlkDeq (inter : Bool) (s : State) : Host.Outcome State Fault Refusal :=
  runCommand [] (always (dequantBlock inter)) s

/-- The reconstructed value before the clamp (`43_block.md` R224). -/
def predicted (inter : Bool) (s : State) (p : Fin 64) : Int :=
  if inter then s.coef[p].toInt + s.ref[p].toNat else s.coef[p].toInt

/-- BLK_RECON after its (empty) checks (`43_block.md` R224). -/
def reconBlock (inter : Bool) (s : State) : State :=
  setRecon (Vector.ofFn fun p => BitVec.ofInt 8 (clampInt (predicted inter s p) 0 255)) s

/-- BLK_RECON (`43_block.md` R224). -/
def execBlkRecon (inter : Bool) (s : State) : Host.Outcome State Fault Refusal :=
  runCommand [] (always (reconBlock inter)) s

end Sys2Proof.Machine
end

