-- ==== Sys2Proof/Machine/Rle.lean ====
section
/-! DEFINITION. The run-length row codec: RLE_ENC and RLE_DEC (`44_rle.md`). -/

namespace Sys2Proof.Machine

/-! ## Encoder -/

/-- Write the bytes IB[a] to IB[a + n - 1] to OB (`44_rle.md` R252). -/
def putFromIb : Nat → Nat → State → Run Unit
  | _, 0, s => .done () s
  | a, n + 1, s => (putByte (readByte s.ib a) s).andThen fun _ s => putFromIb (a + 1) n s

/-- FlushLit: the pending literal of `n` bytes from IB[a], if there is one (`44_rle.md` R252). -/
def flushLiteral (a n : Nat) (s : State) : Run Unit :=
  if n = 0 then .done () s
  else (putByte (0x80 ||| BitVec.ofNat 8 n) s).andThen fun _ s => putFromIb a n s

/-- Grow a run of `r` bytes equal to `v` from IB[a], up to the limit `limit`, with `fuel` at least
`limit - r` (`44_rle.md` R252). -/
def growRun (m : Memory) (a : Nat) (v : Byte) (limit : Nat) : Nat → Nat → Nat
  | 0, r => r
  | fuel + 1, r =>
    if r < limit ∧ readByte m (a + r) = v then growRun m a v limit fuel (r + 1) else r

/-- The length of the run at IB[a] when `left` bytes of the row are left, capped at RLE_MAX_RUN
(`44_rle.md` R252). -/
def runAt (m : Memory) (a left : Nat) : Nat :=
  growRun m a (readByte m a) (min left Config.rleMaxRun) Config.rleMaxRun 1

/-- The loop of RLE_ENC (`44_rle.md` R252) at IB[a] with `left` bytes of the row left and a pending
literal of `ll` bytes from IB[ls]; `fuel` is at least `left`, since a pass takes at least one byte. -/
def rleEncLoop : Nat → Nat → Nat → Nat → Nat → State → Run Unit
  | 0, _, _, ls, ll, s => flushLiteral ls ll s
  | fuel + 1, a, left, ls, ll, s =>
    if left = 0 then flushLiteral ls ll s
    else if s.cfg.rleMinRun ≤ runAt s.ib a left then
      (flushLiteral ls ll s).andThen fun _ s =>
      (putByte (BitVec.ofNat 8 (runAt s.ib a left)) s).andThen fun _ s =>
      (putByte (readByte s.ib a) s).andThen fun _ s =>
      rleEncLoop fuel (a + runAt s.ib a left) (left - runAt s.ib a left) 0 0 s
    else if ll = Config.rleMaxLit then
      (flushLiteral ls ll s).andThen fun _ s => rleEncLoop fuel (a + 1) (left - 1) a 1 s
    else rleEncLoop fuel (a + 1) (left - 1) (if ll = 0 then a else ls) (ll + 1) s

/-- RLE_ENC after its checks (`44_rle.md` R252). -/
def rleEncode (s : State) : Run Unit :=
  let w0 := s.wpos.toNat
  (rleEncLoop s.arg1.toNat s.arg0.toNat s.arg1.toNat 0 0 s).andThen fun _ s =>
  .done () (setRet0 (wordOfNat ((s.wpos.toNat - w0) / 8)) s)

/-- RLE_ENC (`44_rle.md` R252). -/
def execRleEnc (s : State) : Host.Outcome State Fault Refusal :=
  runCommand
    [needSet s .bwAct 0x50, needClear s .encAct 0x50, needAligned s.wpos 0x50,
     ⟨decide (s.arg0.toNat + s.arg1.toNat ≤ s.cfg.ibCap), ⟨.operand, s.arg1⟩⟩]
    rleEncode s

/-! ## Decoder -/

/-- `PutByte(GetBits(8))`, `n` times: a literal record (`44_rle.md` R258). -/
def copyBytes : Nat → State → Run Unit
  | 0, s => .done () s
  | n + 1, s =>
    (getBits 8 s).andThen fun v s =>
    (putByte (BitVec.ofNat 8 v) s).andThen fun _ s => copyBytes n s

/-- `PutByte(v)`, `n` times: a compressed-run record (`44_rle.md` R258). -/
def repeatByte (v : Byte) : Nat → State → Run Unit
  | 0, s => .done () s
  | n + 1, s => (putByte v s).andThen fun _ s => repeatByte v n s

/-- One record of a coded row, when `left` bytes of the row are still wanted; it answers how many
bytes the record gave (`44_rle.md` R258). -/
def rleDecRecord (left : Nat) (s : State) : Run Nat :=
  (getBits 8 s).andThen fun len s =>
  (demand (len != 0x80) ⟨.rleFormat, s.rpos - 8⟩ s).andThen fun _ s =>
  if 0x80 < len then
    (demand (decide (len - 0x80 ≤ left)) ⟨.rleOverrun, s.rpos - 8⟩ s).andThen fun _ s =>
    (copyBytes (len - 0x80) s).andThen fun _ s => .done (len - 0x80) s
  else
    (getBits 8 s).andThen fun v s =>
    (demand (decide (len ≤ left)) ⟨.rleOverrun, s.rpos - 16⟩ s).andThen fun _ s =>
    (repeatByte (BitVec.ofNat 8 v) len s).andThen fun _ s => .done len s

/-- The loop of RLE_DEC with `left` bytes of the row still wanted (`44_rle.md` R258); a pass consumes
at least one byte of the reader's window, which bounds the passes (`70_reset_and_hazards.md` R330). -/
def rleDecLoop : Nat → Nat → State → Run Unit
  | 0, _, s => .done () s
  | fuel + 1, left, s =>
    if left = 0 then .done () s
    else (rleDecRecord left s).andThen fun c s => rleDecLoop fuel (left - c) s

/-- A bound on the passes of RLE_DEC: the bytes the reader has left, and one more
(notes/assumptions/13.md). -/
def rleDecFuel (s : State) : Nat := (s.rlen.toNat - s.rpos.toNat) / 8 + 1

/-- RLE_DEC after its checks (`44_rle.md` R258). -/
def rleDecode (s : State) : Run Unit :=
  let n := s.arg1
  let r0 := s.rpos.toNat
  (rleDecLoop (rleDecFuel s) n.toNat s).andThen fun _ s =>
  .done () (setRet1 (wordOfNat ((s.rpos.toNat - r0) / 8)) (setRet0 n s))

/-- RLE_DEC (`44_rle.md` R258). -/
def execRleDec (s : State) : Host.Outcome State Fault Refusal :=
  runCommand
    [needSet s .brAct 0x51, needSet s .bwAct 0x51, needClear s .encAct 0x51,
     needClear s .decAct 0x51, needAligned s.rpos 0x51, needAligned s.wpos 0x51]
    rleDecode s

end Sys2Proof.Machine
end

