-- ==== Sys2Proof/Machine/System.lean ====
section
/-! DEFINITION. The system commands NOP, RESET, CLRW (`45_system.md`). -/

namespace Sys2Proof.Machine

/-- NOP (`45_system.md` R270): only CMDCNT moves. -/
def execNop (s : State) : Host.Outcome State Fault Refusal := runCommand [] (always id) s

/-- RESET (`45_system.md` R272): the one command accepted while STATUS.FAULT is 1; it does not count
itself. -/
def execReset (s : State) : Host.Outcome State Fault Refusal := .next (softReset s)

/-- CLRW (`45_system.md` R274). -/
def execClrw (s : State) : Host.Outcome State Fault Refusal :=
  runCommand [] (always (setFlag .clipw false)) s

end Sys2Proof.Machine
end

