-- ==== Sys2Proof/Machine/Dispatch.lean ====
section
/-! DEFINITION. The meaning of each command, one arm per row of the opcode map
(`30_encoding.md` R95). -/

namespace Sys2Proof.Machine

def exec (i : Instr) (s : State) : Host.Outcome State Fault Refusal :=
  match i with
  | .nop => Sys2Proof.Machine.execNop s
  | .reset => Sys2Proof.Machine.execReset s
  | .clrw => Sys2Proof.Machine.execClrw s
  | .bwInit hdr => Sys2Proof.Machine.execBwInit hdr s
  | .bwPut n => Sys2Proof.Machine.execBwPut n s
  | .bwFlush => Sys2Proof.Machine.execBwFlush s
  | .brInit => Sys2Proof.Machine.execBrInit s
  | .brGet n => Sys2Proof.Machine.execBrGet n s
  | .brPeek n => Sys2Proof.Machine.execBrPeek n s
  | .brSkip n => Sys2Proof.Machine.execBrSkip n s
  | .mdlInit m bits => Sys2Proof.Machine.execMdlInit m bits s
  | .mdlInitStd => Sys2Proof.Machine.execMdlInitStd s
  | .mdlUpd m sym => Sys2Proof.Machine.execMdlUpd m sym s
  | .mdlI2s m sym => Sys2Proof.Machine.execMdlI2s m sym s
  | .mdlS2i m => Sys2Proof.Machine.execMdlS2i m s
  | .mdlScale m => Sys2Proof.Machine.execMdlScale m s
  | .acEncInit => Sys2Proof.Machine.execAcEncInit s
  | .acEnc => Sys2Proof.Machine.execAcEnc s
  | .acEncFlush => Sys2Proof.Machine.execAcEncFlush s
  | .acDecInit => Sys2Proof.Machine.execAcDecInit s
  | .acDecCnt => Sys2Proof.Machine.execAcDecCnt s
  | .acDecRm => Sys2Proof.Machine.execAcDecRm s
  | .symEnc m sym => Sys2Proof.Machine.execSymEnc m sym s
  | .symDec m => Sys2Proof.Machine.execSymDec m s
  | .blkLoad inter => Sys2Proof.Machine.execBlkLoad inter s
  | .blkFdct => Sys2Proof.Machine.execBlkFdct s
  | .blkQuant inter => Sys2Proof.Machine.execBlkQuant inter s
  | .blkLast => Sys2Proof.Machine.execBlkLast s
  | .blkMidx => Sys2Proof.Machine.execBlkMidx s
  | .blkEnc => Sys2Proof.Machine.execBlkEnc s
  | .blkDec => Sys2Proof.Machine.execBlkDec s
  | .blkDeq inter => Sys2Proof.Machine.execBlkDeq inter s
  | .blkIdct => Sys2Proof.Machine.execBlkIdct s
  | .blkRecon inter => Sys2Proof.Machine.execBlkRecon inter s
  | .rleEnc => Sys2Proof.Machine.execRleEnc s
  | .rleDec => Sys2Proof.Machine.execRleDec s

end Sys2Proof.Machine
end

