-- ==== Sys2Proof/Machine/Command.lean ====
section
/-! DEFINITION. A command word written to CMD, and one action of the host or the platform
(`10_state.md` R22, `20_memory.md` R75, `60_exceptions.md` R284, R288). -/

namespace Sys2Proof.Machine

/-- A word that is no command raises ERR_ILLEGAL_CMD with the word, and is ignored while
STATUS.FAULT is 1 (`30_encoding.md` R96 to R98, `60_exceptions.md` R284, R288). -/
def illegalCommand (w : Word) (s : State) : State :=
  if flag s .fault then s else raiseFault ⟨.illegalCmd, w⟩ s

/-- The host writes `w` to CMD: the command it stands for runs to completion. -/
def command (w : Word) (s : State) : Host.Outcome State Fault Refusal :=
  match decodeFor s.cfg.hasRle w with
  | .ok i => exec i s
  | .error _ => .next (illegalCommand w s)

/-- One action of the host or the platform. -/
def act (a : HostAction) (s : State) : Host.Outcome State Fault Refusal :=
  match a with
  | .read width addr => .next (hostRead width addr s)
  | .write width addr v =>
    if isCmd s.cfg width addr then command v s else .next (hostStore width addr v s)
  | .hardwareReset p => .next (hardReset p s)

/-- The host action that writes a command word to CMD. -/
def cmdWrite (w : Word) : HostAction := .write .word 0 w

end Sys2Proof.Machine
end

