-- ==== Sys2Proof/Machine/Step.lean ====
section
/-! DEFINITION. One step of the machine: the next action of the host's queue, or nothing when the
host has none (`20_memory.md` R75; notes/assumptions/1.md). -/

namespace Sys2Proof.Machine

/-- Perform the oldest waiting action; an AACU to which nothing happens holds all its state
(`60_exceptions.md` R296). -/
def step (s : State) : Host.Outcome State Fault Refusal :=
  match s.host with
  | [] => .next s
  | a :: rest => act a { s with host := rest }

/-- The state with the host's write of the word to CMD as its next action
(notes/assumptions/1.md). -/
def State.withFetchWord (s : State) (nbits w : Nat) : State :=
  { s with host := cmdWrite (BitVec.ofNat 32 (w % 2 ^ nbits)) :: s.host }

end Sys2Proof.Machine
end

