-- ==== Sys2Proof/Safety.lean ====
section
/-! DEFINITION. The terms in which claims about the AACU are stated: the opcode map as rows, the
state a fault leaves, what bits a command appends to OB, the coder's loop on integers, the counts of
a context after an update, the coded rows of the RLE unit, and the invariants of the spec. Nothing
here is used by the machine; each definition restates a rule of spec/ in terms of its own. -/

namespace Sys2Proof

/-! ## The opcode map (`30_encoding.md` R95) -/

/-- The OPC of a command (R95). -/
def Instr.opcode : Instr → Nat
  | .nop => 0x00
  | .reset => 0x01
  | .clrw => 0x02
  | .bwInit _ => 0x10
  | .bwPut _ => 0x11
  | .bwFlush => 0x12
  | .brInit => 0x18
  | .brGet _ => 0x19
  | .brPeek _ => 0x1A
  | .brSkip _ => 0x1B
  | .mdlInit _ _ => 0x20
  | .mdlInitStd => 0x21
  | .mdlUpd _ _ => 0x22
  | .mdlI2s _ _ => 0x23
  | .mdlS2i _ => 0x24
  | .mdlScale _ => 0x25
  | .acEncInit => 0x30
  | .acEnc => 0x31
  | .acEncFlush => 0x32
  | .acDecInit => 0x38
  | .acDecCnt => 0x39
  | .acDecRm => 0x3A
  | .symEnc _ _ => 0x3C
  | .symDec _ => 0x3D
  | .blkLoad _ => 0x40
  | .blkFdct => 0x41
  | .blkQuant _ => 0x42
  | .blkLast => 0x43
  | .blkMidx => 0x44
  | .blkEnc => 0x45
  | .blkDec => 0x48
  | .blkDeq _ => 0x49
  | .blkIdct => 0x4A
  | .blkRecon _ => 0x4B
  | .rleEnc => 0x50
  | .rleDec => 0x51

/-- One row of the opcode map: its OPC and the columns "mask" and "match" (R95). -/
structure OpcodeRow where
  opc : Nat
  mask : Word
  value : Word
deriving DecidableEq, Repr

/-- The 36 rows of the opcode map (R95). -/
def opcodeMap : List OpcodeRow :=
  [⟨0x00, 0xFFFFFFFF, 0x00000000⟩, ⟨0x01, 0xFFFFFFFF, 0x01000000⟩, ⟨0x02, 0xFFFFFFFF, 0x02000000⟩,
   ⟨0x10, 0xFFFEFFFF, 0x10000000⟩, ⟨0x11, 0xFFFFFFC0, 0x11000000⟩, ⟨0x12, 0xFFFFFFFF, 0x12000000⟩,
   ⟨0x18, 0xFFFFFFFF, 0x18000000⟩, ⟨0x19, 0xFFFFFFC0, 0x19000000⟩, ⟨0x1A, 0xFFFFFFC0, 0x1A000000⟩,
   ⟨0x1B, 0xFFFFFFC0, 0x1B000000⟩] ++
  [⟨0x20, 0xFF0FFFF0, 0x20000000⟩, ⟨0x21, 0xFFFFFFFF, 0x21000000⟩, ⟨0x22, 0xFF0F0000, 0x22000000⟩,
   ⟨0x23, 0xFF0F0000, 0x23000000⟩, ⟨0x24, 0xFF0FFFFF, 0x24000000⟩, ⟨0x25, 0xFF0FFFFF, 0x25000000⟩] ++
  [⟨0x30, 0xFFFFFFFF, 0x30000000⟩, ⟨0x31, 0xFFFFFFFF, 0x31000000⟩, ⟨0x32, 0xFFFFFFFF, 0x32000000⟩,
   ⟨0x38, 0xFFFFFFFF, 0x38000000⟩, ⟨0x39, 0xFFFFFFFF, 0x39000000⟩, ⟨0x3A, 0xFFFFFFFF, 0x3A000000⟩,
   ⟨0x3C, 0xFF0F0000, 0x3C000000⟩, ⟨0x3D, 0xFF0FFFFF, 0x3D000000⟩] ++
  [⟨0x40, 0xFFFEFFFF, 0x40000000⟩, ⟨0x41, 0xFFFFFFFF, 0x41000000⟩, ⟨0x42, 0xFFFEFFFF, 0x42000000⟩,
   ⟨0x43, 0xFFFFFFFF, 0x43000000⟩, ⟨0x44, 0xFFFFFFFF, 0x44000000⟩, ⟨0x45, 0xFFFFFFFF, 0x45000000⟩,
   ⟨0x48, 0xFFFFFFFF, 0x48000000⟩, ⟨0x49, 0xFFFEFFFF, 0x49000000⟩, ⟨0x4A, 0xFFFFFFFF, 0x4A000000⟩,
   ⟨0x4B, 0xFFFEFFFF, 0x4B000000⟩, ⟨0x50, 0xFFFFFFFF, 0x50000000⟩, ⟨0x51, 0xFFFFFFFF, 0x51000000⟩]

end Sys2Proof

namespace Sys2Proof.Machine

/-! ## Faults (`60_exceptions.md`) -/

/-- The state a fault leaves behind a state that is otherwise `s` (R285): STATUS bit 0 set, FCODE and
FINFO written. -/
def faultState (code : Byte) (info : Word) (s : State) : State :=
  { s with status := s.status ||| 1, fcode := code, finfo := info }

/-- The unit state each command requires (the table of R283). -/
def unitReady : Instr → State → Bool
  | .bwInit _, s => !flag s .encAct
  | .bwPut _, s => flag s .bwAct
  | .bwFlush, s => flag s .bwAct && !flag s .encAct
  | .brGet _, s => flag s .brAct
  | .brPeek _, s => flag s .brAct
  | .brSkip _, s => flag s .brAct
  | .acEncInit, s => flag s .bwAct && !flag s .encAct
  | .acEnc, s => flag s .encAct
  | .acEncFlush, s => flag s .encAct
  | .symEnc _ _, s => flag s .encAct
  | .blkEnc, s => flag s .encAct
  | .acDecInit, s => flag s .brAct
  | .acDecCnt, s => flag s .decAct
  | .acDecRm, s => flag s .decAct
  | .symDec _, s => flag s .decAct
  | .blkDec, s => flag s .decAct
  | .rleEnc, s => flag s .bwAct && !flag s .encAct && s.wpos.toNat % 8 == 0
  | .rleDec, s => flag s .brAct && flag s .bwAct && !flag s .encAct && !flag s .decAct &&
      s.rpos.toNat % 8 == 0 && s.wpos.toNat % 8 == 0
  | .nop, _ => true
  | .reset, _ => true
  | .clrw, _ => true
  | .brInit, _ => true
  | .mdlInit _ _, _ => true
  | .mdlInitStd, _ => true
  | .mdlUpd _ _, _ => true
  | .mdlI2s _ _, _ => true
  | .mdlS2i _, _ => true
  | .mdlScale _, _ => true
  | .blkLoad _, _ => true
  | .blkFdct, _ => true
  | .blkQuant _, _ => true
  | .blkLast, _ => true
  | .blkMidx, _ => true
  | .blkDeq _, _ => true
  | .blkIdct, _ => true
  | .blkRecon _, _ => true

/-- The commands that never fault (R282). -/
def neverFaults : Instr → Bool
  | .nop | .reset | .clrw | .mdlInitStd => true
  | .blkLoad _ | .blkFdct | .blkQuant _ | .blkLast | .blkDeq _ | .blkIdct | .blkRecon _ => true
  | _ => false

/-- The commands every fault of which is a fault of a listed check (R286): the bit I/O commands, the
model commands, AC_ENC_INIT, AC_DEC_INIT, AC_DEC_CNT, BLK_MIDX. -/
def faultsPrecisely : Instr → Bool
  | .bwInit _ | .bwPut _ | .bwFlush | .brInit | .brGet _ | .brPeek _ | .brSkip _ => true
  | .mdlInit _ _ | .mdlInitStd | .mdlUpd _ _ | .mdlI2s _ _ | .mdlS2i _ | .mdlScale _ => true
  | .acEncInit | .acDecInit | .acDecCnt | .blkMidx => true
  | _ => false

/-- Run commands one after another; none if one of them stops, faults or is ignored. -/
def runAll : List Instr → State → Option State
  | [], s => some s
  | i :: is, s =>
    match exec i s with
    | .next t => if flag t .fault then none else runAll is t
    | .fault _ => none
    | .refused _ => none

/-! ## Reset (`10_state.md` R21, R50) -/

/-- The reset column of the register table: what the host reads from register `n` after a reset,
registers 22 to 25 being constants (R21). -/
def resetValue (c : Config) (n : Nat) : Word :=
  if n = 13 ∨ n = 16 then 0xFFFF
  else if n = 22 then 0x41414355
  else if n = 23 then BitVec.ofNat 32 c.obCap
  else if n = 24 then BitVec.ofNat 32 c.ibCap
  else if n = 25 then cfgWord c
  else 0

/-! ## Bits appended to OB (`40_bitio.md` R111, `20_memory.md` R64) -/

/-- OB was `old` and is `new` after the bits were appended at position `pos`: the bits land there in
order, every other stream bit is as it was (where a 0 is appended the old bit stays, R111), and no
byte outside those that hold the bits has changed. -/
def AppendsBits (old new : Memory) (pos : Nat) (bits : List Bool) : Prop :=
  (∀ k, streamBit new k =
    (streamBit old k || (decide (pos ≤ k) && bits.getD (k - pos) false))) ∧
  ∀ a, a < pos / 8 ∨ (pos + bits.length + 7) / 8 ≤ a → readByte new a = readByte old a

/-- The low `n` bits of a word, most significant first (R112). -/
def lowBits (v : Word) (n : Nat) : List Bool := (List.range n).map fun i => v.getLsbD (n - 1 - i)

/-- `n` consecutive bytes of a buffer. -/
def bytesAt (m : Memory) (a n : Nat) : List Byte := (List.range n).map fun i => readByte m (a + i)

/-! ## The coder on integers (`42_coder.md` R164, R165) -/

/-- `new_low` of Narrow on natural numbers (R164). -/
def narrowedLow (low high lc sc : Nat) : Nat := low + (high - low + 1) * lc / sc

/-- `new_high` of Narrow on natural numbers (R164). -/
def narrowedHigh (low high hc sc : Nat) : Nat := low + (high - low + 1) * hc / sc - 1

/-- What a renormalisation gives: the interval, the deferred bits, the emitted bits, the passes. -/
structure Renormed where
  low : Nat
  high : Nat
  pending : Nat
  bits : List Bool
  passes : Nat
deriving DecidableEq, Repr

/-- A pass in front of the rest of a renormalisation. -/
def Renormed.afterPass (bits : List Bool) (r : Renormed) : Renormed :=
  { r with bits := bits ++ r.bits, passes := r.passes + 1 }

/-- The renormalisation loop on integers, as R165 describes what each pass leaves: `2 * (x - b * HALF)`
after a settled bit `b`, which is emitted with the deferred opposite bits, `2 * (x - QUARTER)` after
an E3 pass, which defers one bit more; 1 is added to the high end. -/
def renormalise : Nat → Nat → Nat → Nat → Renormed
  | 0, low, high, pending => ⟨low, high, pending, [], 0⟩
  | n + 1, low, high, pending =>
    if high < 0x8000 then
      (renormalise n (2 * low) (2 * high + 1) 0).afterPass (false :: List.replicate pending true)
    else if 0x8000 ≤ low then
      (renormalise n (2 * (low - 0x8000)) (2 * (high - 0x8000) + 1) 0).afterPass
        (true :: List.replicate pending false)
    else if 0x4000 ≤ low ∧ high < 0xC000 then
      (renormalise n (2 * (low - 0x4000)) (2 * (high - 0x4000) + 1) (pending + 1)).afterPass []
    else ⟨low, high, pending, [], 0⟩

/-- What coding the triple `(lc, hc, sc)` makes of an interval and its deferred bits (R164, R165). -/
def codedInterval (low high pending lc hc sc : Nat) : Renormed :=
  renormalise 16 (narrowedLow low high lc sc) (narrowedHigh low high hc sc) pending

/-- What AC_ENC makes of the encoder registers and the symbol latch (R167). -/
def encoded (s : State) : Renormed :=
  codedInterval s.elow.toNat s.ehigh.toNat s.euf.toNat s.symLow.toNat s.symHigh.toNat
    s.symScale.toNat

/-- What AC_DEC_RM makes of the decoder's interval and the symbol latch (R177). -/
def removed (s : State) : Renormed :=
  codedInterval s.dlow.toNat s.dhigh.toNat 0 s.symLow.toNat s.symHigh.toNat s.symScale.toNat

/-- The code register after the passes that carry an interval whose low end is `nl` to `r`: the
distance from the low end doubles with each pass and takes the next stream bit (R176). -/
def carriedCode (s : State) (nl : Nat) (r : Renormed) : Nat :=
  r.low + (s.dcode.toNat - nl) * 2 ^ r.passes + bitsValue s.ib s.rpos.toNat r.passes

/-- What the removal of the triple `(lc, hc, sc)` leaves when the reader runs out of bits in the middle
of DecRenorm (R176, `60_exceptions.md` R287): as many whole passes as bits are left have run; in the
pass after them DLOW and DHIGH are shifted and DCODE is not, although an E3 pass has inverted its bit
14; RPOS stands at RLEN. -/
def stoppedDecoder (s : State) (lc hc sc : Nat) : State :=
  let nl := narrowedLow s.dlow.toNat s.dhigh.toNat lc sc
  let nh := narrowedHigh s.dlow.toNat s.dhigh.toNat hc sc
  let whole := s.rlen.toNat - s.rpos.toNat
  let r := renormalise whole nl nh 0
  let cut := renormalise (whole + 1) nl nh 0
  let code := BitVec.ofNat 16 (carriedCode s nl r)
  { s with
    dlow := BitVec.ofNat 16 cut.low, dhigh := BitVec.ofNat 16 cut.high
    dcode := if r.low < 0x8000 ∧ 0x8000 ≤ r.high then code ^^^ 0x4000 else code
    rpos := s.rlen }

/-- The count of AC_DEC_CNT on natural numbers (R174). -/
def decoderCount (low high code scale : Nat) : Nat := ((code - low + 1) * scale - 1) / (high - low + 1)

/-! ## The counts of a context (`41_model.md` R136, R139) -/

/-- `T[m][i]` as a number. -/
def count (s : State) (m : Fin 16) (i : Nat) : Nat := (ctxCount s m i).toNat

/-- The counts after the loop of Update (R136). -/
def bumpedCount (old : Nat → Nat) (sym i : Nat) : Nat := if sym < i then old i + 1 else old i

/-- The counts after Rescale (R139): half the old count, but at least one more than the new left
neighbour, which is 0 for index 0. -/
def rescaledCount (old : Nat → Nat) : Nat → Nat
  | 0 => max (old 0 / 2) 1
  | i + 1 => max (old (i + 1) / 2) (rescaledCount old i + 1)

/-- The counts after Update (R136): rescaled when the total reaches MAXIMUM_SCALE. -/
def updatedCount (old : Nat → Nat) (len sym i : Nat) : Nat :=
  if 16383 ≤ bumpedCount old sym len then rescaledCount (bumpedCount old sym) i
  else bumpedCount old sym i

/-- `t` is the table of context `m` after `Update(m, sym)`: the counts of indices 0 to `L` are the
updated ones, the other entries are as they were. -/
def TableUpdated (s : State) (m : Fin 16) (sym : Nat) (t : Table) : Prop :=
  ∀ e, (tableElem t e).toNat =
    if 1 ≤ e ∧ e ≤ ctxLen s m + 1 then updatedCount (count s m) (ctxLen s m) sym (e - 1)
    else (tableElem (ctxTable s m) e).toNat

/-- The invariants of an initialised context (`10_state.md` R40); that its width is at most BITS_MAX
is R37. -/
structure ContextOk (s : State) (m : Fin 16) : Prop where
  width : 1 ≤ ctxBits s m ∧ ctxBits s m ≤ 11
  virtual : tableElem (ctxTable s m) 0 = 0
  first : count s m 0 = 1
  rising : ∀ i, i < ctxLen s m → count s m i < count s m (i + 1)
  scaleLow : ctxLen s m + 1 ≤ count s m (ctxLen s m)
  scaleHigh : count s m (ctxLen s m) < 16383

/-- Every initialised context meets its invariants (R40). -/
def ContextsOk (s : State) : Prop := ∀ m, ctxBits s m ≠ 0 → ContextOk s m

/-- The standard contexts have their standard widths (`43_block.md` R214). -/
def StandardWidths (s : State) : Prop :=
  (List.finRange 12).map (fun m => ctxBits s (Fin.castLE (by decide) m)) =
    [3, 4, 5, 6, 7, 8, 9, 10, 11, 11, 6, 4]

/-! ## The coder registers (`10_state.md` R32) -/

/-- The invariant of an interval between commands (R32). -/
def IntervalOk (low high : Half) : Prop :=
  low.toNat < 0x8000 ∧ 0x8000 ≤ high.toNat ∧ (low.toNat < 0x4000 ∨ 0xC000 ≤ high.toNat)

/-- The encoder's registers (R32). -/
def EncoderOk (s : State) : Prop := IntervalOk s.elow s.ehigh

/-- The decoder's registers (R32). -/
def DecoderOk (s : State) : Prop :=
  IntervalOk s.dlow s.dhigh ∧ s.dlow.toNat ≤ s.dcode.toNat ∧ s.dcode.toNat ≤ s.dhigh.toNat

/-- The invariants of the coder registers, while their segment is open and no fault is set (R32). -/
def CodersOk (s : State) : Prop :=
  flag s .fault = false →
    (flag s .encAct = true → EncoderOk s) ∧ (flag s .decAct = true → DecoderOk s)

/-- The symbol latch is a legal triple (`42_coder.md` R163). -/
def LatchOk (s : State) : Prop :=
  s.symLow.toNat < s.symHigh.toNat ∧ s.symHigh.toNat ≤ s.symScale.toNat ∧
    1 ≤ s.symScale.toNat ∧ s.symScale.toNat ≤ 16383

/-! ## The block (`43_block.md`) -/

/-- `round(8192 * cos(j * pi / 16))` for `j` from 0 to 8. -/
def cosineTable : List Int := [8192, 8035, 7568, 6811, 5793, 4551, 3135, 1598, 0]

/-- `round(8192 * cos(j * pi / 16))` for every `j`, by the symmetries of the cosine. -/
def cosine16 (j : Nat) : Int :=
  let q := if j % 32 ≤ 16 then j % 32 else 32 - j % 32
  if q ≤ 8 then cosineTable.getD q 0 else -cosineTable.getD (16 - q) 0

/-- `K[u][x] = round(16384 * a(u) * cos((2x + 1) * u * pi / 16))` (R204). -/
def basisK (u x : Nat) : Int := if u = 0 then 5793 else cosine16 ((2 * x + 1) * u)

/-- `last` is the scan index of the last non-zero coefficient of ZZ, or 0 (R211). -/
def IsLastNonZero (s : State) (last : Nat) : Prop :=
  last ≤ 63 ∧ (last = 0 ∨ zzInt s last ≠ 0) ∧ ∀ i, last < i → i ≤ 63 → zzInt s i = 0

/-- `mx` is the largest magnitude in ZZ (R212). -/
def IsLargest (s : State) (mx : Nat) : Prop :=
  (∃ i, i ≤ 63 ∧ (zzInt s i).natAbs = mx) ∧ ∀ i, i ≤ 63 → (zzInt s i).natAbs ≤ mx

/-- `k` is the bucket of the magnitude `mx` (R212). -/
def IsBucket (mx k : Nat) : Prop := k ≤ 8 ∧ mx < 2 ^ (k + 2) ∧ ∀ j, j < k → 2 ^ (j + 2) ≤ mx

/-- The symbols of a block whose last non-zero index is `last` and whose bucket is `k`, each with its
context, in the order in which BLK_ENC codes them (R215). -/
def blockSymbols (s : State) (last k : Nat) : List (Fin 16 × Nat) :=
  [(10, last)] ++ (if last = 0 then [] else [(11, k)]) ++ [(9, (zzInt s 0 + 1023).toNat)] ++
    (List.range last).map fun i => (Fin.ofNat 16 k, (zzInt s (i + 1) + (2 ^ (k + 2) - 1)).toNat)

/-- The state after `DecSym(m)` has decoded the symbol `sym`: the latch, CNT, the decoder registers,
RPOS and the context are written, nothing else (`42_coder.md` R181 without its last line). -/
def decodedState (s : State) (m : Fin 16) (sym : Nat) : State :=
  let scale := count s m (ctxLen s m)
  let r := codedInterval s.dlow.toNat s.dhigh.toNat 0 (count s m sym) (count s m (sym + 1)) scale
  let nl := narrowedLow s.dlow.toNat s.dhigh.toNat (count s m sym) scale
  { s with
    symLow := ctxCount s m sym, symHigh := ctxCount s m (sym + 1)
    symScale := ctxCount s m (ctxLen s m)
    cnt := BitVec.ofNat 16 (decoderCount s.dlow.toNat s.dhigh.toNat s.dcode.toNat scale)
    dlow := BitVec.ofNat 16 r.low, dhigh := BitVec.ofNat 16 r.high
    dcode := BitVec.ofNat 16 (carriedCode s nl r)
    rpos := s.rpos + BitVec.ofNat 32 r.passes
    tables := s.tables.set m (tableOf fun e =>
      if 1 ≤ e ∧ e ≤ ctxLen s m + 1 then
        BitVec.ofNat 16 (updatedCount (count s m) (ctxLen s m) sym (e - 1))
      else tableElem (ctxTable s m) e) }

/-- The state after the given symbols have been decoded in their contexts, one after the other; none
where a symbol is not the one whose interval holds the decoder's count, or the reader has not the bits
that its removal takes. -/
def decodedRun : List (Fin 16 × Nat) → State → Option State
  | [], s => some s
  | (m, sym) :: rest, s =>
    let scale := count s m (ctxLen s m)
    let c := decoderCount s.dlow.toNat s.dhigh.toNat s.dcode.toNat scale
    let r := codedInterval s.dlow.toNat s.dhigh.toNat 0 (count s m sym) (count s m (sym + 1)) scale
    if sym < ctxLen s m ∧ count s m sym ≤ c ∧ c < count s m (sym + 1) ∧
        s.rpos.toNat + r.passes ≤ s.rlen.toNat then
      decodedRun rest (decodedState s m sym)
    else none

/-- The symbols of a block with their contexts, in the order in which BLK_DEC decodes them
(`43_block.md` R218): the last index, the bucket if there is one, the DC symbol, the others. -/
def decodedBlock (last k dc : Nat) (cs : List Nat) : List (Fin 16 × Nat) :=
  [(10, last)] ++ (if last = 0 then [] else [(11, k)]) ++ [(9, dc)] ++
    cs.map fun c => (Fin.ofNat 16 k, c)

/-! ## Coded rows (`44_rle.md`) -/

/-- The coded row and the row it stands for (R250): runs of 1 to 127, literals of 1 to 127. With
`zeros`, also the run of length 0 that a decoder accepts while the row is not complete (R258). -/
inductive RleRow (zeros : Bool) : List Byte → List Byte → Prop where
  | nil : RleRow zeros [] []
  | run (r : Nat) (v : Byte) (coded row : List Byte) : 1 ≤ r → r ≤ 127 → RleRow zeros coded row →
      RleRow zeros (BitVec.ofNat 8 r :: v :: coded) (List.replicate r v ++ row)
  | literal (bytes coded row : List Byte) : 1 ≤ bytes.length → bytes.length ≤ 127 →
      RleRow zeros coded row →
      RleRow zeros ((BitVec.ofNat 8 (0x80 + bytes.length) :: bytes) ++ coded) (bytes ++ row)
  | zero (v : Byte) (coded row : List Byte) : zeros = true → row ≠ [] → RleRow zeros coded row →
      RleRow zeros (0 :: v :: coded) row

/-- A pending literal as a record, if there is one (R252). -/
def literalRecord (pending : List Byte) : List Byte :=
  if pending = [] then [] else BitVec.ofNat 8 (0x80 + pending.length) :: pending

/-- The greedy encoder of R252 on lists: the row still to come, the pending literal, the shortest run
written as a run; `fuel` is at least the length of the row. -/
def greedyRow (minRun : Nat) : Nat → List Byte → List Byte → List Byte
  | 0, _, pending => literalRecord pending
  | _ + 1, [], pending => literalRecord pending
  | fuel + 1, v :: rest, pending =>
    let r := min 127 (1 + (rest.takeWhile (· = v)).length)
    if minRun ≤ r then
      literalRecord pending ++ [BitVec.ofNat 8 r, v] ++
        greedyRow minRun fuel ((v :: rest).drop r) []
    else if pending.length = 127 then
      literalRecord pending ++ greedyRow minRun fuel rest [v]
    else greedyRow minRun fuel rest (pending ++ [v])

/-! ## Invariants of the machine -/

/-- STATUS, FCODE and FINFO (`10_state.md` R23, `60_exceptions.md` R281, R283): the reserved bits are
zero, an open segment has its reader or writer, and the fault registers agree with the flag. -/
structure StatusOk (s : State) : Prop where
  reserved : s.status &&& 0xFFFFFEC0 = 0
  header : flag s .bwHdr = true → flag s .bwAct = true
  encoder : flag s .encAct = true → flag s .bwAct = true
  decoder : flag s .decAct = true → flag s .brAct = true
  noFault : flag s .fault = false → s.fcode = 0 ∧ s.finfo = 0
  faultCode : flag s .fault = true → 1 ≤ s.fcode.toNat ∧ s.fcode.toNat ≤ 15

/-- Both byte buffers are in canonical form. -/
def BuffersOk (s : State) : Prop := memoryWf s.ib = true ∧ memoryWf s.ob = true

/-- The bit writer, the bit reader and their buffers (`10_state.md` R33, R34, `20_memory.md` R60). -/
structure CursorsOk (s : State) : Prop where
  obCap : Config.capOk s.cfg.obCap
  ibCap : Config.capOk s.cfg.ibCap
  form : BuffersOk s
  obBytes : withinCap s.cfg.obCap s.ob = true
  ibBytes : withinCap s.cfg.ibCap s.ib = true
  header : flag s .bwHdr = true → flag s .bwAct = true
  writer : flag s .bwAct = true → s.wpos.toNat ≤ 8 * s.cfg.obCap
  blank : flag s .bwAct = true → ∀ k, s.wpos.toNat ≤ k → streamBit s.ob k = false
  blankHeader : flag s .bwHdr = true → 32 ≤ s.wpos.toNat ∧ ∀ k, k < 32 → streamBit s.ob k = false
  reader : flag s .brAct = true → s.rpos.toNat ≤ s.rlen.toNat ∧ s.rlen.toNat ≤ 8 * s.cfg.ibCap

end Sys2Proof.Machine
end

