-- ==== Sys2Proof/Certificates/Slice0/Obligations.lean ====
section
/-! DEFINITION. The statements about this model. Each docstring says which rule of spec/ it
formalises; the premises that name an invariant (memory in canonical form, a context that meets R40,
coder registers that meet R32, capacities of R9) rule out states that no run reaches. -/

open Sys2Proof Sys2Proof.Machine

/-! ## Encoding (`30_encoding.md`) -/

/-- Words written out from the opcode map (R95) and from examples of the rules decode to the commands
they stand for, and two words that are no command are refused. -/
def Obligations.DecodeSampleWords : Prop :=
  decode 0x00000000 = .ok .nop ∧
  decode 0x01000000 = .ok .reset ∧
  decode 0x10010000 = .ok (.bwInit true) ∧
  decode 0x1900000C = .ok (.brGet 12) ∧
  decode 0x20C00002 = .ok (.mdlInit 12 2) ∧
  decode 0x22C00001 = .ok (.mdlUpd 12 1) ∧
  decode 0x31000000 = .ok .acEnc ∧
  decode 0x3CC00001 = .ok (.symEnc 12 1) ∧
  decode 0x3DC00000 = .ok (.symDec 12) ∧
  decode 0x40010000 = .ok (.blkLoad true) ∧
  decode 0x50000000 = .ok .rleEnc ∧
  decode 0x10020000 = .error .mustBeZero ∧
  decode 0x7F000000 = .error .noSuchOpcode

/-- Decoding the word of a well-formed command gives the command back, for every command and every
operand its fields admit (R90, R95). -/
def Obligations.DecodeOfEncode : Prop :=
  ∀ i : Instr, i.WellFormed → decode (encode i) = .ok i

/-- A word that decodes is the word of the command it decodes to, which is well formed: no two words
stand for one command (R90, R95, R97). -/
def Obligations.EncodeOfDecode : Prop :=
  ∀ (w : Word) (i : Instr), decode w = .ok i → i.WellFormed ∧ encode i = w

/-- The opcode map (R95): a word is the command of a row if and only if `w & mask = match`; the rows
are pairwise disjoint; a word matching no row is illegal. -/
def Obligations.OpcodeMapMasks : Prop :=
  (∀ r ∈ opcodeMap, ∀ w : Word,
    w &&& r.mask = r.value ↔ ∃ i : Instr, decode w = .ok i ∧ i.opcode = r.opc) ∧
  opcodeMap.Pairwise (fun a b => ∀ w : Word, ¬(w &&& a.mask = a.value ∧ w &&& b.mask = b.value)) ∧
  ∀ w : Word, (∀ r ∈ opcodeMap, w &&& r.mask ≠ r.value) → ∃ e, decode w = .error e

/-- A word whose OPC is not in the map (R96), and any word that matches no row of the map (R97),
raises ERR_ILLEGAL_CMD with FINFO the whole word and changes nothing else; without the RLE unit so do
the words of its two opcodes (R98). -/
def Obligations.IllegalWordFaults : Prop :=
  ∀ (s : State) (w : Word), flag s .fault = false →
    ((∀ r ∈ opcodeMap, w.toNat / 2 ^ 24 ≠ r.opc) → command w s = .next (faultState 0x01 w s)) ∧
    ((∀ r ∈ opcodeMap, w &&& r.mask ≠ r.value) → command w s = .next (faultState 0x01 w s)) ∧
    (s.cfg.hasRle = false → w.toNat / 2 ^ 24 = 0x50 ∨ w.toNat / 2 ^ 24 = 0x51 →
      command w s = .next (faultState 0x01 w s))

/-! ## The machine -/

/-- A step whose next action writes a command word to CMD runs the command the word decodes to, on the
state without that action; `withFetchWord` places such an action (`10_state.md` R22, `20_memory.md`
R75; the queue is the model's choice: log 1). -/
def Obligations.StepRunsDecodedCommand : Prop :=
  ∀ (s : State) (w : Word) (i : Instr), decodeFor s.cfg.hasRle w = .ok i →
    (∀ rest, s.host = cmdWrite w :: rest → step s = exec i { s with host := rest }) ∧
    step (s.withFetchWord 32 w.toNat) = exec i s

/-- While FAULT is 1 a write to CMD of any word but a legal RESET changes nothing, RESET is accepted,
and host reads and writes work as always (`60_exceptions.md` R288): a write stores what it would store
without the fault, a read returns what it would return, but for the three fault registers. -/
def Obligations.FaultFreezesUnit : Prop :=
  ∀ s : State, flag s .fault = true →
    (∀ w : Word, w ≠ 0x01000000 → command w s = .next s) ∧
    (∃ t, command 0x01000000 s = .next t ∧ flag t .fault = false) ∧
    (∀ width addr v, hostStore width addr v s =
      { hostStore width addr v { s with status := 0, fcode := 0, finfo := 0 } with
        status := s.status, fcode := s.fcode, finfo := s.finfo }) ∧
    ∀ loc, loc ≠ .reg 1 → loc ≠ .reg 2 → loc ≠ .reg 3 →
      readLocation s loc = readLocation { s with status := 0, fcode := 0, finfo := 0 } loc

/-- A command other than RESET, on a unit without a fault, always answers: it completes, and CMDCNT
counts it modulo 2^32, or it faults with a code of the table, and CMDCNT stays (`10_state.md` R22,
`60_exceptions.md` R281, R285); the commands of R282 complete. -/
def Obligations.CompletesOrFaults : Prop :=
  ∀ (i : Instr) (s : State), i ≠ .reset → flag s .fault = false →
    ∃ t, exec i s = .next t ∧
      ((flag t .fault = false ∧ t.cmdcnt = s.cmdcnt + 1) ∨
        (flag t .fault = true ∧ t.cmdcnt = s.cmdcnt ∧ 1 ≤ t.fcode.toNat ∧ t.fcode.toNat ≤ 15)) ∧
      (neverFaults i = true → flag t .fault = false)

/-- Precise faults (`60_exceptions.md` R286): every fault of the bit I/O commands, the model commands,
AC_ENC_INIT, AC_DEC_INIT, AC_DEC_CNT and BLK_MIDX, and every fault that a listed check of any other
command raises, leaves all state other than STATUS.FAULT, FCODE and FINFO as it was. The codes 2 to 6
and 10, and 12 for BLK_ENC, are raised by checks only. -/
def Obligations.PreciseFaults : Prop :=
  ∀ (i : Instr) (s t : State), flag s .fault = false → exec i s = .next t → flag t .fault = true →
    (faultsPrecisely i = true ∨ (2 ≤ t.fcode.toNat ∧ t.fcode.toNat ≤ 6) ∨ t.fcode = 0x0A ∨
      (i = .blkEnc ∧ t.fcode = 0x0C)) →
    t = faultState t.fcode t.finfo s

/-- The unit-state requirements (`60_exceptions.md` R283): a command whose requirement fails raises
ERR_SEQ with its opcode and changes nothing else; a command whose requirement holds never does. -/
def Obligations.UnitStateFaults : Prop :=
  ∀ (i : Instr) (s : State), flag s .fault = false →
    (unitReady i s = false →
      exec i s = .next (faultState 0x02 (BitVec.ofNat 32 i.opcode) s)) ∧
    (unitReady i s = true → ∀ t, exec i s = .next t → flag t .fault = true → t.fcode ≠ 0x02)

/-- What a command may write (the column "AACU writes" of `20_memory.md` R60, `10_state.md` R25, R41):
PIX, REF, the matrices, IB and the parameters never; ARG0 and ARG1 by RESET only; every other space
by the commands its row names only. -/
def Obligations.CommandWriteSets : Prop :=
  ∀ (i : Instr) (s t : State), exec i s = .next t →
    (t.pix = s.pix ∧ t.ref = s.ref ∧ t.qf0 = s.qf0 ∧ t.qf1 = s.qf1 ∧ t.qi0 = s.qi0 ∧
      t.qi1 = s.qi1 ∧ t.ib = s.ib ∧ t.cfg = s.cfg ∧ t.host = s.host ∧
      t.hostData = s.hostData ∧ t.freeCount = s.freeCount) ∧
    (i ≠ .reset → t.arg0 = s.arg0 ∧ t.arg1 = s.arg1) ∧
    (i.opcode ∉ [0x40, 0x41, 0x49, 0x4A] → t.coef = s.coef) ∧
    (i.opcode ∉ [0x42, 0x48] → t.zz = s.zz) ∧
    (i.opcode ≠ 0x4B → t.recon = s.recon) ∧
    (i.opcode ∉ [0x10, 0x11, 0x12, 0x31, 0x32, 0x3C, 0x45, 0x50, 0x51] → t.ob = s.ob) ∧
    (i.opcode ∉ [0x20, 0x21, 0x01] → t.mbits = s.mbits) ∧
    (i.opcode ∉ [0x20, 0x21, 0x22, 0x3C, 0x3D, 0x45, 0x48] → t.tables = s.tables)

/-! ## Reset and the system commands -/

/-- After RESET every register holds the value of its row (R21), every context is uninitialised, and
the memories keep their contents; after hardware reset the registers and MBITS are the same and the
memories hold whatever contents the event brings (`10_state.md` R50, `45_system.md` R272,
`70_reset_and_hazards.md` R310; that the contents come with the event is the model's choice: log 7). -/
def Obligations.ResetResults : Prop :=
  ∀ s : State,
    (∃ t, exec .reset s = .next t ∧ (∀ n, n < 64 → readReg t n = resetValue s.cfg n) ∧
      (∀ m, ctxBits t m = 0) ∧ t.tables = s.tables ∧ t.pix = s.pix ∧ t.ref = s.ref ∧
      t.recon = s.recon ∧ t.coef = s.coef ∧ t.zz = s.zz ∧ t.qf0 = s.qf0 ∧ t.qf1 = s.qf1 ∧
      t.qi0 = s.qi0 ∧ t.qi1 = s.qi1 ∧ t.ib = s.ib ∧ t.ob = s.ob ∧ t.cfg = s.cfg) ∧
    ∀ p : PowerUp, ∃ t, act (.hardwareReset p) s = .next t ∧
      (∀ n, n < 64 → readReg t n = resetValue s.cfg n) ∧ (∀ m, ctxBits t m = 0) ∧
      t.tables = p.tables ∧ t.pix = p.pix ∧ t.ref = p.ref ∧ t.recon = p.recon ∧ t.coef = p.coef ∧
      t.zz = p.zz ∧ t.qf0 = p.qf0 ∧ t.qf1 = p.qf1 ∧ t.qi0 = p.qi0 ∧ t.qi1 = p.qi1 ∧
      (∀ a, readByte t.ib a = if a < s.cfg.ibCap then (p.ib.lookup a).getD 0 else 0) ∧
      (∀ a, readByte t.ob a = if a < s.cfg.obCap then (p.ob.lookup a).getD 0 else 0) ∧
      t.cfg = s.cfg

/-- NOP changes CMDCNT only (`45_system.md` R270); CLRW clears CLIPW, bit 8 of STATUS (R274). -/
def Obligations.SystemCommandResults : Prop :=
  ∀ s : State, flag s .fault = false →
    exec .nop s = .next { s with cmdcnt := s.cmdcnt + 1 } ∧
    exec .clrw s = .next { s with status := s.status &&& 0xFFFFFEFF, cmdcnt := s.cmdcnt + 1 }

/-! ## The host's window (`20_memory.md`) -/

/-- A host read at the address of an element returns the element zero-extended, COEF as it is and ZZ
sign-extended, and changes nothing of the AACU (R60, R61, `10_state.md` R21). The returned value
lands in the model's own field `hostData` (log 9). -/
def Obligations.HostReadsReturnElements : Prop :=
  ∀ s : State, Config.capOk s.cfg.ibCap → Config.capOk s.cfg.obCap →
    let word := fun (addr : Nat) (v : Word) =>
      act (.read .word addr) s = .next { s with hostData := v }
    (word 0 0 ∧ word 4 s.status ∧ word 8 (s.fcode.setWidth 32) ∧ word 12 s.finfo ∧
      word 16 s.arg0 ∧ word 20 s.arg1 ∧ word 24 s.ret0 ∧ word 28 s.ret1 ∧
      word 32 (s.symLow.setWidth 32) ∧ word 36 (s.symHigh.setWidth 32) ∧
      word 40 (s.symScale.setWidth 32) ∧ word 44 (s.cnt.setWidth 32) ∧
      word 48 (s.elow.setWidth 32) ∧ word 52 (s.ehigh.setWidth 32) ∧ word 56 s.euf ∧
      word 60 (s.dlow.setWidth 32) ∧ word 64 (s.dhigh.setWidth 32) ∧
      word 68 (s.dcode.setWidth 32) ∧ word 72 s.wpos ∧ word 76 s.rpos ∧ word 80 s.rlen ∧
      word 84 s.cmdcnt ∧ word 88 0x41414355 ∧ word 92 (BitVec.ofNat 32 s.cfg.obCap) ∧
      word 96 (BitVec.ofNat 32 s.cfg.ibCap) ∧ word 100 (cfgWord s.cfg)) ∧
    (∀ n, 26 ≤ n → n < 64 → word (4 * n) 0) ∧
    (∀ i : Fin 64,
      word (0x1000 + 4 * i) (s.pix[i].setWidth 32) ∧ word (0x1100 + 4 * i) (s.ref[i].setWidth 32) ∧
      word (0x1200 + 4 * i) (s.recon[i].setWidth 32) ∧ word (0x1300 + 4 * i) s.coef[i] ∧
      word (0x1400 + 4 * i) (s.zz[i].signExtend 32) ∧
      word (0x1500 + 4 * i) (s.qf0[i].setWidth 32) ∧ word (0x1600 + 4 * i) (s.qf1[i].setWidth 32) ∧
      word (0x1700 + 4 * i) (s.qi0[i].setWidth 32) ∧ word (0x1800 + 4 * i) (s.qi1[i].setWidth 32) ∧
      word (0x1900 + 4 * i) (BitVec.ofNat 32 (s.cfg.zigzag.get i))) ∧
    (∀ m : Fin 16, word (0x1A00 + 4 * m) ((s.mbits.get m).setWidth 32) ∧
      ∀ e, e < 2050 →
        word (0x10000 + 0x4000 * m + 4 * e) ((tableElem (ctxTable s m) e).setWidth 32)) ∧
    (∀ a, a < s.cfg.ibCap → act (.read .byte (0x100000 + a)) s =
      .next { s with hostData := (readByte s.ib a).setWidth 32 }) ∧
    ∀ a, a < s.cfg.obCap → act (.read .byte (0x200000 + a)) s =
      .next { s with hostData := (readByte s.ob a).setWidth 32 }

/-- A host write at the address of a writable element stores the low bits the element keeps; a write
to a read-only register or space has no effect (R60, R61, `10_state.md` R21). -/
def Obligations.HostWritesStore : Prop :=
  ∀ (s : State) (v : Word), Config.capOk s.cfg.ibCap → Config.capOk s.cfg.obCap →
    let word := fun (addr : Nat) (t : State) => act (.write .word addr v) s = .next t
    (word 16 { s with arg0 := v } ∧ word 20 { s with arg1 := v } ∧
      word 32 { s with symLow := v.setWidth 16 } ∧ word 36 { s with symHigh := v.setWidth 16 } ∧
      word 40 { s with symScale := v.setWidth 16 } ∧ word 44 { s with cnt := v.setWidth 16 }) ∧
    (∀ n, n < 64 → n ∉ [0, 4, 5, 8, 9, 10, 11] → word (4 * n) s) ∧
    (∀ i : Fin 64,
      word (0x1000 + 4 * i) { s with pix := s.pix.set i (v.setWidth 8) } ∧
      word (0x1100 + 4 * i) { s with ref := s.ref.set i (v.setWidth 8) } ∧
      word (0x1200 + 4 * i) s ∧
      word (0x1300 + 4 * i) { s with coef := s.coef.set i v } ∧
      word (0x1400 + 4 * i) { s with zz := s.zz.set i (v.setWidth 16) } ∧
      word (0x1500 + 4 * i) { s with qf0 := s.qf0.set i (v.setWidth 16) } ∧
      word (0x1600 + 4 * i) { s with qf1 := s.qf1.set i (v.setWidth 16) } ∧
      word (0x1700 + 4 * i) { s with qi0 := s.qi0.set i (v.setWidth 16) } ∧
      word (0x1800 + 4 * i) { s with qi1 := s.qi1.set i (v.setWidth 16) } ∧
      word (0x1900 + 4 * i) s) ∧
    (∀ m : Fin 16, word (0x1A00 + 4 * m) s ∧ ∀ e, e < 2050 → word (0x10000 + 0x4000 * m + 4 * e) s) ∧
    (memoryWf s.ib = true → ∀ a, a < s.cfg.ibCap →
      ∃ m, act (.write .byte (0x100000 + a) v) s = .next { s with ib := m } ∧
        ∀ b, readByte m b = if b = a then v.setWidth 8 else readByte s.ib b) ∧
    ∀ a, a < s.cfg.obCap → act (.write .byte (0x200000 + a) v) s = .next s

/-- The host accesses that R61 calls neither legal nor effective: another width, a misaligned address,
an address in no space, an MT index of 2050 or more. A write has no effect; a read returns an
unspecified value (the model's free value: log 8) and has no effect on the AACU. -/
def Obligations.IllegalHostAccesses : Prop :=
  ∀ (s : State) (width : BusWidth) (addr : Nat),
    (width = .half ∨
      (width = .word ∧ addr % 4 ≠ 0) ∨
      (width = .word ∧ 0x100 ≤ addr ∧ addr < 0x1000) ∨
      (width = .word ∧ 0x1A40 ≤ addr ∧ addr < 0x10000) ∨
      (width = .word ∧ 0x10000 ≤ addr ∧ addr < 0x50000 ∧ 2050 ≤ addr % 0x4000 / 4) ∨
      (width = .word ∧ 0x50000 ≤ addr) ∨
      (width = .byte ∧ addr < 0x100000) ∨
      (width = .byte ∧ 0x100000 + s.cfg.ibCap ≤ addr ∧ addr < 0x200000) ∨
      (width = .byte ∧ 0x100000 + s.cfg.ibCap ≤ addr ∧ 0x200000 + s.cfg.obCap ≤ addr)) →
    (∀ v, act (.write width addr v) s = .next s) ∧
    act (.read width addr) s =
      .next { s with hostData := Config.freeRead s.freeCount, freeCount := s.freeCount + 1 }

/-! ## Bit I/O (`40_bitio.md`) -/

/-- BW_INIT (R113): OB is all zero, WPOS is 0 or 32, BW_ACT is set and BW_HDR is the flag; nothing
else changes. An open segment refuses it; a header needs four bytes. -/
def Obligations.BwInitResult : Prop :=
  ∀ (s : State) (hdr : Bool), flag s .fault = false →
    (flag s .encAct = false → (hdr = true → 4 ≤ s.cfg.obCap) →
      ∃ m, exec (.bwInit hdr) s = .next { s with
          ob := m, wpos := if hdr then 32 else 0
          status := if hdr then s.status ||| 6 else (s.status ||| 2) &&& 0xFFFFFFFB
          cmdcnt := s.cmdcnt + 1 } ∧
        ∀ a, readByte m a = 0) ∧
    (flag s .encAct = true → exec (.bwInit hdr) s = .next (faultState 0x02 0x10 s)) ∧
    (flag s .encAct = false → hdr = true → s.cfg.obCap < 4 →
      exec (.bwInit hdr) s = .next (faultState 0x07 0 s))

/-- BW_PUT (R114, R112, R64): the low `n` bits of ARG0 are appended to OB at WPOS, most significant
first, and nothing else changes; the three checks in their order, none of which writes a bit. -/
def Obligations.BwPutResult : Prop :=
  ∀ (s : State) (n : Nat), flag s .fault = false → memoryWf s.ob = true → s.cfg.obCap ≤ 2 ^ 20 →
    (flag s .bwAct = true → n ≤ 32 → s.wpos.toNat + n ≤ 8 * s.cfg.obCap →
      ∃ m, exec (.bwPut n) s = .next { s with
          ob := m, wpos := s.wpos + BitVec.ofNat 32 n, cmdcnt := s.cmdcnt + 1 } ∧
        AppendsBits s.ob m s.wpos.toNat (lowBits s.arg0 n)) ∧
    (flag s .bwAct = false → exec (.bwPut n) s = .next (faultState 0x02 0x11 s)) ∧
    (flag s .bwAct = true → 32 < n →
      exec (.bwPut n) s = .next (faultState 0x03 (BitVec.ofNat 32 n) s)) ∧
    (flag s .bwAct = true → n ≤ 32 → 8 * s.cfg.obCap < s.wpos.toNat + n →
      exec (.bwPut n) s = .next (faultState 0x07 s.wpos s))

/-- Any sequence of BW_PUT commands, the host writing ARG0 before each, appends the concatenation of
their bits; from a blank buffer every later stream bit stays 0. (The spec's own inference, marked
derived in R115, from R111 to R114.) -/
def Obligations.BitWriterConcatenates : Prop :=
  ∀ (puts : List (Nat × Word)) (s t : State), memoryWf s.ob = true → s.cfg.obCap ≤ 2 ^ 20 →
    puts.foldlM (fun s p => runAll [.bwPut p.1] { s with arg0 := p.2 }) s = some t →
    t.wpos.toNat = s.wpos.toNat + (puts.map Prod.fst).sum ∧
    AppendsBits s.ob t.ob s.wpos.toNat (puts.flatMap fun p => lowBits p.2 p.1) ∧
    ((∀ k, s.wpos.toNat ≤ k → streamBit s.ob k = false) →
      ∀ k, t.wpos.toNat ≤ k → streamBit t.ob k = false)

/-- BW_FLUSH (R116, R65): WPOS moves up to the next byte, RET0 is the byte count, RET1 the payload
count; with a header the payload count goes little-endian into bytes 0 to 3; BW_ACT and BW_HDR are
cleared; nothing else changes. -/
def Obligations.BwFlushResult : Prop :=
  ∀ s : State, flag s .fault = false → memoryWf s.ob = true → s.cfg.obCap ≤ 2 ^ 20 →
    s.wpos.toNat ≤ 8 * s.cfg.obCap →
    let total := (s.wpos.toNat + 7) / 8
    let flushed := { s with
      wpos := BitVec.ofNat 32 (8 * total), ret0 := BitVec.ofNat 32 total
      status := s.status &&& 0xFFFFFFF9, cmdcnt := s.cmdcnt + 1 }
    (flag s .bwAct = true → flag s .encAct = false → flag s .bwHdr = false →
      exec .bwFlush s = .next { flushed with ret1 := BitVec.ofNat 32 total }) ∧
    (flag s .bwAct = true → flag s .encAct = false → flag s .bwHdr = true → 32 ≤ s.wpos.toNat →
      ∃ m, exec .bwFlush s =
          .next { flushed with ret1 := BitVec.ofNat 32 (total - 4), ob := m } ∧
        ∀ a, readByte m a =
          if a < 4 then (BitVec.ofNat 32 (total - 4)).extractLsb' (8 * a) 8 else readByte s.ob a) ∧
    (flag s .bwAct = false ∨ flag s .encAct = true →
      exec .bwFlush s = .next (faultState 0x02 0x12 s))

/-- BR_INIT (R117): RPOS and RLEN from ARG0 and ARG1, BR_ACT set, DEC_ACT cleared, nothing else; a
range beyond IB is an operand fault. -/
def Obligations.BrInitResult : Prop :=
  ∀ s : State, flag s .fault = false →
    (s.arg0.toNat + s.arg1.toNat ≤ 8 * s.cfg.ibCap →
      exec .brInit s = .next { s with
        rpos := s.arg0, rlen := BitVec.ofNat 32 (s.arg0.toNat + s.arg1.toNat)
        status := (s.status ||| 8) &&& 0xFFFFFFDF, cmdcnt := s.cmdcnt + 1 }) ∧
    (8 * s.cfg.ibCap < s.arg0.toNat + s.arg1.toNat →
      exec .brInit s = .next (faultState 0x03 s.arg1 s))

/-- BR_GET, BR_PEEK and BR_SKIP (R119 to R121): RET0 takes the next `n` stream bits, most significant
first and zero-extended, RPOS moves past them, nothing else changes; BR_PEEK leaves RPOS, BR_SKIP
leaves RET0. The three checks in their order. -/
def Obligations.BitReaderResults : Prop :=
  ∀ (s : State) (n : Nat), flag s .fault = false →
    (flag s .brAct = true → n ≤ 32 → s.rpos.toNat + n ≤ s.rlen.toNat →
      ∃ v : Word, v.toNat < 2 ^ n ∧
        (∀ i, i < n → v.getLsbD (n - 1 - i) = streamBit s.ib (s.rpos.toNat + i)) ∧
        exec (.brGet n) s = .next { s with
          ret0 := v, rpos := s.rpos + BitVec.ofNat 32 n, cmdcnt := s.cmdcnt + 1 } ∧
        exec (.brPeek n) s = .next { s with ret0 := v, cmdcnt := s.cmdcnt + 1 } ∧
        exec (.brSkip n) s = .next { s with
          rpos := s.rpos + BitVec.ofNat 32 n, cmdcnt := s.cmdcnt + 1 }) ∧
    (flag s .brAct = false →
      exec (.brGet n) s = .next (faultState 0x02 0x19 s) ∧
      exec (.brPeek n) s = .next (faultState 0x02 0x1A s) ∧
      exec (.brSkip n) s = .next (faultState 0x02 0x1B s)) ∧
    (flag s .brAct = true → 32 < n → ∀ i ∈ [Instr.brGet n, .brPeek n, .brSkip n],
      exec i s = .next (faultState 0x03 (BitVec.ofNat 32 n) s)) ∧
    (flag s .brAct = true → n ≤ 32 → s.rlen.toNat < s.rpos.toNat + n →
      ∀ i ∈ [Instr.brGet n, .brPeek n, .brSkip n], exec i s = .next (faultState 0x08 s.rpos s))

/-! ## Frequency models (`41_model.md`) -/

/-- MDL_INIT (R133): the entries of indices -1 to `L` take their initial counts, MBITS the width; no
other entry, no other context and nothing else changes; a width outside 1 to 11 is an operand fault. -/
def Obligations.MdlInitResult : Prop :=
  ∀ (s : State) (m : Fin 16) (bits : Nat), flag s .fault = false →
    (1 ≤ bits → bits ≤ 11 →
      ∃ t, exec (.mdlInit m bits) s = .next { s with
          tables := s.tables.set m t, mbits := s.mbits.set m (BitVec.ofNat 4 bits)
          cmdcnt := s.cmdcnt + 1 } ∧
        ∀ e, tableElem t e =
          if e ≤ 2 ^ bits + 1 then BitVec.ofNat 16 e else tableElem (ctxTable s m) e) ∧
    (bits = 0 ∨ 11 < bits →
      exec (.mdlInit m bits) s = .next (faultState 0x03 (BitVec.ofNat 32 bits) s))

/-- MDL_INIT_STD (R135): contexts 0 to 11 take their standard widths (R131) and initial counts;
contexts 12 to 15 and everything else are unchanged. -/
def Obligations.MdlInitStdResult : Prop :=
  ∀ s : State, flag s .fault = false →
    ∃ tables mbits, exec .mdlInitStd s = .next { s with
        tables := tables, mbits := mbits, cmdcnt := s.cmdcnt + 1 } ∧
      ∀ m : Fin 16,
        if m.val < 12 then
          let bits := [3, 4, 5, 6, 7, 8, 9, 10, 11, 11, 6, 4].getD m.val 0
          (mbits.get m).toNat = bits ∧
          ∀ e, tableElem (tables.get m) e =
            if e ≤ 2 ^ bits + 1 then BitVec.ofNat 16 e else tableElem (ctxTable s m) e
        else mbits.get m = s.mbits.get m ∧ tables.get m = s.tables.get m

/-- MDL_UPD (R136, R137, R139): the counts above the symbol grow by one, and all counts are rescaled
in the same command when the scale reaches 16383; nothing but this table changes. The two checks. -/
def Obligations.MdlUpdResult : Prop :=
  ∀ (s : State) (m : Fin 16) (sym : Nat), flag s .fault = false →
    (ContextOk s m → sym < ctxLen s m →
      ∃ t, exec (.mdlUpd m sym) s = .next { s with
          tables := s.tables.set m t, cmdcnt := s.cmdcnt + 1 } ∧
        TableUpdated s m sym t) ∧
    (ctxBits s m = 0 →
      exec (.mdlUpd m sym) s = .next (faultState 0x04 (BitVec.ofNat 32 m) s)) ∧
    (ctxBits s m ≠ 0 → ctxLen s m ≤ sym →
      exec (.mdlUpd m sym) s = .next (faultState 0x03 (BitVec.ofNat 32 sym) s))

/-- Rescale (R140) of a table whose virtual entry is 0: (a), (c) the result rises strictly, whatever
the other entries; (b) where the old entries do not fall, an entry is at most half the old one plus
its index plus one, so a scale of at most 16383 becomes at most 10240; (d) a second rescale keeps the
result rising; (e) the first count stays 1. (The spec's own inference, marked derived in R140, from
R139.) -/
def Obligations.RescaleProperties : Prop :=
  ∀ (t : Table) (len : Nat), 1 ≤ len → len ≤ 2048 → tableElem t 0 = 0 →
    let elem := fun u e => (tableElem u e).toNat
    let r := rescaleTable t len
    (∀ e, e ≤ len → elem r e < elem r (e + 1)) ∧
    ((∀ e, e ≤ len → elem t e ≤ elem t (e + 1)) →
      (∀ i, i ≤ len → elem r (i + 1) ≤ elem t (i + 1) / 2 + i + 1) ∧
      (elem t (len + 1) ≤ 16383 → elem r (len + 1) ≤ 8191 + len + 1 ∧ elem r (len + 1) ≤ 10240)) ∧
    (∀ e, e ≤ len → elem (rescaleTable r len) e < elem (rescaleTable r len) (e + 1)) ∧
    (elem t 1 = 1 → elem r 1 = 1)

/-- MDL_I2S and MDL_SCALE (R141, R145): the latch takes the symbol's two counts and the scale; or
SYM_SCALE and RET0 take the scale; nothing else changes. In a context that meets its invariants the
triple is legal. The checks. -/
def Obligations.ModelLookupResults : Prop :=
  ∀ (s : State) (m : Fin 16) (sym : Nat), flag s .fault = false →
    (ctxBits s m ≠ 0 → sym < ctxLen s m → ∃ t, exec (.mdlI2s m sym) s = .next t ∧
      t = { s with
        symLow := ctxCount s m sym, symHigh := ctxCount s m (sym + 1)
        symScale := ctxCount s m (ctxLen s m), cmdcnt := s.cmdcnt + 1 } ∧
      (ContextOk s m → LatchOk t ∧ 1 ≤ t.symLow.toNat ∧ t.symScale.toNat ≤ 16382)) ∧
    (ctxBits s m ≠ 0 → exec (.mdlScale m) s = .next { s with
      symScale := ctxCount s m (ctxLen s m), ret0 := (ctxCount s m (ctxLen s m)).setWidth 32
      cmdcnt := s.cmdcnt + 1 }) ∧
    (ctxBits s m = 0 →
      exec (.mdlI2s m sym) s = .next (faultState 0x04 (BitVec.ofNat 32 m) s) ∧
      exec (.mdlScale m) s = .next (faultState 0x04 (BitVec.ofNat 32 m) s)) ∧
    (ctxBits s m ≠ 0 → ctxLen s m ≤ sym →
      exec (.mdlI2s m sym) s = .next (faultState 0x03 (BitVec.ofNat 32 sym) s))

/-- MDL_S2I (R142, R143): RET0 takes the largest symbol whose count is at most CNT, the latch its
triple; nothing else changes. The three checks: no context, a count at or above the scale, a count
below every symbol's. -/
def Obligations.MdlS2iResult : Prop :=
  ∀ (s : State) (m : Fin 16), flag s .fault = false →
    (∀ c, ctxBits s m ≠ 0 → s.cnt.toNat < count s m (ctxLen s m) → c < ctxLen s m →
      count s m c ≤ s.cnt.toNat → (∀ d, c < d → d < ctxLen s m → s.cnt.toNat < count s m d) →
      exec (.mdlS2i m) s = .next { s with
        ret0 := BitVec.ofNat 32 c, symLow := ctxCount s m c, symHigh := ctxCount s m (c + 1)
        symScale := ctxCount s m (ctxLen s m), cmdcnt := s.cmdcnt + 1 }) ∧
    (ctxBits s m = 0 → exec (.mdlS2i m) s = .next (faultState 0x04 (BitVec.ofNat 32 m) s)) ∧
    (ctxBits s m ≠ 0 → count s m (ctxLen s m) ≤ s.cnt.toNat →
      exec (.mdlS2i m) s = .next (faultState 0x03 (s.cnt.setWidth 32) s)) ∧
    (ctxBits s m ≠ 0 → s.cnt.toNat < count s m (ctxLen s m) →
      (∀ c, c < ctxLen s m → s.cnt.toNat < count s m c) →
      exec (.mdlS2i m) s = .next (faultState 0x09 (s.cnt.setWidth 32) s))

/-- MDL_S2I inverts MDL_I2S (the spec's own inference, marked derived in R144): in a context that meets its invariants any count in a symbol's
interval gives back the symbol, and for any count from 1 below the scale the triple returned contains
the count. -/
def Obligations.S2iInvertsI2s : Prop :=
  ∀ (s : State) (m : Fin 16), flag s .fault = false → ContextOk s m →
    (∀ sym, sym < ctxLen s m → count s m sym ≤ s.cnt.toNat → s.cnt.toNat < count s m (sym + 1) →
      ∃ t, exec (.mdlS2i m) s = .next t ∧ flag t .fault = false ∧ t.ret0.toNat = sym) ∧
    (1 ≤ s.cnt.toNat → s.cnt.toNat < count s m (ctxLen s m) →
      ∃ t, exec (.mdlS2i m) s = .next t ∧ flag t .fault = false ∧
        t.symLow.toNat ≤ s.cnt.toNat ∧ s.cnt.toNat < t.symHigh.toNat)

/-! ## The arithmetic coder (`42_coder.md`) -/

/-- AC_ENC_INIT (R161): the whole interval, no pending bit, ENC_ACT set, nothing else; it needs an
open writer and no open segment. -/
def Obligations.AcEncInitResult : Prop :=
  ∀ s : State, flag s .fault = false →
    (flag s .bwAct = true → flag s .encAct = false →
      exec .acEncInit s = .next { s with
        elow := 0, ehigh := 0xFFFF, euf := 0, status := s.status ||| 0x10
        cmdcnt := s.cmdcnt + 1 }) ∧
    (flag s .bwAct = false ∨ flag s .encAct = true →
      exec .acEncInit s = .next (faultState 0x02 0x30 s))

/-- Narrow (R164): from an interval that meets R32 and a legal triple the new interval is not empty
and lies inside the old one, so both ends fit 16 bits. -/
def Obligations.NarrowStaysInside : Prop :=
  ∀ low high lc hc sc : Half, IntervalOk low high → lc.toNat < hc.toNat → hc.toNat ≤ sc.toNat →
    sc.toNat ≤ 16383 →
    (low.toNat : Int) ≤ narrowLow low high lc sc ∧
    narrowLow low high lc sc ≤ narrowHigh low high hc sc ∧
    narrowHigh low high hc sc ≤ high.toNat ∧
    narrowLow low high lc sc = narrowedLow low.toNat high.toNat lc.toNat sc.toNat ∧
    narrowHigh low high hc sc = narrowedHigh low.toNat high.toNat hc.toNat sc.toNat

/-- AC_ENC (R163 to R168): the interval is narrowed and renormalised, on integers as R165 describes
it; the settled bits with the deferred opposite ones are appended to OB; the registers end with the
invariant of R32; every pass writes a bit or defers one (R168, like R32 the spec's own inference);
nothing else changes. An illegal latch is ERR_BAD_TRIPLE. -/
def Obligations.AcEncResult : Prop :=
  ∀ s : State, flag s .fault = false → flag s .encAct = true →
    (LatchOk s → EncoderOk s → memoryWf s.ob = true → s.cfg.obCap ≤ 2 ^ 20 →
      s.euf.toNat + 16 < 2 ^ 32 →
      s.wpos.toNat + (encoded s).bits.length ≤ 8 * s.cfg.obCap →
      ∃ m t, exec .acEnc s = .next t ∧
        t = { s with
          elow := BitVec.ofNat 16 (encoded s).low, ehigh := BitVec.ofNat 16 (encoded s).high
          euf := BitVec.ofNat 32 (encoded s).pending, ob := m
          wpos := s.wpos + BitVec.ofNat 32 (encoded s).bits.length, cmdcnt := s.cmdcnt + 1 } ∧
        AppendsBits s.ob m s.wpos.toNat (encoded s).bits ∧
        EncoderOk t ∧
        t.wpos.toNat + t.euf.toNat = s.wpos.toNat + s.euf.toNat + (encoded s).passes) ∧
    (¬LatchOk s → exec .acEnc s =
      .next (faultState 0x06 (BitVec.ofNat 32 (s.symLow.toNat + 65536 * s.symHigh.toNat)) s))

/-- The faults of AC_ENC while it codes (R111, R165, R69, `60_exceptions.md` R287). Where its bits do
not all fit OB it raises ERR_OB_FULL at the end of OB, the bits before it are written, none after it,
and CMDCNT stays. Where EUF is 2^32 - 1 and the first pass is an E3 pass it raises ERR_UF_OVF with EUF;
the interval is then narrowed and nothing else has changed. -/
def Obligations.AcEncFaultsWhileCoding : Prop :=
  ∀ s : State, flag s .fault = false → flag s .encAct = true → LatchOk s → EncoderOk s →
    (memoryWf s.ob = true → s.cfg.obCap ≤ 2 ^ 20 → s.euf.toNat + 16 < 2 ^ 32 →
      s.wpos.toNat ≤ 8 * s.cfg.obCap →
      8 * s.cfg.obCap < s.wpos.toNat + (encoded s).bits.length →
      ∃ t, exec .acEnc s = .next t ∧ flag t .fault = true ∧ t.fcode = 0x07 ∧
        t.wpos.toNat = 8 * s.cfg.obCap ∧ t.finfo = t.wpos ∧ t.cmdcnt = s.cmdcnt ∧
        AppendsBits s.ob t.ob s.wpos.toNat
          ((encoded s).bits.take (8 * s.cfg.obCap - s.wpos.toNat))) ∧
    let nl := narrowedLow s.elow.toNat s.ehigh.toNat s.symLow.toNat s.symScale.toNat
    let nh := narrowedHigh s.elow.toNat s.ehigh.toNat s.symHigh.toNat s.symScale.toNat
    (s.euf = 0xFFFFFFFF → 0x4000 ≤ nl → nl < 0x8000 → 0x8000 ≤ nh → nh < 0xC000 →
      exec .acEnc s = .next (faultState 0x0F 0xFFFFFFFF
        { s with elow := BitVec.ofNat 16 nl, ehigh := BitVec.ofNat 16 nh }))

/-- AC_ENC_FLUSH (R169): bit 14 of ELOW, `EUF + 1` copies of its complement, fourteen zeros; EUF is 0
and ENC_ACT is cleared; ELOW, EHIGH and everything else are as they were. -/
def Obligations.AcEncFlushResult : Prop :=
  ∀ s : State, flag s .fault = false → memoryWf s.ob = true → s.cfg.obCap ≤ 2 ^ 20 →
    (flag s .encAct = true → s.wpos.toNat + s.euf.toNat + 16 ≤ 8 * s.cfg.obCap →
      ∃ m, exec .acEncFlush s = .next { s with
          euf := 0, ob := m, wpos := s.wpos + BitVec.ofNat 32 (s.euf.toNat + 16)
          status := s.status &&& 0xFFFFFFEF, cmdcnt := s.cmdcnt + 1 } ∧
        AppendsBits s.ob m s.wpos.toNat
          (s.elow.getLsbD 14 :: List.replicate (s.euf.toNat + 1) (!s.elow.getLsbD 14) ++
            List.replicate 14 false)) ∧
    (flag s .encAct = false → exec .acEncFlush s = .next (faultState 0x02 0x32 s))

/-- AC_DEC_INIT (R172): the whole interval, DCODE the next 16 stream bits, the first of them DCODE[15],
RPOS past them, DEC_ACT set, nothing else. The two checks. -/
def Obligations.AcDecInitResult : Prop :=
  ∀ s : State, flag s .fault = false →
    (flag s .brAct = true → s.rpos.toNat + 16 ≤ s.rlen.toNat →
      ∃ code : Half, (∀ i, i < 16 → code.getLsbD (15 - i) = streamBit s.ib (s.rpos.toNat + i)) ∧
        exec .acDecInit s = .next { s with
          dlow := 0, dhigh := 0xFFFF, dcode := code, rpos := s.rpos + 16
          status := s.status ||| 0x20, cmdcnt := s.cmdcnt + 1 }) ∧
    (flag s .brAct = false → exec .acDecInit s = .next (faultState 0x02 0x38 s)) ∧
    (flag s .brAct = true → s.rlen.toNat < s.rpos.toNat + 16 →
      exec .acDecInit s = .next (faultState 0x08 s.rpos s))

/-- AC_DEC_CNT (R174): CNT and RET0 take the count; nothing else changes. The two checks: the unit
state, and a scale outside 1 to 16383. That the count lies below the scale is the spec's own inference,
marked derived in R175 (a). -/
def Obligations.AcDecCntResult : Prop :=
  ∀ s : State, flag s .fault = false →
    let c := decoderCount s.dlow.toNat s.dhigh.toNat s.dcode.toNat s.symScale.toNat
    (flag s .decAct = true → 1 ≤ s.symScale.toNat → s.symScale.toNat ≤ 16383 →
      s.dlow.toNat ≤ s.dcode.toNat → s.dcode.toNat ≤ s.dhigh.toNat →
      c < s.symScale.toNat ∧
      exec .acDecCnt s = .next { s with
        cnt := BitVec.ofNat 16 c, ret0 := BitVec.ofNat 32 c, cmdcnt := s.cmdcnt + 1 }) ∧
    (flag s .decAct = false → exec .acDecCnt s = .next (faultState 0x02 0x39 s)) ∧
    (flag s .decAct = true → s.symScale.toNat = 0 ∨ 16383 < s.symScale.toNat →
      exec .acDecCnt s =
        .next (faultState 0x06 (BitVec.ofNat 32 (s.symLow.toNat + 65536 * s.symHigh.toNat)) s))

/-- Correctness of the count (the spec's own inference, marked derived in R175): it lies in 0 to the scale less one, and narrowing by a triple
keeps the code inside if and only if the count lies in the triple's interval. -/
def Obligations.CountSelectsSymbol : Prop :=
  ∀ low high code sc : Half, low.toNat ≤ code.toNat → code.toNat ≤ high.toNat → 1 ≤ sc.toNat →
    0 ≤ countOf low high code sc ∧ countOf low high code sc < sc.toNat ∧
    ∀ lc hc : Half,
      (narrowLow low high lc sc ≤ code.toNat ∧ (code.toNat : Int) ≤ narrowHigh low high hc sc) ↔
        ((lc.toNat : Int) ≤ countOf low high code sc ∧ countOf low high code sc < hc.toNat)

/-- AC_DEC_RM (R163, R164, R176, R177): the interval is narrowed and renormalised as the encoder's, the
code register keeps its place in it and takes one stream bit a pass, the registers end with the
invariant of R32; nothing else changes. Where the reader has too few bits ERR_BR_OVERRUN is raised in
the middle of the loop, at RPOS = RLEN, with DLOW and DHIGH of the pass shifted and DCODE not (R287).
An illegal latch and a code outside the triple's interval fault. -/
def Obligations.AcDecRmResult : Prop :=
  ∀ s : State, flag s .fault = false → flag s .decAct = true →
    let nl := narrowedLow s.dlow.toNat s.dhigh.toNat s.symLow.toNat s.symScale.toNat
    let nh := narrowedHigh s.dlow.toNat s.dhigh.toNat s.symHigh.toNat s.symScale.toNat
    (LatchOk s → DecoderOk s → nl ≤ s.dcode.toNat → s.dcode.toNat ≤ nh →
      s.rpos.toNat + (removed s).passes ≤ s.rlen.toNat →
      ∃ t, exec .acDecRm s = .next t ∧
        t = { s with
          dlow := BitVec.ofNat 16 (removed s).low, dhigh := BitVec.ofNat 16 (removed s).high
          dcode := BitVec.ofNat 16 (carriedCode s nl (removed s))
          rpos := s.rpos + BitVec.ofNat 32 (removed s).passes, cmdcnt := s.cmdcnt + 1 } ∧
        DecoderOk t) ∧
    (LatchOk s → DecoderOk s → nl ≤ s.dcode.toNat → s.dcode.toNat ≤ nh →
      s.rpos.toNat ≤ s.rlen.toNat → s.rlen.toNat < s.rpos.toNat + (removed s).passes →
      exec .acDecRm s = .next (faultState 0x08 s.rlen
        (stoppedDecoder s s.symLow.toNat s.symHigh.toNat s.symScale.toNat))) ∧
    (¬LatchOk s → exec .acDecRm s =
      .next (faultState 0x06 (BitVec.ofNat 32 (s.symLow.toNat + 65536 * s.symHigh.toNat)) s)) ∧
    (LatchOk s → DecoderOk s → (s.dcode.toNat < nl ∨ nh < s.dcode.toNat) →
      exec .acDecRm s = .next (faultState 0x0A (s.dcode.setWidth 32) s))

/-- Lockstep, one symbol (the spec's own inference, marked derived in R178): an encoder and a decoder with the same interval and the same triple
in the latch have the same interval after AC_ENC and AC_DEC_RM, if neither faults, and the decoder's
code lies in it. -/
def Obligations.LockstepOneSymbol : Prop :=
  ∀ e e' d d' : State, EncoderOk e → DecoderOk d → d.dlow = e.elow → d.dhigh = e.ehigh →
    d.symLow = e.symLow → d.symHigh = e.symHigh → d.symScale = e.symScale →
    exec .acEnc e = .next e' → exec .acDecRm d = .next d' →
    flag e' .fault = false → flag d' .fault = false →
    d'.dlow = e'.elow ∧ d'.dhigh = e'.ehigh ∧
      d'.dlow.toNat ≤ d'.dcode.toNat ∧ d'.dcode.toNat ≤ d'.dhigh.toNat

/-- SYM_ENC (R179): the latch takes the symbol's triple, the triple is coded as AC_ENC codes it, then
the context is updated; nothing else changes. The checks of the context and the symbol. -/
def Obligations.SymEncResult : Prop :=
  ∀ (s : State) (m : Fin 16) (sym : Nat), flag s .fault = false → flag s .encAct = true →
    let r := codedInterval s.elow.toNat s.ehigh.toNat s.euf.toNat (count s m sym)
      (count s m (sym + 1)) (count s m (ctxLen s m))
    (ContextOk s m → EncoderOk s → sym < ctxLen s m → memoryWf s.ob = true →
      s.cfg.obCap ≤ 2 ^ 20 → s.euf.toNat + 16 < 2 ^ 32 →
      s.wpos.toNat + r.bits.length ≤ 8 * s.cfg.obCap →
      ∃ ob t, exec (.symEnc m sym) s = .next { s with
          symLow := ctxCount s m sym, symHigh := ctxCount s m (sym + 1)
          symScale := ctxCount s m (ctxLen s m)
          elow := BitVec.ofNat 16 r.low, ehigh := BitVec.ofNat 16 r.high
          euf := BitVec.ofNat 32 r.pending, ob := ob
          wpos := s.wpos + BitVec.ofNat 32 r.bits.length
          tables := s.tables.set m t, cmdcnt := s.cmdcnt + 1 } ∧
        AppendsBits s.ob ob s.wpos.toNat r.bits ∧ TableUpdated s m sym t) ∧
    (ctxBits s m = 0 →
      exec (.symEnc m sym) s = .next (faultState 0x04 (BitVec.ofNat 32 m) s)) ∧
    (ctxBits s m ≠ 0 → ctxLen s m ≤ sym →
      exec (.symEnc m sym) s = .next (faultState 0x03 (BitVec.ofNat 32 sym) s))

/-- SYM_DEC (R181): CNT takes the count, the symbol whose interval holds it goes to RET0, its triple
to the latch, it is removed as AC_DEC_RM removes it, then the context is updated; nothing else
changes. Where the reader has too few bits ERR_BR_OVERRUN is raised in the middle of the removal, with
the latch and CNT written and the context not updated (R287; that RET0 is not yet written either is
the model's reading of R181: log 11). A count of 0 is ERR_BAD_SYMBOL with SYM_SCALE and CNT already
written (R287). -/
def Obligations.SymDecResult : Prop :=
  ∀ (s : State) (m : Fin 16), flag s .fault = false → flag s .decAct = true →
    let scale := count s m (ctxLen s m)
    let c := decoderCount s.dlow.toNat s.dhigh.toNat s.dcode.toNat scale
    (∀ sym, ContextOk s m → DecoderOk s → sym < ctxLen s m → count s m sym ≤ c →
      c < count s m (sym + 1) →
      let nl := narrowedLow s.dlow.toNat s.dhigh.toNat (count s m sym) scale
      let r := codedInterval s.dlow.toNat s.dhigh.toNat 0 (count s m sym) (count s m (sym + 1)) scale
      s.rpos.toNat + r.passes ≤ s.rlen.toNat →
      ∃ t, exec (.symDec m) s = .next { s with
          symLow := ctxCount s m sym, symHigh := ctxCount s m (sym + 1)
          symScale := ctxCount s m (ctxLen s m), cnt := BitVec.ofNat 16 c
          dlow := BitVec.ofNat 16 r.low, dhigh := BitVec.ofNat 16 r.high
          dcode := BitVec.ofNat 16 (carriedCode s nl r)
          rpos := s.rpos + BitVec.ofNat 32 r.passes
          tables := s.tables.set m t, ret0 := BitVec.ofNat 32 sym, cmdcnt := s.cmdcnt + 1 } ∧
        TableUpdated s m sym t) ∧
    (∀ sym, ContextOk s m → DecoderOk s → sym < ctxLen s m → count s m sym ≤ c →
      c < count s m (sym + 1) → s.rpos.toNat ≤ s.rlen.toNat →
      s.rlen.toNat < s.rpos.toNat + (codedInterval s.dlow.toNat s.dhigh.toNat 0 (count s m sym)
        (count s m (sym + 1)) scale).passes →
      exec (.symDec m) s = .next (faultState 0x08 s.rlen
        { stoppedDecoder s (count s m sym) (count s m (sym + 1)) scale with
          symLow := ctxCount s m sym, symHigh := ctxCount s m (sym + 1)
          symScale := ctxCount s m (ctxLen s m), cnt := BitVec.ofNat 16 c })) ∧
    (ContextOk s m → DecoderOk s → c = 0 → exec (.symDec m) s =
      .next (faultState 0x09 0 { s with symScale := ctxCount s m (ctxLen s m), cnt := 0 })) ∧
    (ctxBits s m = 0 → exec (.symDec m) s = .next (faultState 0x04 (BitVec.ofNat 32 m) s))

/-- The composite commands leave every piece of state but CMDCNT as the primitive sequences leave it,
when none of these faults (the spec's own inference, marked derived in R180 and R182). -/
def Obligations.CompositesEqualPrimitives : Prop :=
  (∀ (s t : State) (m : Fin 16) (sym : Nat),
    runAll [.mdlI2s m sym, .acEnc, .mdlUpd m sym] s = some t →
    exec (.symEnc m sym) s = .next { t with cmdcnt := s.cmdcnt + 1 }) ∧
  ∀ (s a b t : State) (m : Fin 16),
    runAll [.mdlScale m, .acDecCnt, .mdlS2i m] s = some a →
    runAll [.acDecRm] a = some b → runAll [.mdlUpd m a.ret0.toNat] b = some t →
    exec (.symDec m) s = .next { t with cmdcnt := s.cmdcnt + 1 }

/-! ## The block pipeline (`43_block.md`) -/

/-- BLK_LOAD (R202): COEF takes PIX, less REF for an inter block. BLK_RECON (R224): REC takes COEF,
plus REF for an inter block, clamped to 0 to 255. Nothing else changes. -/
def Obligations.BlkPixelResults : Prop :=
  ∀ (s : State) (inter : Bool), flag s .fault = false →
    (∃ out : Block 32,
      exec (.blkLoad inter) s = .next { s with coef := out, cmdcnt := s.cmdcnt + 1 } ∧
      ∀ p : Fin 64, out[p].toInt =
        if inter then (s.pix[p].toNat : Int) - s.ref[p].toNat else s.pix[p].toNat) ∧
    ∃ out : Block 8,
      exec (.blkRecon inter) s = .next { s with recon := out, cmdcnt := s.cmdcnt + 1 } ∧
      ∀ p : Fin 64, (out[p].toNat : Int) =
        max 0 (min (s.coef[p].toInt + if inter then (s.ref[p].toNat : Int) else 0) 255)

/-- BLK_FDCT and BLK_IDCT (R203 to R206, R222): they write COEF only; with the default transform pair
each output is the rounded double sum over all 64 old inputs, stored as s32; with another pair it is
the value of that pair, which the spec leaves open (the model's free function: log 4) but for FDCT of
a constant block, zero outside index 0 (the spec's own inference, marked derived in R207). -/
def Obligations.BlkTransformResults : Prop :=
  ∀ s : State, flag s .fault = false →
    (∃ out : Block 32, exec .blkFdct s = .next { s with coef := out, cmdcnt := s.cmdcnt + 1 } ∧
      (∀ id, s.cfg.transform = .other id → ∀ p : Fin 64, out[p] =
        if p ≠ 0 ∧ ∀ q : Fin 64, s.coef[q] = s.coef[0] then 0
        else BitVec.ofInt 32 (Config.otherFdct id (s.coef.map BitVec.toInt) p)) ∧
      (s.cfg.transform = .reference → ∀ u v : Fin 8, out[8 * u.val + v.val]'(by omega) = BitVec.ofInt 32
        ((Finset.univ.sum (fun x : Fin 8 => Finset.univ.sum fun y : Fin 8 =>
          basisK u x * basisK v y * (s.coef[8 * x.val + y.val]'(by omega)).toInt) + 2 ^ 27) / 2 ^ 28))) ∧
    ∃ out : Block 32, exec .blkIdct s = .next { s with coef := out, cmdcnt := s.cmdcnt + 1 } ∧
      (∀ id, s.cfg.transform = .other id → ∀ p : Fin 64, out[p] =
        BitVec.ofInt 32 (Config.otherIdct id (s.coef.map BitVec.toInt) p)) ∧
      (s.cfg.transform = .reference → ∀ x y : Fin 8, out[8 * x.val + y.val]'(by omega) = BitVec.ofInt 32
        ((Finset.univ.sum (fun u : Fin 8 => Finset.univ.sum fun v : Fin 8 =>
          basisK u x * basisK v y * (s.coef[8 * u.val + v.val]'(by omega)).toInt) + 2 ^ 27) / 2 ^ 28))

/-- The transforms on simple blocks. With any pair a constant block gives zero outside the DC
coefficient (R204; for other pairs the spec's own inference, marked derived in R207). With the default
pair (R204, R205) a constant block of a value from -255 to 255 gives 8 times the value in the DC
coefficient; a block with only a DC coefficient of at most 7600 in magnitude gives in every element the
eighth of it rounded to nearest, ties away from zero. -/
def Obligations.TransformConstantBlock : Prop :=
  ∀ s t : State, flag s .fault = false →
    ((∀ p : Fin 64, s.coef[p] = s.coef[0]) → exec .blkFdct s = .next t →
      ∀ p : Fin 64, p ≠ 0 → t.coef[p] = 0) ∧
    (∀ c : Int, s.cfg.transform = .reference → -255 ≤ c → c ≤ 255 →
      (∀ p : Fin 64, s.coef[p].toInt = c) → exec .blkFdct s = .next t →
      ∀ p : Fin 64, t.coef[p].toInt = if p = 0 then 8 * c else 0) ∧
    (∀ d : Int, s.cfg.transform = .reference → -7600 ≤ d → d ≤ 7600 → (∀ p : Fin 64, s.coef[p].toInt = if p = 0 then d else 0) →
      exec .blkIdct s = .next t →
      ∀ p : Fin 64, t.coef[p].toInt = if 0 ≤ d then (d + 4) / 8 else -((-d + 4) / 8))

/-- BLK_QUANT (R208, R209): ZZ takes the rounded quotients in scan order, clipped to -1023 to 1023;
CLIPW is set if any was clipped and left alone otherwise; COEF and everything else are unchanged. -/
def Obligations.BlkQuantResult : Prop :=
  ∀ (s : State) (inter : Bool), flag s .fault = false →
    let q := fun i : Fin 64 =>
      let p := s.cfg.zigzag.get i
      (s.coef[p].toInt * (if inter then s.qf1 else s.qf0)[p].toNat + 32768) / 65536
    ∃ z : Block 16, (∀ i : Fin 64, z[i].toInt = max (-1023) (min (q i) 1023)) ∧
      ((∃ i, q i < -1023 ∨ 1023 < q i) → exec (.blkQuant inter) s = .next { s with
        zz := z, status := s.status ||| 0x100, cmdcnt := s.cmdcnt + 1 }) ∧
      ((∀ i, -1023 ≤ q i ∧ q i ≤ 1023) → exec (.blkQuant inter) s = .next { s with
        zz := z, cmdcnt := s.cmdcnt + 1 })

/-- BLK_LAST (R210, R211) writes the scan index of the last non-zero coefficient, or 0, to RET0;
BLK_MIDX (R212) writes the bucket of the largest magnitude to RET0 and the magnitude to RET1, or
faults when it is above 1023; nothing else changes. -/
def Obligations.BlkObserverResults : Prop :=
  ∀ s : State, flag s .fault = false →
    (∃ last, IsLastNonZero s last ∧
      exec .blkLast s = .next { s with ret0 := BitVec.ofNat 32 last, cmdcnt := s.cmdcnt + 1 }) ∧
    ∀ mx, IsLargest s mx →
      (mx ≤ 1023 → ∃ k, IsBucket mx k ∧ exec .blkMidx s = .next { s with
        ret0 := BitVec.ofNat 32 k, ret1 := BitVec.ofNat 32 mx, cmdcnt := s.cmdcnt + 1 }) ∧
      (1023 < mx → exec .blkMidx s = .next (faultState 0x0C (BitVec.ofNat 32 mx) s))

/-- BLK_ENC (R215, R216): with the standard contexts, coefficients in range and room for 66 symbols it
completes, and leaves what coding the block's symbols one by one with SYM_ENC leaves, with the last
index in RET0 and the bucket in RET1 (0 when the last index is 0). The checks of the contexts and of
the range, in their order. -/
def Obligations.BlkEncResult : Prop :=
  ∀ (s : State) (last mx : Nat), flag s .fault = false → flag s .encAct = true →
    IsLastNonZero s last → IsLargest s mx →
    (∀ k, StandardWidths s → ContextsOk s → EncoderOk s → memoryWf s.ob = true →
      s.cfg.obCap ≤ 2 ^ 20 → mx ≤ 1023 → (if last = 0 then k = 0 else IsBucket mx k) →
      s.euf.toNat + 16 * 66 < 2 ^ 32 →
      s.wpos.toNat + s.euf.toNat + 16 * 66 ≤ 8 * s.cfg.obCap →
      ∃ u, runAll ((blockSymbols s last k).map fun c => .symEnc c.1 c.2) s = some u ∧
        exec .blkEnc s = .next { u with
          ret0 := BitVec.ofNat 32 last, ret1 := BitVec.ofNat 32 k, cmdcnt := s.cmdcnt + 1 }) ∧
    (∀ m : Fin 16, m.val < 12 →
      (∀ n : Fin 16, n < m → ctxBits s n = [3, 4, 5, 6, 7, 8, 9, 10, 11, 11, 6, 4].getD n.val 0) →
      ctxBits s m ≠ [3, 4, 5, 6, 7, 8, 9, 10, 11, 11, 6, 4].getD m.val 0 →
      exec .blkEnc s = .next (faultState 0x05 (BitVec.ofNat 32 m) s)) ∧
    (StandardWidths s → 1023 < mx →
      exec .blkEnc s = .next (faultState 0x0C (BitVec.ofNat 32 mx) s))

/-- BLK_DEC (R218): with the standard contexts, where the stream holds the symbols of a legal block
(bucket at most 8, no symbol above twice its offset), it completes; it leaves what decoding the
symbols one after the other leaves, with the coefficients in ZZ, zero after the last, the last index
in RET0 and the bucket in RET1. The three symbols that no encoder produces fault after the symbol's
context is updated (R287): a bucket above 8, a DC symbol of 2047 (whatever the last index), a
coefficient symbol above twice its offset, with the elements of ZZ before it written and the others as
they were; RET0 is then as before the command (the model's reading: log 10). A standard context without
its width faults first (R214). -/
def Obligations.BlkDecResult : Prop :=
  ∀ s : State, flag s .fault = false → flag s .decAct = true →
    (StandardWidths s → ContextsOk s → DecoderOk s →
      (∀ (last k dc : Nat) (cs : List Nat) (u : State),
        cs.length = last → k ≤ 8 → (last = 0 → k = 0) → dc ≤ 2046 →
        (∀ c ∈ cs, c ≤ 2 * (2 ^ (k + 2) - 1)) →
        decodedRun (decodedBlock last k dc cs) s = some u →
        ∃ z : Block 16,
          exec .blkDec s = .next { u with
            zz := z, ret0 := BitVec.ofNat 32 last, ret1 := BitVec.ofNat 32 k
            cmdcnt := s.cmdcnt + 1 } ∧
          z[0].toInt = (dc : Int) - 1023 ∧
          (∀ i : Fin 64, 1 ≤ i.val → i.val ≤ last →
            z[i].toInt = (cs.getD (i.val - 1) 0 : Int) - (2 ^ (k + 2) - 1)) ∧
          ∀ i : Fin 64, last < i.val → z[i] = 0) ∧
      (∀ (last k : Nat) (u : State), last ≠ 0 → 8 < k →
        decodedRun [(10, last), (11, k)] s = some u →
        exec .blkDec s = .next (faultState 0x0B (BitVec.ofNat 32 k) u)) ∧
      (∀ (last k dc : Nat) (u : State), k ≤ 8 → (last = 0 → k = 0) → 2046 < dc →
        decodedRun (decodedBlock last k dc []) s = some u →
        exec .blkDec s = .next (faultState 0x0C (BitVec.ofNat 32 dc) u)) ∧
      ∀ (last k dc c : Nat) (cs : List Nat) (u : State),
        cs.length < last → k ≤ 8 → dc ≤ 2046 →
        (∀ c ∈ cs, c ≤ 2 * (2 ^ (k + 2) - 1)) → 2 * (2 ^ (k + 2) - 1) < c →
        decodedRun (decodedBlock last k dc (cs ++ [c])) s = some u →
        ∃ z : Block 16,
          exec .blkDec s = .next (faultState 0x0C (BitVec.ofNat 32 c) { u with zz := z }) ∧
          z[0].toInt = (dc : Int) - 1023 ∧
          (∀ i : Fin 64, 1 ≤ i.val → i.val ≤ cs.length →
            z[i].toInt = (cs.getD (i.val - 1) 0 : Int) - (2 ^ (k + 2) - 1)) ∧
          ∀ i : Fin 64, cs.length < i.val → z[i] = s.zz[i]) ∧
    ∀ m : Fin 16, m.val < 12 →
      (∀ n : Fin 16, n < m → ctxBits s n = [3, 4, 5, 6, 7, 8, 9, 10, 11, 11, 6, 4].getD n.val 0) →
      ctxBits s m ≠ [3, 4, 5, 6, 7, 8, 9, 10, 11, 11, 6, 4].getD m.val 0 →
      exec .blkDec s = .next (faultState 0x05 (BitVec.ofNat 32 m) s)

/-- BLK_DEQ (R220): element ZIGZAG[i] of COEF takes the dequantised value of scan index `i`, the DC
element eight times ZZ[0]; nothing else changes. -/
def Obligations.BlkDeqResult : Prop :=
  ∀ (s : State) (inter : Bool), flag s .fault = false → s.cfg.Valid →
    ∃ out : Block 32,
      exec (.blkDeq inter) s = .next { s with coef := out, cmdcnt := s.cmdcnt + 1 } ∧
      out[0].toInt = 8 * s.zz[0].toInt ∧
      ∀ i : Fin 64, i ≠ 0 → out[s.cfg.zigzag.get i].toInt =
        s.zz[i].toInt * (if inter then s.qi1 else s.qi0)[i].toNat / 16

/-! ## The RLE unit (`44_rle.md`) -/

/-- RLE_ENC (R250, R252): with room for two bytes a byte it completes; it writes the greedy coding of
the row IB[ARG0] to IB[ARG0 + ARG1 - 1] after the byte WPOS stands at, a coded row that stands for
the row; RET0 is its length, at most `n + ceil(n / 127)` for the default shortest run of 3; nothing
else changes. A row beyond IB is an operand fault. -/
def Obligations.RleEncResult : Prop :=
  ∀ s : State, flag s .fault = false → flag s .bwAct = true → flag s .encAct = false →
    s.wpos.toNat % 8 = 0 →
    (s.arg0.toNat + s.arg1.toNat ≤ s.cfg.ibCap → memoryWf s.ob = true → s.cfg.obCap ≤ 2 ^ 20 →
      1 ≤ s.cfg.rleMinRun → (∀ k, s.wpos.toNat ≤ k → streamBit s.ob k = false) →
      s.wpos.toNat + 16 * s.arg1.toNat ≤ 8 * s.cfg.obCap →
      let row := bytesAt s.ib s.arg0.toNat s.arg1.toNat
      let coded := greedyRow s.cfg.rleMinRun s.arg1.toNat row []
      ∃ m, exec .rleEnc s = .next { s with
          ob := m, wpos := s.wpos + BitVec.ofNat 32 (8 * coded.length)
          ret0 := BitVec.ofNat 32 coded.length, cmdcnt := s.cmdcnt + 1 } ∧
        bytesAt m (s.wpos.toNat / 8) coded.length = coded ∧
        (∀ a, a < s.wpos.toNat / 8 ∨ s.wpos.toNat / 8 + coded.length ≤ a →
          readByte m a = readByte s.ob a) ∧
        RleRow false coded row ∧
        (s.cfg.rleMinRun = 3 →
          coded.length ≤ s.arg1.toNat + (s.arg1.toNat + 126) / 127)) ∧
    (s.cfg.ibCap < s.arg0.toNat + s.arg1.toNat →
      exec .rleEnc s = .next (faultState 0x03 s.arg1 s))

/-- RLE_DEC (R258, R259): on a coded row of ARG1 bytes at RPOS, with room, it completes and writes the
row after the byte WPOS stands at; RET0 is the row's length, RET1 the bytes consumed; nothing else
changes. The length byte 0x80 is a format fault; a literal or a run longer than the row is an overrun
fault, each at the position of its length byte, which the reader has passed. -/
def Obligations.RleDecResult : Prop :=
  ∀ s : State, flag s .fault = false → unitReady .rleDec s = true → memoryWf s.ob = true →
    s.cfg.obCap ≤ 2 ^ 20 →
    (∀ coded row : List Byte, RleRow true coded row → row.length = s.arg1.toNat →
      bytesAt s.ib (s.rpos.toNat / 8) coded.length = coded →
      s.rpos.toNat + 8 * coded.length ≤ s.rlen.toNat →
      s.wpos.toNat + 8 * row.length ≤ 8 * s.cfg.obCap →
      (∀ k, s.wpos.toNat ≤ k → streamBit s.ob k = false) →
      ∃ m, exec .rleDec s = .next { s with
          ob := m, wpos := s.wpos + BitVec.ofNat 32 (8 * row.length)
          rpos := s.rpos + BitVec.ofNat 32 (8 * coded.length), ret0 := s.arg1
          ret1 := BitVec.ofNat 32 coded.length, cmdcnt := s.cmdcnt + 1 } ∧
        bytesAt m (s.wpos.toNat / 8) row.length = row ∧
        ∀ a, a < s.wpos.toNat / 8 ∨ s.wpos.toNat / 8 + row.length ≤ a →
          readByte m a = readByte s.ob a) ∧
    (1 ≤ s.arg1.toNat → s.rpos.toNat + 8 ≤ s.rlen.toNat →
      let len := (readByte s.ib (s.rpos.toNat / 8)).toNat
      (len = 0x80 →
        exec .rleDec s = .next (faultState 0x0D s.rpos { s with rpos := s.rpos + 8 })) ∧
      (0x80 < len → s.arg1.toNat < len - 0x80 →
        exec .rleDec s = .next (faultState 0x0E s.rpos { s with rpos := s.rpos + 8 })) ∧
      (len < 0x80 → s.arg1.toNat < len → s.rpos.toNat + 16 ≤ s.rlen.toNat →
        exec .rleDec s = .next (faultState 0x0E s.rpos { s with rpos := s.rpos + 16 })))

/-- Every output of RLE_ENC is accepted by RLE_DEC with the same ARG1 and decodes to the input (the
spec's own inference, marked derived in R254): `d` is any unit that is ready for RLE_DEC and whose reader stands at the bytes that the encoder has
written, with room for the row. -/
def Obligations.RleRoundTrip : Prop :=
  ∀ e e' d : State, exec .rleEnc e = .next e' → flag e' .fault = false → memoryWf e.ob = true →
    e.cfg.obCap ≤ 2 ^ 20 → 1 ≤ e.cfg.rleMinRun →
    (∀ k, e.wpos.toNat ≤ k → streamBit e.ob k = false) →
    flag d .fault = false → unitReady .rleDec d = true → memoryWf d.ob = true →
    d.cfg.obCap ≤ 2 ^ 20 → d.arg1 = e.arg1 →
    bytesAt d.ib (d.rpos.toNat / 8) e'.ret0.toNat =
      bytesAt e'.ob (e.wpos.toNat / 8) e'.ret0.toNat →
    d.rpos.toNat + 8 * e'.ret0.toNat ≤ d.rlen.toNat →
    d.wpos.toNat + 8 * d.arg1.toNat ≤ 8 * d.cfg.obCap →
    (∀ k, d.wpos.toNat ≤ k → streamBit d.ob k = false) →
    ∃ d', exec .rleDec d = .next d' ∧ flag d' .fault = false ∧
      bytesAt d'.ob (d.wpos.toNat / 8) d.arg1.toNat = bytesAt e.ib e.arg0.toNat e.arg1.toNat ∧
      d'.ret1 = e'.ret0

/-! ## Invariants -/

/-- The state after hardware reset holds the reset values (`10_state.md` R21, R50), has the parameters
of R9 and meets every invariant below. The contents of the memories and the form of the byte buffers are
the model's choice: log 5, log 6, log 18. -/
def Obligations.ResetMeetsInvariants : Prop :=
  (∀ n, n < 64 → readReg State.reset n = resetValue State.reset.cfg n) ∧
  readReg State.reset 25 = 0x00071D0B ∧
  (∀ m, ctxBits State.reset m = 0) ∧
  State.reset.cfg.Valid ∧
  BuffersOk State.reset ∧ StatusOk State.reset ∧ ContextsOk State.reset ∧ CodersOk State.reset ∧
  CursorsOk State.reset

/-- Every step keeps both byte buffers in canonical form. The form is the model's own representation of
IB and OB, no rule of the spec (the model's choice: log 18). -/
def Obligations.StepKeepsBufferForm : Prop :=
  ∀ s t : State, BuffersOk s → step s = .next t → BuffersOk t

/-- Every step keeps STATUS and the fault registers legal (`10_state.md` R23, `60_exceptions.md` R281,
R283): reserved bits zero; an open encoder segment or a header has an open writer, an open decoder
segment an open reader; FCODE and FINFO are 0 without a fault and FCODE is 1 to 15 with one. -/
def Obligations.StepKeepsStatus : Prop :=
  ∀ s t : State, StatusOk s → step s = .next t → StatusOk t

/-- Every step keeps the invariants of the initialised contexts (`10_state.md` R40, which the spec marks
as its own inference, from R133, R137 and R139). -/
def Obligations.StepKeepsContexts : Prop :=
  ∀ s t : State, ContextsOk s → step s = .next t → ContextsOk t

/-- Every step keeps the invariants of the coder registers (`10_state.md` R32, which the spec marks as
its own inference, from R165 and R176), given those of the contexts. -/
def Obligations.StepKeepsCoders : Prop :=
  ∀ s t : State, ContextsOk s → CodersOk s → step s = .next t → CodersOk t

/-- Every step keeps the invariants of the bit writer, the bit reader and their buffers
(`10_state.md` R33, R34, `40_bitio.md` R113): cursors in range, OB blank after WPOS and in the header
that is not yet written, no byte beyond a capacity, and the buffers in canonical form (the model's own
representation: log 18). -/
def Obligations.StepKeepsCursors : Prop :=
  ∀ s t : State, CursorsOk s → step s = .next t → CursorsOk t

/-- ID, OBCAP, IBCAP and CFG never change, and CFG holds BITS_MAX, NMODEL, FLUSH_TAIL, HAS_RLE and
RLE_MIN_RUN in their fields, the other bits zero; with the defaults it reads 0x00071D0B
(`10_state.md` R24). -/
def Obligations.ConstantRegisters : Prop :=
  (∀ (s t : State) (n : Nat), 22 ≤ n → n ≤ 25 → step s = .next t → readReg t n = readReg s n) ∧
  ∀ s : State, s.cfg.Valid →
    (readReg s 25).extractLsb' 0 4 = 11 ∧ (readReg s 25).extractLsb' 4 5 = 16 ∧
    (readReg s 25).extractLsb' 9 5 = 14 ∧ (readReg s 25).extractLsb' 14 2 = 0 ∧
    (readReg s 25).getLsbD 16 = s.cfg.hasRle ∧
    ((readReg s 25).extractLsb' 17 7).toNat = s.cfg.rleMinRun ∧
    (readReg s 25).extractLsb' 24 8 = 0 ∧
    (s.cfg = defaultConfig → readReg s 25 = 0x00071D0B)
end

