-- ==== Sys2Proof/Laws/Memory.lean ====
section
/-! SUPPORT. The byte buffers: what a read gives after a write, and every operation keeps the
canonical form. -/

namespace Sys2Proof.Machine

/-! ## Reading -/

@[simp] theorem readByte_nil (a : Nat) : readByte [] a = 0 := rfl

/-- Below the least address a form starts at, every byte reads as an unlisted byte does. -/
theorem readByte_below {lo : Nat} {m : Memory} (h : cellsWf lo m = true) {a : Nat} (ha : a < lo) :
    readByte m a = 0 := by
  cases m with
  | nil => rfl
  | cons c t =>
    obtain ⟨b, u⟩ := c
    simp only [cellsWf, Bool.and_eq_true, decide_eq_true_eq] at h
    simp only [readByte]
    rw [if_pos (by omega)]

theorem cellsWf_mono {lo lo' : Nat} {m : Memory} (h : cellsWf lo m = true) (hl : lo' ≤ lo) :
    cellsWf lo' m = true := by
  cases m with
  | nil => rfl
  | cons c t =>
    obtain ⟨b, u⟩ := c
    simp only [cellsWf, Bool.and_eq_true, decide_eq_true_eq] at h ⊢
    exact ⟨⟨by omega, h.1.2⟩, h.2⟩

theorem cellsWf_cons {lo b : Nat} {u : Byte} {t : Memory} :
    cellsWf lo ((b, u) :: t) = true ↔ lo ≤ b ∧ u ≠ 0 ∧ cellsWf (b + 1) t = true := by
  simp [cellsWf, and_assoc]

/-! ## Writing -/

theorem consByte_wf {lo a : Nat} {v : Byte} {t : Memory} (hl : lo ≤ a)
    (h : cellsWf (a + 1) t = true) : cellsWf lo (consByte a v t) = true := by
  simp only [consByte]
  split
  · exact cellsWf_mono h (by omega)
  · rename_i hv
    exact cellsWf_cons.mpr ⟨hl, hv, h⟩

theorem readByte_consByte {a : Nat} {v : Byte} {t : Memory} (h : cellsWf (a + 1) t = true)
    (b : Nat) : readByte (consByte a v t) b = if b = a then v else readByte t b := by
  simp only [consByte]
  split
  · rename_i hv
    split
    · rename_i hb
      rw [readByte_below h (by omega), hv]
    · rfl
  · simp only [readByte]
    split
    · rename_i hb
      rw [if_neg (by omega), readByte_below h (by omega)]
    · rfl

theorem writeByte_cellsWf {lo : Nat} {m : Memory} (h : cellsWf lo m = true) {a : Nat} {v : Byte}
    (ha : lo ≤ a) : cellsWf lo (writeByte m a v) = true := by
  induction m generalizing lo with
  | nil => exact consByte_wf ha rfl
  | cons c t ih =>
    obtain ⟨b, u⟩ := c
    have hc := cellsWf_cons.mp h
    simp only [writeByte]
    split
    · exact consByte_wf ha (cellsWf_cons.mpr ⟨by omega, hc.2⟩)
    · split
      · rename_i hab
        subst hab
        exact consByte_wf ha hc.2.2
      · exact cellsWf_cons.mpr ⟨hc.1, hc.2.1, ih hc.2.2 (by omega)⟩

/-- A write keeps the canonical form. -/
theorem writeByte_wf {m : Memory} (h : memoryWf m = true) (a : Nat) (v : Byte) :
    memoryWf (writeByte m a v) = true := writeByte_cellsWf h (Nat.zero_le a)

theorem readByte_writeByte_cells {lo : Nat} {m : Memory} (h : cellsWf lo m = true) {a : Nat}
    (v : Byte) (b : Nat) :
    readByte (writeByte m a v) b = if b = a then v else readByte m b := by
  induction m generalizing lo with
  | nil => exact readByte_consByte rfl b
  | cons c t ih =>
    obtain ⟨d, u⟩ := c
    have hc := cellsWf_cons.mp h
    simp only [writeByte]
    split
    · exact readByte_consByte (cellsWf_cons.mpr ⟨by omega, hc.2⟩) b
    · split
      · rename_i hda
        subst hda
        rw [readByte_consByte hc.2.2]
        simp only [readByte]
        split
        · rfl
        · split
          · exact readByte_below hc.2.2 (by omega)
          · rfl
      · simp only [readByte]
        split
        · rename_i hb
          rw [if_neg (by omega)]
        · split
          · rename_i hb
            rw [if_neg (by omega)]
          · exact ih hc.2.2

/-- A read after a write gives the value written there, and leaves every other address alone. -/
theorem readByte_writeByte {m : Memory} (h : memoryWf m = true) (a : Nat) (v : Byte) (b : Nat) :
    readByte (writeByte m a v) b = if b = a then v else readByte m b :=
  readByte_writeByte_cells h v b

/-! ## Canonical forms are equal when they read alike -/

theorem eq_of_readByte_eq_cells {lo : Nat} {m n : Memory} (hm : cellsWf lo m = true)
    (hn : cellsWf lo n = true) (h : ∀ a, readByte m a = readByte n a) : m = n := by
  induction m generalizing lo n with
  | nil =>
    cases n with
    | nil => rfl
    | cons c t =>
      obtain ⟨b, u⟩ := c
      have := h b
      simp only [readByte, Nat.lt_irrefl, if_false, if_true] at this
      exact absurd this.symm (cellsWf_cons.mp hn).2.1
  | cons c t ih =>
    obtain ⟨b, u⟩ := c
    have hc := cellsWf_cons.mp hm
    cases n with
    | nil =>
      have := h b
      simp only [readByte, Nat.lt_irrefl, if_false, if_true] at this
      exact absurd this hc.2.1
    | cons c' t' =>
      obtain ⟨b', u'⟩ := c'
      have hc' := cellsWf_cons.mp hn
      have hb : b = b' := by
        rcases Nat.lt_trichotomy b b' with hlt | heq | hgt
        · have := h b
          simp only [readByte, Nat.lt_irrefl, if_false, if_true, hlt] at this
          exact absurd this hc.2.1
        · exact heq
        · have := h b'
          simp only [readByte, Nat.lt_irrefl, if_false, if_true, hgt] at this
          exact absurd this.symm hc'.2.1
      subst hb
      have hu : u = u' := by simpa [readByte] using h b
      subst hu
      congr 1
      refine ih hc.2.2 hc'.2.2 fun a => ?_
      rcases Nat.lt_trichotomy a b with hlt | heq | hgt
      · rw [readByte_below hc.2.2 (by omega), readByte_below hc'.2.2 (by omega)]
      · rw [readByte_below hc.2.2 (by omega), readByte_below hc'.2.2 (by omega)]
      · have := h a
        simpa only [readByte, if_neg (show ¬a < b by omega), if_neg (show ¬a = b by omega)]
          using this

/-- Two buffers in canonical form that read alike everywhere are the same data. -/
theorem eq_of_readByte_eq {m n : Memory} (hm : memoryWf m = true) (hn : memoryWf n = true)
    (h : ∀ a, readByte m a = readByte n a) : m = n := eq_of_readByte_eq_cells hm hn h

/-! ## The bits of the stream -/

theorem setStreamBit_wf {m : Memory} (h : memoryWf m = true) (k : Nat) :
    memoryWf (setStreamBit m k) = true := writeByte_wf h _ _

/-- The byte that holds stream bit `k` gains that bit; every other byte is as it was. -/
theorem readByte_setStreamBit {m : Memory} (h : memoryWf m = true) (k a : Nat) :
    readByte (setStreamBit m k) a =
      if a = k / 8 then readByte m a ||| ((0x80 : Byte) >>> (k % 8)) else readByte m a := by
  rw [setStreamBit, readByte_writeByte h]
  split
  · rename_i ha
    rw [ha]
  · rfl

theorem getLsbD_topBit_shift {i j : Nat} (hi : i < 8) (hj : j < 8) :
    ((0x80 : Byte) >>> i).getLsbD (7 - j) = decide (j = i) := by
  interval_cases i <;> interval_cases j <;> decide

/-- Setting stream bit `k` sets that bit and no other. -/
theorem streamBit_setStreamBit {m : Memory} (h : memoryWf m = true) (k j : Nat) :
    streamBit (setStreamBit m k) j = (decide (j = k) || streamBit m j) := by
  rw [streamBit, streamBit, readByte_setStreamBit h]
  split
  · rename_i hb
    rw [BitVec.getLsbD_or, getLsbD_topBit_shift (Nat.mod_lt _ (by decide))
      (Nat.mod_lt _ (by decide)), Bool.or_comm]
    congr 1
    exact decide_eq_decide.mpr (by omega)
  · rename_i hb
    rw [decide_eq_false (by rintro rfl; exact hb rfl), Bool.false_or]

/-! ## Header, capacity, any list of bytes -/

theorem writeHeader_wf {m : Memory} (h : memoryWf m = true) (v : Word) :
    memoryWf (writeHeader m v) = true :=
  writeByte_wf (writeByte_wf (writeByte_wf (writeByte_wf h _ _) _ _) _ _) _ _

/-- The header is little-endian (`20_memory.md` R65) and touches bytes 0 to 3 only. -/
theorem readByte_writeHeader {m : Memory} (h : memoryWf m = true) (v : Word) (a : Nat) :
    readByte (writeHeader m v) a = if a < 4 then v.extractLsb' (8 * a) 8 else readByte m a := by
  have h0 := writeByte_wf h 0 (v.extractLsb' 0 8)
  have h1 := writeByte_wf h0 1 (v.extractLsb' 8 8)
  have h2 := writeByte_wf h1 2 (v.extractLsb' 16 8)
  rw [writeHeader, readByte_writeByte h2, readByte_writeByte h1, readByte_writeByte h0,
    readByte_writeByte h]
  rcases Nat.lt_or_ge a 4 with ha | ha
  · rw [if_pos ha]
    interval_cases a <;> rfl
  · rw [if_neg (by omega), if_neg (by omega), if_neg (by omega), if_neg (by omega),
      if_neg (by omega)]

theorem memoryOf_wf (cap : Nat) (cells : List Host.Cell) : memoryWf (memoryOf cap cells) = true := by
  induction cells with
  | nil => rfl
  | cons c t ih =>
    obtain ⟨a, v⟩ := c
    simp only [memoryOf]
    split
    · exact writeByte_wf ih a v
    · exact ih

theorem withinCap_writeByte {cap : Nat} {m : Memory} (h : withinCap cap m = true) {a : Nat}
    (ha : a < cap) (v : Byte) : withinCap cap (writeByte m a v) = true := by
  have cons_ok : ∀ {t : Memory}, withinCap cap t = true →
      withinCap cap (consByte a v t) = true := by
    intro t ht
    simp only [consByte]
    split
    · exact ht
    · simpa [withinCap, ha] using ht
  induction m with
  | nil => exact cons_ok rfl
  | cons c t ih =>
    obtain ⟨b, u⟩ := c
    have hc : b < cap ∧ withinCap cap t = true := by simpa [withinCap] using h
    simp only [writeByte]
    split
    · exact cons_ok h
    · split
      · exact cons_ok hc.2
      · have := ih hc.2
        simp only [withinCap, List.all_cons, Bool.and_eq_true, decide_eq_true_eq] at this ⊢
        exact ⟨hc.1, this⟩

theorem withinCap_memoryOf (cap : Nat) (cells : List Host.Cell) :
    withinCap cap (memoryOf cap cells) = true := by
  induction cells with
  | nil => rfl
  | cons c t ih =>
    obtain ⟨a, v⟩ := c
    simp only [memoryOf]
    split
    · rename_i ha
      exact withinCap_writeByte ih ha v
    · exact ih

end Sys2Proof.Machine
end

