-- ==== Sys2Proof/Laws/State.lean ====
section
/-! SUPPORT. One lemma per field per named update: what the field holds after the update. -/

namespace Sys2Proof.Machine

/-! ### setRet0 -/

@[simp] theorem setRet0_status (v : Word) (s : State) : (setRet0 v s).status = s.status := rfl
@[simp] theorem setRet0_fcode (v : Word) (s : State) : (setRet0 v s).fcode = s.fcode := rfl
@[simp] theorem setRet0_finfo (v : Word) (s : State) : (setRet0 v s).finfo = s.finfo := rfl
@[simp] theorem setRet0_arg0 (v : Word) (s : State) : (setRet0 v s).arg0 = s.arg0 := rfl
@[simp] theorem setRet0_arg1 (v : Word) (s : State) : (setRet0 v s).arg1 = s.arg1 := rfl
@[simp] theorem setRet0_ret0 (v : Word) (s : State) : (setRet0 v s).ret0 = v := rfl
@[simp] theorem setRet0_ret1 (v : Word) (s : State) : (setRet0 v s).ret1 = s.ret1 := rfl
@[simp] theorem setRet0_symLow (v : Word) (s : State) : (setRet0 v s).symLow = s.symLow := rfl
@[simp] theorem setRet0_symHigh (v : Word) (s : State) : (setRet0 v s).symHigh = s.symHigh := rfl
@[simp] theorem setRet0_symScale (v : Word) (s : State) : (setRet0 v s).symScale = s.symScale := rfl
@[simp] theorem setRet0_cnt (v : Word) (s : State) : (setRet0 v s).cnt = s.cnt := rfl
@[simp] theorem setRet0_elow (v : Word) (s : State) : (setRet0 v s).elow = s.elow := rfl
@[simp] theorem setRet0_ehigh (v : Word) (s : State) : (setRet0 v s).ehigh = s.ehigh := rfl
@[simp] theorem setRet0_euf (v : Word) (s : State) : (setRet0 v s).euf = s.euf := rfl
@[simp] theorem setRet0_dlow (v : Word) (s : State) : (setRet0 v s).dlow = s.dlow := rfl
@[simp] theorem setRet0_dhigh (v : Word) (s : State) : (setRet0 v s).dhigh = s.dhigh := rfl
@[simp] theorem setRet0_dcode (v : Word) (s : State) : (setRet0 v s).dcode = s.dcode := rfl
@[simp] theorem setRet0_wpos (v : Word) (s : State) : (setRet0 v s).wpos = s.wpos := rfl
@[simp] theorem setRet0_rpos (v : Word) (s : State) : (setRet0 v s).rpos = s.rpos := rfl
@[simp] theorem setRet0_rlen (v : Word) (s : State) : (setRet0 v s).rlen = s.rlen := rfl
@[simp] theorem setRet0_cmdcnt (v : Word) (s : State) : (setRet0 v s).cmdcnt = s.cmdcnt := rfl
@[simp] theorem setRet0_mbits (v : Word) (s : State) : (setRet0 v s).mbits = s.mbits := rfl
@[simp] theorem setRet0_tables (v : Word) (s : State) : (setRet0 v s).tables = s.tables := rfl
@[simp] theorem setRet0_pix (v : Word) (s : State) : (setRet0 v s).pix = s.pix := rfl
@[simp] theorem setRet0_ref (v : Word) (s : State) : (setRet0 v s).ref = s.ref := rfl
@[simp] theorem setRet0_recon (v : Word) (s : State) : (setRet0 v s).recon = s.recon := rfl
@[simp] theorem setRet0_coef (v : Word) (s : State) : (setRet0 v s).coef = s.coef := rfl
@[simp] theorem setRet0_zz (v : Word) (s : State) : (setRet0 v s).zz = s.zz := rfl
@[simp] theorem setRet0_qf0 (v : Word) (s : State) : (setRet0 v s).qf0 = s.qf0 := rfl
@[simp] theorem setRet0_qf1 (v : Word) (s : State) : (setRet0 v s).qf1 = s.qf1 := rfl
@[simp] theorem setRet0_qi0 (v : Word) (s : State) : (setRet0 v s).qi0 = s.qi0 := rfl
@[simp] theorem setRet0_qi1 (v : Word) (s : State) : (setRet0 v s).qi1 = s.qi1 := rfl
@[simp] theorem setRet0_ib (v : Word) (s : State) : (setRet0 v s).ib = s.ib := rfl
@[simp] theorem setRet0_ob (v : Word) (s : State) : (setRet0 v s).ob = s.ob := rfl
@[simp] theorem setRet0_cfg (v : Word) (s : State) : (setRet0 v s).cfg = s.cfg := rfl
@[simp] theorem setRet0_host (v : Word) (s : State) : (setRet0 v s).host = s.host := rfl
@[simp] theorem setRet0_hostData (v : Word) (s : State) : (setRet0 v s).hostData = s.hostData := rfl
@[simp] theorem setRet0_freeCount (v : Word) (s : State) :
    (setRet0 v s).freeCount = s.freeCount := rfl

/-! ### setRet1 -/

@[simp] theorem setRet1_status (v : Word) (s : State) : (setRet1 v s).status = s.status := rfl
@[simp] theorem setRet1_fcode (v : Word) (s : State) : (setRet1 v s).fcode = s.fcode := rfl
@[simp] theorem setRet1_finfo (v : Word) (s : State) : (setRet1 v s).finfo = s.finfo := rfl
@[simp] theorem setRet1_arg0 (v : Word) (s : State) : (setRet1 v s).arg0 = s.arg0 := rfl
@[simp] theorem setRet1_arg1 (v : Word) (s : State) : (setRet1 v s).arg1 = s.arg1 := rfl
@[simp] theorem setRet1_ret0 (v : Word) (s : State) : (setRet1 v s).ret0 = s.ret0 := rfl
@[simp] theorem setRet1_ret1 (v : Word) (s : State) : (setRet1 v s).ret1 = v := rfl
@[simp] theorem setRet1_symLow (v : Word) (s : State) : (setRet1 v s).symLow = s.symLow := rfl
@[simp] theorem setRet1_symHigh (v : Word) (s : State) : (setRet1 v s).symHigh = s.symHigh := rfl
@[simp] theorem setRet1_symScale (v : Word) (s : State) : (setRet1 v s).symScale = s.symScale := rfl
@[simp] theorem setRet1_cnt (v : Word) (s : State) : (setRet1 v s).cnt = s.cnt := rfl
@[simp] theorem setRet1_elow (v : Word) (s : State) : (setRet1 v s).elow = s.elow := rfl
@[simp] theorem setRet1_ehigh (v : Word) (s : State) : (setRet1 v s).ehigh = s.ehigh := rfl
@[simp] theorem setRet1_euf (v : Word) (s : State) : (setRet1 v s).euf = s.euf := rfl
@[simp] theorem setRet1_dlow (v : Word) (s : State) : (setRet1 v s).dlow = s.dlow := rfl
@[simp] theorem setRet1_dhigh (v : Word) (s : State) : (setRet1 v s).dhigh = s.dhigh := rfl
@[simp] theorem setRet1_dcode (v : Word) (s : State) : (setRet1 v s).dcode = s.dcode := rfl
@[simp] theorem setRet1_wpos (v : Word) (s : State) : (setRet1 v s).wpos = s.wpos := rfl
@[simp] theorem setRet1_rpos (v : Word) (s : State) : (setRet1 v s).rpos = s.rpos := rfl
@[simp] theorem setRet1_rlen (v : Word) (s : State) : (setRet1 v s).rlen = s.rlen := rfl
@[simp] theorem setRet1_cmdcnt (v : Word) (s : State) : (setRet1 v s).cmdcnt = s.cmdcnt := rfl
@[simp] theorem setRet1_mbits (v : Word) (s : State) : (setRet1 v s).mbits = s.mbits := rfl
@[simp] theorem setRet1_tables (v : Word) (s : State) : (setRet1 v s).tables = s.tables := rfl
@[simp] theorem setRet1_pix (v : Word) (s : State) : (setRet1 v s).pix = s.pix := rfl
@[simp] theorem setRet1_ref (v : Word) (s : State) : (setRet1 v s).ref = s.ref := rfl
@[simp] theorem setRet1_recon (v : Word) (s : State) : (setRet1 v s).recon = s.recon := rfl
@[simp] theorem setRet1_coef (v : Word) (s : State) : (setRet1 v s).coef = s.coef := rfl
@[simp] theorem setRet1_zz (v : Word) (s : State) : (setRet1 v s).zz = s.zz := rfl
@[simp] theorem setRet1_qf0 (v : Word) (s : State) : (setRet1 v s).qf0 = s.qf0 := rfl
@[simp] theorem setRet1_qf1 (v : Word) (s : State) : (setRet1 v s).qf1 = s.qf1 := rfl
@[simp] theorem setRet1_qi0 (v : Word) (s : State) : (setRet1 v s).qi0 = s.qi0 := rfl
@[simp] theorem setRet1_qi1 (v : Word) (s : State) : (setRet1 v s).qi1 = s.qi1 := rfl
@[simp] theorem setRet1_ib (v : Word) (s : State) : (setRet1 v s).ib = s.ib := rfl
@[simp] theorem setRet1_ob (v : Word) (s : State) : (setRet1 v s).ob = s.ob := rfl
@[simp] theorem setRet1_cfg (v : Word) (s : State) : (setRet1 v s).cfg = s.cfg := rfl
@[simp] theorem setRet1_host (v : Word) (s : State) : (setRet1 v s).host = s.host := rfl
@[simp] theorem setRet1_hostData (v : Word) (s : State) : (setRet1 v s).hostData = s.hostData := rfl
@[simp] theorem setRet1_freeCount (v : Word) (s : State) :
    (setRet1 v s).freeCount = s.freeCount := rfl

/-! ### setCnt -/

@[simp] theorem setCnt_status (v : Half) (s : State) : (setCnt v s).status = s.status := rfl
@[simp] theorem setCnt_fcode (v : Half) (s : State) : (setCnt v s).fcode = s.fcode := rfl
@[simp] theorem setCnt_finfo (v : Half) (s : State) : (setCnt v s).finfo = s.finfo := rfl
@[simp] theorem setCnt_arg0 (v : Half) (s : State) : (setCnt v s).arg0 = s.arg0 := rfl
@[simp] theorem setCnt_arg1 (v : Half) (s : State) : (setCnt v s).arg1 = s.arg1 := rfl
@[simp] theorem setCnt_ret0 (v : Half) (s : State) : (setCnt v s).ret0 = s.ret0 := rfl
@[simp] theorem setCnt_ret1 (v : Half) (s : State) : (setCnt v s).ret1 = s.ret1 := rfl
@[simp] theorem setCnt_symLow (v : Half) (s : State) : (setCnt v s).symLow = s.symLow := rfl
@[simp] theorem setCnt_symHigh (v : Half) (s : State) : (setCnt v s).symHigh = s.symHigh := rfl
@[simp] theorem setCnt_symScale (v : Half) (s : State) : (setCnt v s).symScale = s.symScale := rfl
@[simp] theorem setCnt_cnt (v : Half) (s : State) : (setCnt v s).cnt = v := rfl
@[simp] theorem setCnt_elow (v : Half) (s : State) : (setCnt v s).elow = s.elow := rfl
@[simp] theorem setCnt_ehigh (v : Half) (s : State) : (setCnt v s).ehigh = s.ehigh := rfl
@[simp] theorem setCnt_euf (v : Half) (s : State) : (setCnt v s).euf = s.euf := rfl
@[simp] theorem setCnt_dlow (v : Half) (s : State) : (setCnt v s).dlow = s.dlow := rfl
@[simp] theorem setCnt_dhigh (v : Half) (s : State) : (setCnt v s).dhigh = s.dhigh := rfl
@[simp] theorem setCnt_dcode (v : Half) (s : State) : (setCnt v s).dcode = s.dcode := rfl
@[simp] theorem setCnt_wpos (v : Half) (s : State) : (setCnt v s).wpos = s.wpos := rfl
@[simp] theorem setCnt_rpos (v : Half) (s : State) : (setCnt v s).rpos = s.rpos := rfl
@[simp] theorem setCnt_rlen (v : Half) (s : State) : (setCnt v s).rlen = s.rlen := rfl
@[simp] theorem setCnt_cmdcnt (v : Half) (s : State) : (setCnt v s).cmdcnt = s.cmdcnt := rfl
@[simp] theorem setCnt_mbits (v : Half) (s : State) : (setCnt v s).mbits = s.mbits := rfl
@[simp] theorem setCnt_tables (v : Half) (s : State) : (setCnt v s).tables = s.tables := rfl
@[simp] theorem setCnt_pix (v : Half) (s : State) : (setCnt v s).pix = s.pix := rfl
@[simp] theorem setCnt_ref (v : Half) (s : State) : (setCnt v s).ref = s.ref := rfl
@[simp] theorem setCnt_recon (v : Half) (s : State) : (setCnt v s).recon = s.recon := rfl
@[simp] theorem setCnt_coef (v : Half) (s : State) : (setCnt v s).coef = s.coef := rfl
@[simp] theorem setCnt_zz (v : Half) (s : State) : (setCnt v s).zz = s.zz := rfl
@[simp] theorem setCnt_qf0 (v : Half) (s : State) : (setCnt v s).qf0 = s.qf0 := rfl
@[simp] theorem setCnt_qf1 (v : Half) (s : State) : (setCnt v s).qf1 = s.qf1 := rfl
@[simp] theorem setCnt_qi0 (v : Half) (s : State) : (setCnt v s).qi0 = s.qi0 := rfl
@[simp] theorem setCnt_qi1 (v : Half) (s : State) : (setCnt v s).qi1 = s.qi1 := rfl
@[simp] theorem setCnt_ib (v : Half) (s : State) : (setCnt v s).ib = s.ib := rfl
@[simp] theorem setCnt_ob (v : Half) (s : State) : (setCnt v s).ob = s.ob := rfl
@[simp] theorem setCnt_cfg (v : Half) (s : State) : (setCnt v s).cfg = s.cfg := rfl
@[simp] theorem setCnt_host (v : Half) (s : State) : (setCnt v s).host = s.host := rfl
@[simp] theorem setCnt_hostData (v : Half) (s : State) : (setCnt v s).hostData = s.hostData := rfl
@[simp] theorem setCnt_freeCount (v : Half) (s : State) :
    (setCnt v s).freeCount = s.freeCount := rfl

/-! ### setLatchBounds -/

@[simp] theorem setLatchBounds_status (v w : Half) (s : State) :
    (setLatchBounds v w s).status = s.status := rfl
@[simp] theorem setLatchBounds_fcode (v w : Half) (s : State) :
    (setLatchBounds v w s).fcode = s.fcode := rfl
@[simp] theorem setLatchBounds_finfo (v w : Half) (s : State) :
    (setLatchBounds v w s).finfo = s.finfo := rfl
@[simp] theorem setLatchBounds_arg0 (v w : Half) (s : State) :
    (setLatchBounds v w s).arg0 = s.arg0 := rfl
@[simp] theorem setLatchBounds_arg1 (v w : Half) (s : State) :
    (setLatchBounds v w s).arg1 = s.arg1 := rfl
@[simp] theorem setLatchBounds_ret0 (v w : Half) (s : State) :
    (setLatchBounds v w s).ret0 = s.ret0 := rfl
@[simp] theorem setLatchBounds_ret1 (v w : Half) (s : State) :
    (setLatchBounds v w s).ret1 = s.ret1 := rfl
@[simp] theorem setLatchBounds_symLow (v w : Half) (s : State) :
    (setLatchBounds v w s).symLow = v := rfl
@[simp] theorem setLatchBounds_symHigh (v w : Half) (s : State) :
    (setLatchBounds v w s).symHigh = w := rfl
@[simp] theorem setLatchBounds_symScale (v w : Half) (s : State) :
    (setLatchBounds v w s).symScale = s.symScale := rfl
@[simp] theorem setLatchBounds_cnt (v w : Half) (s : State) :
    (setLatchBounds v w s).cnt = s.cnt := rfl
@[simp] theorem setLatchBounds_elow (v w : Half) (s : State) :
    (setLatchBounds v w s).elow = s.elow := rfl
@[simp] theorem setLatchBounds_ehigh (v w : Half) (s : State) :
    (setLatchBounds v w s).ehigh = s.ehigh := rfl
@[simp] theorem setLatchBounds_euf (v w : Half) (s : State) :
    (setLatchBounds v w s).euf = s.euf := rfl
@[simp] theorem setLatchBounds_dlow (v w : Half) (s : State) :
    (setLatchBounds v w s).dlow = s.dlow := rfl
@[simp] theorem setLatchBounds_dhigh (v w : Half) (s : State) :
    (setLatchBounds v w s).dhigh = s.dhigh := rfl
@[simp] theorem setLatchBounds_dcode (v w : Half) (s : State) :
    (setLatchBounds v w s).dcode = s.dcode := rfl
@[simp] theorem setLatchBounds_wpos (v w : Half) (s : State) :
    (setLatchBounds v w s).wpos = s.wpos := rfl
@[simp] theorem setLatchBounds_rpos (v w : Half) (s : State) :
    (setLatchBounds v w s).rpos = s.rpos := rfl
@[simp] theorem setLatchBounds_rlen (v w : Half) (s : State) :
    (setLatchBounds v w s).rlen = s.rlen := rfl
@[simp] theorem setLatchBounds_cmdcnt (v w : Half) (s : State) :
    (setLatchBounds v w s).cmdcnt = s.cmdcnt := rfl
@[simp] theorem setLatchBounds_mbits (v w : Half) (s : State) :
    (setLatchBounds v w s).mbits = s.mbits := rfl
@[simp] theorem setLatchBounds_tables (v w : Half) (s : State) :
    (setLatchBounds v w s).tables = s.tables := rfl
@[simp] theorem setLatchBounds_pix (v w : Half) (s : State) :
    (setLatchBounds v w s).pix = s.pix := rfl
@[simp] theorem setLatchBounds_ref (v w : Half) (s : State) :
    (setLatchBounds v w s).ref = s.ref := rfl
@[simp] theorem setLatchBounds_recon (v w : Half) (s : State) :
    (setLatchBounds v w s).recon = s.recon := rfl
@[simp] theorem setLatchBounds_coef (v w : Half) (s : State) :
    (setLatchBounds v w s).coef = s.coef := rfl
@[simp] theorem setLatchBounds_zz (v w : Half) (s : State) : (setLatchBounds v w s).zz = s.zz := rfl
@[simp] theorem setLatchBounds_qf0 (v w : Half) (s : State) :
    (setLatchBounds v w s).qf0 = s.qf0 := rfl
@[simp] theorem setLatchBounds_qf1 (v w : Half) (s : State) :
    (setLatchBounds v w s).qf1 = s.qf1 := rfl
@[simp] theorem setLatchBounds_qi0 (v w : Half) (s : State) :
    (setLatchBounds v w s).qi0 = s.qi0 := rfl
@[simp] theorem setLatchBounds_qi1 (v w : Half) (s : State) :
    (setLatchBounds v w s).qi1 = s.qi1 := rfl
@[simp] theorem setLatchBounds_ib (v w : Half) (s : State) : (setLatchBounds v w s).ib = s.ib := rfl
@[simp] theorem setLatchBounds_ob (v w : Half) (s : State) : (setLatchBounds v w s).ob = s.ob := rfl
@[simp] theorem setLatchBounds_cfg (v w : Half) (s : State) :
    (setLatchBounds v w s).cfg = s.cfg := rfl
@[simp] theorem setLatchBounds_host (v w : Half) (s : State) :
    (setLatchBounds v w s).host = s.host := rfl
@[simp] theorem setLatchBounds_hostData (v w : Half) (s : State) :
    (setLatchBounds v w s).hostData = s.hostData := rfl
@[simp] theorem setLatchBounds_freeCount (v w : Half) (s : State) :
    (setLatchBounds v w s).freeCount = s.freeCount := rfl

/-! ### setLatchScale -/

@[simp] theorem setLatchScale_status (v : Half) (s : State) :
    (setLatchScale v s).status = s.status := rfl
@[simp] theorem setLatchScale_fcode (v : Half) (s : State) :
    (setLatchScale v s).fcode = s.fcode := rfl
@[simp] theorem setLatchScale_finfo (v : Half) (s : State) :
    (setLatchScale v s).finfo = s.finfo := rfl
@[simp] theorem setLatchScale_arg0 (v : Half) (s : State) : (setLatchScale v s).arg0 = s.arg0 := rfl
@[simp] theorem setLatchScale_arg1 (v : Half) (s : State) : (setLatchScale v s).arg1 = s.arg1 := rfl
@[simp] theorem setLatchScale_ret0 (v : Half) (s : State) : (setLatchScale v s).ret0 = s.ret0 := rfl
@[simp] theorem setLatchScale_ret1 (v : Half) (s : State) : (setLatchScale v s).ret1 = s.ret1 := rfl
@[simp] theorem setLatchScale_symLow (v : Half) (s : State) :
    (setLatchScale v s).symLow = s.symLow := rfl
@[simp] theorem setLatchScale_symHigh (v : Half) (s : State) :
    (setLatchScale v s).symHigh = s.symHigh := rfl
@[simp] theorem setLatchScale_symScale (v : Half) (s : State) :
    (setLatchScale v s).symScale = v := rfl
@[simp] theorem setLatchScale_cnt (v : Half) (s : State) : (setLatchScale v s).cnt = s.cnt := rfl
@[simp] theorem setLatchScale_elow (v : Half) (s : State) : (setLatchScale v s).elow = s.elow := rfl
@[simp] theorem setLatchScale_ehigh (v : Half) (s : State) :
    (setLatchScale v s).ehigh = s.ehigh := rfl
@[simp] theorem setLatchScale_euf (v : Half) (s : State) : (setLatchScale v s).euf = s.euf := rfl
@[simp] theorem setLatchScale_dlow (v : Half) (s : State) : (setLatchScale v s).dlow = s.dlow := rfl
@[simp] theorem setLatchScale_dhigh (v : Half) (s : State) :
    (setLatchScale v s).dhigh = s.dhigh := rfl
@[simp] theorem setLatchScale_dcode (v : Half) (s : State) :
    (setLatchScale v s).dcode = s.dcode := rfl
@[simp] theorem setLatchScale_wpos (v : Half) (s : State) : (setLatchScale v s).wpos = s.wpos := rfl
@[simp] theorem setLatchScale_rpos (v : Half) (s : State) : (setLatchScale v s).rpos = s.rpos := rfl
@[simp] theorem setLatchScale_rlen (v : Half) (s : State) : (setLatchScale v s).rlen = s.rlen := rfl
@[simp] theorem setLatchScale_cmdcnt (v : Half) (s : State) :
    (setLatchScale v s).cmdcnt = s.cmdcnt := rfl
@[simp] theorem setLatchScale_mbits (v : Half) (s : State) :
    (setLatchScale v s).mbits = s.mbits := rfl
@[simp] theorem setLatchScale_tables (v : Half) (s : State) :
    (setLatchScale v s).tables = s.tables := rfl
@[simp] theorem setLatchScale_pix (v : Half) (s : State) : (setLatchScale v s).pix = s.pix := rfl
@[simp] theorem setLatchScale_ref (v : Half) (s : State) : (setLatchScale v s).ref = s.ref := rfl
@[simp] theorem setLatchScale_recon (v : Half) (s : State) :
    (setLatchScale v s).recon = s.recon := rfl
@[simp] theorem setLatchScale_coef (v : Half) (s : State) : (setLatchScale v s).coef = s.coef := rfl
@[simp] theorem setLatchScale_zz (v : Half) (s : State) : (setLatchScale v s).zz = s.zz := rfl
@[simp] theorem setLatchScale_qf0 (v : Half) (s : State) : (setLatchScale v s).qf0 = s.qf0 := rfl
@[simp] theorem setLatchScale_qf1 (v : Half) (s : State) : (setLatchScale v s).qf1 = s.qf1 := rfl
@[simp] theorem setLatchScale_qi0 (v : Half) (s : State) : (setLatchScale v s).qi0 = s.qi0 := rfl
@[simp] theorem setLatchScale_qi1 (v : Half) (s : State) : (setLatchScale v s).qi1 = s.qi1 := rfl
@[simp] theorem setLatchScale_ib (v : Half) (s : State) : (setLatchScale v s).ib = s.ib := rfl
@[simp] theorem setLatchScale_ob (v : Half) (s : State) : (setLatchScale v s).ob = s.ob := rfl
@[simp] theorem setLatchScale_cfg (v : Half) (s : State) : (setLatchScale v s).cfg = s.cfg := rfl
@[simp] theorem setLatchScale_host (v : Half) (s : State) : (setLatchScale v s).host = s.host := rfl
@[simp] theorem setLatchScale_hostData (v : Half) (s : State) :
    (setLatchScale v s).hostData = s.hostData := rfl
@[simp] theorem setLatchScale_freeCount (v : Half) (s : State) :
    (setLatchScale v s).freeCount = s.freeCount := rfl

/-! ### setEnc -/

@[simp] theorem setEnc_status (v w : Half) (s : State) : (setEnc v w s).status = s.status := rfl
@[simp] theorem setEnc_fcode (v w : Half) (s : State) : (setEnc v w s).fcode = s.fcode := rfl
@[simp] theorem setEnc_finfo (v w : Half) (s : State) : (setEnc v w s).finfo = s.finfo := rfl
@[simp] theorem setEnc_arg0 (v w : Half) (s : State) : (setEnc v w s).arg0 = s.arg0 := rfl
@[simp] theorem setEnc_arg1 (v w : Half) (s : State) : (setEnc v w s).arg1 = s.arg1 := rfl
@[simp] theorem setEnc_ret0 (v w : Half) (s : State) : (setEnc v w s).ret0 = s.ret0 := rfl
@[simp] theorem setEnc_ret1 (v w : Half) (s : State) : (setEnc v w s).ret1 = s.ret1 := rfl
@[simp] theorem setEnc_symLow (v w : Half) (s : State) : (setEnc v w s).symLow = s.symLow := rfl
@[simp] theorem setEnc_symHigh (v w : Half) (s : State) : (setEnc v w s).symHigh = s.symHigh := rfl
@[simp] theorem setEnc_symScale (v w : Half) (s : State) :
    (setEnc v w s).symScale = s.symScale := rfl
@[simp] theorem setEnc_cnt (v w : Half) (s : State) : (setEnc v w s).cnt = s.cnt := rfl
@[simp] theorem setEnc_elow (v w : Half) (s : State) : (setEnc v w s).elow = v := rfl
@[simp] theorem setEnc_ehigh (v w : Half) (s : State) : (setEnc v w s).ehigh = w := rfl
@[simp] theorem setEnc_euf (v w : Half) (s : State) : (setEnc v w s).euf = s.euf := rfl
@[simp] theorem setEnc_dlow (v w : Half) (s : State) : (setEnc v w s).dlow = s.dlow := rfl
@[simp] theorem setEnc_dhigh (v w : Half) (s : State) : (setEnc v w s).dhigh = s.dhigh := rfl
@[simp] theorem setEnc_dcode (v w : Half) (s : State) : (setEnc v w s).dcode = s.dcode := rfl
@[simp] theorem setEnc_wpos (v w : Half) (s : State) : (setEnc v w s).wpos = s.wpos := rfl
@[simp] theorem setEnc_rpos (v w : Half) (s : State) : (setEnc v w s).rpos = s.rpos := rfl
@[simp] theorem setEnc_rlen (v w : Half) (s : State) : (setEnc v w s).rlen = s.rlen := rfl
@[simp] theorem setEnc_cmdcnt (v w : Half) (s : State) : (setEnc v w s).cmdcnt = s.cmdcnt := rfl
@[simp] theorem setEnc_mbits (v w : Half) (s : State) : (setEnc v w s).mbits = s.mbits := rfl
@[simp] theorem setEnc_tables (v w : Half) (s : State) : (setEnc v w s).tables = s.tables := rfl
@[simp] theorem setEnc_pix (v w : Half) (s : State) : (setEnc v w s).pix = s.pix := rfl
@[simp] theorem setEnc_ref (v w : Half) (s : State) : (setEnc v w s).ref = s.ref := rfl
@[simp] theorem setEnc_recon (v w : Half) (s : State) : (setEnc v w s).recon = s.recon := rfl
@[simp] theorem setEnc_coef (v w : Half) (s : State) : (setEnc v w s).coef = s.coef := rfl
@[simp] theorem setEnc_zz (v w : Half) (s : State) : (setEnc v w s).zz = s.zz := rfl
@[simp] theorem setEnc_qf0 (v w : Half) (s : State) : (setEnc v w s).qf0 = s.qf0 := rfl
@[simp] theorem setEnc_qf1 (v w : Half) (s : State) : (setEnc v w s).qf1 = s.qf1 := rfl
@[simp] theorem setEnc_qi0 (v w : Half) (s : State) : (setEnc v w s).qi0 = s.qi0 := rfl
@[simp] theorem setEnc_qi1 (v w : Half) (s : State) : (setEnc v w s).qi1 = s.qi1 := rfl
@[simp] theorem setEnc_ib (v w : Half) (s : State) : (setEnc v w s).ib = s.ib := rfl
@[simp] theorem setEnc_ob (v w : Half) (s : State) : (setEnc v w s).ob = s.ob := rfl
@[simp] theorem setEnc_cfg (v w : Half) (s : State) : (setEnc v w s).cfg = s.cfg := rfl
@[simp] theorem setEnc_host (v w : Half) (s : State) : (setEnc v w s).host = s.host := rfl
@[simp] theorem setEnc_hostData (v w : Half) (s : State) :
    (setEnc v w s).hostData = s.hostData := rfl
@[simp] theorem setEnc_freeCount (v w : Half) (s : State) :
    (setEnc v w s).freeCount = s.freeCount := rfl

/-! ### setEuf -/

@[simp] theorem setEuf_status (v : Word) (s : State) : (setEuf v s).status = s.status := rfl
@[simp] theorem setEuf_fcode (v : Word) (s : State) : (setEuf v s).fcode = s.fcode := rfl
@[simp] theorem setEuf_finfo (v : Word) (s : State) : (setEuf v s).finfo = s.finfo := rfl
@[simp] theorem setEuf_arg0 (v : Word) (s : State) : (setEuf v s).arg0 = s.arg0 := rfl
@[simp] theorem setEuf_arg1 (v : Word) (s : State) : (setEuf v s).arg1 = s.arg1 := rfl
@[simp] theorem setEuf_ret0 (v : Word) (s : State) : (setEuf v s).ret0 = s.ret0 := rfl
@[simp] theorem setEuf_ret1 (v : Word) (s : State) : (setEuf v s).ret1 = s.ret1 := rfl
@[simp] theorem setEuf_symLow (v : Word) (s : State) : (setEuf v s).symLow = s.symLow := rfl
@[simp] theorem setEuf_symHigh (v : Word) (s : State) : (setEuf v s).symHigh = s.symHigh := rfl
@[simp] theorem setEuf_symScale (v : Word) (s : State) : (setEuf v s).symScale = s.symScale := rfl
@[simp] theorem setEuf_cnt (v : Word) (s : State) : (setEuf v s).cnt = s.cnt := rfl
@[simp] theorem setEuf_elow (v : Word) (s : State) : (setEuf v s).elow = s.elow := rfl
@[simp] theorem setEuf_ehigh (v : Word) (s : State) : (setEuf v s).ehigh = s.ehigh := rfl
@[simp] theorem setEuf_euf (v : Word) (s : State) : (setEuf v s).euf = v := rfl
@[simp] theorem setEuf_dlow (v : Word) (s : State) : (setEuf v s).dlow = s.dlow := rfl
@[simp] theorem setEuf_dhigh (v : Word) (s : State) : (setEuf v s).dhigh = s.dhigh := rfl
@[simp] theorem setEuf_dcode (v : Word) (s : State) : (setEuf v s).dcode = s.dcode := rfl
@[simp] theorem setEuf_wpos (v : Word) (s : State) : (setEuf v s).wpos = s.wpos := rfl
@[simp] theorem setEuf_rpos (v : Word) (s : State) : (setEuf v s).rpos = s.rpos := rfl
@[simp] theorem setEuf_rlen (v : Word) (s : State) : (setEuf v s).rlen = s.rlen := rfl
@[simp] theorem setEuf_cmdcnt (v : Word) (s : State) : (setEuf v s).cmdcnt = s.cmdcnt := rfl
@[simp] theorem setEuf_mbits (v : Word) (s : State) : (setEuf v s).mbits = s.mbits := rfl
@[simp] theorem setEuf_tables (v : Word) (s : State) : (setEuf v s).tables = s.tables := rfl
@[simp] theorem setEuf_pix (v : Word) (s : State) : (setEuf v s).pix = s.pix := rfl
@[simp] theorem setEuf_ref (v : Word) (s : State) : (setEuf v s).ref = s.ref := rfl
@[simp] theorem setEuf_recon (v : Word) (s : State) : (setEuf v s).recon = s.recon := rfl
@[simp] theorem setEuf_coef (v : Word) (s : State) : (setEuf v s).coef = s.coef := rfl
@[simp] theorem setEuf_zz (v : Word) (s : State) : (setEuf v s).zz = s.zz := rfl
@[simp] theorem setEuf_qf0 (v : Word) (s : State) : (setEuf v s).qf0 = s.qf0 := rfl
@[simp] theorem setEuf_qf1 (v : Word) (s : State) : (setEuf v s).qf1 = s.qf1 := rfl
@[simp] theorem setEuf_qi0 (v : Word) (s : State) : (setEuf v s).qi0 = s.qi0 := rfl
@[simp] theorem setEuf_qi1 (v : Word) (s : State) : (setEuf v s).qi1 = s.qi1 := rfl
@[simp] theorem setEuf_ib (v : Word) (s : State) : (setEuf v s).ib = s.ib := rfl
@[simp] theorem setEuf_ob (v : Word) (s : State) : (setEuf v s).ob = s.ob := rfl
@[simp] theorem setEuf_cfg (v : Word) (s : State) : (setEuf v s).cfg = s.cfg := rfl
@[simp] theorem setEuf_host (v : Word) (s : State) : (setEuf v s).host = s.host := rfl
@[simp] theorem setEuf_hostData (v : Word) (s : State) : (setEuf v s).hostData = s.hostData := rfl
@[simp] theorem setEuf_freeCount (v : Word) (s : State) :
    (setEuf v s).freeCount = s.freeCount := rfl

/-! ### setDec -/

@[simp] theorem setDec_status (v w : Half) (s : State) : (setDec v w s).status = s.status := rfl
@[simp] theorem setDec_fcode (v w : Half) (s : State) : (setDec v w s).fcode = s.fcode := rfl
@[simp] theorem setDec_finfo (v w : Half) (s : State) : (setDec v w s).finfo = s.finfo := rfl
@[simp] theorem setDec_arg0 (v w : Half) (s : State) : (setDec v w s).arg0 = s.arg0 := rfl
@[simp] theorem setDec_arg1 (v w : Half) (s : State) : (setDec v w s).arg1 = s.arg1 := rfl
@[simp] theorem setDec_ret0 (v w : Half) (s : State) : (setDec v w s).ret0 = s.ret0 := rfl
@[simp] theorem setDec_ret1 (v w : Half) (s : State) : (setDec v w s).ret1 = s.ret1 := rfl
@[simp] theorem setDec_symLow (v w : Half) (s : State) : (setDec v w s).symLow = s.symLow := rfl
@[simp] theorem setDec_symHigh (v w : Half) (s : State) : (setDec v w s).symHigh = s.symHigh := rfl
@[simp] theorem setDec_symScale (v w : Half) (s : State) :
    (setDec v w s).symScale = s.symScale := rfl
@[simp] theorem setDec_cnt (v w : Half) (s : State) : (setDec v w s).cnt = s.cnt := rfl
@[simp] theorem setDec_elow (v w : Half) (s : State) : (setDec v w s).elow = s.elow := rfl
@[simp] theorem setDec_ehigh (v w : Half) (s : State) : (setDec v w s).ehigh = s.ehigh := rfl
@[simp] theorem setDec_euf (v w : Half) (s : State) : (setDec v w s).euf = s.euf := rfl
@[simp] theorem setDec_dlow (v w : Half) (s : State) : (setDec v w s).dlow = v := rfl
@[simp] theorem setDec_dhigh (v w : Half) (s : State) : (setDec v w s).dhigh = w := rfl
@[simp] theorem setDec_dcode (v w : Half) (s : State) : (setDec v w s).dcode = s.dcode := rfl
@[simp] theorem setDec_wpos (v w : Half) (s : State) : (setDec v w s).wpos = s.wpos := rfl
@[simp] theorem setDec_rpos (v w : Half) (s : State) : (setDec v w s).rpos = s.rpos := rfl
@[simp] theorem setDec_rlen (v w : Half) (s : State) : (setDec v w s).rlen = s.rlen := rfl
@[simp] theorem setDec_cmdcnt (v w : Half) (s : State) : (setDec v w s).cmdcnt = s.cmdcnt := rfl
@[simp] theorem setDec_mbits (v w : Half) (s : State) : (setDec v w s).mbits = s.mbits := rfl
@[simp] theorem setDec_tables (v w : Half) (s : State) : (setDec v w s).tables = s.tables := rfl
@[simp] theorem setDec_pix (v w : Half) (s : State) : (setDec v w s).pix = s.pix := rfl
@[simp] theorem setDec_ref (v w : Half) (s : State) : (setDec v w s).ref = s.ref := rfl
@[simp] theorem setDec_recon (v w : Half) (s : State) : (setDec v w s).recon = s.recon := rfl
@[simp] theorem setDec_coef (v w : Half) (s : State) : (setDec v w s).coef = s.coef := rfl
@[simp] theorem setDec_zz (v w : Half) (s : State) : (setDec v w s).zz = s.zz := rfl
@[simp] theorem setDec_qf0 (v w : Half) (s : State) : (setDec v w s).qf0 = s.qf0 := rfl
@[simp] theorem setDec_qf1 (v w : Half) (s : State) : (setDec v w s).qf1 = s.qf1 := rfl
@[simp] theorem setDec_qi0 (v w : Half) (s : State) : (setDec v w s).qi0 = s.qi0 := rfl
@[simp] theorem setDec_qi1 (v w : Half) (s : State) : (setDec v w s).qi1 = s.qi1 := rfl
@[simp] theorem setDec_ib (v w : Half) (s : State) : (setDec v w s).ib = s.ib := rfl
@[simp] theorem setDec_ob (v w : Half) (s : State) : (setDec v w s).ob = s.ob := rfl
@[simp] theorem setDec_cfg (v w : Half) (s : State) : (setDec v w s).cfg = s.cfg := rfl
@[simp] theorem setDec_host (v w : Half) (s : State) : (setDec v w s).host = s.host := rfl
@[simp] theorem setDec_hostData (v w : Half) (s : State) :
    (setDec v w s).hostData = s.hostData := rfl
@[simp] theorem setDec_freeCount (v w : Half) (s : State) :
    (setDec v w s).freeCount = s.freeCount := rfl

/-! ### setDcode -/

@[simp] theorem setDcode_status (v : Half) (s : State) : (setDcode v s).status = s.status := rfl
@[simp] theorem setDcode_fcode (v : Half) (s : State) : (setDcode v s).fcode = s.fcode := rfl
@[simp] theorem setDcode_finfo (v : Half) (s : State) : (setDcode v s).finfo = s.finfo := rfl
@[simp] theorem setDcode_arg0 (v : Half) (s : State) : (setDcode v s).arg0 = s.arg0 := rfl
@[simp] theorem setDcode_arg1 (v : Half) (s : State) : (setDcode v s).arg1 = s.arg1 := rfl
@[simp] theorem setDcode_ret0 (v : Half) (s : State) : (setDcode v s).ret0 = s.ret0 := rfl
@[simp] theorem setDcode_ret1 (v : Half) (s : State) : (setDcode v s).ret1 = s.ret1 := rfl
@[simp] theorem setDcode_symLow (v : Half) (s : State) : (setDcode v s).symLow = s.symLow := rfl
@[simp] theorem setDcode_symHigh (v : Half) (s : State) : (setDcode v s).symHigh = s.symHigh := rfl
@[simp] theorem setDcode_symScale (v : Half) (s : State) :
    (setDcode v s).symScale = s.symScale := rfl
@[simp] theorem setDcode_cnt (v : Half) (s : State) : (setDcode v s).cnt = s.cnt := rfl
@[simp] theorem setDcode_elow (v : Half) (s : State) : (setDcode v s).elow = s.elow := rfl
@[simp] theorem setDcode_ehigh (v : Half) (s : State) : (setDcode v s).ehigh = s.ehigh := rfl
@[simp] theorem setDcode_euf (v : Half) (s : State) : (setDcode v s).euf = s.euf := rfl
@[simp] theorem setDcode_dlow (v : Half) (s : State) : (setDcode v s).dlow = s.dlow := rfl
@[simp] theorem setDcode_dhigh (v : Half) (s : State) : (setDcode v s).dhigh = s.dhigh := rfl
@[simp] theorem setDcode_dcode (v : Half) (s : State) : (setDcode v s).dcode = v := rfl
@[simp] theorem setDcode_wpos (v : Half) (s : State) : (setDcode v s).wpos = s.wpos := rfl
@[simp] theorem setDcode_rpos (v : Half) (s : State) : (setDcode v s).rpos = s.rpos := rfl
@[simp] theorem setDcode_rlen (v : Half) (s : State) : (setDcode v s).rlen = s.rlen := rfl
@[simp] theorem setDcode_cmdcnt (v : Half) (s : State) : (setDcode v s).cmdcnt = s.cmdcnt := rfl
@[simp] theorem setDcode_mbits (v : Half) (s : State) : (setDcode v s).mbits = s.mbits := rfl
@[simp] theorem setDcode_tables (v : Half) (s : State) : (setDcode v s).tables = s.tables := rfl
@[simp] theorem setDcode_pix (v : Half) (s : State) : (setDcode v s).pix = s.pix := rfl
@[simp] theorem setDcode_ref (v : Half) (s : State) : (setDcode v s).ref = s.ref := rfl
@[simp] theorem setDcode_recon (v : Half) (s : State) : (setDcode v s).recon = s.recon := rfl
@[simp] theorem setDcode_coef (v : Half) (s : State) : (setDcode v s).coef = s.coef := rfl
@[simp] theorem setDcode_zz (v : Half) (s : State) : (setDcode v s).zz = s.zz := rfl
@[simp] theorem setDcode_qf0 (v : Half) (s : State) : (setDcode v s).qf0 = s.qf0 := rfl
@[simp] theorem setDcode_qf1 (v : Half) (s : State) : (setDcode v s).qf1 = s.qf1 := rfl
@[simp] theorem setDcode_qi0 (v : Half) (s : State) : (setDcode v s).qi0 = s.qi0 := rfl
@[simp] theorem setDcode_qi1 (v : Half) (s : State) : (setDcode v s).qi1 = s.qi1 := rfl
@[simp] theorem setDcode_ib (v : Half) (s : State) : (setDcode v s).ib = s.ib := rfl
@[simp] theorem setDcode_ob (v : Half) (s : State) : (setDcode v s).ob = s.ob := rfl
@[simp] theorem setDcode_cfg (v : Half) (s : State) : (setDcode v s).cfg = s.cfg := rfl
@[simp] theorem setDcode_host (v : Half) (s : State) : (setDcode v s).host = s.host := rfl
@[simp] theorem setDcode_hostData (v : Half) (s : State) :
    (setDcode v s).hostData = s.hostData := rfl
@[simp] theorem setDcode_freeCount (v : Half) (s : State) :
    (setDcode v s).freeCount = s.freeCount := rfl

/-! ### setWpos -/

@[simp] theorem setWpos_status (v : Word) (s : State) : (setWpos v s).status = s.status := rfl
@[simp] theorem setWpos_fcode (v : Word) (s : State) : (setWpos v s).fcode = s.fcode := rfl
@[simp] theorem setWpos_finfo (v : Word) (s : State) : (setWpos v s).finfo = s.finfo := rfl
@[simp] theorem setWpos_arg0 (v : Word) (s : State) : (setWpos v s).arg0 = s.arg0 := rfl
@[simp] theorem setWpos_arg1 (v : Word) (s : State) : (setWpos v s).arg1 = s.arg1 := rfl
@[simp] theorem setWpos_ret0 (v : Word) (s : State) : (setWpos v s).ret0 = s.ret0 := rfl
@[simp] theorem setWpos_ret1 (v : Word) (s : State) : (setWpos v s).ret1 = s.ret1 := rfl
@[simp] theorem setWpos_symLow (v : Word) (s : State) : (setWpos v s).symLow = s.symLow := rfl
@[simp] theorem setWpos_symHigh (v : Word) (s : State) : (setWpos v s).symHigh = s.symHigh := rfl
@[simp] theorem setWpos_symScale (v : Word) (s : State) : (setWpos v s).symScale = s.symScale := rfl
@[simp] theorem setWpos_cnt (v : Word) (s : State) : (setWpos v s).cnt = s.cnt := rfl
@[simp] theorem setWpos_elow (v : Word) (s : State) : (setWpos v s).elow = s.elow := rfl
@[simp] theorem setWpos_ehigh (v : Word) (s : State) : (setWpos v s).ehigh = s.ehigh := rfl
@[simp] theorem setWpos_euf (v : Word) (s : State) : (setWpos v s).euf = s.euf := rfl
@[simp] theorem setWpos_dlow (v : Word) (s : State) : (setWpos v s).dlow = s.dlow := rfl
@[simp] theorem setWpos_dhigh (v : Word) (s : State) : (setWpos v s).dhigh = s.dhigh := rfl
@[simp] theorem setWpos_dcode (v : Word) (s : State) : (setWpos v s).dcode = s.dcode := rfl
@[simp] theorem setWpos_wpos (v : Word) (s : State) : (setWpos v s).wpos = v := rfl
@[simp] theorem setWpos_rpos (v : Word) (s : State) : (setWpos v s).rpos = s.rpos := rfl
@[simp] theorem setWpos_rlen (v : Word) (s : State) : (setWpos v s).rlen = s.rlen := rfl
@[simp] theorem setWpos_cmdcnt (v : Word) (s : State) : (setWpos v s).cmdcnt = s.cmdcnt := rfl
@[simp] theorem setWpos_mbits (v : Word) (s : State) : (setWpos v s).mbits = s.mbits := rfl
@[simp] theorem setWpos_tables (v : Word) (s : State) : (setWpos v s).tables = s.tables := rfl
@[simp] theorem setWpos_pix (v : Word) (s : State) : (setWpos v s).pix = s.pix := rfl
@[simp] theorem setWpos_ref (v : Word) (s : State) : (setWpos v s).ref = s.ref := rfl
@[simp] theorem setWpos_recon (v : Word) (s : State) : (setWpos v s).recon = s.recon := rfl
@[simp] theorem setWpos_coef (v : Word) (s : State) : (setWpos v s).coef = s.coef := rfl
@[simp] theorem setWpos_zz (v : Word) (s : State) : (setWpos v s).zz = s.zz := rfl
@[simp] theorem setWpos_qf0 (v : Word) (s : State) : (setWpos v s).qf0 = s.qf0 := rfl
@[simp] theorem setWpos_qf1 (v : Word) (s : State) : (setWpos v s).qf1 = s.qf1 := rfl
@[simp] theorem setWpos_qi0 (v : Word) (s : State) : (setWpos v s).qi0 = s.qi0 := rfl
@[simp] theorem setWpos_qi1 (v : Word) (s : State) : (setWpos v s).qi1 = s.qi1 := rfl
@[simp] theorem setWpos_ib (v : Word) (s : State) : (setWpos v s).ib = s.ib := rfl
@[simp] theorem setWpos_ob (v : Word) (s : State) : (setWpos v s).ob = s.ob := rfl
@[simp] theorem setWpos_cfg (v : Word) (s : State) : (setWpos v s).cfg = s.cfg := rfl
@[simp] theorem setWpos_host (v : Word) (s : State) : (setWpos v s).host = s.host := rfl
@[simp] theorem setWpos_hostData (v : Word) (s : State) : (setWpos v s).hostData = s.hostData := rfl
@[simp] theorem setWpos_freeCount (v : Word) (s : State) :
    (setWpos v s).freeCount = s.freeCount := rfl

/-! ### setRpos -/

@[simp] theorem setRpos_status (v : Word) (s : State) : (setRpos v s).status = s.status := rfl
@[simp] theorem setRpos_fcode (v : Word) (s : State) : (setRpos v s).fcode = s.fcode := rfl
@[simp] theorem setRpos_finfo (v : Word) (s : State) : (setRpos v s).finfo = s.finfo := rfl
@[simp] theorem setRpos_arg0 (v : Word) (s : State) : (setRpos v s).arg0 = s.arg0 := rfl
@[simp] theorem setRpos_arg1 (v : Word) (s : State) : (setRpos v s).arg1 = s.arg1 := rfl
@[simp] theorem setRpos_ret0 (v : Word) (s : State) : (setRpos v s).ret0 = s.ret0 := rfl
@[simp] theorem setRpos_ret1 (v : Word) (s : State) : (setRpos v s).ret1 = s.ret1 := rfl
@[simp] theorem setRpos_symLow (v : Word) (s : State) : (setRpos v s).symLow = s.symLow := rfl
@[simp] theorem setRpos_symHigh (v : Word) (s : State) : (setRpos v s).symHigh = s.symHigh := rfl
@[simp] theorem setRpos_symScale (v : Word) (s : State) : (setRpos v s).symScale = s.symScale := rfl
@[simp] theorem setRpos_cnt (v : Word) (s : State) : (setRpos v s).cnt = s.cnt := rfl
@[simp] theorem setRpos_elow (v : Word) (s : State) : (setRpos v s).elow = s.elow := rfl
@[simp] theorem setRpos_ehigh (v : Word) (s : State) : (setRpos v s).ehigh = s.ehigh := rfl
@[simp] theorem setRpos_euf (v : Word) (s : State) : (setRpos v s).euf = s.euf := rfl
@[simp] theorem setRpos_dlow (v : Word) (s : State) : (setRpos v s).dlow = s.dlow := rfl
@[simp] theorem setRpos_dhigh (v : Word) (s : State) : (setRpos v s).dhigh = s.dhigh := rfl
@[simp] theorem setRpos_dcode (v : Word) (s : State) : (setRpos v s).dcode = s.dcode := rfl
@[simp] theorem setRpos_wpos (v : Word) (s : State) : (setRpos v s).wpos = s.wpos := rfl
@[simp] theorem setRpos_rpos (v : Word) (s : State) : (setRpos v s).rpos = v := rfl
@[simp] theorem setRpos_rlen (v : Word) (s : State) : (setRpos v s).rlen = s.rlen := rfl
@[simp] theorem setRpos_cmdcnt (v : Word) (s : State) : (setRpos v s).cmdcnt = s.cmdcnt := rfl
@[simp] theorem setRpos_mbits (v : Word) (s : State) : (setRpos v s).mbits = s.mbits := rfl
@[simp] theorem setRpos_tables (v : Word) (s : State) : (setRpos v s).tables = s.tables := rfl
@[simp] theorem setRpos_pix (v : Word) (s : State) : (setRpos v s).pix = s.pix := rfl
@[simp] theorem setRpos_ref (v : Word) (s : State) : (setRpos v s).ref = s.ref := rfl
@[simp] theorem setRpos_recon (v : Word) (s : State) : (setRpos v s).recon = s.recon := rfl
@[simp] theorem setRpos_coef (v : Word) (s : State) : (setRpos v s).coef = s.coef := rfl
@[simp] theorem setRpos_zz (v : Word) (s : State) : (setRpos v s).zz = s.zz := rfl
@[simp] theorem setRpos_qf0 (v : Word) (s : State) : (setRpos v s).qf0 = s.qf0 := rfl
@[simp] theorem setRpos_qf1 (v : Word) (s : State) : (setRpos v s).qf1 = s.qf1 := rfl
@[simp] theorem setRpos_qi0 (v : Word) (s : State) : (setRpos v s).qi0 = s.qi0 := rfl
@[simp] theorem setRpos_qi1 (v : Word) (s : State) : (setRpos v s).qi1 = s.qi1 := rfl
@[simp] theorem setRpos_ib (v : Word) (s : State) : (setRpos v s).ib = s.ib := rfl
@[simp] theorem setRpos_ob (v : Word) (s : State) : (setRpos v s).ob = s.ob := rfl
@[simp] theorem setRpos_cfg (v : Word) (s : State) : (setRpos v s).cfg = s.cfg := rfl
@[simp] theorem setRpos_host (v : Word) (s : State) : (setRpos v s).host = s.host := rfl
@[simp] theorem setRpos_hostData (v : Word) (s : State) : (setRpos v s).hostData = s.hostData := rfl
@[simp] theorem setRpos_freeCount (v : Word) (s : State) :
    (setRpos v s).freeCount = s.freeCount := rfl

/-! ### setRlen -/

@[simp] theorem setRlen_status (v : Word) (s : State) : (setRlen v s).status = s.status := rfl
@[simp] theorem setRlen_fcode (v : Word) (s : State) : (setRlen v s).fcode = s.fcode := rfl
@[simp] theorem setRlen_finfo (v : Word) (s : State) : (setRlen v s).finfo = s.finfo := rfl
@[simp] theorem setRlen_arg0 (v : Word) (s : State) : (setRlen v s).arg0 = s.arg0 := rfl
@[simp] theorem setRlen_arg1 (v : Word) (s : State) : (setRlen v s).arg1 = s.arg1 := rfl
@[simp] theorem setRlen_ret0 (v : Word) (s : State) : (setRlen v s).ret0 = s.ret0 := rfl
@[simp] theorem setRlen_ret1 (v : Word) (s : State) : (setRlen v s).ret1 = s.ret1 := rfl
@[simp] theorem setRlen_symLow (v : Word) (s : State) : (setRlen v s).symLow = s.symLow := rfl
@[simp] theorem setRlen_symHigh (v : Word) (s : State) : (setRlen v s).symHigh = s.symHigh := rfl
@[simp] theorem setRlen_symScale (v : Word) (s : State) : (setRlen v s).symScale = s.symScale := rfl
@[simp] theorem setRlen_cnt (v : Word) (s : State) : (setRlen v s).cnt = s.cnt := rfl
@[simp] theorem setRlen_elow (v : Word) (s : State) : (setRlen v s).elow = s.elow := rfl
@[simp] theorem setRlen_ehigh (v : Word) (s : State) : (setRlen v s).ehigh = s.ehigh := rfl
@[simp] theorem setRlen_euf (v : Word) (s : State) : (setRlen v s).euf = s.euf := rfl
@[simp] theorem setRlen_dlow (v : Word) (s : State) : (setRlen v s).dlow = s.dlow := rfl
@[simp] theorem setRlen_dhigh (v : Word) (s : State) : (setRlen v s).dhigh = s.dhigh := rfl
@[simp] theorem setRlen_dcode (v : Word) (s : State) : (setRlen v s).dcode = s.dcode := rfl
@[simp] theorem setRlen_wpos (v : Word) (s : State) : (setRlen v s).wpos = s.wpos := rfl
@[simp] theorem setRlen_rpos (v : Word) (s : State) : (setRlen v s).rpos = s.rpos := rfl
@[simp] theorem setRlen_rlen (v : Word) (s : State) : (setRlen v s).rlen = v := rfl
@[simp] theorem setRlen_cmdcnt (v : Word) (s : State) : (setRlen v s).cmdcnt = s.cmdcnt := rfl
@[simp] theorem setRlen_mbits (v : Word) (s : State) : (setRlen v s).mbits = s.mbits := rfl
@[simp] theorem setRlen_tables (v : Word) (s : State) : (setRlen v s).tables = s.tables := rfl
@[simp] theorem setRlen_pix (v : Word) (s : State) : (setRlen v s).pix = s.pix := rfl
@[simp] theorem setRlen_ref (v : Word) (s : State) : (setRlen v s).ref = s.ref := rfl
@[simp] theorem setRlen_recon (v : Word) (s : State) : (setRlen v s).recon = s.recon := rfl
@[simp] theorem setRlen_coef (v : Word) (s : State) : (setRlen v s).coef = s.coef := rfl
@[simp] theorem setRlen_zz (v : Word) (s : State) : (setRlen v s).zz = s.zz := rfl
@[simp] theorem setRlen_qf0 (v : Word) (s : State) : (setRlen v s).qf0 = s.qf0 := rfl
@[simp] theorem setRlen_qf1 (v : Word) (s : State) : (setRlen v s).qf1 = s.qf1 := rfl
@[simp] theorem setRlen_qi0 (v : Word) (s : State) : (setRlen v s).qi0 = s.qi0 := rfl
@[simp] theorem setRlen_qi1 (v : Word) (s : State) : (setRlen v s).qi1 = s.qi1 := rfl
@[simp] theorem setRlen_ib (v : Word) (s : State) : (setRlen v s).ib = s.ib := rfl
@[simp] theorem setRlen_ob (v : Word) (s : State) : (setRlen v s).ob = s.ob := rfl
@[simp] theorem setRlen_cfg (v : Word) (s : State) : (setRlen v s).cfg = s.cfg := rfl
@[simp] theorem setRlen_host (v : Word) (s : State) : (setRlen v s).host = s.host := rfl
@[simp] theorem setRlen_hostData (v : Word) (s : State) : (setRlen v s).hostData = s.hostData := rfl
@[simp] theorem setRlen_freeCount (v : Word) (s : State) :
    (setRlen v s).freeCount = s.freeCount := rfl

/-! ### setOb -/

@[simp] theorem setOb_status (v : Memory) (s : State) : (setOb v s).status = s.status := rfl
@[simp] theorem setOb_fcode (v : Memory) (s : State) : (setOb v s).fcode = s.fcode := rfl
@[simp] theorem setOb_finfo (v : Memory) (s : State) : (setOb v s).finfo = s.finfo := rfl
@[simp] theorem setOb_arg0 (v : Memory) (s : State) : (setOb v s).arg0 = s.arg0 := rfl
@[simp] theorem setOb_arg1 (v : Memory) (s : State) : (setOb v s).arg1 = s.arg1 := rfl
@[simp] theorem setOb_ret0 (v : Memory) (s : State) : (setOb v s).ret0 = s.ret0 := rfl
@[simp] theorem setOb_ret1 (v : Memory) (s : State) : (setOb v s).ret1 = s.ret1 := rfl
@[simp] theorem setOb_symLow (v : Memory) (s : State) : (setOb v s).symLow = s.symLow := rfl
@[simp] theorem setOb_symHigh (v : Memory) (s : State) : (setOb v s).symHigh = s.symHigh := rfl
@[simp] theorem setOb_symScale (v : Memory) (s : State) : (setOb v s).symScale = s.symScale := rfl
@[simp] theorem setOb_cnt (v : Memory) (s : State) : (setOb v s).cnt = s.cnt := rfl
@[simp] theorem setOb_elow (v : Memory) (s : State) : (setOb v s).elow = s.elow := rfl
@[simp] theorem setOb_ehigh (v : Memory) (s : State) : (setOb v s).ehigh = s.ehigh := rfl
@[simp] theorem setOb_euf (v : Memory) (s : State) : (setOb v s).euf = s.euf := rfl
@[simp] theorem setOb_dlow (v : Memory) (s : State) : (setOb v s).dlow = s.dlow := rfl
@[simp] theorem setOb_dhigh (v : Memory) (s : State) : (setOb v s).dhigh = s.dhigh := rfl
@[simp] theorem setOb_dcode (v : Memory) (s : State) : (setOb v s).dcode = s.dcode := rfl
@[simp] theorem setOb_wpos (v : Memory) (s : State) : (setOb v s).wpos = s.wpos := rfl
@[simp] theorem setOb_rpos (v : Memory) (s : State) : (setOb v s).rpos = s.rpos := rfl
@[simp] theorem setOb_rlen (v : Memory) (s : State) : (setOb v s).rlen = s.rlen := rfl
@[simp] theorem setOb_cmdcnt (v : Memory) (s : State) : (setOb v s).cmdcnt = s.cmdcnt := rfl
@[simp] theorem setOb_mbits (v : Memory) (s : State) : (setOb v s).mbits = s.mbits := rfl
@[simp] theorem setOb_tables (v : Memory) (s : State) : (setOb v s).tables = s.tables := rfl
@[simp] theorem setOb_pix (v : Memory) (s : State) : (setOb v s).pix = s.pix := rfl
@[simp] theorem setOb_ref (v : Memory) (s : State) : (setOb v s).ref = s.ref := rfl
@[simp] theorem setOb_recon (v : Memory) (s : State) : (setOb v s).recon = s.recon := rfl
@[simp] theorem setOb_coef (v : Memory) (s : State) : (setOb v s).coef = s.coef := rfl
@[simp] theorem setOb_zz (v : Memory) (s : State) : (setOb v s).zz = s.zz := rfl
@[simp] theorem setOb_qf0 (v : Memory) (s : State) : (setOb v s).qf0 = s.qf0 := rfl
@[simp] theorem setOb_qf1 (v : Memory) (s : State) : (setOb v s).qf1 = s.qf1 := rfl
@[simp] theorem setOb_qi0 (v : Memory) (s : State) : (setOb v s).qi0 = s.qi0 := rfl
@[simp] theorem setOb_qi1 (v : Memory) (s : State) : (setOb v s).qi1 = s.qi1 := rfl
@[simp] theorem setOb_ib (v : Memory) (s : State) : (setOb v s).ib = s.ib := rfl
@[simp] theorem setOb_ob (v : Memory) (s : State) : (setOb v s).ob = v := rfl
@[simp] theorem setOb_cfg (v : Memory) (s : State) : (setOb v s).cfg = s.cfg := rfl
@[simp] theorem setOb_host (v : Memory) (s : State) : (setOb v s).host = s.host := rfl
@[simp] theorem setOb_hostData (v : Memory) (s : State) : (setOb v s).hostData = s.hostData := rfl
@[simp] theorem setOb_freeCount (v : Memory) (s : State) :
    (setOb v s).freeCount = s.freeCount := rfl

/-! ### setMbits -/

@[simp] theorem setMbits_status (m : Fin 16) (v : BitVec 4) (s : State) :
    (setMbits m v s).status = s.status := rfl
@[simp] theorem setMbits_fcode (m : Fin 16) (v : BitVec 4) (s : State) :
    (setMbits m v s).fcode = s.fcode := rfl
@[simp] theorem setMbits_finfo (m : Fin 16) (v : BitVec 4) (s : State) :
    (setMbits m v s).finfo = s.finfo := rfl
@[simp] theorem setMbits_arg0 (m : Fin 16) (v : BitVec 4) (s : State) :
    (setMbits m v s).arg0 = s.arg0 := rfl
@[simp] theorem setMbits_arg1 (m : Fin 16) (v : BitVec 4) (s : State) :
    (setMbits m v s).arg1 = s.arg1 := rfl
@[simp] theorem setMbits_ret0 (m : Fin 16) (v : BitVec 4) (s : State) :
    (setMbits m v s).ret0 = s.ret0 := rfl
@[simp] theorem setMbits_ret1 (m : Fin 16) (v : BitVec 4) (s : State) :
    (setMbits m v s).ret1 = s.ret1 := rfl
@[simp] theorem setMbits_symLow (m : Fin 16) (v : BitVec 4) (s : State) :
    (setMbits m v s).symLow = s.symLow := rfl
@[simp] theorem setMbits_symHigh (m : Fin 16) (v : BitVec 4) (s : State) :
    (setMbits m v s).symHigh = s.symHigh := rfl
@[simp] theorem setMbits_symScale (m : Fin 16) (v : BitVec 4) (s : State) :
    (setMbits m v s).symScale = s.symScale := rfl
@[simp] theorem setMbits_cnt (m : Fin 16) (v : BitVec 4) (s : State) :
    (setMbits m v s).cnt = s.cnt := rfl
@[simp] theorem setMbits_elow (m : Fin 16) (v : BitVec 4) (s : State) :
    (setMbits m v s).elow = s.elow := rfl
@[simp] theorem setMbits_ehigh (m : Fin 16) (v : BitVec 4) (s : State) :
    (setMbits m v s).ehigh = s.ehigh := rfl
@[simp] theorem setMbits_euf (m : Fin 16) (v : BitVec 4) (s : State) :
    (setMbits m v s).euf = s.euf := rfl
@[simp] theorem setMbits_dlow (m : Fin 16) (v : BitVec 4) (s : State) :
    (setMbits m v s).dlow = s.dlow := rfl
@[simp] theorem setMbits_dhigh (m : Fin 16) (v : BitVec 4) (s : State) :
    (setMbits m v s).dhigh = s.dhigh := rfl
@[simp] theorem setMbits_dcode (m : Fin 16) (v : BitVec 4) (s : State) :
    (setMbits m v s).dcode = s.dcode := rfl
@[simp] theorem setMbits_wpos (m : Fin 16) (v : BitVec 4) (s : State) :
    (setMbits m v s).wpos = s.wpos := rfl
@[simp] theorem setMbits_rpos (m : Fin 16) (v : BitVec 4) (s : State) :
    (setMbits m v s).rpos = s.rpos := rfl
@[simp] theorem setMbits_rlen (m : Fin 16) (v : BitVec 4) (s : State) :
    (setMbits m v s).rlen = s.rlen := rfl
@[simp] theorem setMbits_cmdcnt (m : Fin 16) (v : BitVec 4) (s : State) :
    (setMbits m v s).cmdcnt = s.cmdcnt := rfl
@[simp] theorem setMbits_mbits (m : Fin 16) (v : BitVec 4) (s : State) :
    (setMbits m v s).mbits = s.mbits.set m v := rfl
@[simp] theorem setMbits_tables (m : Fin 16) (v : BitVec 4) (s : State) :
    (setMbits m v s).tables = s.tables := rfl
@[simp] theorem setMbits_pix (m : Fin 16) (v : BitVec 4) (s : State) :
    (setMbits m v s).pix = s.pix := rfl
@[simp] theorem setMbits_ref (m : Fin 16) (v : BitVec 4) (s : State) :
    (setMbits m v s).ref = s.ref := rfl
@[simp] theorem setMbits_recon (m : Fin 16) (v : BitVec 4) (s : State) :
    (setMbits m v s).recon = s.recon := rfl
@[simp] theorem setMbits_coef (m : Fin 16) (v : BitVec 4) (s : State) :
    (setMbits m v s).coef = s.coef := rfl
@[simp] theorem setMbits_zz (m : Fin 16) (v : BitVec 4) (s : State) :
    (setMbits m v s).zz = s.zz := rfl
@[simp] theorem setMbits_qf0 (m : Fin 16) (v : BitVec 4) (s : State) :
    (setMbits m v s).qf0 = s.qf0 := rfl
@[simp] theorem setMbits_qf1 (m : Fin 16) (v : BitVec 4) (s : State) :
    (setMbits m v s).qf1 = s.qf1 := rfl
@[simp] theorem setMbits_qi0 (m : Fin 16) (v : BitVec 4) (s : State) :
    (setMbits m v s).qi0 = s.qi0 := rfl
@[simp] theorem setMbits_qi1 (m : Fin 16) (v : BitVec 4) (s : State) :
    (setMbits m v s).qi1 = s.qi1 := rfl
@[simp] theorem setMbits_ib (m : Fin 16) (v : BitVec 4) (s : State) :
    (setMbits m v s).ib = s.ib := rfl
@[simp] theorem setMbits_ob (m : Fin 16) (v : BitVec 4) (s : State) :
    (setMbits m v s).ob = s.ob := rfl
@[simp] theorem setMbits_cfg (m : Fin 16) (v : BitVec 4) (s : State) :
    (setMbits m v s).cfg = s.cfg := rfl
@[simp] theorem setMbits_host (m : Fin 16) (v : BitVec 4) (s : State) :
    (setMbits m v s).host = s.host := rfl
@[simp] theorem setMbits_hostData (m : Fin 16) (v : BitVec 4) (s : State) :
    (setMbits m v s).hostData = s.hostData := rfl
@[simp] theorem setMbits_freeCount (m : Fin 16) (v : BitVec 4) (s : State) :
    (setMbits m v s).freeCount = s.freeCount := rfl

/-! ### setTable -/

@[simp] theorem setTable_status (m : Fin 16) (v : Table) (s : State) :
    (setTable m v s).status = s.status := rfl
@[simp] theorem setTable_fcode (m : Fin 16) (v : Table) (s : State) :
    (setTable m v s).fcode = s.fcode := rfl
@[simp] theorem setTable_finfo (m : Fin 16) (v : Table) (s : State) :
    (setTable m v s).finfo = s.finfo := rfl
@[simp] theorem setTable_arg0 (m : Fin 16) (v : Table) (s : State) :
    (setTable m v s).arg0 = s.arg0 := rfl
@[simp] theorem setTable_arg1 (m : Fin 16) (v : Table) (s : State) :
    (setTable m v s).arg1 = s.arg1 := rfl
@[simp] theorem setTable_ret0 (m : Fin 16) (v : Table) (s : State) :
    (setTable m v s).ret0 = s.ret0 := rfl
@[simp] theorem setTable_ret1 (m : Fin 16) (v : Table) (s : State) :
    (setTable m v s).ret1 = s.ret1 := rfl
@[simp] theorem setTable_symLow (m : Fin 16) (v : Table) (s : State) :
    (setTable m v s).symLow = s.symLow := rfl
@[simp] theorem setTable_symHigh (m : Fin 16) (v : Table) (s : State) :
    (setTable m v s).symHigh = s.symHigh := rfl
@[simp] theorem setTable_symScale (m : Fin 16) (v : Table) (s : State) :
    (setTable m v s).symScale = s.symScale := rfl
@[simp] theorem setTable_cnt (m : Fin 16) (v : Table) (s : State) :
    (setTable m v s).cnt = s.cnt := rfl
@[simp] theorem setTable_elow (m : Fin 16) (v : Table) (s : State) :
    (setTable m v s).elow = s.elow := rfl
@[simp] theorem setTable_ehigh (m : Fin 16) (v : Table) (s : State) :
    (setTable m v s).ehigh = s.ehigh := rfl
@[simp] theorem setTable_euf (m : Fin 16) (v : Table) (s : State) :
    (setTable m v s).euf = s.euf := rfl
@[simp] theorem setTable_dlow (m : Fin 16) (v : Table) (s : State) :
    (setTable m v s).dlow = s.dlow := rfl
@[simp] theorem setTable_dhigh (m : Fin 16) (v : Table) (s : State) :
    (setTable m v s).dhigh = s.dhigh := rfl
@[simp] theorem setTable_dcode (m : Fin 16) (v : Table) (s : State) :
    (setTable m v s).dcode = s.dcode := rfl
@[simp] theorem setTable_wpos (m : Fin 16) (v : Table) (s : State) :
    (setTable m v s).wpos = s.wpos := rfl
@[simp] theorem setTable_rpos (m : Fin 16) (v : Table) (s : State) :
    (setTable m v s).rpos = s.rpos := rfl
@[simp] theorem setTable_rlen (m : Fin 16) (v : Table) (s : State) :
    (setTable m v s).rlen = s.rlen := rfl
@[simp] theorem setTable_cmdcnt (m : Fin 16) (v : Table) (s : State) :
    (setTable m v s).cmdcnt = s.cmdcnt := rfl
@[simp] theorem setTable_mbits (m : Fin 16) (v : Table) (s : State) :
    (setTable m v s).mbits = s.mbits := rfl
@[simp] theorem setTable_tables (m : Fin 16) (v : Table) (s : State) :
    (setTable m v s).tables = s.tables.set m v := rfl
@[simp] theorem setTable_pix (m : Fin 16) (v : Table) (s : State) :
    (setTable m v s).pix = s.pix := rfl
@[simp] theorem setTable_ref (m : Fin 16) (v : Table) (s : State) :
    (setTable m v s).ref = s.ref := rfl
@[simp] theorem setTable_recon (m : Fin 16) (v : Table) (s : State) :
    (setTable m v s).recon = s.recon := rfl
@[simp] theorem setTable_coef (m : Fin 16) (v : Table) (s : State) :
    (setTable m v s).coef = s.coef := rfl
@[simp] theorem setTable_zz (m : Fin 16) (v : Table) (s : State) : (setTable m v s).zz = s.zz := rfl
@[simp] theorem setTable_qf0 (m : Fin 16) (v : Table) (s : State) :
    (setTable m v s).qf0 = s.qf0 := rfl
@[simp] theorem setTable_qf1 (m : Fin 16) (v : Table) (s : State) :
    (setTable m v s).qf1 = s.qf1 := rfl
@[simp] theorem setTable_qi0 (m : Fin 16) (v : Table) (s : State) :
    (setTable m v s).qi0 = s.qi0 := rfl
@[simp] theorem setTable_qi1 (m : Fin 16) (v : Table) (s : State) :
    (setTable m v s).qi1 = s.qi1 := rfl
@[simp] theorem setTable_ib (m : Fin 16) (v : Table) (s : State) : (setTable m v s).ib = s.ib := rfl
@[simp] theorem setTable_ob (m : Fin 16) (v : Table) (s : State) : (setTable m v s).ob = s.ob := rfl
@[simp] theorem setTable_cfg (m : Fin 16) (v : Table) (s : State) :
    (setTable m v s).cfg = s.cfg := rfl
@[simp] theorem setTable_host (m : Fin 16) (v : Table) (s : State) :
    (setTable m v s).host = s.host := rfl
@[simp] theorem setTable_hostData (m : Fin 16) (v : Table) (s : State) :
    (setTable m v s).hostData = s.hostData := rfl
@[simp] theorem setTable_freeCount (m : Fin 16) (v : Table) (s : State) :
    (setTable m v s).freeCount = s.freeCount := rfl

/-! ### setCoef -/

@[simp] theorem setCoef_status (v : Block 32) (s : State) : (setCoef v s).status = s.status := rfl
@[simp] theorem setCoef_fcode (v : Block 32) (s : State) : (setCoef v s).fcode = s.fcode := rfl
@[simp] theorem setCoef_finfo (v : Block 32) (s : State) : (setCoef v s).finfo = s.finfo := rfl
@[simp] theorem setCoef_arg0 (v : Block 32) (s : State) : (setCoef v s).arg0 = s.arg0 := rfl
@[simp] theorem setCoef_arg1 (v : Block 32) (s : State) : (setCoef v s).arg1 = s.arg1 := rfl
@[simp] theorem setCoef_ret0 (v : Block 32) (s : State) : (setCoef v s).ret0 = s.ret0 := rfl
@[simp] theorem setCoef_ret1 (v : Block 32) (s : State) : (setCoef v s).ret1 = s.ret1 := rfl
@[simp] theorem setCoef_symLow (v : Block 32) (s : State) : (setCoef v s).symLow = s.symLow := rfl
@[simp] theorem setCoef_symHigh (v : Block 32) (s : State) :
    (setCoef v s).symHigh = s.symHigh := rfl
@[simp] theorem setCoef_symScale (v : Block 32) (s : State) :
    (setCoef v s).symScale = s.symScale := rfl
@[simp] theorem setCoef_cnt (v : Block 32) (s : State) : (setCoef v s).cnt = s.cnt := rfl
@[simp] theorem setCoef_elow (v : Block 32) (s : State) : (setCoef v s).elow = s.elow := rfl
@[simp] theorem setCoef_ehigh (v : Block 32) (s : State) : (setCoef v s).ehigh = s.ehigh := rfl
@[simp] theorem setCoef_euf (v : Block 32) (s : State) : (setCoef v s).euf = s.euf := rfl
@[simp] theorem setCoef_dlow (v : Block 32) (s : State) : (setCoef v s).dlow = s.dlow := rfl
@[simp] theorem setCoef_dhigh (v : Block 32) (s : State) : (setCoef v s).dhigh = s.dhigh := rfl
@[simp] theorem setCoef_dcode (v : Block 32) (s : State) : (setCoef v s).dcode = s.dcode := rfl
@[simp] theorem setCoef_wpos (v : Block 32) (s : State) : (setCoef v s).wpos = s.wpos := rfl
@[simp] theorem setCoef_rpos (v : Block 32) (s : State) : (setCoef v s).rpos = s.rpos := rfl
@[simp] theorem setCoef_rlen (v : Block 32) (s : State) : (setCoef v s).rlen = s.rlen := rfl
@[simp] theorem setCoef_cmdcnt (v : Block 32) (s : State) : (setCoef v s).cmdcnt = s.cmdcnt := rfl
@[simp] theorem setCoef_mbits (v : Block 32) (s : State) : (setCoef v s).mbits = s.mbits := rfl
@[simp] theorem setCoef_tables (v : Block 32) (s : State) : (setCoef v s).tables = s.tables := rfl
@[simp] theorem setCoef_pix (v : Block 32) (s : State) : (setCoef v s).pix = s.pix := rfl
@[simp] theorem setCoef_ref (v : Block 32) (s : State) : (setCoef v s).ref = s.ref := rfl
@[simp] theorem setCoef_recon (v : Block 32) (s : State) : (setCoef v s).recon = s.recon := rfl
@[simp] theorem setCoef_coef (v : Block 32) (s : State) : (setCoef v s).coef = v := rfl
@[simp] theorem setCoef_zz (v : Block 32) (s : State) : (setCoef v s).zz = s.zz := rfl
@[simp] theorem setCoef_qf0 (v : Block 32) (s : State) : (setCoef v s).qf0 = s.qf0 := rfl
@[simp] theorem setCoef_qf1 (v : Block 32) (s : State) : (setCoef v s).qf1 = s.qf1 := rfl
@[simp] theorem setCoef_qi0 (v : Block 32) (s : State) : (setCoef v s).qi0 = s.qi0 := rfl
@[simp] theorem setCoef_qi1 (v : Block 32) (s : State) : (setCoef v s).qi1 = s.qi1 := rfl
@[simp] theorem setCoef_ib (v : Block 32) (s : State) : (setCoef v s).ib = s.ib := rfl
@[simp] theorem setCoef_ob (v : Block 32) (s : State) : (setCoef v s).ob = s.ob := rfl
@[simp] theorem setCoef_cfg (v : Block 32) (s : State) : (setCoef v s).cfg = s.cfg := rfl
@[simp] theorem setCoef_host (v : Block 32) (s : State) : (setCoef v s).host = s.host := rfl
@[simp] theorem setCoef_hostData (v : Block 32) (s : State) :
    (setCoef v s).hostData = s.hostData := rfl
@[simp] theorem setCoef_freeCount (v : Block 32) (s : State) :
    (setCoef v s).freeCount = s.freeCount := rfl

/-! ### setZz -/

@[simp] theorem setZz_status (v : Block 16) (s : State) : (setZz v s).status = s.status := rfl
@[simp] theorem setZz_fcode (v : Block 16) (s : State) : (setZz v s).fcode = s.fcode := rfl
@[simp] theorem setZz_finfo (v : Block 16) (s : State) : (setZz v s).finfo = s.finfo := rfl
@[simp] theorem setZz_arg0 (v : Block 16) (s : State) : (setZz v s).arg0 = s.arg0 := rfl
@[simp] theorem setZz_arg1 (v : Block 16) (s : State) : (setZz v s).arg1 = s.arg1 := rfl
@[simp] theorem setZz_ret0 (v : Block 16) (s : State) : (setZz v s).ret0 = s.ret0 := rfl
@[simp] theorem setZz_ret1 (v : Block 16) (s : State) : (setZz v s).ret1 = s.ret1 := rfl
@[simp] theorem setZz_symLow (v : Block 16) (s : State) : (setZz v s).symLow = s.symLow := rfl
@[simp] theorem setZz_symHigh (v : Block 16) (s : State) : (setZz v s).symHigh = s.symHigh := rfl
@[simp] theorem setZz_symScale (v : Block 16) (s : State) : (setZz v s).symScale = s.symScale := rfl
@[simp] theorem setZz_cnt (v : Block 16) (s : State) : (setZz v s).cnt = s.cnt := rfl
@[simp] theorem setZz_elow (v : Block 16) (s : State) : (setZz v s).elow = s.elow := rfl
@[simp] theorem setZz_ehigh (v : Block 16) (s : State) : (setZz v s).ehigh = s.ehigh := rfl
@[simp] theorem setZz_euf (v : Block 16) (s : State) : (setZz v s).euf = s.euf := rfl
@[simp] theorem setZz_dlow (v : Block 16) (s : State) : (setZz v s).dlow = s.dlow := rfl
@[simp] theorem setZz_dhigh (v : Block 16) (s : State) : (setZz v s).dhigh = s.dhigh := rfl
@[simp] theorem setZz_dcode (v : Block 16) (s : State) : (setZz v s).dcode = s.dcode := rfl
@[simp] theorem setZz_wpos (v : Block 16) (s : State) : (setZz v s).wpos = s.wpos := rfl
@[simp] theorem setZz_rpos (v : Block 16) (s : State) : (setZz v s).rpos = s.rpos := rfl
@[simp] theorem setZz_rlen (v : Block 16) (s : State) : (setZz v s).rlen = s.rlen := rfl
@[simp] theorem setZz_cmdcnt (v : Block 16) (s : State) : (setZz v s).cmdcnt = s.cmdcnt := rfl
@[simp] theorem setZz_mbits (v : Block 16) (s : State) : (setZz v s).mbits = s.mbits := rfl
@[simp] theorem setZz_tables (v : Block 16) (s : State) : (setZz v s).tables = s.tables := rfl
@[simp] theorem setZz_pix (v : Block 16) (s : State) : (setZz v s).pix = s.pix := rfl
@[simp] theorem setZz_ref (v : Block 16) (s : State) : (setZz v s).ref = s.ref := rfl
@[simp] theorem setZz_recon (v : Block 16) (s : State) : (setZz v s).recon = s.recon := rfl
@[simp] theorem setZz_coef (v : Block 16) (s : State) : (setZz v s).coef = s.coef := rfl
@[simp] theorem setZz_zz (v : Block 16) (s : State) : (setZz v s).zz = v := rfl
@[simp] theorem setZz_qf0 (v : Block 16) (s : State) : (setZz v s).qf0 = s.qf0 := rfl
@[simp] theorem setZz_qf1 (v : Block 16) (s : State) : (setZz v s).qf1 = s.qf1 := rfl
@[simp] theorem setZz_qi0 (v : Block 16) (s : State) : (setZz v s).qi0 = s.qi0 := rfl
@[simp] theorem setZz_qi1 (v : Block 16) (s : State) : (setZz v s).qi1 = s.qi1 := rfl
@[simp] theorem setZz_ib (v : Block 16) (s : State) : (setZz v s).ib = s.ib := rfl
@[simp] theorem setZz_ob (v : Block 16) (s : State) : (setZz v s).ob = s.ob := rfl
@[simp] theorem setZz_cfg (v : Block 16) (s : State) : (setZz v s).cfg = s.cfg := rfl
@[simp] theorem setZz_host (v : Block 16) (s : State) : (setZz v s).host = s.host := rfl
@[simp] theorem setZz_hostData (v : Block 16) (s : State) : (setZz v s).hostData = s.hostData := rfl
@[simp] theorem setZz_freeCount (v : Block 16) (s : State) :
    (setZz v s).freeCount = s.freeCount := rfl

/-! ### setRecon -/

@[simp] theorem setRecon_status (v : Block 8) (s : State) : (setRecon v s).status = s.status := rfl
@[simp] theorem setRecon_fcode (v : Block 8) (s : State) : (setRecon v s).fcode = s.fcode := rfl
@[simp] theorem setRecon_finfo (v : Block 8) (s : State) : (setRecon v s).finfo = s.finfo := rfl
@[simp] theorem setRecon_arg0 (v : Block 8) (s : State) : (setRecon v s).arg0 = s.arg0 := rfl
@[simp] theorem setRecon_arg1 (v : Block 8) (s : State) : (setRecon v s).arg1 = s.arg1 := rfl
@[simp] theorem setRecon_ret0 (v : Block 8) (s : State) : (setRecon v s).ret0 = s.ret0 := rfl
@[simp] theorem setRecon_ret1 (v : Block 8) (s : State) : (setRecon v s).ret1 = s.ret1 := rfl
@[simp] theorem setRecon_symLow (v : Block 8) (s : State) : (setRecon v s).symLow = s.symLow := rfl
@[simp] theorem setRecon_symHigh (v : Block 8) (s : State) :
    (setRecon v s).symHigh = s.symHigh := rfl
@[simp] theorem setRecon_symScale (v : Block 8) (s : State) :
    (setRecon v s).symScale = s.symScale := rfl
@[simp] theorem setRecon_cnt (v : Block 8) (s : State) : (setRecon v s).cnt = s.cnt := rfl
@[simp] theorem setRecon_elow (v : Block 8) (s : State) : (setRecon v s).elow = s.elow := rfl
@[simp] theorem setRecon_ehigh (v : Block 8) (s : State) : (setRecon v s).ehigh = s.ehigh := rfl
@[simp] theorem setRecon_euf (v : Block 8) (s : State) : (setRecon v s).euf = s.euf := rfl
@[simp] theorem setRecon_dlow (v : Block 8) (s : State) : (setRecon v s).dlow = s.dlow := rfl
@[simp] theorem setRecon_dhigh (v : Block 8) (s : State) : (setRecon v s).dhigh = s.dhigh := rfl
@[simp] theorem setRecon_dcode (v : Block 8) (s : State) : (setRecon v s).dcode = s.dcode := rfl
@[simp] theorem setRecon_wpos (v : Block 8) (s : State) : (setRecon v s).wpos = s.wpos := rfl
@[simp] theorem setRecon_rpos (v : Block 8) (s : State) : (setRecon v s).rpos = s.rpos := rfl
@[simp] theorem setRecon_rlen (v : Block 8) (s : State) : (setRecon v s).rlen = s.rlen := rfl
@[simp] theorem setRecon_cmdcnt (v : Block 8) (s : State) : (setRecon v s).cmdcnt = s.cmdcnt := rfl
@[simp] theorem setRecon_mbits (v : Block 8) (s : State) : (setRecon v s).mbits = s.mbits := rfl
@[simp] theorem setRecon_tables (v : Block 8) (s : State) : (setRecon v s).tables = s.tables := rfl
@[simp] theorem setRecon_pix (v : Block 8) (s : State) : (setRecon v s).pix = s.pix := rfl
@[simp] theorem setRecon_ref (v : Block 8) (s : State) : (setRecon v s).ref = s.ref := rfl
@[simp] theorem setRecon_recon (v : Block 8) (s : State) : (setRecon v s).recon = v := rfl
@[simp] theorem setRecon_coef (v : Block 8) (s : State) : (setRecon v s).coef = s.coef := rfl
@[simp] theorem setRecon_zz (v : Block 8) (s : State) : (setRecon v s).zz = s.zz := rfl
@[simp] theorem setRecon_qf0 (v : Block 8) (s : State) : (setRecon v s).qf0 = s.qf0 := rfl
@[simp] theorem setRecon_qf1 (v : Block 8) (s : State) : (setRecon v s).qf1 = s.qf1 := rfl
@[simp] theorem setRecon_qi0 (v : Block 8) (s : State) : (setRecon v s).qi0 = s.qi0 := rfl
@[simp] theorem setRecon_qi1 (v : Block 8) (s : State) : (setRecon v s).qi1 = s.qi1 := rfl
@[simp] theorem setRecon_ib (v : Block 8) (s : State) : (setRecon v s).ib = s.ib := rfl
@[simp] theorem setRecon_ob (v : Block 8) (s : State) : (setRecon v s).ob = s.ob := rfl
@[simp] theorem setRecon_cfg (v : Block 8) (s : State) : (setRecon v s).cfg = s.cfg := rfl
@[simp] theorem setRecon_host (v : Block 8) (s : State) : (setRecon v s).host = s.host := rfl
@[simp] theorem setRecon_hostData (v : Block 8) (s : State) :
    (setRecon v s).hostData = s.hostData := rfl
@[simp] theorem setRecon_freeCount (v : Block 8) (s : State) :
    (setRecon v s).freeCount = s.freeCount := rfl

/-! ### setFlag -/

@[simp] theorem setFlag_status (f : Flag) (b : Bool) (s : State) :
    (setFlag f b s).status = statusWith s.status f b := rfl
@[simp] theorem setFlag_fcode (f : Flag) (b : Bool) (s : State) :
    (setFlag f b s).fcode = s.fcode := rfl
@[simp] theorem setFlag_finfo (f : Flag) (b : Bool) (s : State) :
    (setFlag f b s).finfo = s.finfo := rfl
@[simp] theorem setFlag_arg0 (f : Flag) (b : Bool) (s : State) :
    (setFlag f b s).arg0 = s.arg0 := rfl
@[simp] theorem setFlag_arg1 (f : Flag) (b : Bool) (s : State) :
    (setFlag f b s).arg1 = s.arg1 := rfl
@[simp] theorem setFlag_ret0 (f : Flag) (b : Bool) (s : State) :
    (setFlag f b s).ret0 = s.ret0 := rfl
@[simp] theorem setFlag_ret1 (f : Flag) (b : Bool) (s : State) :
    (setFlag f b s).ret1 = s.ret1 := rfl
@[simp] theorem setFlag_symLow (f : Flag) (b : Bool) (s : State) :
    (setFlag f b s).symLow = s.symLow := rfl
@[simp] theorem setFlag_symHigh (f : Flag) (b : Bool) (s : State) :
    (setFlag f b s).symHigh = s.symHigh := rfl
@[simp] theorem setFlag_symScale (f : Flag) (b : Bool) (s : State) :
    (setFlag f b s).symScale = s.symScale := rfl
@[simp] theorem setFlag_cnt (f : Flag) (b : Bool) (s : State) : (setFlag f b s).cnt = s.cnt := rfl
@[simp] theorem setFlag_elow (f : Flag) (b : Bool) (s : State) :
    (setFlag f b s).elow = s.elow := rfl
@[simp] theorem setFlag_ehigh (f : Flag) (b : Bool) (s : State) :
    (setFlag f b s).ehigh = s.ehigh := rfl
@[simp] theorem setFlag_euf (f : Flag) (b : Bool) (s : State) : (setFlag f b s).euf = s.euf := rfl
@[simp] theorem setFlag_dlow (f : Flag) (b : Bool) (s : State) :
    (setFlag f b s).dlow = s.dlow := rfl
@[simp] theorem setFlag_dhigh (f : Flag) (b : Bool) (s : State) :
    (setFlag f b s).dhigh = s.dhigh := rfl
@[simp] theorem setFlag_dcode (f : Flag) (b : Bool) (s : State) :
    (setFlag f b s).dcode = s.dcode := rfl
@[simp] theorem setFlag_wpos (f : Flag) (b : Bool) (s : State) :
    (setFlag f b s).wpos = s.wpos := rfl
@[simp] theorem setFlag_rpos (f : Flag) (b : Bool) (s : State) :
    (setFlag f b s).rpos = s.rpos := rfl
@[simp] theorem setFlag_rlen (f : Flag) (b : Bool) (s : State) :
    (setFlag f b s).rlen = s.rlen := rfl
@[simp] theorem setFlag_cmdcnt (f : Flag) (b : Bool) (s : State) :
    (setFlag f b s).cmdcnt = s.cmdcnt := rfl
@[simp] theorem setFlag_mbits (f : Flag) (b : Bool) (s : State) :
    (setFlag f b s).mbits = s.mbits := rfl
@[simp] theorem setFlag_tables (f : Flag) (b : Bool) (s : State) :
    (setFlag f b s).tables = s.tables := rfl
@[simp] theorem setFlag_pix (f : Flag) (b : Bool) (s : State) : (setFlag f b s).pix = s.pix := rfl
@[simp] theorem setFlag_ref (f : Flag) (b : Bool) (s : State) : (setFlag f b s).ref = s.ref := rfl
@[simp] theorem setFlag_recon (f : Flag) (b : Bool) (s : State) :
    (setFlag f b s).recon = s.recon := rfl
@[simp] theorem setFlag_coef (f : Flag) (b : Bool) (s : State) :
    (setFlag f b s).coef = s.coef := rfl
@[simp] theorem setFlag_zz (f : Flag) (b : Bool) (s : State) : (setFlag f b s).zz = s.zz := rfl
@[simp] theorem setFlag_qf0 (f : Flag) (b : Bool) (s : State) : (setFlag f b s).qf0 = s.qf0 := rfl
@[simp] theorem setFlag_qf1 (f : Flag) (b : Bool) (s : State) : (setFlag f b s).qf1 = s.qf1 := rfl
@[simp] theorem setFlag_qi0 (f : Flag) (b : Bool) (s : State) : (setFlag f b s).qi0 = s.qi0 := rfl
@[simp] theorem setFlag_qi1 (f : Flag) (b : Bool) (s : State) : (setFlag f b s).qi1 = s.qi1 := rfl
@[simp] theorem setFlag_ib (f : Flag) (b : Bool) (s : State) : (setFlag f b s).ib = s.ib := rfl
@[simp] theorem setFlag_ob (f : Flag) (b : Bool) (s : State) : (setFlag f b s).ob = s.ob := rfl
@[simp] theorem setFlag_cfg (f : Flag) (b : Bool) (s : State) : (setFlag f b s).cfg = s.cfg := rfl
@[simp] theorem setFlag_host (f : Flag) (b : Bool) (s : State) :
    (setFlag f b s).host = s.host := rfl
@[simp] theorem setFlag_hostData (f : Flag) (b : Bool) (s : State) :
    (setFlag f b s).hostData = s.hostData := rfl
@[simp] theorem setFlag_freeCount (f : Flag) (b : Bool) (s : State) :
    (setFlag f b s).freeCount = s.freeCount := rfl

/-! ### raiseFault -/

@[simp] theorem raiseFault_status (e : Trap) (s : State) :
    (raiseFault e s).status = statusWith s.status .fault true := rfl
@[simp] theorem raiseFault_fcode (e : Trap) (s : State) :
    (raiseFault e s).fcode = errByte e.code := rfl
@[simp] theorem raiseFault_finfo (e : Trap) (s : State) : (raiseFault e s).finfo = e.info := rfl
@[simp] theorem raiseFault_arg0 (e : Trap) (s : State) : (raiseFault e s).arg0 = s.arg0 := rfl
@[simp] theorem raiseFault_arg1 (e : Trap) (s : State) : (raiseFault e s).arg1 = s.arg1 := rfl
@[simp] theorem raiseFault_ret0 (e : Trap) (s : State) : (raiseFault e s).ret0 = s.ret0 := rfl
@[simp] theorem raiseFault_ret1 (e : Trap) (s : State) : (raiseFault e s).ret1 = s.ret1 := rfl
@[simp] theorem raiseFault_symLow (e : Trap) (s : State) : (raiseFault e s).symLow = s.symLow := rfl
@[simp] theorem raiseFault_symHigh (e : Trap) (s : State) :
    (raiseFault e s).symHigh = s.symHigh := rfl
@[simp] theorem raiseFault_symScale (e : Trap) (s : State) :
    (raiseFault e s).symScale = s.symScale := rfl
@[simp] theorem raiseFault_cnt (e : Trap) (s : State) : (raiseFault e s).cnt = s.cnt := rfl
@[simp] theorem raiseFault_elow (e : Trap) (s : State) : (raiseFault e s).elow = s.elow := rfl
@[simp] theorem raiseFault_ehigh (e : Trap) (s : State) : (raiseFault e s).ehigh = s.ehigh := rfl
@[simp] theorem raiseFault_euf (e : Trap) (s : State) : (raiseFault e s).euf = s.euf := rfl
@[simp] theorem raiseFault_dlow (e : Trap) (s : State) : (raiseFault e s).dlow = s.dlow := rfl
@[simp] theorem raiseFault_dhigh (e : Trap) (s : State) : (raiseFault e s).dhigh = s.dhigh := rfl
@[simp] theorem raiseFault_dcode (e : Trap) (s : State) : (raiseFault e s).dcode = s.dcode := rfl
@[simp] theorem raiseFault_wpos (e : Trap) (s : State) : (raiseFault e s).wpos = s.wpos := rfl
@[simp] theorem raiseFault_rpos (e : Trap) (s : State) : (raiseFault e s).rpos = s.rpos := rfl
@[simp] theorem raiseFault_rlen (e : Trap) (s : State) : (raiseFault e s).rlen = s.rlen := rfl
@[simp] theorem raiseFault_cmdcnt (e : Trap) (s : State) : (raiseFault e s).cmdcnt = s.cmdcnt := rfl
@[simp] theorem raiseFault_mbits (e : Trap) (s : State) : (raiseFault e s).mbits = s.mbits := rfl
@[simp] theorem raiseFault_tables (e : Trap) (s : State) : (raiseFault e s).tables = s.tables := rfl
@[simp] theorem raiseFault_pix (e : Trap) (s : State) : (raiseFault e s).pix = s.pix := rfl
@[simp] theorem raiseFault_ref (e : Trap) (s : State) : (raiseFault e s).ref = s.ref := rfl
@[simp] theorem raiseFault_recon (e : Trap) (s : State) : (raiseFault e s).recon = s.recon := rfl
@[simp] theorem raiseFault_coef (e : Trap) (s : State) : (raiseFault e s).coef = s.coef := rfl
@[simp] theorem raiseFault_zz (e : Trap) (s : State) : (raiseFault e s).zz = s.zz := rfl
@[simp] theorem raiseFault_qf0 (e : Trap) (s : State) : (raiseFault e s).qf0 = s.qf0 := rfl
@[simp] theorem raiseFault_qf1 (e : Trap) (s : State) : (raiseFault e s).qf1 = s.qf1 := rfl
@[simp] theorem raiseFault_qi0 (e : Trap) (s : State) : (raiseFault e s).qi0 = s.qi0 := rfl
@[simp] theorem raiseFault_qi1 (e : Trap) (s : State) : (raiseFault e s).qi1 = s.qi1 := rfl
@[simp] theorem raiseFault_ib (e : Trap) (s : State) : (raiseFault e s).ib = s.ib := rfl
@[simp] theorem raiseFault_ob (e : Trap) (s : State) : (raiseFault e s).ob = s.ob := rfl
@[simp] theorem raiseFault_cfg (e : Trap) (s : State) : (raiseFault e s).cfg = s.cfg := rfl
@[simp] theorem raiseFault_host (e : Trap) (s : State) : (raiseFault e s).host = s.host := rfl
@[simp] theorem raiseFault_hostData (e : Trap) (s : State) :
    (raiseFault e s).hostData = s.hostData := rfl
@[simp] theorem raiseFault_freeCount (e : Trap) (s : State) :
    (raiseFault e s).freeCount = s.freeCount := rfl

/-! ### retire -/

@[simp] theorem retire_status (s : State) : (retire s).status = s.status := rfl
@[simp] theorem retire_fcode (s : State) : (retire s).fcode = s.fcode := rfl
@[simp] theorem retire_finfo (s : State) : (retire s).finfo = s.finfo := rfl
@[simp] theorem retire_arg0 (s : State) : (retire s).arg0 = s.arg0 := rfl
@[simp] theorem retire_arg1 (s : State) : (retire s).arg1 = s.arg1 := rfl
@[simp] theorem retire_ret0 (s : State) : (retire s).ret0 = s.ret0 := rfl
@[simp] theorem retire_ret1 (s : State) : (retire s).ret1 = s.ret1 := rfl
@[simp] theorem retire_symLow (s : State) : (retire s).symLow = s.symLow := rfl
@[simp] theorem retire_symHigh (s : State) : (retire s).symHigh = s.symHigh := rfl
@[simp] theorem retire_symScale (s : State) : (retire s).symScale = s.symScale := rfl
@[simp] theorem retire_cnt (s : State) : (retire s).cnt = s.cnt := rfl
@[simp] theorem retire_elow (s : State) : (retire s).elow = s.elow := rfl
@[simp] theorem retire_ehigh (s : State) : (retire s).ehigh = s.ehigh := rfl
@[simp] theorem retire_euf (s : State) : (retire s).euf = s.euf := rfl
@[simp] theorem retire_dlow (s : State) : (retire s).dlow = s.dlow := rfl
@[simp] theorem retire_dhigh (s : State) : (retire s).dhigh = s.dhigh := rfl
@[simp] theorem retire_dcode (s : State) : (retire s).dcode = s.dcode := rfl
@[simp] theorem retire_wpos (s : State) : (retire s).wpos = s.wpos := rfl
@[simp] theorem retire_rpos (s : State) : (retire s).rpos = s.rpos := rfl
@[simp] theorem retire_rlen (s : State) : (retire s).rlen = s.rlen := rfl
@[simp] theorem retire_cmdcnt (s : State) : (retire s).cmdcnt = s.cmdcnt + 1 := rfl
@[simp] theorem retire_mbits (s : State) : (retire s).mbits = s.mbits := rfl
@[simp] theorem retire_tables (s : State) : (retire s).tables = s.tables := rfl
@[simp] theorem retire_pix (s : State) : (retire s).pix = s.pix := rfl
@[simp] theorem retire_ref (s : State) : (retire s).ref = s.ref := rfl
@[simp] theorem retire_recon (s : State) : (retire s).recon = s.recon := rfl
@[simp] theorem retire_coef (s : State) : (retire s).coef = s.coef := rfl
@[simp] theorem retire_zz (s : State) : (retire s).zz = s.zz := rfl
@[simp] theorem retire_qf0 (s : State) : (retire s).qf0 = s.qf0 := rfl
@[simp] theorem retire_qf1 (s : State) : (retire s).qf1 = s.qf1 := rfl
@[simp] theorem retire_qi0 (s : State) : (retire s).qi0 = s.qi0 := rfl
@[simp] theorem retire_qi1 (s : State) : (retire s).qi1 = s.qi1 := rfl
@[simp] theorem retire_ib (s : State) : (retire s).ib = s.ib := rfl
@[simp] theorem retire_ob (s : State) : (retire s).ob = s.ob := rfl
@[simp] theorem retire_cfg (s : State) : (retire s).cfg = s.cfg := rfl
@[simp] theorem retire_host (s : State) : (retire s).host = s.host := rfl
@[simp] theorem retire_hostData (s : State) : (retire s).hostData = s.hostData := rfl
@[simp] theorem retire_freeCount (s : State) : (retire s).freeCount = s.freeCount := rfl

end Sys2Proof.Machine
end

