-- ==== Sys2Proof/Laws/Flags.lean ====
section
/-! SUPPORT. The flags of STATUS: what a flag reads after each update. -/

namespace Sys2Proof.Machine

theorem flagPos_lt (f : Flag) : flagPos f < 32 := by cases f <;> decide

theorem flagPos_inj {f g : Flag} (h : flagPos f = flagPos g) : f = g := by
  cases f <;> cases g <;> first | rfl | exact absurd h (by decide)

/-- A flag of a STATUS value after one flag is written. -/
@[simp] theorem statusFlag_statusWith (st : Word) (f g : Flag) (b : Bool) :
    statusFlag (statusWith st f b) g = if f = g then b else statusFlag st g := by
  have hg := flagPos_lt g
  have inj : flagPos g = flagPos f ↔ f = g := ⟨fun h => flagPos_inj h.symm, fun h => h ▸ rfl⟩
  by_cases h : f = g
  · subst h
    cases b <;> simp [statusFlag, statusWith, hg]
  · cases b <;> simp [statusFlag, statusWith, h, hg, inj]

/-- Writing a flag leaves the reserved bits of STATUS (`10_state.md` R23). -/
@[simp] theorem statusWith_reserved (st : Word) (f : Flag) (b : Bool) :
    statusWith st f b &&& statusReserved = st &&& statusReserved := by
  apply BitVec.eq_of_getLsbD_eq
  intro i hi
  cases b <;> cases f <;> interval_cases i <;>
    simp [statusWith, statusReserved, flagPos]

@[simp] theorem flag_setFlag (f g : Flag) (b : Bool) (s : State) :
    flag (setFlag f b s) g = if f = g then b else flag s g := statusFlag_statusWith ..

@[simp] theorem flag_raiseFault (e : Trap) (f : Flag) (s : State) :
    flag (raiseFault e s) f = if .fault = f then true else flag s f := statusFlag_statusWith ..

@[simp] theorem flag_setRet0 (v : Word) (f : Flag) (s : State) :
    flag (setRet0 v s) f = flag s f := rfl
@[simp] theorem flag_setRet1 (v : Word) (f : Flag) (s : State) :
    flag (setRet1 v s) f = flag s f := rfl
@[simp] theorem flag_setCnt (v : Half) (f : Flag) (s : State) :
    flag (setCnt v s) f = flag s f := rfl
@[simp] theorem flag_setLatchBounds (v w : Half) (f : Flag) (s : State) :
    flag (setLatchBounds v w s) f = flag s f := rfl
@[simp] theorem flag_setLatchScale (v : Half) (f : Flag) (s : State) :
    flag (setLatchScale v s) f = flag s f := rfl
@[simp] theorem flag_setEnc (v w : Half) (f : Flag) (s : State) :
    flag (setEnc v w s) f = flag s f := rfl
@[simp] theorem flag_setEuf (v : Word) (f : Flag) (s : State) :
    flag (setEuf v s) f = flag s f := rfl
@[simp] theorem flag_setDec (v w : Half) (f : Flag) (s : State) :
    flag (setDec v w s) f = flag s f := rfl
@[simp] theorem flag_setDcode (v : Half) (f : Flag) (s : State) :
    flag (setDcode v s) f = flag s f := rfl
@[simp] theorem flag_setWpos (v : Word) (f : Flag) (s : State) :
    flag (setWpos v s) f = flag s f := rfl
@[simp] theorem flag_setRpos (v : Word) (f : Flag) (s : State) :
    flag (setRpos v s) f = flag s f := rfl
@[simp] theorem flag_setRlen (v : Word) (f : Flag) (s : State) :
    flag (setRlen v s) f = flag s f := rfl
@[simp] theorem flag_setOb (v : Memory) (f : Flag) (s : State) :
    flag (setOb v s) f = flag s f := rfl
@[simp] theorem flag_setMbits (m : Fin 16) (v : BitVec 4) (f : Flag) (s : State) :
    flag (setMbits m v s) f = flag s f := rfl
@[simp] theorem flag_setTable (m : Fin 16) (v : Table) (f : Flag) (s : State) :
    flag (setTable m v s) f = flag s f := rfl
@[simp] theorem flag_setCoef (v : Block 32) (f : Flag) (s : State) :
    flag (setCoef v s) f = flag s f := rfl
@[simp] theorem flag_setZz (v : Block 16) (f : Flag) (s : State) :
    flag (setZz v s) f = flag s f := rfl
@[simp] theorem flag_setRecon (v : Block 8) (f : Flag) (s : State) :
    flag (setRecon v s) f = flag s f := rfl
@[simp] theorem flag_retire (f : Flag) (s : State) : flag (retire s) f = flag s f := rfl

end Sys2Proof.Machine
end

