-- ==== Sys2Proof/Laws/Ops.lean ====
section
/-! SUPPORT. What the shared operations can do: runs of pseudocode, checks, the frame of a command. -/

namespace Sys2Proof.Machine

/-! ## Runs -/

@[simp] theorem done_andThen {α β : Type} (a : α) (s : State) (k : α → State → Run β) :
    (Run.done a s).andThen k = k a s := rfl

@[simp] theorem raised_andThen {α β : Type} (e : Trap) (s : State) (k : α → State → Run β) :
    (Run.raised e s : Run α).andThen k = .raised e s := rfl

/-- A sequence is done exactly when both parts are. -/
theorem andThen_eq_done {α β : Type} {r : Run α} {k : α → State → Run β} {b : β} {t : State} :
    r.andThen k = .done b t ↔ ∃ a s, r = .done a s ∧ k a s = .done b t := by
  cases r <;> simp

/-- A sequence raises what its first part raises, or what its second part does. -/
theorem andThen_eq_raised {α β : Type} {r : Run α} {k : α → State → Run β} {e : Trap} {t : State} :
    r.andThen k = .raised e t ↔
      r = .raised e t ∨ ∃ a s, r = .done a s ∧ k a s = .raised e t := by
  cases r <;> simp

theorem andThen_assoc {α β γ : Type} (r : Run α) (k : α → State → Run β) (l : β → State → Run γ) :
    (r.andThen k).andThen l = r.andThen fun a s => (k a s).andThen l := by
  cases r <;> rfl

@[simp] theorem demand_true (t : Trap) (s : State) : demand true t s = .done () s := rfl

@[simp] theorem demand_false (t : Trap) (s : State) : demand false t s = .raised t s := rfl

/-- A demand changes nothing, whether it holds or not. -/
theorem demand_cases (ok : Bool) (t : Trap) (s : State) :
    (ok = true ∧ demand ok t s = .done () s) ∨ (ok = false ∧ demand ok t s = .raised t s) := by
  cases ok <;> simp

/-- A property of the state a run reaches, whichever way it ends. -/
def Run.All {α : Type} (p : State → Prop) : Run α → Prop
  | .done _ s => p s
  | .raised _ s => p s

/-- If the first part reaches states with the property and every continuation keeps it, the whole
does. -/
theorem Run.All.andThen {α β : Type} {p : State → Prop} {r : Run α} {k : α → State → Run β}
    (h : r.All p) (hk : ∀ a s, p s → (k a s).All p) : (r.andThen k).All p := by
  cases r with
  | done a s => exact hk a s h
  | raised e s => exact h

theorem Run.All.demand {p : State → Prop} {s : State} (h : p s) (ok : Bool) (t : Trap) :
    (demand ok t s).All p := by
  cases ok <;> exact h

theorem Run.All.imp {α : Type} {p q : State → Prop} {r : Run α} (h : r.All p)
    (hpq : ∀ s, p s → q s) : r.All q := by
  cases r <;> exact hpq _ h

/-! ## Checks -/

@[simp] theorem firstFailing_nil : firstFailing [] = none := rfl

@[simp] theorem firstFailing_cons (c : Check) (cs : List Check) :
    firstFailing (c :: cs) = if c.ok then firstFailing cs else some c.trap := rfl

/-- No check fails exactly when each holds. -/
theorem firstFailing_eq_none {cs : List Check} :
    firstFailing cs = none ↔ ∀ c ∈ cs, c.ok = true := by
  induction cs with
  | nil => simp
  | cons c cs ih => cases h : c.ok <;> simp [h, ih]

/-- The checks of a joined list are made in order. -/
theorem firstFailing_append (cs ds : List Check) :
    firstFailing (cs ++ ds) = (firstFailing cs).or (firstFailing ds) := by
  induction cs with
  | nil => simp
  | cons c cs ih => cases h : c.ok <;> simp [h, ih]

/-! ## The frame of a command -/

/-- While a fault is pending a command is ignored (`60_exceptions.md` R288). -/
theorem runCommand_ignored {cs : List Check} {body : State → Run Unit} {s : State}
    (h : flag s .fault = true) : runCommand cs body s = .next s := by
  simp [runCommand, h]

/-- A failing check faults and changes nothing else (`60_exceptions.md` R286). -/
theorem runCommand_check {cs : List Check} {body : State → Run Unit} {s : State} {e : Trap}
    (h : flag s .fault = false) (hc : firstFailing cs = some e) :
    runCommand cs body s = .next (raiseFault e s) := by
  simp [runCommand, h, hc]

/-- A command whose checks hold and whose pseudocode ends completes. -/
theorem runCommand_done {cs : List Check} {body : State → Run Unit} {s t : State}
    (h : flag s .fault = false) (hc : firstFailing cs = none) (hb : body s = .done () t) :
    runCommand cs body s = .next (retire t) := by
  simp [runCommand, h, hc, hb]

/-- A fault of the pseudocode keeps what was written before it (`60_exceptions.md` R287). -/
theorem runCommand_raised {cs : List Check} {body : State → Run Unit} {s t : State} {e : Trap}
    (h : flag s .fault = false) (hc : firstFailing cs = none) (hb : body s = .raised e t) :
    runCommand cs body s = .next (raiseFault e t) := by
  simp [runCommand, h, hc, hb]

/-- Everything a command can do: it is ignored, or a check faults, or it completes, or its
pseudocode faults. -/
theorem runCommand_cases (cs : List Check) (body : State → Run Unit) (s : State) :
    (flag s .fault = true ∧ runCommand cs body s = .next s) ∨
    (flag s .fault = false ∧ ∃ e, firstFailing cs = some e ∧
      runCommand cs body s = .next (raiseFault e s)) ∨
    (flag s .fault = false ∧ firstFailing cs = none ∧ ∃ t, body s = .done () t ∧
      runCommand cs body s = .next (retire t)) ∨
    (flag s .fault = false ∧ firstFailing cs = none ∧ ∃ e t, body s = .raised e t ∧
      runCommand cs body s = .next (raiseFault e t)) := by
  cases hf : flag s .fault with
  | true => exact .inl ⟨rfl, runCommand_ignored hf⟩
  | false =>
    cases hc : firstFailing cs with
    | some e => exact .inr (.inl ⟨rfl, e, rfl, runCommand_check hf hc⟩)
    | none =>
      cases hb : body s with
      | done u t => exact .inr (.inr (.inl ⟨rfl, rfl, t, rfl, runCommand_done hf hc hb⟩))
      | raised e t => exact .inr (.inr (.inr ⟨rfl, rfl, e, t, rfl, runCommand_raised hf hc hb⟩))

/-- A command always answers a next state. -/
theorem runCommand_answers (cs : List Check) (body : State → Run Unit) (s : State) :
    ∃ t, runCommand cs body s = .next t := by
  rcases runCommand_cases cs body s with h | ⟨_, e, _, h⟩ | ⟨_, _, t, _, h⟩ | ⟨_, _, e, t, _, h⟩
  · exact ⟨_, h.2⟩
  all_goals exact ⟨_, h⟩

/-- A property that faulting and counting keep, and that the pseudocode keeps when the checks hold,
is kept by the command. -/
theorem runCommand_keeps {p : State → Prop} {cs : List Check} {body : State → Run Unit} {s t : State}
    (hs : p s) (hraise : ∀ e u, p u → p (raiseFault e u)) (hretire : ∀ u, p u → p (retire u))
    (hbody : flag s .fault = false → firstFailing cs = none → (body s).All p)
    (h : runCommand cs body s = .next t) : p t := by
  rcases runCommand_cases cs body s with h' | ⟨_, e, _, h'⟩ | ⟨hf, hc, u, hb, h'⟩ |
    ⟨hf, hc, e, u, hb, h'⟩
  · obtain rfl : s = t := by simpa [h'.2] using h
    exact hs
  · obtain rfl : raiseFault e s = t := by simpa [h'] using h
    exact hraise e s hs
  · obtain rfl : retire u = t := by simpa [h'] using h
    have := hbody hf hc
    rw [hb] at this
    exact hretire u this
  · obtain rfl : raiseFault e u = t := by simpa [h'] using h
    have := hbody hf hc
    rw [hb] at this
    exact hraise e u this

@[simp] theorem always_eq (f : State → State) (s : State) : always f s = .done () (f s) := rfl

/-! ## Operand checks -/

@[simp] theorem needSet_ok (s : State) (f : Flag) (opc : Word) : (needSet s f opc).ok = flag s f := rfl

@[simp] theorem needSet_trap (s : State) (f : Flag) (opc : Word) :
    (needSet s f opc).trap = ⟨.seq, opc⟩ := rfl

@[simp] theorem needClear_ok (s : State) (f : Flag) (opc : Word) :
    (needClear s f opc).ok = !flag s f := rfl

@[simp] theorem needClear_trap (s : State) (f : Flag) (opc : Word) :
    (needClear s f opc).trap = ⟨.seq, opc⟩ := rfl

@[simp] theorem needAligned_ok (pos opc : Word) :
    (needAligned pos opc).ok = (pos.toNat % 8 == 0) := rfl

@[simp] theorem needAligned_trap (pos opc : Word) : (needAligned pos opc).trap = ⟨.seq, opc⟩ := rfl

@[simp] theorem countLegal_ok (n : Nat) : (countLegal n).ok = decide (n ≤ 32) := rfl

@[simp] theorem countLegal_trap (n : Nat) : (countLegal n).trap = ⟨.operand, wordOfNat n⟩ := rfl

@[simp] theorem bitsAvailable_ok (s : State) (n : Nat) :
    (bitsAvailable s n).ok = decide (s.rpos.toNat + n ≤ s.rlen.toNat) := rfl

@[simp] theorem bitsAvailable_trap (s : State) (n : Nat) :
    (bitsAvailable s n).trap = ⟨.brOverrun, s.rpos⟩ := rfl

@[simp] theorem ctxInit_ok (s : State) (m : Fin 16) : (ctxInit s m).ok = (ctxBits s m != 0) := rfl

@[simp] theorem ctxInit_trap (s : State) (m : Fin 16) :
    (ctxInit s m).trap = ⟨.modelUninit, wordOfNat m⟩ := rfl

@[simp] theorem symOk_ok (s : State) (m : Fin 16) (sym : Nat) :
    (symOk s m sym).ok = decide (sym < ctxLen s m) := rfl

@[simp] theorem symOk_trap (s : State) (m : Fin 16) (sym : Nat) :
    (symOk s m sym).trap = ⟨.operand, wordOfNat sym⟩ := rfl

/-! ## Tables -/

/-- An element of a table made by `tableOf` is the function's value; there are MTLEN of them. -/
theorem tableElem_tableOf (f : Nat → Half) (e : Nat) :
    tableElem (tableOf f) e = if e < 2050 then f e else 0 := by
  by_cases h : e < 2050
  · have := Nat.div_add_mod e 50
    simp only [tableElem, tableOf, Config.mtLen, h, dite_true, if_true, Vector.getElem_ofFn]
    congr 1
  · simp [tableElem, Config.mtLen, h]

/-- Two tables with the same elements are the same data. -/
theorem table_ext {t u : Table} (h : ∀ e, tableElem t e = tableElem u e) : t = u := by
  apply Vector.ext
  intro r hr
  apply Vector.ext
  intro c hc
  have hr' : r < 41 := hr
  have hc' : c < 50 := hc
  have hlt : 50 * r + c < 2050 := by omega
  have hdiv : (50 * r + c) / 50 = r := by omega
  have hmod : (50 * r + c) % 50 = c := by omega
  have := h (50 * r + c)
  simpa only [tableElem, Config.mtLen, tableCols, hlt, dite_true, hdiv, hmod] using this

end Sys2Proof.Machine
end

