-- ==== Sys2Proof/Laws/BitIO.lean ====
section
/-! SUPPORT. What the bit primitives do: a writer operation appends bits, a reader operation takes
the number the next bits spell. -/

namespace Sys2Proof.Machine

/-! ## Appending bits -/

theorem AppendsBits.nil (m : Memory) (pos : Nat) : AppendsBits m m pos [] :=
  ⟨fun k => by simp, fun _ _ => rfl⟩

theorem AppendsBits.byteOf {old new : Memory} {pos : Nat} {bits : List Bool}
    (h : AppendsBits old new pos bits) {a : Nat} (ha : a < pos / 8 ∨ (pos + bits.length + 7) / 8 ≤ a) :
    readByte new a = readByte old a := h.2 a ha

/-- Appending one list after another is appending both. -/
theorem AppendsBits.append {m₀ m₁ m₂ : Memory} {pos : Nat} {xs ys : List Bool}
    (h₁ : AppendsBits m₀ m₁ pos xs) (h₂ : AppendsBits m₁ m₂ (pos + xs.length) ys) :
    AppendsBits m₀ m₂ pos (xs ++ ys) := by
  refine ⟨fun k => ?_, fun a ha => ?_⟩
  · rw [h₂.1, h₁.1, Bool.or_assoc]
    congr 1
    by_cases hp : pos ≤ k
    · by_cases hx : k - pos < xs.length
      · have : ¬pos + xs.length ≤ k := by omega
        simp [hp, this, List.getD, List.getElem?_append_left hx]
      · have h3 : pos + xs.length ≤ k := by omega
        have h4 : xs[k - pos]? = none := by simp; omega
        have h5 : k - (pos + xs.length) = k - pos - xs.length := by omega
        simp [hp, h3, h4, h5, List.getD, List.getElem?_append_right (by omega : xs.length ≤ k - pos)]
    · have : ¬pos + xs.length ≤ k := by omega
      simp [hp, this]
  · rw [List.length_append] at ha
    rw [h₂.2 a (by omega), h₁.2 a (by omega)]

/-- Where the buffer is blank from `pos` on, the appended bits are the bits that stand there. -/
theorem AppendsBits.streamBit_of_blank {old new : Memory} {pos : Nat} {bits : List Bool}
    (h : AppendsBits old new pos bits) (hb : ∀ k, pos ≤ k → streamBit old k = false) (i : Nat) :
    streamBit new (pos + i) = bits.getD i false := by
  simp [h.1, hb (pos + i) (by omega)]

/-! ## The writer -/

/-- PutBit with room: one bit, WPOS moves by one (`40_bitio.md` R111). -/
theorem putBit_room {b : Bool} {s : State} (h : s.wpos.toNat < 8 * s.cfg.obCap) :
    putBit b s =
      .done () (setWpos (s.wpos + 1) (if b then setOb (setStreamBit s.ob s.wpos.toNat) s else s)) := by
  simp [putBit, h]

/-- PutBit at the end of OB faults and changes nothing (`40_bitio.md` R111). -/
theorem putBit_full {b : Bool} {s : State} (h : ¬s.wpos.toNat < 8 * s.cfg.obCap) :
    putBit b s = .raised ⟨.obFull, s.wpos⟩ s := by
  simp [putBit, h]

/-- PutBit of each bit of a list, in order. -/
def putList : List Bool → State → Run Unit
  | [], s => .done () s
  | b :: bs, s => (putBit b s).andThen fun _ s => putList bs s

theorem putList_append (xs ys : List Bool) (s : State) :
    putList (xs ++ ys) s = (putList xs s).andThen fun _ s => putList ys s := by
  induction xs generalizing s with
  | nil => rfl
  | cons b xs ih => simp only [List.cons_append, putList, ih, andThen_assoc]

theorem putRepeat_eq (b : Bool) (n : Nat) (s : State) :
    putRepeat b n s = putList (List.replicate n b) s := by
  induction n generalizing s with
  | zero => rfl
  | succ n ih => simp only [putRepeat, List.replicate_succ, putList, ih]

theorem lowBits_succ (v : Word) (n : Nat) : lowBits v (n + 1) = v.getLsbD n :: lowBits v n := by
  simp only [lowBits, List.range_succ_eq_map, List.map_cons, List.map_map]
  congr 1
  apply List.map_congr_left
  intro i _
  simp only [Function.comp_apply]
  congr 1
  omega

/-- PutBits appends the low bits of its value (`40_bitio.md` R112). -/
theorem putBits_eq (v : Word) (n : Nat) (s : State) : putBits v n s = putList (lowBits v n) s := by
  induction n generalizing s with
  | zero => rfl
  | succ n ih => simp only [putBits, lowBits_succ, putList, ih]

/-- Appending a bit to a canonical buffer. -/
theorem appendsBits_putBit {m : Memory} (h : memoryWf m = true) (pos : Nat) (b : Bool) :
    AppendsBits m (if b then setStreamBit m pos else m) pos [b] := by
  cases b with
  | true =>
    refine ⟨fun k => ?_, fun a ha => ?_⟩
    · rw [if_pos rfl, streamBit_setStreamBit h, Bool.or_comm]
      congr 1
      rcases Nat.lt_trichotomy k pos with hlt | heq | hgt
      · simp [show ¬pos ≤ k by omega, show ¬k = pos by omega]
      · simp [heq]
      · obtain ⟨j, hj⟩ : ∃ j, k - pos = j + 1 := ⟨k - pos - 1, by omega⟩
        simp [hj, show ¬k = pos by omega]
    · rw [if_pos rfl, readByte_setStreamBit h, if_neg]
      simp only [List.length_cons, List.length_nil] at ha
      omega
  | false =>
    refine ⟨fun k => ?_, fun a _ => rfl⟩
    rcases Nat.lt_or_ge pos k with hgt | hle
    · obtain ⟨j, hj⟩ : ∃ j, k - pos = j + 1 := ⟨k - pos - 1, by omega⟩
      simp [hj]
    · simp [show k - pos = 0 by omega]

/-- With room for all of them, PutBit of each bit of a list appends the list (`40_bitio.md` R111):
OB and WPOS change and nothing else. -/
theorem putList_room (bits : List Bool) {s : State} (hm : memoryWf s.ob = true)
    (hcap : s.cfg.obCap ≤ 2 ^ 20) (h : s.wpos.toNat + bits.length ≤ 8 * s.cfg.obCap) :
    ∃ m, putList bits s = .done () (setWpos (s.wpos + BitVec.ofNat 32 bits.length) (setOb m s)) ∧
      AppendsBits s.ob m s.wpos.toNat bits ∧ memoryWf m = true := by
  induction bits generalizing s with
  | nil =>
    refine ⟨s.ob, ?_, .nil _ _, hm⟩
    simp [putList, setWpos, setOb]
  | cons b bs ih =>
    simp only [List.length_cons] at h
    have hpos : (s.wpos + 1).toNat = s.wpos.toNat + 1 := by
      rw [BitVec.toNat_add]
      simp only [BitVec.ofNat_eq_ofNat, BitVec.toNat_ofNat, Nat.reducePow, Nat.one_mod]
      omega
    have hone : AppendsBits s.ob (if b then setStreamBit s.ob s.wpos.toNat else s.ob)
        s.wpos.toNat [b] := appendsBits_putBit hm _ _
    have hwf : memoryWf (if b then setStreamBit s.ob s.wpos.toNat else s.ob) = true := by
      split
      · exact setStreamBit_wf hm _
      · exact hm
    obtain ⟨m, hput, happ, hwf'⟩ := ih
      (s := setWpos (s.wpos + 1) (setOb (if b then setStreamBit s.ob s.wpos.toNat else s.ob) s))
      hwf hcap (by simp only [setWpos_wpos, setWpos_cfg, setOb_cfg, hpos]; omega)
    refine ⟨m, ?_, ?_, hwf'⟩
    · have hstep : (if b then setOb (setStreamBit s.ob s.wpos.toNat) s else s) =
          setOb (if b then setStreamBit s.ob s.wpos.toNat else s.ob) s := by
        cases b <;> rfl
      rw [putList, putBit_room (by omega), done_andThen, hstep, hput]
      have hw : s.wpos + 1 + BitVec.ofNat 32 bs.length = s.wpos + BitVec.ofNat 32 (bs.length + 1) := by
        rw [BitVec.add_assoc, BitVec.add_comm 1, BitVec.ofNat_add]
        rfl
      simp only [setWpos, setOb, hw, List.length_cons]
    · rw [setWpos_wpos, hpos] at happ
      simpa using hone.append happ

/-- However it ends, PutBit of each bit of a list changes OB and WPOS only, and what it raises is
ERR_OB_FULL. -/
theorem putList_cases (bits : List Bool) (s : State) :
    (∃ m w, putList bits s = .done () (setWpos w (setOb m s))) ∨
    (∃ m w, putList bits s = .raised ⟨.obFull, w⟩ (setWpos w (setOb m s))) := by
  induction bits generalizing s with
  | nil => exact .inl ⟨s.ob, s.wpos, rfl⟩
  | cons b bs ih =>
    by_cases h : s.wpos.toNat < 8 * s.cfg.obCap
    · rw [putList, putBit_room h, done_andThen]
      cases b with
      | true =>
        rcases ih (setWpos (s.wpos + 1) (setOb (setStreamBit s.ob s.wpos.toNat) s)) with
          ⟨m, w, h'⟩ | ⟨m, w, h'⟩
        · exact .inl ⟨m, w, h'⟩
        · exact .inr ⟨m, w, h'⟩
      | false =>
        rcases ih (setWpos (s.wpos + 1) s) with ⟨m, w, h'⟩ | ⟨m, w, h'⟩
        · exact .inl ⟨m, w, h'⟩
        · exact .inr ⟨m, w, h'⟩
    · rw [putList, putBit_full h]
      exact .inr ⟨s.ob, s.wpos, rfl⟩

/-! ## The reader -/

theorem getBit_room {s : State} (h : s.rpos.toNat + 1 ≤ s.rlen.toNat) :
    getBit s = .done (streamBit s.ib s.rpos.toNat) (setRpos (s.rpos + 1) s) := by
  simp [getBit, h]

theorem getBit_overrun {s : State} (h : ¬s.rpos.toNat + 1 ≤ s.rlen.toNat) :
    getBit s = .raised ⟨.brOverrun, s.rpos⟩ s := by
  simp [getBit, h]

theorem peekBits_room {n : Nat} {s : State} (h : s.rpos.toNat + n ≤ s.rlen.toNat) :
    peekBits n s = .done (bitsValue s.ib s.rpos.toNat n) s := by
  simp [peekBits, h]

theorem peekBits_overrun {n : Nat} {s : State} (h : ¬s.rpos.toNat + n ≤ s.rlen.toNat) :
    peekBits n s = .raised ⟨.brOverrun, s.rpos⟩ s := by
  simp [peekBits, h]

/-- GetBits with enough bits: the number they spell, RPOS moves past them (`40_bitio.md` R118). -/
theorem getBits_room {n : Nat} {s : State} (h : s.rpos.toNat + n ≤ s.rlen.toNat) :
    getBits n s =
      .done (bitsValue s.ib s.rpos.toNat n) (setRpos (wordOfNat (s.rpos.toNat + n)) s) := by
  simp [getBits, peekBits_room h]

/-- GetBits past RLEN faults and consumes nothing (`40_bitio.md` R118). -/
theorem getBits_overrun {n : Nat} {s : State} (h : ¬s.rpos.toNat + n ≤ s.rlen.toNat) :
    getBits n s = .raised ⟨.brOverrun, s.rpos⟩ s := by
  simp [getBits, peekBits_overrun h]

theorem bitsValue_lt (m : Memory) (k n : Nat) : bitsValue m k n < 2 ^ n := by
  induction n with
  | zero => simp [bitsValue]
  | succ n ih =>
    have := Bool.toNat_lt (streamBit m (k + n))
    simp only [bitsValue, Nat.pow_succ]
    omega

/-- The bits of the number that stream bits spell, most significant first. -/
theorem bitsValue_testBit (m : Memory) (k n i : Nat) (hi : i < n) :
    (bitsValue m k n).testBit (n - 1 - i) = streamBit m (k + i) := by
  induction n with
  | zero => omega
  | succ n ih =>
    rcases Nat.lt_or_ge i n with h | h
    · have h1 : n + 1 - 1 - i = (n - 1 - i) + 1 := by omega
      rw [h1, Nat.testBit_succ, bitsValue, ← ih h]
      congr 1
      have := Bool.toNat_lt (streamBit m (k + n))
      omega
    · have h1 : i = n := by omega
      subst h1
      cases hb : streamBit m (k + i) <;> simp [bitsValue, hb, Nat.testBit_zero]

/-- A number is split where its bits are. -/
theorem bitsValue_add (m : Memory) (k a b : Nat) :
    bitsValue m k (a + b) = bitsValue m k a * 2 ^ b + bitsValue m (k + a) b := by
  induction b with
  | zero => simp [bitsValue]
  | succ b ih =>
    rw [← Nat.add_assoc, bitsValue, ih, bitsValue, Nat.pow_succ, Nat.add_assoc k a b]
    ring

end Sys2Proof.Machine
end

