-- ==== Sys2Proof/Laws/Model.lean ====
section
/-! SUPPORT. What the operations of the frequency models do to a table, and what Find finds. -/

namespace Sys2Proof.Machine

/-! ## Elements -/

theorem tableElem_of_le {t : Table} {e : Nat} (h : 2050 ≤ e) : tableElem t e = 0 := by
  simp [tableElem, Config.mtLen, h]

/-- MDL_INIT's table (`41_model.md` R133): the initial counts up to index `L`, the rest as before. -/
theorem tableElem_initTable (t : Table) {len : Nat} (hl : len ≤ 2048) (e : Nat) :
    tableElem (initTable t len) e = if e ≤ len + 1 then BitVec.ofNat 16 e else tableElem t e := by
  rw [initTable, tableElem_tableOf]
  split
  · rfl
  · rw [if_neg (by omega), tableElem_of_le (by omega)]

theorem tableElem_bumpTable (t : Table) {len : Nat} (hl : len ≤ 2048) (sym e : Nat) :
    tableElem (bumpTable t len sym) e =
      if sym + 2 ≤ e ∧ e ≤ len + 1 then tableElem t e + 1 else tableElem t e := by
  rw [bumpTable, tableElem_tableOf]
  split
  · rfl
  · rw [if_neg (by omega), tableElem_of_le (by omega)]

theorem tableElem_rescaleTable (t : Table) {len : Nat} (hl : len ≤ 2048) (e : Nat) :
    tableElem (rescaleTable t len) e =
      if e ≤ len + 1 then rescaledElem t e else tableElem t e := by
  rw [rescaleTable, tableElem_tableOf]
  split
  · rfl
  · rw [if_neg (by omega), tableElem_of_le (by omega)]

/-! ## Rescaled counts -/

theorem rescaledCount_rising (old : Nat → Nat) (i : Nat) :
    rescaledCount old i < rescaledCount old (i + 1) := by
  simp only [rescaledCount]
  omega

theorem rescaledCount_le {old : Nat → Nat} {b : Nat} (h : ∀ i, old i ≤ b) (i : Nat) :
    rescaledCount old i ≤ b / 2 + i + 1 := by
  induction i with
  | zero =>
    have := h 0
    simp only [rescaledCount]
    omega
  | succ i ih =>
    have := h (i + 1)
    simp only [rescaledCount]
    omega

/-- Where the old counts do not fall, a rescaled count is bounded by half the old one
(`41_model.md` R140 (b)). -/
theorem rescaledCount_le_half {old : Nat → Nat} (i : Nat)
    (h : ∀ j, j < i → old j ≤ old (j + 1)) : rescaledCount old i ≤ old i / 2 + i + 1 := by
  induction i with
  | zero =>
    simp only [rescaledCount]
    omega
  | succ i ih =>
    have h1 := ih fun j hj => h j (by omega)
    have h2 := h i (by omega)
    simp only [rescaledCount]
    omega

theorem le_rescaledCount (old : Nat → Nat) (i : Nat) : i + 1 ≤ rescaledCount old i := by
  induction i with
  | zero => simp only [rescaledCount]; omega
  | succ i ih => simp only [rescaledCount]; omega

/-- The elements of a rescaled table, as numbers, when element 0 is 0. -/
theorem rescaledElem_toNat {t : Table} (h0 : tableElem t 0 = 0) (e : Nat) (he : e ≤ 2048) :
    (rescaledElem t (e + 1)).toNat = rescaledCount (fun i => (tableElem t (i + 1)).toNat) e := by
  have bound : ∀ i, i ≤ 2048 →
      rescaledCount (fun i => (tableElem t (i + 1)).toNat) i ≤ 65535 / 2 + i + 1 := fun i _ =>
    rescaledCount_le (fun j => by have := (tableElem t (j + 1)).isLt; omega) i
  have step : ∀ (x left : Half), left.toNat + 1 < 65536 →
      (if x / 2 ≤ left then left + 1 else x / 2).toNat = max (x.toNat / 2) (left.toNat + 1) := by
    intro x left hl
    have hx : (x / 2).toNat = x.toNat / 2 := by simp
    have h1 : (left + 1).toNat = left.toNat + 1 := by
      rw [BitVec.toNat_add]
      simp only [BitVec.ofNat_eq_ofNat, BitVec.toNat_ofNat, Nat.reducePow, Nat.reduceMod]
      omega
    split
    · rename_i hle
      rw [BitVec.le_def, hx] at hle
      omega
    · rename_i hle
      rw [BitVec.le_def, hx] at hle
      omega
  induction e with
  | zero =>
    have hz : rescaledElem t 0 = 0 := h0
    simp only [rescaledElem, h0]
    rw [step _ _ (by decide)]
    simp [rescaledCount]
  | succ e ih =>
    have h1 := ih (by omega)
    have h2 := bound e (by omega)
    rw [rescaledElem, step _ _ (by rw [h1]; omega), h1, rescaledCount]

/-! ## Update -/

theorem ctxLen_le {s : State} {m : Fin 16} (h : ctxBits s m ≤ 11) : ctxLen s m ≤ 2048 :=
  Nat.pow_le_pow_right (by decide) h

theorem ctxLen_pos (s : State) (m : Fin 16) : 1 ≤ ctxLen s m := Nat.one_le_two_pow

/-- In a context that meets its invariants no count exceeds the scale. -/
theorem ContextOk.count_le {s : State} {m : Fin 16} (h : ContextOk s m) {i : Nat}
    (hi : i ≤ ctxLen s m) : count s m i ≤ count s m (ctxLen s m) := by
  have : ∀ d, d ≤ ctxLen s m → count s m (ctxLen s m - d) ≤ count s m (ctxLen s m) := by
    intro d
    induction d with
    | zero => intro _; exact le_refl _
    | succ d ih =>
      intro hd
      have h1 := ih (by omega)
      have h2 := h.rising (ctxLen s m - (d + 1)) (by omega)
      rw [show ctxLen s m - (d + 1) + 1 = ctxLen s m - d by omega] at h2
      omega
  simpa [show ctxLen s m - (ctxLen s m - i) = i by omega] using this (ctxLen s m - i) (by omega)

/-- The table of a context after Update (`41_model.md` R136, R139), in terms of the counts. -/
theorem updateTable_spec {s : State} {m : Fin 16} (h : ContextOk s m) (sym : Nat) :
    TableUpdated s m sym (updateTable (ctxTable s m) (ctxLen s m) sym) := by
  have hl := ctxLen_le h.width.2
  have hpos := ctxLen_pos s m
  have old : ∀ i, i ≤ ctxLen s m → count s m i < 16383 := fun i hi => by
    have := h.count_le hi
    have := h.scaleHigh
    omega
  have bump : ∀ i, i ≤ ctxLen s m →
      (tableElem (bumpTable (ctxTable s m) (ctxLen s m) sym) (i + 1)).toNat =
        bumpedCount (count s m) sym i := by
    intro i hi
    have := old i hi
    rw [tableElem_bumpTable _ hl]
    by_cases hs : sym < i
    · rw [if_pos ⟨by omega, by omega⟩, BitVec.toNat_add]
      simp only [bumpedCount, hs, if_true, count, ctxCount] at *
      simp only [BitVec.ofNat_eq_ofNat, BitVec.toNat_ofNat, Nat.reducePow, Nat.reduceMod]
      omega
    · rw [if_neg (by omega)]
      simp [bumpedCount, hs, count, ctxCount]
  have hz : tableElem (bumpTable (ctxTable s m) (ctxLen s m) sym) 0 = 0 := by
    rw [tableElem_bumpTable _ hl, if_neg (by omega)]
    exact h.virtual
  have agree : ∀ i, i ≤ ctxLen s m → rescaledCount
      (fun i => (tableElem (bumpTable (ctxTable s m) (ctxLen s m) sym) (i + 1)).toNat) i =
        rescaledCount (bumpedCount (count s m) sym) i := by
    intro i
    induction i with
    | zero => intro _; simp only [rescaledCount, bump 0 (by omega)]
    | succ i ih => intro hi; simp only [rescaledCount, bump (i + 1) hi, ih (by omega)]
  intro e
  simp only [updateTable, updatedCount, Config.maximumScale, bump _ (le_refl _)]
  by_cases hr : 16383 ≤ bumpedCount (count s m) sym (ctxLen s m)
  · simp only [hr, if_true]
    rw [tableElem_rescaleTable _ hl]
    by_cases he : 1 ≤ e ∧ e ≤ ctxLen s m + 1
    · obtain ⟨i, rfl⟩ : ∃ i, e = i + 1 := ⟨e - 1, by omega⟩
      rw [if_pos he, if_pos he.2, rescaledElem_toNat hz i (by omega)]
      exact agree i (by omega)
    · rw [if_neg he]
      split
      · obtain rfl : e = 0 := by omega
        rw [show rescaledElem _ 0 = _ from hz, h.virtual]
      · rw [tableElem_bumpTable _ hl, if_neg (by omega)]
  · simp only [hr, if_false]
    by_cases he : 1 ≤ e ∧ e ≤ ctxLen s m + 1
    · obtain ⟨i, rfl⟩ : ∃ i, e = i + 1 := ⟨e - 1, by omega⟩
      rw [if_pos he]
      exact bump i (by omega)
    · rw [if_neg he, tableElem_bumpTable _ hl, if_neg (by omega)]

/-- An update leaves the width of every context, and the table of every other context. -/
@[simp] theorem ctxBits_updateCtx (s : State) (m n : Fin 16) (sym : Nat) :
    ctxBits (updateCtx m sym s) n = ctxBits s n := rfl

theorem ctxTable_setTable (s : State) (m n : Fin 16) (t : Table) :
    ctxTable (setTable m t s) n = if m = n then t else ctxTable s n := by
  simp only [ctxTable, setTable, Vector.get_eq_getElem, Vector.getElem_set]
  by_cases h : m = n
  · simp [h]
  · have : ¬(m : Nat) = n := fun e => h (Fin.ext e)
    simp [h, this]

/-! ## Find -/

/-- Find (`41_model.md` R142): the highest element, 1 to `n`, that is at most the count, or 0. -/
theorem findElem_spec (t : Table) (count n : Nat) :
    findElem t count n ≤ n ∧
    (findElem t count n = 0 ∨ (tableElem t (findElem t count n)).toNat ≤ count) ∧
    ∀ e, findElem t count n < e → e ≤ n → count < (tableElem t e).toNat := by
  induction n with
  | zero => exact ⟨le_refl _, .inl rfl, fun e h1 h2 => by simp only [findElem] at h1; omega⟩
  | succ n ih =>
    by_cases h : count < (tableElem t (n + 1)).toNat
    · simp only [findElem, h, if_true]
      refine ⟨by omega, ih.2.1, fun e h1 h2 => ?_⟩
      rcases Nat.lt_or_ge n e with h3 | h3
      · obtain rfl : e = n + 1 := by omega
        exact h
      · exact ih.2.2 e h1 h3
    · simp only [findElem, h, if_false]
      exact ⟨le_refl _, .inr (by omega), fun e h1 h2 => by omega⟩

/-- Find is the one element with those properties. -/
theorem findElem_eq {t : Table} {count n c : Nat} (hc : c < n)
    (hlow : (tableElem t (c + 1)).toNat ≤ count)
    (hhigh : ∀ e, c + 1 < e → e ≤ n → count < (tableElem t e).toNat) :
    findElem t count n = c + 1 := by
  obtain ⟨h1, h2, h3⟩ := findElem_spec t count n
  rcases Nat.lt_trichotomy (findElem t count n) (c + 1) with h | h | h
  · have := h3 (c + 1) h (by omega)
    omega
  · exact h
  · rcases h2 with h2 | h2
    · omega
    · have := hhigh _ h h1
      omega

/-! ## Initialised contexts -/

theorem ctxBits_initCtx (s : State) (m n : Fin 16) {bits : Nat} (h : bits ≤ 11) :
    ctxBits (initCtx m bits s) n = if m = n then bits else ctxBits s n := by
  simp only [ctxBits, initCtx, setMbits, setTable, Vector.get_eq_getElem, Vector.getElem_set]
  by_cases e : m = n
  · simp only [e, if_true, BitVec.toNat_ofNat]
    omega
  · have : ¬(m : Nat) = n := fun h => e (Fin.ext h)
    simp [e, this]

theorem ctxTable_initCtx (s : State) (m n : Fin 16) (bits : Nat) :
    ctxTable (initCtx m bits s) n =
      if m = n then initTable (ctxTable s m) (2 ^ bits) else ctxTable s n :=
  ctxTable_setTable s m n _

/-- MDL_INIT gives a context its invariants and leaves those of the others (`10_state.md` R40). -/
theorem initCtx_contextsOk {s : State} (h : ContextsOk s) (m : Fin 16) {bits : Nat} (h1 : 1 ≤ bits)
    (h2 : bits ≤ 11) : ContextsOk (initCtx m bits s) := by
  have hl : 2 ^ bits ≤ 2048 := Nat.pow_le_pow_right (by decide) h2
  intro n hn
  by_cases e : m = n
  · subst e
    have hb : ctxBits (initCtx m bits s) m = bits := by rw [ctxBits_initCtx _ _ _ h2, if_pos rfl]
    have hlen : ctxLen (initCtx m bits s) m = 2 ^ bits := by rw [ctxLen, hb]
    have hc : ∀ e, e ≤ 2 ^ bits + 1 →
        tableElem (ctxTable (initCtx m bits s) m) e = BitVec.ofNat 16 e := by
      intro e he
      rw [ctxTable_initCtx, if_pos rfl, tableElem_initTable _ hl, if_pos he]
    have hcount : ∀ i, i ≤ 2 ^ bits → count (initCtx m bits s) m i = i + 1 := by
      intro i hi
      rw [count, ctxCount, hc _ (by omega), BitVec.toNat_ofNat]
      omega
    have hpos : 1 ≤ 2 ^ bits := Nat.one_le_two_pow
    refine ⟨by omega, hc 0 (by omega), hcount 0 (by omega), ?_, ?_, ?_⟩
    · intro i hi
      rw [hlen] at hi
      rw [hcount i (by omega), hcount (i + 1) (by omega)]
      omega
    · rw [hlen, hcount _ (le_refl _)]
    · rw [hlen, hcount _ (le_refl _)]
      omega
  · have hb : ctxBits (initCtx m bits s) n = ctxBits s n := by
      rw [ctxBits_initCtx _ _ _ h2, if_neg e]
    have ht : ctxTable (initCtx m bits s) n = ctxTable s n := by rw [ctxTable_initCtx, if_neg e]
    have ok := h n (by rwa [hb] at hn)
    have hlen : ctxLen (initCtx m bits s) n = ctxLen s n := by rw [ctxLen, hb, ctxLen]
    have hcount : ∀ i, count (initCtx m bits s) n i = count s n i := fun i => by
      rw [count, ctxCount, ht, count, ctxCount]
    exact ⟨by rw [hb]; exact ok.width, by rw [ht]; exact ok.virtual, by rw [hcount]; exact ok.first,
      fun i hi => by rw [hcount, hcount]; exact ok.rising i (by rwa [hlen] at hi),
      by rw [hlen, hcount]; exact ok.scaleLow, by rw [hlen, hcount]; exact ok.scaleHigh⟩

/-- So does MDL_INIT of each of a list of contexts. -/
theorem initCtxs_contextsOk {s : State} (h : ContextsOk s) {cs : List (Fin 16 × Nat)}
    (hc : ∀ c ∈ cs, 1 ≤ c.2 ∧ c.2 ≤ 11) : ContextsOk (initCtxs cs s) := by
  induction cs generalizing s with
  | nil => exact h
  | cons c cs ih =>
    have hb := hc c (by simp)
    exact ih (initCtx_contextsOk h c.1 hb.1 hb.2) fun d hd => hc d (by simp [hd])

end Sys2Proof.Machine
end

