-- ==== Sys2Proof/Laws/Coder.lean ====
section
/-! SUPPORT. The coder's register operations as arithmetic on numbers, and what the two
renormalisation loops do, in terms of the loop on integers. -/

namespace Sys2Proof.Machine

/-! ## The register operations as arithmetic -/

theorem getLsbD_15 (v : Half) : v.getLsbD 15 = decide (0x8000 ≤ v.toNat) := by
  have h := BitVec.msb_eq_decide v
  rw [BitVec.msb_eq_getLsbD_last] at h
  exact h

theorem getLsbD_14 (v : Half) : v.getLsbD 14 = decide (0x4000 ≤ v.toNat % 0x8000) := by
  rw [BitVec.getLsbD, Nat.testBit_eq_decide_div_mod_eq]
  congr 1
  exact propext (by omega)

theorem shiftLow_toNat (v : Half) : (shiftLow v).toNat = 2 * v.toNat % 0x10000 := by
  simp [shiftLow, Nat.shiftLeft_eq, Nat.mul_comm]

theorem or_one_toNat {n : Nat} (h : n % 2 = 0) : n ||| 1 = n + 1 := by
  obtain ⟨k, rfl⟩ : ∃ k, n = 2 * k := ⟨n / 2, by omega⟩
  have := Nat.two_pow_add_eq_or_of_lt (show 1 < 2 ^ 1 by decide) k
  simpa using this.symm

theorem shiftHigh_toNat (v : Half) : (shiftHigh v).toNat = 2 * v.toNat % 0x10000 + 1 := by
  have h := shiftLow_toNat v
  simp only [shiftLow] at h
  rw [shiftHigh, BitVec.toNat_or, h]
  exact or_one_toNat (by omega)

theorem e3Low_toNat (v : Half) : (e3Low v).toNat = v.toNat % 0x4000 := by
  rw [e3Low, BitVec.toNat_and]
  exact Nat.and_two_pow_sub_one_eq_mod v.toNat 14

theorem e3High_toNat {v : Half} (h : v.toNat % 0x8000 < 0x4000) :
    (e3High v).toNat = v.toNat + 0x4000 := by
  have hv := v.isLt
  have : v.toNat = 0x8000 * (v.toNat / 0x8000) + v.toNat % 0x4000 := by omega
  rw [e3High, BitVec.toNat_or]
  rcases Nat.lt_or_ge v.toNat 0x8000 with hlt | hge
  · have h2 := Nat.two_pow_add_eq_or_of_lt (show v.toNat < 2 ^ 14 by omega) 1
    rw [Nat.or_comm]
    simpa [Nat.add_comm] using h2.symm
  · have h2 := Nat.two_pow_add_eq_or_of_lt (show v.toNat - 0x8000 < 2 ^ 14 by omega) 1
    have h3 := Nat.two_pow_add_eq_or_of_lt (show v.toNat - 0x8000 < 2 ^ 14 by omega) 2
    have h4 := Nat.two_pow_add_eq_or_of_lt (show v.toNat - 0x8000 < 2 ^ 14 by omega) 3
    have e1 : v.toNat = 2 ^ 14 * 2 ||| (v.toNat - 0x8000) := by omega
    have e2 : (0x4000 : Half).toNat = 2 ^ 14 := rfl
    rw [e2]
    calc v.toNat ||| 2 ^ 14 = (2 ^ 14 * 2 ||| (v.toNat - 0x8000)) ||| 2 ^ 14 := by rw [← e1]
      _ = (2 ^ 14 * 2 ||| 2 ^ 14) ||| (v.toNat - 0x8000) := by
        rw [Nat.or_assoc, Nat.or_comm (v.toNat - 0x8000), ← Nat.or_assoc]
      _ = 2 ^ 14 * 3 ||| (v.toNat - 0x8000) := rfl
      _ = v.toNat + 0x4000 := by omega

/-- The first branch of the loop: both ends lie in one half. -/
theorem topsAgree_iff {low high : Half} (h : low.toNat ≤ high.toNat) :
    topsAgree low high = true ↔ high.toNat < 0x8000 ∨ 0x8000 ≤ low.toNat := by
  rw [topsAgree, getLsbD_15, getLsbD_15]
  simp only [beq_iff_eq, decide_eq_decide]
  omega

/-- The second branch, when the halves differ: the interval straddles the middle quarters. -/
theorem isE3_iff {low high : Half} (hl : low.toNat < 0x8000) (hh : 0x8000 ≤ high.toNat) :
    isE3 low high = true ↔ 0x4000 ≤ low.toNat ∧ high.toNat < 0xC000 := by
  have := high.isLt
  rw [isE3, getLsbD_14, getLsbD_14]
  simp only [Bool.and_eq_true, decide_eq_true_eq, Bool.not_eq_true', decide_eq_false_iff_not]
  omega

/-! ## The loop on integers -/

theorem renormalise_interval (n : Nat) {low high : Nat} (pending : Nat) (h : low ≤ high)
    (hh : high < 0x10000) :
    (renormalise n low high pending).low ≤ (renormalise n low high pending).high ∧
      (renormalise n low high pending).high < 0x10000 := by
  induction n generalizing low high pending with
  | zero => exact ⟨h, hh⟩
  | succ n ih =>
    simp only [renormalise]
    split
    · exact ih _ (by omega) (by omega)
    · split
      · exact ih _ (by omega) (by omega)
      · split
        · exact ih _ (by omega) (by omega)
        · exact ⟨h, hh⟩

/-- Each pass doubles the interval (`42_coder.md` R165). -/
theorem renormalise_width (n : Nat) {low high : Nat} (pending : Nat) (h : low ≤ high) :
    (renormalise n low high pending).high + 1 =
      (renormalise n low high pending).low +
        (high - low + 1) * 2 ^ (renormalise n low high pending).passes := by
  induction n generalizing low high pending with
  | zero => simp only [renormalise]; omega
  | succ n ih =>
    simp only [renormalise]
    split
    · have := ih (low := 2 * low) (high := 2 * high + 1) 0 (by omega)
      simp only [Renormed.afterPass, Nat.pow_succ]
      rw [this, show 2 * high + 1 - 2 * low + 1 = 2 * (high - low + 1) by omega]
      ring
    · split
      · have := ih (low := 2 * (low - 0x8000)) (high := 2 * (high - 0x8000) + 1) 0 (by omega)
        simp only [Renormed.afterPass, Nat.pow_succ]
        rw [this, show 2 * (high - 0x8000) + 1 - 2 * (low - 0x8000) + 1 = 2 * (high - low + 1) by
          omega]
        ring
      · split
        · have := ih (low := 2 * (low - 0x4000)) (high := 2 * (high - 0x4000) + 1) (pending + 1)
            (by omega)
          simp only [Renormed.afterPass, Nat.pow_succ]
          rw [this, show 2 * (high - 0x4000) + 1 - 2 * (low - 0x4000) + 1 = 2 * (high - low + 1) by
            omega]
          ring
        · simp only [Nat.pow_zero]
          omega

theorem renormalise_passes_le (n low high pending : Nat) :
    (renormalise n low high pending).passes ≤ n := by
  induction n generalizing low high pending with
  | zero => exact le_refl _
  | succ n ih =>
    simp only [renormalise]
    split
    · exact Nat.succ_le_succ (ih ..)
    · split
      · exact Nat.succ_le_succ (ih ..)
      · split
        · exact Nat.succ_le_succ (ih ..)
        · exact Nat.zero_le _

/-- Every pass emits a bit or defers one, and every deferred bit is emitted once
(`42_coder.md` R168). -/
theorem renormalise_bits (n low high pending : Nat) :
    (renormalise n low high pending).bits.length + (renormalise n low high pending).pending =
      (renormalise n low high pending).passes + pending := by
  induction n generalizing low high pending with
  | zero => simp [renormalise]
  | succ n ih =>
    simp only [renormalise]
    split
    · have := ih (2 * low) (2 * high + 1) 0
      simp only [Renormed.afterPass, List.length_append, List.length_cons, List.length_replicate]
      omega
    · split
      · have := ih (2 * (low - 0x8000)) (2 * (high - 0x8000) + 1) 0
        simp only [Renormed.afterPass, List.length_append, List.length_cons, List.length_replicate]
        omega
      · split
        · have := ih (2 * (low - 0x4000)) (2 * (high - 0x4000) + 1) (pending + 1)
          simp only [Renormed.afterPass, List.nil_append]
          omega
        · simp

/-- The loop ends with an interval that needs no further pass, or after all its passes. -/
theorem renormalise_exit (n : Nat) {low high : Nat} (pending : Nat) (h : low ≤ high)
    (hh : high < 0x10000) :
    (renormalise n low high pending).passes = n ∨
      ((renormalise n low high pending).low < 0x8000 ∧
        0x8000 ≤ (renormalise n low high pending).high ∧
        ((renormalise n low high pending).low < 0x4000 ∨
          0xC000 ≤ (renormalise n low high pending).high)) := by
  induction n generalizing low high pending with
  | zero => exact .inl rfl
  | succ n ih =>
    simp only [renormalise]
    split
    · rcases ih (low := 2 * low) (high := 2 * high + 1) 0 (by omega) (by omega) with h1 | h1
      · exact .inl (congrArg (· + 1) h1)
      · exact .inr h1
    · split
      · rcases ih (low := 2 * (low - 0x8000)) (high := 2 * (high - 0x8000) + 1) 0 (by omega)
          (by omega) with h1 | h1
        · exact .inl (congrArg (· + 1) h1)
        · exact .inr h1
      · split
        · rcases ih (low := 2 * (low - 0x4000)) (high := 2 * (high - 0x4000) + 1) (pending + 1)
            (by omega) (by omega) with h1 | h1
          · exact .inl (congrArg (· + 1) h1)
          · exact .inr h1
        · right
          simp only []
          omega

/-- Sixteen passes are enough: the loop ends with the invariant of the coder registers
(`42_coder.md` R165, `10_state.md` R32). -/
theorem renormalise_ok {low high : Nat} (pending : Nat) (h : low ≤ high) (hh : high < 0x10000) :
    (renormalise 16 low high pending).low < 0x8000 ∧
      0x8000 ≤ (renormalise 16 low high pending).high ∧
      ((renormalise 16 low high pending).low < 0x4000 ∨
        0xC000 ≤ (renormalise 16 low high pending).high) := by
  rcases renormalise_exit 16 pending h hh with h1 | h1
  · have h2 := renormalise_width 16 pending h
    have h3 := renormalise_interval 16 pending h hh
    rw [h1] at h2
    omega
  · exact h1

/-! ## The encoder's loop -/

/-- Writing the pending bits, with room: they are appended and EUF is 0. -/
theorem drainPending_room (b : Bool) (n : Nat) {s : State} (hn : s.euf.toNat = n)
    (hm : memoryWf s.ob = true) (hcap : s.cfg.obCap ≤ 2 ^ 20)
    (h : s.wpos.toNat + n ≤ 8 * s.cfg.obCap) :
    ∃ m, drainPending b n s =
        .done () (setEuf 0 (setWpos (s.wpos + BitVec.ofNat 32 n) (setOb m s))) ∧
      AppendsBits s.ob m s.wpos.toNat (List.replicate n b) ∧ memoryWf m = true := by
  induction n generalizing s with
  | zero =>
    refine ⟨s.ob, ?_, .nil _ _, hm⟩
    have : s.euf = 0 := BitVec.eq_of_toNat_eq hn
    simp only [drainPending, setEuf, setWpos, setOb, ← this]
    simp
  | succ n ih =>
    have hlt : s.wpos.toNat < 8 * s.cfg.obCap := by omega
    obtain ⟨m₁, h₁, a₁, w₁⟩ := putList_room [b] hm hcap (by simp only [List.length_singleton]; omega)
    have hput : putBit b s = .done () (setWpos (s.wpos + 1) (setOb m₁ s)) := by
      simp only [putList, putBit_room hlt, done_andThen] at h₁
      rw [putBit_room hlt]
      exact h₁
    have hpos : (s.wpos + 1).toNat = s.wpos.toNat + 1 := by
      rw [BitVec.toNat_add]
      simp only [BitVec.ofNat_eq_ofNat, BitVec.toNat_ofNat, Nat.reducePow, Nat.one_mod]
      omega
    have hsub : (s.euf - 1).toNat = n := by
      rw [BitVec.toNat_sub]
      simp only [BitVec.ofNat_eq_ofNat, BitVec.toNat_ofNat, Nat.reducePow, Nat.one_mod]
      have := s.euf.isLt
      omega
    obtain ⟨m, h₂, a₂, w₂⟩ := ih (s := setEuf (s.euf - 1) (setWpos (s.wpos + 1) (setOb m₁ s)))
      hsub w₁ hcap (by simp only [setEuf_wpos, setWpos_wpos, setEuf_cfg, setWpos_cfg, setOb_cfg, hpos]
                       omega)
    refine ⟨m, ?_, ?_, w₂⟩
    · rw [drainPending, hput, done_andThen]
      simp only [setWpos_euf, setOb_euf]
      rw [h₂]
      have hw : s.wpos + 1 + BitVec.ofNat 32 n = s.wpos + BitVec.ofNat 32 (n + 1) := by
        rw [BitVec.add_assoc, BitVec.add_comm 1, BitVec.ofNat_add]
        rfl
      simp only [setWpos, setOb, setEuf, hw]
    · rw [setEuf_wpos, setWpos_wpos, hpos] at a₂
      simpa [List.replicate_succ] using a₁.append a₂

/-- Emitting a settled bit, with room: the bit and the pending opposite bits (`42_coder.md` R166). -/
theorem emitBit_room (b : Bool) {s : State} (hm : memoryWf s.ob = true)
    (hcap : s.cfg.obCap ≤ 2 ^ 20) (h : s.wpos.toNat + (s.euf.toNat + 1) ≤ 8 * s.cfg.obCap) :
    ∃ m, emitBit b s =
        .done () (setEuf 0 (setWpos (s.wpos + BitVec.ofNat 32 (s.euf.toNat + 1)) (setOb m s))) ∧
      AppendsBits s.ob m s.wpos.toNat (b :: List.replicate s.euf.toNat (!b)) ∧
      memoryWf m = true := by
  have hlt : s.wpos.toNat < 8 * s.cfg.obCap := by omega
  obtain ⟨m₁, h₁, a₁, w₁⟩ := putList_room [b] hm hcap (by simp only [List.length_singleton]; omega)
  have hput : putBit b s = .done () (setWpos (s.wpos + 1) (setOb m₁ s)) := by
    simp only [putList, putBit_room hlt, done_andThen] at h₁
    rw [putBit_room hlt]
    exact h₁
  have hpos : (s.wpos + 1).toNat = s.wpos.toNat + 1 := by
    rw [BitVec.toNat_add]
    simp only [BitVec.ofNat_eq_ofNat, BitVec.toNat_ofNat, Nat.reducePow, Nat.one_mod]
    omega
  obtain ⟨m, h₂, a₂, w₂⟩ := drainPending_room (!b) s.euf.toNat
    (s := setWpos (s.wpos + 1) (setOb m₁ s)) rfl w₁ hcap
    (by simp only [setWpos_wpos, setWpos_cfg, setOb_cfg, hpos]; omega)
  refine ⟨m, ?_, ?_, w₂⟩
  · rw [emitBit, hput, done_andThen]
    simp only [setWpos_euf, setOb_euf]
    rw [h₂]
    have hw : s.wpos + 1 + BitVec.ofNat 32 s.euf.toNat =
        s.wpos + BitVec.ofNat 32 (s.euf.toNat + 1) := by
      rw [BitVec.add_assoc, BitVec.add_comm 1, BitVec.ofNat_add]
      rfl
    simp only [setWpos, setOb, setEuf, hw]
  · rw [setWpos_wpos, hpos] at a₂
    simpa using a₁.append a₂

/-- The encoder's registers after a renormalisation on integers. -/
def setRenormed (r : Renormed) (m : Memory) (s : State) : State :=
  { s with
    elow := BitVec.ofNat 16 r.low, ehigh := BitVec.ofNat 16 r.high
    euf := BitVec.ofNat 32 r.pending
    ob := m, wpos := s.wpos + BitVec.ofNat 32 r.bits.length }

/-- EncRenorm is the loop on integers, and appends its bits (`42_coder.md` R165): with room and a
counter that does not overflow, from any registers with low at most high. -/
theorem encRenorm_room (n : Nat) {s : State} (hm : memoryWf s.ob = true)
    (hcap : s.cfg.obCap ≤ 2 ^ 20) (hle : s.elow.toNat ≤ s.ehigh.toNat)
    (huf : s.euf.toNat + n < 2 ^ 32)
    (h : s.wpos.toNat + (renormalise n s.elow.toNat s.ehigh.toNat s.euf.toNat).bits.length ≤
      8 * s.cfg.obCap) :
    ∃ m, encRenorm n s =
        .done () (setRenormed (renormalise n s.elow.toNat s.ehigh.toNat s.euf.toNat) m s) ∧
      AppendsBits s.ob m s.wpos.toNat
        (renormalise n s.elow.toNat s.ehigh.toNat s.euf.toNat).bits ∧ memoryWf m = true := by
  have stay : ∀ s : State, s = setRenormed ⟨s.elow.toNat, s.ehigh.toNat, s.euf.toNat, [], 0⟩ s.ob s :=
    fun s => by simp [setRenormed]
  induction n generalizing s with
  | zero =>
    refine ⟨s.ob, ?_, .nil _ _, hm⟩
    rw [encRenorm, renormalise, ← stay]
  | succ n ih =>
    have hl := s.elow.isLt
    have hh := s.ehigh.isLt
    have zero : (0 : Word).toNat = 0 := rfl
    -- a pass that emits
    have emits : ∀ (b : Bool) (low' high' : Nat), topsAgree s.elow s.ehigh = true →
        s.ehigh.getLsbD 15 = b → (shiftLow s.elow).toNat = low' → (shiftHigh s.ehigh).toNat = high' →
        low' ≤ high' → renormalise (n + 1) s.elow.toNat s.ehigh.toNat s.euf.toNat =
          (renormalise n low' high' 0).afterPass (b :: List.replicate s.euf.toNat (!b)) →
        ∃ m, encRenorm (n + 1) s =
            .done () (setRenormed (renormalise (n + 1) s.elow.toNat s.ehigh.toNat s.euf.toNat) m s) ∧
          AppendsBits s.ob m s.wpos.toNat
            (renormalise (n + 1) s.elow.toNat s.ehigh.toNat s.euf.toNat).bits ∧
          memoryWf m = true := by
      intro b low' high' htop hb hlow hhigh hle' hr
      rw [hr] at h ⊢
      simp only [Renormed.afterPass, List.length_append, List.length_cons,
        List.length_replicate] at h ⊢
      obtain ⟨m₁, h₁, a₁, w₁⟩ := emitBit_room b hm hcap (by omega)
      have hpos : (s.wpos + BitVec.ofNat 32 (s.euf.toNat + 1)).toNat =
          s.wpos.toNat + (s.euf.toNat + 1) := by
        rw [BitVec.toNat_add, BitVec.toNat_ofNat]
        omega
      obtain ⟨m, h₂, a₂, w₂⟩ := ih (s := shiftEnc (setEuf 0
          (setWpos (s.wpos + BitVec.ofNat 32 (s.euf.toNat + 1)) (setOb m₁ s)))) w₁ hcap
        (by simp only [shiftEnc, setEnc, setEuf, setWpos, setOb, hlow, hhigh]; exact hle')
        (by simp only [shiftEnc, setEnc, setEuf, setWpos, setOb, zero]; omega)
        (by simp only [shiftEnc, setEnc, setEuf, setWpos, setOb, hlow, hhigh, hpos, zero]; omega)
      refine ⟨m, ?_, ?_, w₂⟩
      · have hw : ∀ k, s.wpos + BitVec.ofNat 32 (s.euf.toNat + 1) + BitVec.ofNat 32 k =
            s.wpos + BitVec.ofNat 32 (s.euf.toNat + 1 + k) := fun k => by
          rw [BitVec.add_assoc, ← BitVec.ofNat_add]
        rw [encRenorm, if_pos htop, hb, h₁, done_andThen, h₂]
        simp only [setRenormed, shiftEnc, setEnc, setEuf, setWpos, setOb, hlow, hhigh, zero, hw,
          List.length_append, List.length_cons, List.length_replicate]
      · have ha : AppendsBits m₁ m (s.wpos.toNat + (b :: List.replicate s.euf.toNat (!b)).length)
            (renormalise n low' high' 0).bits := by
          simpa [shiftEnc, setEnc, setEuf, setWpos, setOb, hlow, hhigh, hpos, -BitVec.toNat_add] using a₂
        simpa using a₁.append ha
    by_cases htop : topsAgree s.elow s.ehigh = true
    · rcases (topsAgree_iff hle).mp htop with hlt | hge
      · refine emits false (2 * s.elow.toNat) (2 * s.ehigh.toNat + 1) htop
          (by rw [getLsbD_15]; simp; omega) ?_ ?_ (by omega) (by rw [renormalise, if_pos hlt]; rfl)
        · rw [shiftLow_toNat]; omega
        · rw [shiftHigh_toNat]; omega
      · refine emits true (2 * (s.elow.toNat - 0x8000)) (2 * (s.ehigh.toNat - 0x8000) + 1) htop
          (by rw [getLsbD_15]; simp; omega) ?_ ?_ (by omega)
          (by rw [renormalise, if_neg (by omega), if_pos hge]; rfl)
        · rw [shiftLow_toNat]; omega
        · rw [shiftHigh_toNat]; omega
    · have hsplit : s.elow.toNat < 0x8000 ∧ 0x8000 ≤ s.ehigh.toNat := by
        have := mt (topsAgree_iff hle).mpr htop
        omega
      by_cases he3 : isE3 s.elow s.ehigh = true
      · have hq := (isE3_iff hsplit.1 hsplit.2).mp he3
        have hr : renormalise (n + 1) s.elow.toNat s.ehigh.toNat s.euf.toNat =
            (renormalise n (2 * (s.elow.toNat - 0x4000)) (2 * (s.ehigh.toNat - 0x4000) + 1)
              (s.euf.toNat + 1)).afterPass [] := by
          rw [renormalise, if_neg (by omega), if_neg (by omega), if_pos hq]
        rw [hr] at h ⊢
        simp only [Renormed.afterPass, List.nil_append] at h ⊢
        have hlow : (shiftLow (e3Low s.elow)).toNat = 2 * (s.elow.toNat - 0x4000) := by
          rw [shiftLow_toNat, e3Low_toNat]; omega
        have hhigh : (shiftHigh (e3High s.ehigh)).toNat = 2 * (s.ehigh.toNat - 0x4000) + 1 := by
          rw [shiftHigh_toNat, e3High_toNat (by omega)]; omega
        have huf' : (s.euf + 1).toNat = s.euf.toNat + 1 := by
          rw [BitVec.toNat_add]
          simp only [BitVec.ofNat_eq_ofNat, BitVec.toNat_ofNat, Nat.reducePow, Nat.one_mod]
          omega
        have hdefer : deferBit s =
            .done () (setEnc (e3Low s.elow) (e3High s.ehigh) (setEuf (s.euf + 1) s)) := by
          simp only [deferBit, show decide (s.euf.toNat < 2 ^ 32 - 1) = true by simp; omega,
            demand_true, done_andThen]
        obtain ⟨m, h₂, a₂, w₂⟩ := ih
          (s := shiftEnc (setEnc (e3Low s.elow) (e3High s.ehigh) (setEuf (s.euf + 1) s))) hm hcap
          (by simp only [shiftEnc, setEnc, setEuf, hlow, hhigh]; omega)
          (by simp only [shiftEnc, setEnc, setEuf, huf']; omega)
          (by simpa only [shiftEnc, setEnc, setEuf, hlow, hhigh, huf'] using h)
        refine ⟨m, ?_, ?_, w₂⟩
        · rw [encRenorm, if_neg htop, if_pos he3, hdefer, done_andThen, h₂]
          simp only [setRenormed, shiftEnc, setEnc, setEuf, hlow, hhigh, huf']
        · simpa only [shiftEnc, setEnc, setEuf, hlow, hhigh, huf'] using a₂
      · have hq := mt (isE3_iff hsplit.1 hsplit.2).mpr he3
        have hr : renormalise (n + 1) s.elow.toNat s.ehigh.toNat s.euf.toNat =
            ⟨s.elow.toNat, s.ehigh.toNat, s.euf.toNat, [], 0⟩ := by
          rw [renormalise, if_neg (by omega), if_neg (by omega), if_neg hq]
        rw [hr]
        refine ⟨s.ob, ?_, .nil _ _, hm⟩
        rw [encRenorm, if_neg htop, if_neg he3, ← stay]

/-! ## The decoder's loop -/

/-- The interval and the passes do not depend on the deferred bits. -/
theorem renormalise_pending (n low high p q : Nat) :
    (renormalise n low high p).low = (renormalise n low high q).low ∧
      (renormalise n low high p).high = (renormalise n low high q).high ∧
      (renormalise n low high p).passes = (renormalise n low high q).passes := by
  induction n generalizing low high p q with
  | zero => exact ⟨rfl, rfl, rfl⟩
  | succ n ih =>
    simp only [renormalise]
    split
    · exact ⟨rfl, rfl, rfl⟩
    · split
      · exact ⟨rfl, rfl, rfl⟩
      · split
        · have := ih (2 * (low - 0x4000)) (2 * (high - 0x4000) + 1) (p + 1) (q + 1)
          exact ⟨this.1, this.2.1, congrArg (· + 1) this.2.2⟩
        · exact ⟨rfl, rfl, rfl⟩

theorem xor_bit14_toNat (v : Half) (hl : 0x4000 ≤ v.toNat) (hh : v.toNat < 0xC000) :
    2 * (v ^^^ 0x4000).toNat % 0x10000 = 2 * (v.toNat - 0x4000) := by
  have e : (v ^^^ 0x4000).toNat = v.toNat ^^^ 2 ^ 14 := BitVec.toNat_xor ..
  have h1 : (v.toNat ^^^ 2 ^ 14) / 2 ^ 14 = v.toNat / 2 ^ 14 ^^^ 1 := Nat.xor_div_two_pow
  have h2 : (v.toNat ^^^ 2 ^ 14) % 2 ^ 14 = v.toNat % 2 ^ 14 ^^^ 0 := Nat.xor_mod_two_pow
  rw [Nat.xor_zero] at h2
  rw [e]
  have hq : v.toNat / 2 ^ 14 = 1 ∨ v.toNat / 2 ^ 14 = 2 := by omega
  rcases hq with hq | hq <;> rw [hq] at h1
  · have h3 : (1 ^^^ 1 : Nat) = 0 := rfl
    omega
  · have h3 : (2 ^^^ 1 : Nat) = 3 := rfl
    omega

/-- The code register after it has taken a stream bit. -/
theorem shiftedCode_toNat (v : Half) (b : Bool) :
    (v <<< 1 ||| (BitVec.ofBool b).setWidth 16).toNat = 2 * v.toNat % 0x10000 + b.toNat := by
  have h : (v <<< 1).toNat = 2 * v.toNat % 0x10000 := shiftLow_toNat v
  cases b with
  | false => simpa using h
  | true =>
    rw [BitVec.toNat_or, h]
    exact or_one_toNat (by omega)

/-- The decoder's registers after a renormalisation on integers of their interval. -/
def setCarried (r : Renormed) (s : State) : State :=
  { s with
    dlow := BitVec.ofNat 16 r.low, dhigh := BitVec.ofNat 16 r.high
    dcode := BitVec.ofNat 16 (carriedCode s s.dlow.toNat r)
    rpos := s.rpos + BitVec.ofNat 32 r.passes }

theorem bitsValue_succ_front (m : Memory) (k n : Nat) :
    bitsValue m k (n + 1) = (streamBit m k).toNat * 2 ^ n + bitsValue m (k + 1) n := by
  rw [Nat.add_comm, bitsValue_add]
  simp [bitsValue]

/-- DecRenorm is the loop on integers, the code register keeping its place in the interval
(`42_coder.md` R176): with the bits it takes available, from a code inside the interval. -/
theorem decRenorm_room (n : Nat) {s : State} (hl : s.dlow.toNat ≤ s.dcode.toNat)
    (hh : s.dcode.toNat ≤ s.dhigh.toNat) (p : Nat)
    (h : s.rpos.toNat + (renormalise n s.dlow.toNat s.dhigh.toNat p).passes ≤ s.rlen.toNat) :
    decRenorm n s =
        .done () (setCarried (renormalise n s.dlow.toNat s.dhigh.toNat p) s) ∧
      carriedCode s s.dlow.toNat (renormalise n s.dlow.toNat s.dhigh.toNat p) ≤
        (renormalise n s.dlow.toNat s.dhigh.toNat p).high := by
  have stay : ∀ (s : State) (q : Nat), s.dlow.toNat ≤ s.dcode.toNat →
      carriedCode s s.dlow.toNat ⟨s.dlow.toNat, s.dhigh.toNat, q, [], 0⟩ = s.dcode.toNat :=
    fun s q hle => by simp only [carriedCode, bitsValue, Nat.pow_zero]; omega
  induction n generalizing s p with
  | zero =>
    simp only [renormalise, stay s p hl]
    exact ⟨by simp [decRenorm, setCarried, stay s p hl], hh⟩
  | succ n ih =>
    have hli := s.dlow.isLt
    have hhi := s.dhigh.isLt
    have hci := s.dcode.isLt
    -- one pass: the registers before the shift are those of `t`
    have pass : ∀ (t : State) (off q : Nat), t.ib = s.ib → t.rpos = s.rpos → t.rlen = s.rlen →
        off ≤ s.dlow.toNat →
        2 * t.dlow.toNat % 0x10000 = 2 * (s.dlow.toNat - off) →
        2 * t.dhigh.toNat % 0x10000 = 2 * (s.dhigh.toNat - off) →
        2 * t.dcode.toNat % 0x10000 = 2 * (s.dcode.toNat - off) →
        decRenorm (n + 1) s = (shiftDec t).andThen (fun _ s => decRenorm n s) →
        (∀ a b c d, setDec a b (setDcode c (setRpos d t)) = setDec a b (setDcode c (setRpos d s))) →
        ∀ bits, renormalise (n + 1) s.dlow.toNat s.dhigh.toNat p =
          (renormalise n (2 * (s.dlow.toNat - off)) (2 * (s.dhigh.toNat - off) + 1) q).afterPass bits →
        decRenorm (n + 1) s =
            .done () (setCarried (renormalise (n + 1) s.dlow.toNat s.dhigh.toNat p) s) ∧
          carriedCode s s.dlow.toNat (renormalise (n + 1) s.dlow.toNat s.dhigh.toNat p) ≤
            (renormalise (n + 1) s.dlow.toNat s.dhigh.toNat p).high := by
      intro t off q hib hrp hrl hoff hlow hhigh hcode hrun hframe bits hr
      rw [hr] at h ⊢
      simp only [Renormed.afterPass] at h ⊢
      have hrl' := s.rlen.isLt
      have hroom : t.rpos.toNat + 1 ≤ t.rlen.toNat := by rw [hrp, hrl]; omega
      have hpos : (t.rpos + 1).toNat = s.rpos.toNat + 1 := by
        rw [hrp, BitVec.toNat_add]
        simp only [BitVec.ofNat_eq_ofNat, BitVec.toNat_ofNat, Nat.reducePow, Nat.one_mod]
        omega
      have hbit := Bool.toNat_lt (streamBit s.ib s.rpos.toNat)
      have hshift : shiftDec t = .done () (setDcode
          (t.dcode <<< 1 ||| (BitVec.ofBool (streamBit s.ib s.rpos.toNat)).setWidth 16)
          (setRpos (t.rpos + 1) (setDec (shiftLow t.dlow) (shiftHigh t.dhigh) t))) := by
        rw [shiftDec, getBit_room (s := setDec (shiftLow t.dlow) (shiftHigh t.dhigh) t) hroom,
          done_andThen]
        simp only [setDec, setRpos, setDcode, hib, hrp]
      have hl' : (shiftLow t.dlow).toNat = 2 * (s.dlow.toNat - off) := by
        rw [shiftLow_toNat, hlow]
      have hh' : (shiftHigh t.dhigh).toNat = 2 * (s.dhigh.toNat - off) + 1 := by
        rw [shiftHigh_toNat, hhigh]
      have hc' : (t.dcode <<< 1 |||
          (BitVec.ofBool (streamBit s.ib s.rpos.toNat)).setWidth 16).toNat =
            2 * (s.dcode.toNat - off) + (streamBit s.ib s.rpos.toNat).toNat := by
        rw [shiftedCode_toNat, hcode]
      obtain ⟨h1, h2⟩ := ih (s := setDcode
          (t.dcode <<< 1 ||| (BitVec.ofBool (streamBit s.ib s.rpos.toNat)).setWidth 16)
          (setRpos (t.rpos + 1) (setDec (shiftLow t.dlow) (shiftHigh t.dhigh) t)))
        (by simp only [setDcode, setRpos, setDec, hl', hc']; omega)
        (by simp only [setDcode, setRpos, setDec, hh', hc']; omega) q
        (by simp only [setDcode, setRpos, setDec, hl', hh', hpos, hrl]; omega)
      have hcarry : ∀ r : Renormed, carriedCode (setDcode
          (t.dcode <<< 1 ||| (BitVec.ofBool (streamBit s.ib s.rpos.toNat)).setWidth 16)
          (setRpos (t.rpos + 1) (setDec (shiftLow t.dlow) (shiftHigh t.dhigh) t)))
          (2 * (s.dlow.toNat - off)) r =
            carriedCode s s.dlow.toNat { r with bits := bits ++ r.bits, passes := r.passes + 1 } := by
        intro r
        simp only [carriedCode, setDcode, setRpos, setDec, hc', hpos, hib, bitsValue_succ_front]
        rw [show 2 * (s.dcode.toNat - off) + (streamBit s.ib s.rpos.toNat).toNat -
          2 * (s.dlow.toNat - off) =
            2 * (s.dcode.toNat - s.dlow.toNat) + (streamBit s.ib s.rpos.toNat).toNat by omega]
        rw [Nat.pow_succ]
        ring
      simp only [setDcode, setRpos, setDec, hl', hh'] at h1 h2 hcarry
      refine ⟨?_, ?_⟩
      · rw [hrun, hshift, done_andThen]
        simp only [setDcode, setRpos, setDec]
        rw [h1]
        have hw : t.rpos + 1 + BitVec.ofNat 32
            (renormalise n (2 * (s.dlow.toNat - off)) (2 * (s.dhigh.toNat - off) + 1) q).passes =
            s.rpos + BitVec.ofNat 32
            ((renormalise n (2 * (s.dlow.toNat - off)) (2 * (s.dhigh.toNat - off) + 1) q).passes
              + 1) := by
          rw [hrp, BitVec.add_assoc, BitVec.add_comm 1, BitVec.ofNat_add]
          rfl
        have hf := hframe
        simp only [setDec, setDcode, setRpos] at hf
        simp only [setCarried, hl', hw]
        rw [hcarry]
        congr 1
        exact hf _ _ _ _
      · rw [← hcarry]
        exact h2
    by_cases htop : topsAgree s.dlow s.dhigh = true
    · have hrun : decRenorm (n + 1) s = (shiftDec s).andThen fun _ s => decRenorm n s := by
        rw [decRenorm, if_pos htop]
      rcases (topsAgree_iff (Nat.le_trans hl hh)).mp htop with hlt | hge
      · exact pass s 0 0 rfl rfl rfl (by omega) (by omega) (by omega) (by omega) hrun
          (fun _ _ _ _ => rfl) _ (by rw [renormalise, if_pos hlt]; rfl)
      · exact pass s 0x8000 0 rfl rfl rfl (by omega) (by omega) (by omega) (by omega) hrun
          (fun _ _ _ _ => rfl) _ (by rw [renormalise, if_neg (by omega), if_pos hge])
    · have hsplit : s.dlow.toNat < 0x8000 ∧ 0x8000 ≤ s.dhigh.toNat := by
        have := mt (topsAgree_iff (Nat.le_trans hl hh)).mpr htop
        omega
      by_cases he3 : isE3 s.dlow s.dhigh = true
      · have hq := (isE3_iff hsplit.1 hsplit.2).mp he3
        have hx := xor_bit14_toNat s.dcode (by omega) (by omega)
        refine pass (straddleDec s) 0x4000 (p + 1) rfl rfl rfl (by omega) ?_ ?_ hx
          (by rw [decRenorm, if_neg htop, if_pos he3]) (fun _ _ _ _ => rfl) []
          (by rw [renormalise, if_neg (by omega), if_neg (by omega), if_pos hq])
        · simp only [straddleDec, setDec, setDcode, e3Low_toNat]; omega
        · simp only [straddleDec, setDec, setDcode, e3High_toNat (show s.dhigh.toNat % 0x8000 < 0x4000 by
            omega)]
          omega
      · have hq := mt (isE3_iff hsplit.1 hsplit.2).mpr he3
        have hr : renormalise (n + 1) s.dlow.toNat s.dhigh.toNat p =
            ⟨s.dlow.toNat, s.dhigh.toNat, p, [], 0⟩ := by
          rw [renormalise, if_neg (by omega), if_neg (by omega), if_neg hq]
        rw [hr]
        simp only [stay s p hl]
        exact ⟨by simp [decRenorm, htop, he3, setCarried, stay s p hl], hh⟩

end Sys2Proof.Machine
end

