-- ==== Sys2Proof/Laws/Decode.lean ====
section
/-! SUPPORT. The fields of a command word written from its fields. -/

namespace Sys2Proof

/-- A word written from fields that fit has those fields (`30_encoding.md` R90). -/
theorem fieldsOf_wordOf {opc m f imm : Nat} (ho : opc < 256) (hm : m < 16) (hf : f < 16)
    (hi : imm < 65536) : fieldsOf (wordOf opc m f imm) = ⟨opc, m, f, imm⟩ := by
  have h : (wordOf opc m f imm).toNat = opc * 2 ^ 24 + m * 2 ^ 20 + f * 2 ^ 16 + imm := by
    rw [wordOf, BitVec.toNat_ofNat]
    exact Nat.mod_eq_of_lt (by omega)
  simp only [fieldsOf, h, Fields.mk.injEq]
  omega

/-- The word written from the fields of a word is that word. -/
theorem wordOf_fieldsOf (w : Word) :
    wordOf (fieldsOf w).opc (fieldsOf w).m (fieldsOf w).f (fieldsOf w).imm = w := by
  have hw := w.isLt
  apply BitVec.eq_of_toNat_eq
  simp only [wordOf, fieldsOf, BitVec.toNat_ofNat]
  omega

theorem flagBit_lt (b : Bool) : flagBit b < 16 := by cases b <;> decide

end Sys2Proof
end

