-- ==== Sys2Proof/Laws/PerInstr.lean ====
section
/-! SUPPORT. Facts about every command as syntax, one lemma per constructor. -/

namespace Sys2Proof.Laws

/-- The word of a well-formed command has the OPC of its row (`30_encoding.md` R90, R95). -/
def OpcodeField.Statement (i : Instr) : Prop :=
  i.WellFormed → (fieldsOf (encode i)).opc = i.opcode

theorem OpcodeField.of_fields {i : Instr} {opc m f imm : Nat} (he : encode i = wordOf opc m f imm)
    (ho : opc = i.opcode) (h : opc < 256) (hm : m < 16) (hf : f < 16)
    (hi : i.WellFormed → imm < 65536) : OpcodeField.Statement i := by
  intro hw
  rw [he, fieldsOf_wordOf h hm hf (hi hw), ho]

theorem OpcodeField.nop : OpcodeField.Statement .nop :=
  of_fields rfl rfl (by decide) (by decide) (by decide) fun _ => by decide

theorem OpcodeField.reset : OpcodeField.Statement .reset :=
  of_fields rfl rfl (by decide) (by decide) (by decide) fun _ => by decide

theorem OpcodeField.clrw : OpcodeField.Statement .clrw :=
  of_fields rfl rfl (by decide) (by decide) (by decide) fun _ => by decide

theorem OpcodeField.bwInit (flag : Bool) : OpcodeField.Statement (.bwInit flag) :=
  of_fields rfl rfl (by decide) (by decide) (flagBit_lt flag) fun _ => by decide

theorem OpcodeField.bwPut (n : Nat) : OpcodeField.Statement (.bwPut n) :=
  of_fields rfl rfl (by decide) (by decide) (by decide) fun h => by
    have : n < 64 := of_decide_eq_true h
    omega

theorem OpcodeField.bwFlush : OpcodeField.Statement .bwFlush :=
  of_fields rfl rfl (by decide) (by decide) (by decide) fun _ => by decide

theorem OpcodeField.brInit : OpcodeField.Statement .brInit :=
  of_fields rfl rfl (by decide) (by decide) (by decide) fun _ => by decide

theorem OpcodeField.brGet (n : Nat) : OpcodeField.Statement (.brGet n) :=
  of_fields rfl rfl (by decide) (by decide) (by decide) fun h => by
    have : n < 64 := of_decide_eq_true h
    omega

theorem OpcodeField.brPeek (n : Nat) : OpcodeField.Statement (.brPeek n) :=
  of_fields rfl rfl (by decide) (by decide) (by decide) fun h => by
    have : n < 64 := of_decide_eq_true h
    omega

theorem OpcodeField.brSkip (n : Nat) : OpcodeField.Statement (.brSkip n) :=
  of_fields rfl rfl (by decide) (by decide) (by decide) fun h => by
    have : n < 64 := of_decide_eq_true h
    omega

theorem OpcodeField.mdlInit (m : Fin 16) (bits : Nat) : OpcodeField.Statement (.mdlInit m bits) :=
  of_fields rfl rfl (by decide) m.isLt (by decide) fun h => by
    have : bits < 16 := of_decide_eq_true h
    omega

theorem OpcodeField.mdlInitStd : OpcodeField.Statement .mdlInitStd :=
  of_fields rfl rfl (by decide) (by decide) (by decide) fun _ => by decide

theorem OpcodeField.mdlUpd (m : Fin 16) (s : Nat) : OpcodeField.Statement (.mdlUpd m s) :=
  of_fields rfl rfl (by decide) m.isLt (by decide) of_decide_eq_true

theorem OpcodeField.mdlI2s (m : Fin 16) (s : Nat) : OpcodeField.Statement (.mdlI2s m s) :=
  of_fields rfl rfl (by decide) m.isLt (by decide) of_decide_eq_true

theorem OpcodeField.mdlS2i (m : Fin 16) : OpcodeField.Statement (.mdlS2i m) :=
  of_fields rfl rfl (by decide) m.isLt (by decide) fun _ => by decide

theorem OpcodeField.mdlScale (m : Fin 16) : OpcodeField.Statement (.mdlScale m) :=
  of_fields rfl rfl (by decide) m.isLt (by decide) fun _ => by decide

theorem OpcodeField.acEncInit : OpcodeField.Statement .acEncInit :=
  of_fields rfl rfl (by decide) (by decide) (by decide) fun _ => by decide

theorem OpcodeField.acEnc : OpcodeField.Statement .acEnc :=
  of_fields rfl rfl (by decide) (by decide) (by decide) fun _ => by decide

theorem OpcodeField.acEncFlush : OpcodeField.Statement .acEncFlush :=
  of_fields rfl rfl (by decide) (by decide) (by decide) fun _ => by decide

theorem OpcodeField.acDecInit : OpcodeField.Statement .acDecInit :=
  of_fields rfl rfl (by decide) (by decide) (by decide) fun _ => by decide

theorem OpcodeField.acDecCnt : OpcodeField.Statement .acDecCnt :=
  of_fields rfl rfl (by decide) (by decide) (by decide) fun _ => by decide

theorem OpcodeField.acDecRm : OpcodeField.Statement .acDecRm :=
  of_fields rfl rfl (by decide) (by decide) (by decide) fun _ => by decide

theorem OpcodeField.symEnc (m : Fin 16) (s : Nat) : OpcodeField.Statement (.symEnc m s) :=
  of_fields rfl rfl (by decide) m.isLt (by decide) of_decide_eq_true

theorem OpcodeField.symDec (m : Fin 16) : OpcodeField.Statement (.symDec m) :=
  of_fields rfl rfl (by decide) m.isLt (by decide) fun _ => by decide

theorem OpcodeField.blkLoad (flag : Bool) : OpcodeField.Statement (.blkLoad flag) :=
  of_fields rfl rfl (by decide) (by decide) (flagBit_lt flag) fun _ => by decide

theorem OpcodeField.blkFdct : OpcodeField.Statement .blkFdct :=
  of_fields rfl rfl (by decide) (by decide) (by decide) fun _ => by decide

theorem OpcodeField.blkQuant (flag : Bool) : OpcodeField.Statement (.blkQuant flag) :=
  of_fields rfl rfl (by decide) (by decide) (flagBit_lt flag) fun _ => by decide

theorem OpcodeField.blkLast : OpcodeField.Statement .blkLast :=
  of_fields rfl rfl (by decide) (by decide) (by decide) fun _ => by decide

theorem OpcodeField.blkMidx : OpcodeField.Statement .blkMidx :=
  of_fields rfl rfl (by decide) (by decide) (by decide) fun _ => by decide

theorem OpcodeField.blkEnc : OpcodeField.Statement .blkEnc :=
  of_fields rfl rfl (by decide) (by decide) (by decide) fun _ => by decide

theorem OpcodeField.blkDec : OpcodeField.Statement .blkDec :=
  of_fields rfl rfl (by decide) (by decide) (by decide) fun _ => by decide

theorem OpcodeField.blkDeq (flag : Bool) : OpcodeField.Statement (.blkDeq flag) :=
  of_fields rfl rfl (by decide) (by decide) (flagBit_lt flag) fun _ => by decide

theorem OpcodeField.blkIdct : OpcodeField.Statement .blkIdct :=
  of_fields rfl rfl (by decide) (by decide) (by decide) fun _ => by decide

theorem OpcodeField.blkRecon (flag : Bool) : OpcodeField.Statement (.blkRecon flag) :=
  of_fields rfl rfl (by decide) (by decide) (flagBit_lt flag) fun _ => by decide

theorem OpcodeField.rleEnc : OpcodeField.Statement .rleEnc :=
  of_fields rfl rfl (by decide) (by decide) (by decide) fun _ => by decide

theorem OpcodeField.rleDec : OpcodeField.Statement .rleDec :=
  of_fields rfl rfl (by decide) (by decide) (by decide) fun _ => by decide

end Sys2Proof.Laws
end

