-- ==== Sys2Proof/Laws/Transform.lean ====
section
/-! SUPPORT. What a transform pair other than the reference one can give (`43_block.md` R203, R207). -/

namespace Sys2Proof.Machine

theorem constantInputs_iff {v : Vector Int 64} :
    constantInputs v = true ↔ ∀ p : Fin 64, v[p] = v[0] := by
  simp [constantInputs]

/-- Zero outside index 0 for a constant block, the free function of the inputs elsewhere. -/
theorem otherForward_eq (id : Nat) (v : Vector Int 64) (p : Nat) :
    otherForward id v p =
      if (∀ q : Fin 64, v[q] = v[0]) ∧ p ≠ 0 then 0 else Config.otherFdct id v p := by
  simp [otherForward, constantInputs]

end Sys2Proof.Machine
end

