-- ==== Sys2Proof/Tests/Slice0.lean ====
section
/-! SUPPORT. Tests of this model: ill-formed commands, the words of the opcode map, one step each of
the commands on small states with results taken from spec/, and for every statement with premises a
state and operands that meet them. -/

namespace Sys2Proof.Tests

set_option Elab.async false

open Sys2Proof Sys2Proof.Machine

/-! ## Ill-formed commands are refused by the check (`30_encoding.md` R90, R92) -/

theorem test_bwPut_wide_count : ¬(Instr.bwPut 64).WellFormed := by decide

theorem test_brGet_wide_count : ¬(Instr.brGet 64).WellFormed := by decide

theorem test_brPeek_wide_count : ¬(Instr.brPeek 64).WellFormed := by decide

theorem test_brSkip_wide_count : ¬(Instr.brSkip 64).WellFormed := by decide

theorem test_mdlInit_wide_width : ¬(Instr.mdlInit 0 16).WellFormed := by decide

theorem test_mdlUpd_wide_symbol : ¬(Instr.mdlUpd 0 65536).WellFormed := by decide

theorem test_mdlI2s_wide_symbol : ¬(Instr.mdlI2s 0 65536).WellFormed := by decide

theorem test_symEnc_wide_symbol : ¬(Instr.symEnc 0 65536).WellFormed := by decide

/-! ## The words of the opcode map (`30_encoding.md` R95; OPC 31:24, M 23:20, F 19:16, IMM 15:0) -/

theorem test_decode_system :
    decodeTableWord 32 0x00000000 = some .nop ∧ decodeTableWord 32 0x01000000 = some .reset ∧
    decodeTableWord 32 0x02000000 = some .clrw := by decide

theorem test_decode_writer :
    decodeTableWord 32 0x10000000 = some (.bwInit false) ∧
    decodeTableWord 32 0x10010000 = some (.bwInit true) ∧
    decodeTableWord 32 0x11000020 = some (.bwPut 32) ∧
    decodeTableWord 32 0x12000000 = some .bwFlush := by decide

theorem test_decode_reader :
    decodeTableWord 32 0x18000000 = some .brInit ∧
    decodeTableWord 32 0x1900000C = some (.brGet 12) ∧
    decodeTableWord 32 0x1A000008 = some (.brPeek 8) ∧
    decodeTableWord 32 0x1B00003F = some (.brSkip 63) := by decide

theorem test_decode_model :
    decodeTableWord 32 0x20C00002 = some (.mdlInit 12 2) ∧
    decodeTableWord 32 0x21000000 = some .mdlInitStd ∧
    decodeTableWord 32 0x22C0FFFF = some (.mdlUpd 12 65535) ∧
    decodeTableWord 32 0x23300002 = some (.mdlI2s 3 2) ∧
    decodeTableWord 32 0x24C00000 = some (.mdlS2i 12) ∧
    decodeTableWord 32 0x25F00000 = some (.mdlScale 15) := by decide

theorem test_decode_coder :
    decodeTableWord 32 0x30000000 = some .acEncInit ∧ decodeTableWord 32 0x31000000 = some .acEnc ∧
    decodeTableWord 32 0x32000000 = some .acEncFlush ∧
    decodeTableWord 32 0x38000000 = some .acDecInit ∧
    decodeTableWord 32 0x39000000 = some .acDecCnt ∧ decodeTableWord 32 0x3A000000 = some .acDecRm ∧
    decodeTableWord 32 0x3CC00001 = some (.symEnc 12 1) ∧
    decodeTableWord 32 0x3DC00000 = some (.symDec 12) := by decide

theorem test_decode_block :
    decodeTableWord 32 0x40010000 = some (.blkLoad true) ∧
    decodeTableWord 32 0x41000000 = some .blkFdct ∧
    decodeTableWord 32 0x42000000 = some (.blkQuant false) ∧
    decodeTableWord 32 0x43000000 = some .blkLast ∧ decodeTableWord 32 0x44000000 = some .blkMidx ∧
    decodeTableWord 32 0x45000000 = some .blkEnc ∧ decodeTableWord 32 0x48000000 = some .blkDec ∧
    decodeTableWord 32 0x49010000 = some (.blkDeq true) ∧
    decodeTableWord 32 0x4A000000 = some .blkIdct ∧
    decodeTableWord 32 0x4B000000 = some (.blkRecon false) := by decide

theorem test_decode_rle :
    decodeTableWord 32 0x50000000 = some .rleEnc ∧ decodeTableWord 32 0x51000000 = some .rleDec := by
  decide

/-- Words of `95_test_vectors.md` V-ENC-2 to V-ENC-13 that are no command. -/
theorem test_decode_illegal :
    decode 0x00000001 = .error .mustBeZero ∧ decode 0x10020000 = .error .mustBeZero ∧
    decode 0x11000040 = .error .mustBeZero ∧ decode 0x20C00012 = .error .mustBeZero ∧
    decode 0x22C10001 = .error .mustBeZero ∧ decode 0x3D0C0001 = .error .mustBeZero ∧
    decode 0x40020000 = .error .mustBeZero ∧ decode 0x01000001 = .error .mustBeZero ∧
    decode 0x50000001 = .error .mustBeZero ∧ decode 0x7F000000 = .error .noSuchOpcode ∧
    decodeFor false 0x50000000 = .error .unitAbsent := by decide

/-! ## Helpers -/

/-- The outcome is a next state, which passes the check. -/
def nextMeets (o : Host.Outcome State Fault Refusal) (check : State → Bool) : Bool :=
  match o with
  | .next t => check t
  | .fault _ => false
  | .refused _ => false

/-- The next state of a command. -/
def after (i : Instr) (s : State) : State :=
  match exec i s with
  | .next t => t
  | .fault _ => s
  | .refused _ => s

theorem exec_after {i : Instr} {s : State} (h : nextMeets (exec i s) (fun _ => true) = true) :
    exec i s = .next (after i s) := by
  unfold after
  revert h
  cases exec i s with
  | next t => exact fun _ => rfl
  | fault f => exact fun h => by simp [nextMeets] at h
  | refused r => exact fun h => by simp [nextMeets] at h

/-- The listed registers of the fault unit: STATUS, FCODE, FINFO, CMDCNT. -/
def faultRegs (s : State) : Nat × Nat × Nat × Nat :=
  (s.status.toNat, s.fcode.toNat, s.finfo.toNat, s.cmdcnt.toNat)

/-- The symbol latch. -/
def latch (s : State) : Nat × Nat × Nat := (s.symLow.toNat, s.symHigh.toNat, s.symScale.toNat)

/-- ELOW, EHIGH, EUF, WPOS. -/
def encoderRegs (s : State) : Nat × Nat × Nat × Nat :=
  (s.elow.toNat, s.ehigh.toNat, s.euf.toNat, s.wpos.toNat)

/-- DLOW, DHIGH, DCODE, RPOS. -/
def decoderRegs (s : State) : Nat × Nat × Nat × Nat :=
  (s.dlow.toNat, s.dhigh.toNat, s.dcode.toNat, s.rpos.toNat)

/-- An open bit writer. -/
def writer : State := { State.reset with status := 0x002 }

/-- An open encoder segment. -/
def encoder : State := { State.reset with status := 0x012 }

/-- An open encoder segment with a triple in the latch. -/
def encoderWith (low high scale : Half) : State :=
  { encoder with symLow := low, symHigh := high, symScale := scale }

/-- An open reader of the four bytes 92 E0 00 00. -/
def reader : State :=
  { State.reset with status := 0x008, ib := [(0, 0x92), (1, 0xE0)], rlen := 32 }

/-- The decoder after AC_DEC_INIT on those bytes. -/
def decoder : State := { reader with status := 0x028, rpos := 16, dcode := 0x92E0 }

/-- A decoder of any code with the standard contexts, on bytes that follow the code. -/
def blockDecoder (code : Half) (bytes : List Host.Cell) (rlen : Word) : State :=
  initCtxs stdBits
    { State.reset with status := 0x028, rpos := 16, dcode := code, ib := bytes, rlen := rlen }

/-- An encoder with the standard contexts and ZZ. -/
def blockEncoder (zz : Block 16) : State := initCtxs stdBits { encoder with zz := zz }

/-- A block memory with the given first elements and zero after them. -/
def block (w : Nat) (first : List Int) : Block w :=
  Vector.ofFn fun i => BitVec.ofInt w (first.getD i.val 0)

/-- The elements of a block memory from `a` on, signed. -/
def elements {w : Nat} (b : Block w) (a n : Nat) : List Int :=
  (List.range n).map fun i => (b.get (Fin.ofNat 64 (a + i))).toInt

/-- The logical entries `-1` to `n - 2` of a table. -/
def entries (s : State) (m : Fin 16) (n : Nat) : List Nat :=
  (List.range n).map fun e => (tableElem (ctxTable s m) e).toNat

/-! ## One step of each command -/

/-- V-SYS-2. -/
theorem test_nop : nextMeets (exec .nop { State.reset with cmdcnt := 7 })
    (fun t => faultRegs t == (0, 0, 0, 8)) = true := by decide

/-- `60_exceptions.md` R288. -/
theorem test_nop_ignored : nextMeets (exec .nop { State.reset with status := 1, fcode := 2 })
    (fun t => faultRegs t == (1, 2, 0, 0)) = true := by decide

/-- V-SYS-5. -/
theorem test_reset : nextMeets
    (exec .reset { encoder with status := 0x13, fcode := 3, elow := 4, ob := [(0, 6)], cmdcnt := 9 })
    (fun t => faultRegs t == (0, 0, 0, 0) && encoderRegs t == (0, 0xFFFF, 0, 0) &&
      readByte t.ob 0 == 6) = true := by decide

/-- V-SYS-3. -/
theorem test_clrw : nextMeets (exec .clrw { State.reset with status := 0x112 })
    (fun t => t.status == 0x012) = true := by decide

/-- V-ENC-5. -/
theorem test_bwInit : nextMeets (step (State.reset.withFetchWord 32 0x10010000))
    (fun t => faultRegs t == (6, 0, 0, 1) && t.wpos == 32) = true := by decide

/-- V-BIO-8. -/
theorem test_bwInit_full : nextMeets
    (exec (.bwInit true) { State.reset with cfg := { defaultConfig with obCap := 3 } })
    (fun t => faultRegs t == (1, 7, 0, 0)) = true := by decide

/-- V-BIO-1: after `101`, the 32 bits of 0xDEADBEEF. -/
theorem test_bwPut : nextMeets
    (exec (.bwPut 32) { writer with ob := [(0, 0xA0)], wpos := 3, arg0 := 0xDEADBEEF })
    (fun t => bytesAt t.ob 0 5 == [0xBB, 0xD5, 0xB7, 0xDD, 0xE0] && t.wpos == 35) = true := by
  decide +kernel

/-- V-BIO-5. -/
theorem test_bwPut_count : nextMeets (exec (.bwPut 33) { writer with cmdcnt := 1 })
    (fun t => faultRegs t == (3, 3, 0x21, 1)) = true := by decide

/-- V-BIO-4: the header holds the payload count 1. -/
theorem test_bwFlush : nextMeets
    (exec .bwFlush { State.reset with status := 6, wpos := 35, ob := [(4, 0xA0)] })
    (fun t => bytesAt t.ob 0 5 == [1, 0, 0, 0, 0xA0] && t.wpos == 40 && t.ret0 == 5 &&
      t.ret1 == 1 && t.status == 0) = true := by decide +kernel

/-- V-BIO-11. -/
theorem test_bwFlush_segment : nextMeets (exec .bwFlush { encoder with cmdcnt := 2 })
    (fun t => faultRegs t == (0x013, 2, 0x12, 2)) = true := by decide

/-- V-BIO-17: BR_INIT closes an open decoder segment. -/
theorem test_brInit : nextMeets
    (exec .brInit { State.reset with status := 0x028, arg0 := 32, arg1 := 80 })
    (fun t => t.status == 0x008 && t.rpos == 32 && t.rlen == 112) = true := by decide

/-- V-BIO-15. -/
theorem test_brInit_beyond : nextMeets (exec .brInit { State.reset with arg0 := 524281, arg1 := 8 })
    (fun t => faultRegs t == (1, 3, 8, 0)) = true := by decide

/-- The bytes of V-BIO-12, with the reader at bit 4. -/
def bytesReader : State :=
  { State.reset with
    status := 0x008, rpos := 4, rlen := 40
    ib := [(0, 0xDE), (1, 0xAD), (2, 0xBE), (3, 0xEF), (4, 0x12)] }

/-- V-BIO-12. -/
theorem test_brGet : nextMeets (exec (.brGet 32) bytesReader)
    (fun t => t.ret0 == 0xEADBEEF1 && t.rpos == 36) = true := by decide +kernel

/-- V-BIO-12. -/
theorem test_brGet_overrun : nextMeets (exec (.brGet 1) { bytesReader with rpos := 40, cmdcnt := 5 })
    (fun t => faultRegs t == (9, 8, 40, 5) && t.rpos == 40) = true := by decide

/-- V-BIO-12. -/
theorem test_brPeek : nextMeets (exec (.brPeek 4) { bytesReader with rpos := 36 })
    (fun t => t.ret0 == 2 && t.rpos == 36) = true := by decide

/-- V-BIO-12. -/
theorem test_brSkip : nextMeets (exec (.brSkip 4) { bytesReader with rpos := 36 })
    (fun t => t.ret0 == 0 && t.rpos == 40) = true := by decide

/-- V-ENC-15. -/
theorem test_mdlInit : nextMeets (exec (.mdlInit 12 2) State.reset)
    (fun t => entries t 12 6 == [0, 1, 2, 3, 4, 5] && ctxBits t 12 == 2) = true := by decide +kernel

/-- V-MDL-2. -/
theorem test_mdlInit_width : nextMeets (exec (.mdlInit 12 12) State.reset)
    (fun t => faultRegs t == (1, 3, 12, 0) && ctxBits t 12 == 0) = true := by decide

/-- V-MDL-12. -/
theorem test_mdlInitStd : nextMeets (exec .mdlInitStd State.reset)
    (fun t => t.mbits.toList.map BitVec.toNat ==
        [3, 4, 5, 6, 7, 8, 9, 10, 11, 11, 6, 4, 0, 0, 0, 0] &&
      ctxCount t 10 64 == 65 && ctxCount t 9 2048 == 2049 && ctxCount t 11 16 == 17) = true := by
  decide +kernel

/-- A context 12 of width 2 with the given counts. -/
def withCounts (counts : List Nat) (s : State) : State :=
  setTable 12 (tableOf fun e => BitVec.ofNat 16 (counts.getD e 0)) (setMbits 12 2 s)

/-- V-MDL-4. -/
theorem test_mdlUpd : nextMeets (exec (.mdlUpd 12 1) (withCounts [0, 1, 3, 5, 6, 8] State.reset))
    (fun t => entries t 12 6 == [0, 1, 3, 6, 7, 9]) = true := by decide +kernel

/-- V-MDL-6: the update that rescales. -/
theorem test_mdlUpd_rescale : nextMeets
    (exec (.mdlUpd 12 0) (withCounts [0, 1, 16379, 16380, 16381, 16382] State.reset))
    (fun t => entries t 12 6 == [0, 1, 8190, 8191, 8192, 8193]) = true := by decide +kernel

/-- V-MDL-8. -/
theorem test_mdlI2s : nextMeets (exec (.mdlI2s 12 2) (withCounts [0, 1, 3, 7, 8, 10] State.reset))
    (fun t => latch t == (7, 8, 10)) = true := by decide +kernel

/-- V-MDL-9. -/
theorem test_mdlS2i : nextMeets
    (exec (.mdlS2i 12) { withCounts [0, 1, 3, 7, 8, 10] State.reset with cnt := 6 })
    (fun t => t.ret0 == 1 && latch t == (3, 7, 10)) = true := by decide +kernel

/-- V-MDL-9: no symbol owns the count 0. -/
theorem test_mdlS2i_bad : nextMeets
    (exec (.mdlS2i 12) (withCounts [0, 1, 3, 7, 8, 10] State.reset))
    (fun t => faultRegs t == (1, 9, 0, 0)) = true := by decide +kernel

/-- V-MDL-8. -/
theorem test_mdlScale : nextMeets (exec (.mdlScale 12) (withCounts [0, 1, 3, 7, 8, 10] State.reset))
    (fun t => t.ret0 == 10 && latch t == (0, 0, 10)) = true := by decide +kernel

/-- V-COD-1, before the triples. -/
theorem test_acEncInit : nextMeets (exec .acEncInit { writer with elow := 5, euf := 2 })
    (fun t => encoderRegs t == (0, 0xFFFF, 0, 0) && t.status == 0x012) = true := by decide

/-- V-COD-4, the second AC_ENC: the settled bit leaves with its thirteen deferred opposites. -/
theorem test_acEnc : nextMeets
    (exec .acEnc { encoderWith 8191 8192 16383 with elow := 0x2000, ehigh := 0xBFFF, euf := 13 })
    (fun t => encoderRegs t == (0, 0xBFFF, 11, 16)) = true := by decide +kernel

/-- V-COD-6. -/
theorem test_acEnc_bad_triple : nextMeets (exec .acEnc { encoderWith 2 6 5 with cmdcnt := 2 })
    (fun t => faultRegs t == (0x013, 6, 0x00060002, 2)) = true := by decide

/-- V-COD-10. -/
theorem test_acEncFlush : nextMeets (exec .acEncFlush encoder)
    (fun t => bytesAt t.ob 0 2 == [0x40, 0x00] && t.wpos == 16 && t.status == 0x002) = true := by
  decide +kernel

/-- V-COD-7, before the counts. -/
theorem test_acDecInit : nextMeets (exec .acDecInit reader)
    (fun t => decoderRegs t == (0, 0xFFFF, 0x92E0, 16) && t.status == 0x028) = true := by
  decide +kernel

/-- V-COD-7. -/
theorem test_acDecCnt : nextMeets (exec .acDecCnt { decoder with symScale := 5 })
    (fun t => t.cnt == 2 && t.ret0 == 2) = true := by decide

/-- V-COD-5, the first AC_DEC_RM. -/
theorem test_acDecRm : nextMeets
    (exec .acDecRm { decoder with
      symLow := 8191, symHigh := 8192, symScale := 16383, dcode := 0x7FFF, rlen := 72
      ib := [(0, 0x7F), (1, 0xFF), (2, 0x7F), (3, 0xFB), (4, 0xFF), (5, 0xEF), (6, 0xFF),
        (7, 0x80)] })
    (fun t => decoderRegs t == (0x2000, 0xBFFF, 0x6FFF, 29)) = true := by decide +kernel

/-- V-COD-8. -/
theorem test_acDecRm_desync : nextMeets
    (exec .acDecRm { decoder with symLow := 0, symHigh := 1, symScale := 5 })
    (fun t => faultRegs t == (0x029, 0x0A, 0x92E0, 0) && t.rpos == 16) = true := by decide

/-- P1, the first SYM_ENC: the symbol 1 of a fresh 2-bit context (`42_coder.md` R184). -/
theorem test_symEnc : nextMeets (exec (.symEnc 12 1) (initCtx 12 2 encoder))
    (fun t => encoderRegs t == (0x1998, 0xE663, 2, 0) && latch t == (2, 3, 5) &&
      entries t 12 6 == [0, 1, 2, 4, 5, 6]) = true := by decide +kernel

/-- P4, step 12. -/
theorem test_symEnc_symbol : nextMeets (exec (.symEnc 12 4) (initCtx 12 2 encoder))
    (fun t => faultRegs t == (0x013, 3, 4, 0) && t.wpos == 0) = true := by decide +kernel

/-- P1, the first SYM_DEC. -/
theorem test_symDec : nextMeets (exec (.symDec 12) (initCtx 12 2 decoder))
    (fun t => t.ret0 == 1 && t.cnt == 2 && latch t == (2, 3, 5) &&
      entries t 12 6 == [0, 1, 2, 4, 5, 6]) = true := by decide +kernel

/-- V-COD-18: DLOW and DHIGH of the pass are shifted, DCODE is not. -/
theorem test_symDec_truncated : nextMeets
    (exec (.symDec 12) { initCtx 12 2 decoder with rlen := 17, cmdcnt := 3 })
    (fun t => decoderRegs t == (0x1998, 0xE663, 0xE5C0, 17) && faultRegs t == (0x029, 8, 17, 3)) =
      true := by decide +kernel

/-- P6, step 4. -/
theorem test_blkLoad : nextMeets
    (exec (.blkLoad true) { State.reset with pix := block 8 [106, 94], ref := block 8 [100, 100] })
    (fun t => elements t.coef 0 3 == [6, -6, 0]) = true := by decide +kernel

/-- V-BLK-1: the step edge between columns 3 and 4. -/
theorem test_blkFdct : nextMeets
    (exec .blkFdct { State.reset with
      coef := Vector.ofFn fun p => if p.val % 8 < 4 then 255 else 0 })
    (fun t => elements t.coef 0 8 == [1020, 924, 0, -325, 0, 217, 0, -184]) = true := by
  decide +kernel

/-- V-BLK-3b: the matrix is indexed by raster position, the result stored by scan index. -/
theorem test_blkQuant : nextMeets
    (exec (.blkQuant false) { State.reset with
      qf0 := block 16 [8192, 16384, 0, 0, 0, 0, 0, 0, 4096]
      coef := block 32 [100, 100, 0, 0, 0, 0, 0, 0, 100, 100] })
    (fun t => elements t.zz 0 4 == [13, 25, 6, 0] && t.status == 0) = true := by decide +kernel

/-- V-BLK-3: -8189 is clipped, 8187 is not. -/
theorem test_blkQuant_clip : nextMeets
    (exec (.blkQuant false) { State.reset with
      qf0 := block 16 [8192, 8192], coef := block 32 [8187, -8189] })
    (fun t => elements t.zz 0 2 == [1023, -1023] && t.status == 0x100) = true := by decide +kernel

/-- V-BLK-4. -/
theorem test_blkLast : nextMeets (exec .blkLast { State.reset with zz := block 16 [0, 0, 0, 0, 0, 8] })
    (fun t => t.ret0 == 5) = true := by decide +kernel

/-- V-BLK-4. -/
theorem test_blkMidx : nextMeets (exec .blkMidx { State.reset with zz := block 16 [0, 0, -511] })
    (fun t => t.ret0 == 7 && t.ret1 == 511) = true := by decide +kernel

/-- V-BLK-4. -/
theorem test_blkMidx_range : nextMeets
    (exec .blkMidx { State.reset with zz := block 16 [0, 0, 0, 0, 0, -1024] })
    (fun t => faultRegs t == (1, 0x0C, 0x400, 0)) = true := by decide +kernel

/-- V-BLK-7. -/
theorem test_blkEnc : nextMeets (exec .blkEnc (blockEncoder (block 16 [12, -3, 2, 0, 1])))
    (fun t => t.ret0 == 4 && t.ret1 == 2 && latch t == (19, 20, 36) &&
      encoderRegs t == (0x2E00, 0xDFFF, 1, 40) &&
      bytesAt t.ob 0 5 == [0x14, 0x80, 0xDC, 0x15, 0xAF]) = true := by decide +kernel

/-- V-BLK-10. -/
theorem test_blkEnc_range : nextMeets (exec .blkEnc (blockEncoder (block 16 [0, -1024])))
    (fun t => faultRegs t == (0x013, 0x0C, 0x400, 0) && t.wpos == 0) = true := by decide +kernel

/-- The stream of V-BLK-7, behind the 16 bits of AC_DEC_INIT. -/
def goodBlock : State :=
  blockDecoder 0x1480
    [(0, 0x14), (1, 0x80), (2, 0xDC), (3, 0x15), (4, 0xAF), (5, 0x60)] 64

/-- V-BLK-7b. -/
theorem test_blkDec : nextMeets (exec .blkDec goodBlock)
    (fun t => t.ret0 == 4 && t.ret1 == 2 && elements t.zz 0 6 == [12, -3, 2, 0, 1, 0] &&
      decoderRegs t == (0x2E00, 0xDFFF, 0x4000, 57)) = true := by decide +kernel

/-- The stream of V-BLK-13: a bucket of 9. -/
def badBucket : State := blockDecoder 0x0A40 [(0, 0x0A), (1, 0x40)] 32

/-- V-BLK-6. -/
theorem test_blkDeq : nextMeets
    (exec (.blkDeq true) { State.reset with
      qi1 := block 16 [16, 32, 48, 7], zz := block 16 [5, -5, 5, -5] })
    (fun t => elements t.coef 0 2 == [40, -10] && elements t.coef 8 1 == [15] &&
      elements t.coef 16 1 == [-3]) = true := by decide +kernel

/-- V-BLK-2. -/
theorem test_blkIdct : nextMeets (exec .blkIdct { State.reset with coef := block 32 [0, 100] })
    (fun t => elements t.coef 56 8 == [17, 15, 10, 3, -3, -10, -15, -17]) = true := by
  decide +kernel

/-- V-BLK-18. -/
theorem test_blkRecon : nextMeets
    (exec (.blkRecon true) { State.reset with
      coef := block 32 [-5, 300, 128], ref := block 8 [13, 13, 13] })
    (fun t => (t.recon.toList.take 4).map BitVec.toNat == [8, 255, 141, 0]) = true := by
  decide +kernel

/-- The row of V-RLE-12 in IB. -/
def rowEncoder : State :=
  { writer with
    arg1 := 11
    ib := [(0, 1), (1, 1), (2, 1), (3, 1), (4, 1), (5, 2), (6, 3), (7, 3), (8, 4), (9, 4), (10, 4)] }

/-- V-RLE-12. -/
theorem test_rleEnc : nextMeets (exec .rleEnc rowEncoder)
    (fun t => t.ret0 == 8 && t.wpos == 64 && bytesAt t.ob 0 8 == [5, 1, 0x83, 2, 3, 3, 3, 4]) =
      true := by decide +kernel

/-- V-RLE-25. -/
theorem test_rleEnc_unaligned : nextMeets (exec .rleEnc { writer with wpos := 3, cmdcnt := 2 })
    (fun t => faultRegs t == (3, 2, 0x50, 2)) = true := by decide

/-- The coded row of V-RLE-12 in IB, with a reader and a writer. -/
def rowDecoder : State :=
  { State.reset with
    status := 0x00A, arg1 := 11, rlen := 64
    ib := [(0, 5), (1, 1), (2, 0x83), (3, 2), (4, 3), (5, 3), (6, 3), (7, 4)] }

/-- P3, step 6. -/
theorem test_rleDec : nextMeets (exec .rleDec rowDecoder)
    (fun t => t.ret0 == 11 && t.ret1 == 8 && t.wpos == 88 && t.rpos == 64 &&
      bytesAt t.ob 0 11 == [1, 1, 1, 1, 1, 2, 3, 3, 4, 4, 4]) = true := by decide +kernel

/-- V-RLE-17. -/
theorem test_rleDec_format : nextMeets
    (exec .rleDec { rowDecoder with arg1 := 1, ib := [(0, 0x80), (1, 1)], rlen := 16, cmdcnt := 2 })
    (fun t => faultRegs t == (0x00B, 0x0D, 0, 2) && t.rpos == 8) = true := by decide +kernel

/-! ## The host's window -/

/-- V-SYS-1: CFG. -/
theorem test_read_cfg : nextMeets (act (.read .word 100) State.reset)
    (fun t => t.hostData == 0x00071D0B) = true := by decide

/-- V-SYS-6: ZZ[1] reads back sign-extended. -/
theorem test_read_zz : nextMeets
    (act (.read .word 0x1404) { State.reset with zz := block 16 [0, -3] })
    (fun t => t.hostData == 0xFFFFFFFD) = true := by decide +kernel

/-- V-SYS-6: SYM_LOW keeps the low 16 bits. -/
theorem test_write_symLow : nextMeets (act (.write .word 32 0x00012345) State.reset)
    (fun t => t.symLow == 0x2345) = true := by decide

/-- V-SYS-6: ID is read-only. -/
theorem test_write_id : nextMeets (act (.write .word 88 5) encoder)
    (fun t => t.status == 0x012 && readReg t 22 == 0x41414355) = true := by decide

/-! ## Witnesses: each statement with premises, met by a concrete state and operands -/

theorem witness_DecodeOfEncode : ∀ i ∈ [Instr.mdlUpd 15 65535, .mdlInit 15 15, .bwPut 63, .symEnc 0 0,
    .blkRecon true, .rleDec], i.WellFormed := by decide

theorem witness_EncodeOfDecode : decode 0xFFFFFFFF ≠ .ok .nop ∧ decode 0x3CF0FFFF = .ok (.symEnc 15 65535) ∧
    decode 0x00000000 = .ok .nop := by decide

theorem witness_OpcodeMapMasks :
    (⟨0x3C, 0xFF0F0000, 0x3C000000⟩ ∈ opcodeMap ∧
      (0x3CC00001 : Word) &&& 0xFF0F0000 = 0x3C000000) ∧
    ∀ r ∈ opcodeMap, (0x3CC10001 : Word) &&& r.mask ≠ r.value := by decide +kernel

theorem witness_IllegalWordFaults :
    flag State.reset .fault = false ∧
    (∀ r ∈ opcodeMap, (0x03000000 : Word).toNat / 2 ^ 24 ≠ r.opc) ∧
    (∀ r ∈ opcodeMap, (0x01000001 : Word) &&& r.mask ≠ r.value) ∧
    ({ State.reset with cfg := { defaultConfig with hasRle := false } }).cfg.hasRle = false ∧
    (0x50000000 : Word).toNat / 2 ^ 24 = 0x50 ∧ (0x51FFFFFF : Word).toNat / 2 ^ 24 = 0x51 := by
  decide +kernel

theorem witness_StepRunsDecodedCommand :
    decodeFor State.reset.cfg.hasRle 0x51000000 = .ok .rleDec ∧
    { State.reset with host := [cmdWrite 0x51000000, .read .byte 7] }.host =
      cmdWrite 0x51000000 :: [.read .byte 7] := by decide

theorem witness_FaultFreezesUnit :
    flag { State.reset with status := 0x013, fcode := 3 } .fault = true ∧
    (0x01000001 : Word) ≠ 0x01000000 ∧ Location.reg 21 ≠ .reg 1 ∧ Location.reg 21 ≠ .reg 2 ∧
    Location.reg 21 ≠ .reg 3 := by decide

theorem witness_CompletesOrFaults :
    Instr.acEnc ≠ .reset ∧ flag State.reset .fault = false ∧ neverFaults (.blkRecon true) = true := by
  decide

/-- One command for each ground of the statement. -/
theorem witness_PreciseFaults :
    (faultsPrecisely (.bwPut 33) = true ∧
      nextMeets (exec (.bwPut 33) writer) (fun t => flag t .fault) = true) ∧
    nextMeets (exec .rleDec State.reset) (fun t => flag t .fault && t.fcode == 2) = true ∧
    nextMeets (exec .acEnc (encoderWith 2 6 5)) (fun t => flag t .fault && t.fcode == 6) = true ∧
    nextMeets (exec .acDecRm { decoder with symHigh := 1, symScale := 5 })
      (fun t => flag t .fault && t.fcode == 0x0A) = true ∧
    nextMeets (exec .blkEnc (blockEncoder (block 16 [0, -1024])))
      (fun t => flag t .fault && t.fcode == 0x0C) = true := by decide +kernel

theorem witness_UnitStateFaults :
    flag State.reset .fault = false ∧ unitReady .rleDec State.reset = false ∧
    unitReady .acEnc (encoderWith 2 6 5) = true ∧
    nextMeets (exec .acEnc (encoderWith 2 6 5)) (fun t => flag t .fault) = true := by decide

/-- A command outside every row of the statement completes. -/
theorem witness_CommandWriteSets :
    nextMeets (exec .nop encoder) (fun _ => true) = true ∧ Instr.nop ≠ .reset ∧
    Instr.nop.opcode ∉ [0x40, 0x41, 0x49, 0x4A, 0x42, 0x48, 0x4B, 0x10, 0x11, 0x12, 0x31, 0x32, 0x3C,
      0x45, 0x50, 0x51, 0x20, 0x21, 0x22, 0x3D, 0x01] := by decide

theorem witness_SystemCommandResults :
    flag { State.reset with status := 0x13E, cmdcnt := 0xFFFFFFFF } .fault = false := by decide

theorem witness_HostReadsReturnElements :
    Config.capOk State.reset.cfg.ibCap ∧ Config.capOk State.reset.cfg.obCap ∧
    65535 < State.reset.cfg.ibCap ∧ 65535 < State.reset.cfg.obCap := by decide

theorem witness_HostWritesStore :
    Config.capOk State.reset.cfg.ibCap ∧ Config.capOk State.reset.cfg.obCap ∧
    21 ∉ [0, 4, 5, 8, 9, 10, 11] ∧ 63 ∉ [0, 4, 5, 8, 9, 10, 11] ∧ memoryWf reader.ib = true ∧
    65535 < reader.cfg.ibCap := by decide

/-- The nine kinds of illegal access, each at a boundary; the widths exclude each other. -/
theorem witness_IllegalHostAccesses :
    3 % 4 ≠ 0 ∧ (0x100 ≤ 0x100 ∧ 0xFFC < 0x1000) ∧ (0x1A40 ≤ 0x1A40 ∧ 0xFFFC < 0x10000) ∧
    (0x10000 ≤ 0x12008 ∧ 0x12008 < 0x50000 ∧ 2050 ≤ 0x12008 % 0x4000 / 4) ∧ 0x50000 ≤ 0x50000 ∧
    0xFFFFF < 0x100000 ∧
    (0x100000 + State.reset.cfg.ibCap ≤ 0x110000 ∧ 0x110000 < 0x200000) ∧
    0x200000 + State.reset.cfg.obCap ≤ 0x210000 := by decide

theorem witness_BwInitResult :
    (flag State.reset .fault = false ∧ flag State.reset .encAct = false ∧
      4 ≤ State.reset.cfg.obCap) ∧
    flag encoder .encAct = true ∧ { defaultConfig with obCap := 3 }.obCap < 4 := by decide

theorem witness_BwPutResult :
    (flag { writer with wpos := 524256 } .fault = false ∧ memoryWf writer.ob = true ∧
      writer.cfg.obCap ≤ 2 ^ 20 ∧ flag { writer with wpos := 524256 } .bwAct = true ∧ 32 ≤ 32 ∧
      524256 + 32 ≤ 8 * writer.cfg.obCap) ∧
    flag State.reset .bwAct = false ∧ 32 < 33 ∧ 8 * writer.cfg.obCap < 524257 + 32 := by decide

theorem blank_stream {s : State} (h : s.ob = []) (pos : Nat) :
    ∀ k, pos ≤ k → streamBit s.ob k = false := by
  intro k _
  simp [h, streamBit]

theorem witness_BitWriterConcatenates :
    memoryWf writer.ob = true ∧ writer.cfg.obCap ≤ 2 ^ 20 ∧
    (([(3, 5), (32, 0xDEADBEEF), (0, 1)] : List (Nat × Word)).foldlM
      (fun s p => runAll [.bwPut p.1] { s with arg0 := p.2 }) writer).isSome = true ∧
    ∀ k, writer.wpos.toNat ≤ k → streamBit writer.ob k = false :=
  ⟨by decide, by decide, by decide +kernel, blank_stream rfl _⟩

theorem witness_BwFlushResult :
    (∀ s ∈ [{ writer with wpos := 35 }, { State.reset with status := 6, wpos := 32 }, encoder],
      flag s .fault = false ∧ memoryWf s.ob = true ∧ s.cfg.obCap ≤ 2 ^ 20 ∧
      s.wpos.toNat ≤ 8 * s.cfg.obCap) ∧
    (flag { writer with wpos := 35 } .bwAct = true ∧ flag { writer with wpos := 35 } .encAct = false ∧
      flag { writer with wpos := 35 } .bwHdr = false) ∧
    (flag { State.reset with status := 6, wpos := 32 } .bwAct = true ∧
      flag { State.reset with status := 6, wpos := 32 } .bwHdr = true ∧
      32 ≤ ({ State.reset with status := 6, wpos := 32 }).wpos.toNat) ∧
    flag encoder .encAct = true := by decide

theorem witness_BrInitResult :
    flag State.reset .fault = false ∧
    (524280 : Word).toNat + (8 : Word).toNat ≤ 8 * State.reset.cfg.ibCap ∧
    8 * State.reset.cfg.ibCap < (524281 : Word).toNat + (8 : Word).toNat := by decide

theorem witness_BitReaderResults :
    (flag reader .fault = false ∧ flag reader .brAct = true ∧ 32 ≤ 32 ∧
      reader.rpos.toNat + 32 ≤ reader.rlen.toNat) ∧
    flag State.reset .brAct = false ∧ 32 < 33 ∧
    reader.rlen.toNat < ({ reader with rpos := 1 }).rpos.toNat + 32 := by decide

theorem witness_MdlInitResult :
    flag State.reset .fault = false ∧ 1 ≤ 1 ∧ 11 ≤ 11 ∧ (0 = 0 ∨ 11 < 0) ∧ (12 = 0 ∨ 11 < 12) := by
  decide

theorem witness_MdlInitStdResult : flag encoder .fault = false ∧ (11 : Fin 16).val < 12 := by decide

theorem reset_contexts : ContextsOk State.reset := by
  intro m h
  exact absurd (by revert m; decide) h

theorem contexts_of_mdlInit {s : State} (h : ContextsOk s) : ContextsOk (initCtx 12 2 s) :=
  initCtx_contextsOk h 12 (by decide) (by decide)

theorem encoder_contexts : ContextsOk (initCtx 12 2 encoder) :=
  contexts_of_mdlInit (s := encoder) (fun m h => absurd (by revert m; decide) h)

theorem decoder_contexts : ContextsOk (initCtx 12 2 decoder) :=
  contexts_of_mdlInit (s := decoder) (fun m h => absurd (by revert m; decide) h)

/-- Context 12 is initialised with width 2; 3 is its last symbol and 4 is no symbol. -/
theorem width_of_encoder : ctxBits (initCtx 12 2 encoder) 12 = 2 := by decide +kernel

theorem width_of_decoder : ctxBits (initCtx 12 2 decoder) 12 = 2 := by decide +kernel

theorem encoder_context : ContextOk (initCtx 12 2 encoder) 12 :=
  encoder_contexts 12 (by rw [width_of_encoder]; decide)

theorem decoder_context : ContextOk (initCtx 12 2 decoder) 12 :=
  decoder_contexts 12 (by rw [width_of_decoder]; decide)

theorem witness_MdlUpdResult :
    (flag (initCtx 12 2 encoder) .fault = false ∧ ContextOk (initCtx 12 2 encoder) 12 ∧
      3 < ctxLen (initCtx 12 2 encoder) 12) ∧
    ctxBits State.reset 12 = 0 ∧
    (ctxBits (initCtx 12 2 encoder) 12 ≠ 0 ∧ ctxLen (initCtx 12 2 encoder) 12 ≤ 4) := by
  rw [ctxLen, width_of_encoder]
  exact ⟨⟨by decide, encoder_context, by decide⟩, by decide, by decide, by decide⟩

/-- A table whose entries do not fall and whose total is 16383, and one whose first count is 1. -/
theorem witness_RescaleProperties :
    let t := tableOf fun e => BitVec.ofNat 16 ([0, 1, 16380, 16381, 16382, 16383].getD e 0)
    1 ≤ 4 ∧ 4 ≤ 2048 ∧ tableElem t 0 = 0 ∧
    (∀ e, e ≤ 4 → (tableElem t e).toNat ≤ (tableElem t (e + 1)).toNat) ∧
    (tableElem t (4 + 1)).toNat ≤ 16383 ∧ (tableElem t 1).toNat = 1 := by decide +kernel

theorem witness_ModelLookupResults :
    (flag (initCtx 12 2 encoder) .fault = false ∧ ctxBits (initCtx 12 2 encoder) 12 ≠ 0 ∧
      3 < ctxLen (initCtx 12 2 encoder) 12 ∧ ContextOk (initCtx 12 2 encoder) 12) ∧
    ctxBits State.reset 12 = 0 ∧ ctxLen (initCtx 12 2 encoder) 12 ≤ 4 := by
  rw [ctxLen, width_of_encoder]
  exact ⟨⟨by decide, by decide, by decide, encoder_context⟩, by decide, by decide⟩

/-- The table 0, 1, 3, 7, 8, 10: the counts 7 and 9 in symbols 2 and 3, 0 below every symbol, 10 at
the scale (V-MDL-9). -/
theorem witness_MdlS2iResult :
    let s := fun c : Half => { withCounts [0, 1, 3, 7, 8, 10] State.reset with cnt := c }
    (flag (s 7) .fault = false ∧ ctxBits (s 7) 12 ≠ 0 ∧
      (s 7).cnt.toNat < count (s 7) 12 (ctxLen (s 7) 12) ∧
      2 < ctxLen (s 7) 12 ∧ count (s 7) 12 2 ≤ (s 7).cnt.toNat ∧
      ∀ d, d < ctxLen (s 7) 12 → 2 < d → (s 7).cnt.toNat < count (s 7) 12 d) ∧
    ((s 9).cnt.toNat < count (s 9) 12 (ctxLen (s 9) 12) ∧ 3 < ctxLen (s 9) 12 ∧
      count (s 9) 12 3 ≤ (s 9).cnt.toNat ∧ ∀ d, d < ctxLen (s 9) 12 → ¬3 < d) ∧
    ctxBits State.reset 12 = 0 ∧
    (ctxBits (s 10) 12 ≠ 0 ∧ count (s 10) 12 (ctxLen (s 10) 12) ≤ (s 10).cnt.toNat) ∧
    (ctxBits (s 0) 12 ≠ 0 ∧ (s 0).cnt.toNat < count (s 0) 12 (ctxLen (s 0) 12) ∧
      ∀ c, c < ctxLen (s 0) 12 → (s 0).cnt.toNat < count (s 0) 12 c) := by decide +kernel

theorem witness_S2iInvertsI2s :
    let s := { initCtx 12 2 encoder with cnt := 4 }
    flag s .fault = false ∧ ContextOk s 12 ∧ 3 < ctxLen s 12 ∧ count s 12 3 ≤ s.cnt.toNat ∧
    s.cnt.toNat < count s 12 (3 + 1) ∧ 1 ≤ s.cnt.toNat ∧ s.cnt.toNat < count s 12 (ctxLen s 12) := by
  refine ⟨by decide, ?_, by decide +kernel, by decide +kernel, by decide +kernel, by decide,
    by decide +kernel⟩
  exact ⟨encoder_context.width, encoder_context.virtual, encoder_context.first,
    encoder_context.rising, encoder_context.scaleLow, encoder_context.scaleHigh⟩

theorem witness_AcEncInitResult :
    (flag writer .fault = false ∧ flag writer .bwAct = true ∧ flag writer .encAct = false) ∧
    flag State.reset .bwAct = false ∧ flag encoder .encAct = true := by decide

/-- The whole interval, and the narrowest that R32 admits, with the narrowest triple of the largest
scale. -/
theorem witness_NarrowStaysInside :
    IntervalOk 0 0xFFFF ∧ IntervalOk 0x3FFF 0x8000 ∧ IntervalOk 0x7FFF 0xC000 ∧
    (8191 : Half).toNat < (8192 : Half).toNat ∧ (8192 : Half).toNat ≤ (16383 : Half).toNat ∧
    (16383 : Half).toNat ≤ 16383 := by
  unfold IntervalOk
  decide

theorem witness_AcEncResult :
    let s := encoderWith 2 3 5
    (flag s .fault = false ∧ flag s .encAct = true ∧ LatchOk s ∧ EncoderOk s ∧
      memoryWf s.ob = true ∧ s.cfg.obCap ≤ 2 ^ 20 ∧ s.euf.toNat + 16 < 2 ^ 32 ∧
      s.wpos.toNat + (encoded s).bits.length ≤ 8 * s.cfg.obCap) ∧
    ¬LatchOk (encoderWith 2 6 5) ∧ ¬LatchOk (encoderWith 3 3 5) ∧
    ¬LatchOk (encoderWith 1 2 16384) := by
  unfold LatchOk EncoderOk IntervalOk
  decide +kernel

/-- One bit is left in OB and two are settled; EUF is full and the first pass is an E3 pass
(`95_test_vectors.md` V-SYS-8). -/
theorem witness_AcEncFaultsWhileCoding :
    let s := { encoderWith 0 1 4 with wpos := 524287 }
    let t := { encoderWith 8191 8192 16383 with euf := 0xFFFFFFFF }
    let nl := narrowedLow t.elow.toNat t.ehigh.toNat t.symLow.toNat t.symScale.toNat
    let nh := narrowedHigh t.elow.toNat t.ehigh.toNat t.symHigh.toNat t.symScale.toNat
    (flag s .fault = false ∧ flag s .encAct = true ∧ LatchOk s ∧ EncoderOk s ∧
      memoryWf s.ob = true ∧ s.cfg.obCap ≤ 2 ^ 20 ∧ s.euf.toNat + 16 < 2 ^ 32 ∧
      s.wpos.toNat ≤ 8 * s.cfg.obCap ∧
      8 * s.cfg.obCap < s.wpos.toNat + (encoded s).bits.length) ∧
    (flag t .fault = false ∧ flag t .encAct = true ∧ LatchOk t ∧ EncoderOk t ∧
      t.euf = 0xFFFFFFFF ∧ 0x4000 ≤ nl ∧ nl < 0x8000 ∧ 0x8000 ≤ nh ∧ nh < 0xC000) := by
  unfold LatchOk EncoderOk IntervalOk
  decide +kernel

theorem witness_AcEncFlushResult :
    (flag encoder .fault = false ∧ memoryWf encoder.ob = true ∧ encoder.cfg.obCap ≤ 2 ^ 20 ∧
      flag encoder .encAct = true ∧
      encoder.wpos.toNat + encoder.euf.toNat + 16 ≤ 8 * encoder.cfg.obCap) ∧
    flag writer .encAct = false := by decide

theorem witness_AcDecInitResult :
    (flag reader .fault = false ∧ flag reader .brAct = true ∧
      reader.rpos.toNat + 16 ≤ reader.rlen.toNat) ∧
    flag State.reset .brAct = false ∧ ({ reader with rlen := 15 }).rlen.toNat < reader.rpos.toNat + 16 := by
  decide

theorem witness_AcDecCntResult :
    let s := { decoder with symScale := 16383 }
    (flag s .fault = false ∧ flag s .decAct = true ∧ 1 ≤ s.symScale.toNat ∧
      s.symScale.toNat ≤ 16383 ∧ s.dlow.toNat ≤ s.dcode.toNat ∧ s.dcode.toNat ≤ s.dhigh.toNat) ∧
    flag reader .decAct = false ∧ decoder.symScale.toNat = 0 ∧
    16383 < ({ decoder with symScale := 16384 }).symScale.toNat := by
  decide

theorem witness_CountSelectsSymbol :
    (0 : Half).toNat ≤ (0x92E0 : Half).toNat ∧ (0x92E0 : Half).toNat ≤ (0xFFFF : Half).toNat ∧
    1 ≤ (1 : Half).toNat := by decide

theorem witness_AcDecRmResult :
    let s := { decoder with symLow := 2, symHigh := 3, symScale := 5 }
    let d := { decoder with symHigh := 1, symScale := 5 }
    (flag s .fault = false ∧ flag s .decAct = true ∧ LatchOk s ∧ DecoderOk s ∧
      narrowedLow s.dlow.toNat s.dhigh.toNat s.symLow.toNat s.symScale.toNat ≤ s.dcode.toNat ∧
      s.dcode.toNat ≤ narrowedHigh s.dlow.toNat s.dhigh.toNat s.symHigh.toNat s.symScale.toNat ∧
      s.rpos.toNat + (removed s).passes ≤ s.rlen.toNat) ∧
    (LatchOk { s with rlen := 17 } ∧ DecoderOk { s with rlen := 17 } ∧
      ({ s with rlen := 17 }).rpos.toNat ≤ ({ s with rlen := 17 }).rlen.toNat ∧
      ({ s with rlen := 17 }).rlen.toNat < s.rpos.toNat + (removed { s with rlen := 17 }).passes) ∧
    ¬LatchOk decoder ∧
    (LatchOk d ∧ DecoderOk d ∧
      narrowedHigh d.dlow.toNat d.dhigh.toNat d.symHigh.toNat d.symScale.toNat < d.dcode.toNat) := by
  unfold LatchOk DecoderOk IntervalOk
  decide +kernel

theorem witness_LockstepOneSymbol :
    let e := encoderWith 2 3 5
    let d := { decoder with symLow := 2, symHigh := 3, symScale := 5 }
    EncoderOk e ∧ DecoderOk d ∧ d.dlow = e.elow ∧ d.dhigh = e.ehigh ∧ d.symLow = e.symLow ∧
    d.symHigh = e.symHigh ∧ d.symScale = e.symScale ∧ exec .acEnc e = .next (after .acEnc e) ∧
    exec .acDecRm d = .next (after .acDecRm d) ∧ flag (after .acEnc e) .fault = false ∧
    flag (after .acDecRm d) .fault = false := by
  refine ⟨?_, ?_, rfl, rfl, rfl, rfl, rfl, exec_after (by decide +kernel),
    exec_after (by decide +kernel), by decide +kernel, by decide +kernel⟩
  · unfold EncoderOk IntervalOk
    decide
  · unfold DecoderOk IntervalOk
    decide

theorem witness_SymEncResult :
    let s := initCtx 12 2 encoder
    let r := codedInterval s.elow.toNat s.ehigh.toNat s.euf.toNat (count s 12 3) (count s 12 (3 + 1))
      (count s 12 (ctxLen s 12))
    (flag s .fault = false ∧ flag s .encAct = true ∧ ContextOk s 12 ∧ EncoderOk s ∧
      3 < ctxLen s 12 ∧ memoryWf s.ob = true ∧ s.cfg.obCap ≤ 2 ^ 20 ∧ s.euf.toNat + 16 < 2 ^ 32 ∧
      s.wpos.toNat + r.bits.length ≤ 8 * s.cfg.obCap) ∧
    ctxBits encoder 12 = 0 ∧ (ctxBits s 12 ≠ 0 ∧ ctxLen s 12 ≤ 4) := by
  refine ⟨⟨by decide, by decide, encoder_context, ?_, by decide +kernel, by decide, by decide,
    by decide, by decide +kernel⟩, by decide, by decide +kernel, by decide +kernel⟩
  unfold EncoderOk IntervalOk
  decide

theorem decoder_code_contexts (code : Half) : ContextsOk (initCtx 12 2 { decoder with dcode := code }) :=
  contexts_of_mdlInit fun m h =>
    absurd ((by decide : ∀ m, ctxBits State.reset m = 0) m) h

/-- A count of 2 in the symbol 1 of the context, with the bits its removal takes and with one of them
(V-COD-18); with the code 0 the count is 0. -/
theorem witness_SymDecResult :
    let s := initCtx 12 2 decoder
    let z := initCtx 12 2 { decoder with dcode := 0 }
    let scale := count s 12 (ctxLen s 12)
    (flag s .fault = false ∧ flag s .decAct = true ∧ ContextOk s 12 ∧ DecoderOk s ∧
      1 < ctxLen s 12 ∧
      count s 12 1 ≤ decoderCount s.dlow.toNat s.dhigh.toNat s.dcode.toNat scale ∧
      decoderCount s.dlow.toNat s.dhigh.toNat s.dcode.toNat scale < count s 12 (1 + 1) ∧
      s.rpos.toNat + (codedInterval s.dlow.toNat s.dhigh.toNat 0 (count s 12 1) (count s 12 (1 + 1))
        scale).passes ≤ s.rlen.toNat ∧
      16 ≤ 17 ∧ 17 < s.rpos.toNat + (codedInterval s.dlow.toNat s.dhigh.toNat 0 (count s 12 1)
        (count s 12 (1 + 1)) scale).passes) ∧
    (flag z .fault = false ∧ flag z .decAct = true ∧ ContextOk z 12 ∧ DecoderOk z ∧
      decoderCount z.dlow.toNat z.dhigh.toNat z.dcode.toNat (count z 12 (ctxLen z 12)) = 0) ∧
    ctxBits decoder 12 = 0 := by
  refine ⟨⟨by decide, by decide, decoder_context, ?_, by decide +kernel, by decide +kernel,
    by decide +kernel, by decide +kernel, by decide, by decide +kernel⟩, ⟨by decide, by decide,
    decoder_code_contexts 0 12 (by decide +kernel), ?_, by decide +kernel⟩, by decide⟩
  all_goals
    unfold DecoderOk IntervalOk
    decide

theorem witness_CompositesEqualPrimitives :
    (runAll [.mdlI2s 12 1, .acEnc, .mdlUpd 12 1] (initCtx 12 2 encoder)).isSome = true ∧
    ((runAll [.mdlScale 12, .acDecCnt, .mdlS2i 12] (initCtx 12 2 decoder)).any fun a =>
      (runAll [.acDecRm] a).any fun b => (runAll [.mdlUpd 12 a.ret0.toNat] b).isSome) = true := by
  decide +kernel

theorem witness_BlkPixelResults : flag { State.reset with status := 0x13E } .fault = false := by decide

theorem witness_BlkTransformResults :
    flag State.reset .fault = false ∧ State.reset.cfg.transform = .reference ∧
    { defaultConfig with transform := .other 7 }.transform = .other 7 := by decide

/-- Constant blocks at both ends of the range, and DC coefficients at both ends; the first clause also
for another transform pair. -/
theorem witness_TransformConstantBlock :
    (∀ p : Fin 64, ({ State.reset with cfg := { defaultConfig with transform := .other 7 } }).coef[p] =
      ({ State.reset with cfg := { defaultConfig with transform := .other 7 } }).coef[0]) ∧
    State.reset.cfg.transform = .reference ∧
    (∀ c ∈ [(-255 : Int), 0, 255], -255 ≤ c ∧ c ≤ 255 ∧
      (∀ p : Fin 64,
        ({ State.reset with coef := Vector.replicate 64 (BitVec.ofInt 32 c) }).coef[p].toInt = c) ∧
      nextMeets (exec .blkFdct { State.reset with
        coef := Vector.replicate 64 (BitVec.ofInt 32 c) }) (fun _ => true) = true) ∧
    ∀ d ∈ [(-7600 : Int), 7600], -7600 ≤ d ∧ d ≤ 7600 ∧
      (∀ p : Fin 64, ({ State.reset with coef := block 32 [d] }).coef[p].toInt = if p = 0 then d else 0) ∧
      nextMeets (exec .blkIdct { State.reset with coef := block 32 [d] }) (fun _ => true) = true := by
  decide +kernel

/-- A pair other than the default gives zero outside index 0 for a constant block (`43_block.md` R207). -/
theorem test_blkFdct_other : nextMeets
    (exec .blkFdct { State.reset with
      cfg := { defaultConfig with transform := .other 7 }, coef := Vector.replicate 64 9 })
    (fun t => elements t.coef 1 2 == [0, 0] && t.cmdcnt == 1) = true := by decide +kernel

/-- A quotient of 1024 is clipped, one of 1023 is not; both at an element of the scan. -/
theorem witness_BlkQuantResult :
    let q := fun (c : Int) => (c * (8192 : Half).toNat + 32768) / 65536
    flag State.reset .fault = false ∧ 1023 < q 8188 ∧ q 8187 = 1023 ∧ q (-8188) = -1023 ∧
    q (-8189) < -1023 := by decide

theorem isLastNonZero_of {s : State} {last : Nat} (h : last ≤ 63) (h1 : last = 0 ∨ zzInt s last ≠ 0)
    (h2 : ∀ i : Fin 64, last < i.val → zzInt s i.val = 0) : IsLastNonZero s last :=
  ⟨h, h1, fun i hi hle => h2 ⟨i, by omega⟩ hi⟩

theorem isLargest_of {s : State} {mx : Nat} (h : ∃ i : Fin 64, (zzInt s i.val).natAbs = mx)
    (h2 : ∀ i : Fin 64, (zzInt s i.val).natAbs ≤ mx) : IsLargest s mx :=
  ⟨by obtain ⟨i, hi⟩ := h; exact ⟨i.val, by omega, hi⟩, fun i hi => h2 ⟨i, by omega⟩⟩

/-- A block at the largest magnitude that a bucket holds, and one beyond it. -/
theorem witness_BlkObserverResults :
    flag State.reset .fault = false ∧
    (IsLargest { State.reset with zz := block 16 [0, 0, -1023] } 1023 ∧ 1023 ≤ 1023) ∧
    IsLargest { State.reset with zz := block 16 [0, 0, -1024] } 1024 ∧ 1023 < 1024 :=
  ⟨by decide, ⟨isLargest_of (by decide +kernel) (by decide +kernel), by decide⟩,
    isLargest_of (by decide +kernel) (by decide +kernel), by decide⟩

theorem encoder_block_contexts (zz : Block 16) : ContextsOk (blockEncoder zz) := by
  refine initCtxs_contextsOk (fun m h => absurd ?_ h) (by decide)
  exact (by decide : ∀ m, ctxBits State.reset m = 0) m

/-- The premises of the first clause for the block of example B of R215, whose last index is 4, and for
an all-zero block, whose last index is 0. -/
theorem witness_BlkEncResult_codes :
    let s := blockEncoder (block 16 [12, -3, 2, 0, 1])
    let z := blockEncoder (block 16 [])
    (flag s .fault = false ∧ flag s .encAct = true ∧ IsLastNonZero s 4 ∧ IsLargest s 12 ∧
      StandardWidths s ∧ ContextsOk s ∧ EncoderOk s ∧ memoryWf s.ob = true ∧ s.cfg.obCap ≤ 2 ^ 20 ∧
      12 ≤ 1023 ∧ IsBucket 12 2 ∧ s.euf.toNat + 16 * 66 < 2 ^ 32 ∧
      s.wpos.toNat + s.euf.toNat + 16 * 66 ≤ 8 * s.cfg.obCap) ∧
    (IsLastNonZero z 0 ∧ IsLargest z 0 ∧ StandardWidths z ∧ ContextsOk z ∧ EncoderOk z) := by
  refine ⟨⟨by decide, by decide, isLastNonZero_of (by decide) (by decide +kernel) (by decide +kernel),
    isLargest_of (by decide +kernel) (by decide +kernel), ?_, encoder_block_contexts _, ?_, by decide,
    by decide, by decide, ?_, by decide, by decide⟩,
    isLastNonZero_of (by decide) (by decide) (by decide +kernel),
    isLargest_of (by decide +kernel) (by decide +kernel), ?_, encoder_block_contexts _, ?_⟩
  · unfold StandardWidths
    decide +kernel
  · unfold EncoderOk IntervalOk
    decide
  · refine ⟨by decide, by decide, fun j hj => ?_⟩
    have : j = 0 ∨ j = 1 := by omega
    rcases this with rfl | rfl <;> decide
  · unfold StandardWidths
    decide +kernel
  · unfold EncoderOk IntervalOk
    decide

/-- Context 10 alone has the wrong width (V-BLK-12); a coefficient of -1024 (V-BLK-10). -/
theorem witness_BlkEncResult_faults :
    let s := initCtx 10 5 (blockEncoder (block 16 []))
    let t := blockEncoder (block 16 [0, -1024])
    (flag s .fault = false ∧ flag s .encAct = true ∧ IsLastNonZero s 0 ∧ IsLargest s 0 ∧
      (∀ n : Fin 16, n < 10 →
        ctxBits s n = [3, 4, 5, 6, 7, 8, 9, 10, 11, 11, 6, 4].getD n.val 0) ∧
      ctxBits s 10 ≠ [3, 4, 5, 6, 7, 8, 9, 10, 11, 11, 6, 4].getD 10 0) ∧
    (flag t .fault = false ∧ flag t .encAct = true ∧ IsLastNonZero t 1 ∧ IsLargest t 1024 ∧
      StandardWidths t ∧ 1023 < 1024) := by
  refine ⟨⟨by decide, by decide, isLastNonZero_of (by decide) (by decide) (by decide +kernel),
    isLargest_of (by decide +kernel) (by decide +kernel), by decide +kernel, by decide +kernel⟩,
    by decide, by decide, isLastNonZero_of (by decide) (by decide +kernel) (by decide +kernel),
    isLargest_of (by decide +kernel) (by decide +kernel), ?_, by decide⟩
  unfold StandardWidths
  decide +kernel

/-- The stream of V-BLK-14: a DC symbol of 2047. -/
def badDc : State := blockDecoder 0x07DF [(0, 0x07), (1, 0xDF), (2, 0xA0)] 40

theorem decoder_block_contexts (code : Half) (bytes : List Host.Cell) (rlen : Word) :
    ContextsOk (blockDecoder code bytes rlen) := by
  refine initCtxs_contextsOk (fun m h => absurd ?_ h) (by decide)
  exact (by decide : ∀ m, ctxBits State.reset m = 0) m

/-- The stream of the symbols 1, 3 and 2047 in M_LAST, M_IDX and M_DC. -/
def badDcAfterIndex : State := blockDecoder 0x0908 [(0, 0x09), (1, 0x08), (2, 0x72)] 40

/-- The stream of V-BLK-15: a coefficient symbol of 7 in bucket 0 after one of 3. -/
def badCoef : State := blockDecoder 0x0C28 [(0, 0x0C), (1, 0x28), (2, 0xEC), (3, 0x18)] 48

/-- V-BLK-15: the elements of ZZ before the symbol are written, the others are as they were. -/
theorem test_blkDec_coef : nextMeets
    (exec .blkDec { badCoef with zz := block 16 [5, 6, 7, 8] })
    (fun t => t.fcode == 0x0C && t.finfo == 7 && t.rpos == 43 &&
      elements t.zz 0 4 == [0, 0, 7, 8]) = true := by decide +kernel

/-- What every clause of `BlkDecResult` but the last asks of the decoder. -/
theorem ready_blockDecoder (code : Half) (bytes : List Host.Cell) (rlen : Word)
    (h : DecoderOk (blockDecoder code bytes rlen)) :
    flag (blockDecoder code bytes rlen) .fault = false ∧
    flag (blockDecoder code bytes rlen) .decAct = true ∧
    StandardWidths (blockDecoder code bytes rlen) ∧ ContextsOk (blockDecoder code bytes rlen) ∧
    DecoderOk (blockDecoder code bytes rlen) := by
  refine ⟨(by decide : flag goodBlock .fault = false), (by decide : flag goodBlock .decAct = true), ?_,
    decoder_block_contexts _ _ _, h⟩
  exact (by unfold StandardWidths; decide +kernel : StandardWidths goodBlock)

/-- The decoders and the symbols of V-BLK-7b, of V-BLK-13, of V-BLK-14, of a DC symbol of 2047 behind a
bucket, of V-BLK-15; and a context of the wrong width. -/
theorem witness_BlkDecResult :
    ((DecoderOk goodBlock ∧ [12, 17, 15, 16].length = 4 ∧ 2 ≤ 8 ∧ 1035 ≤ 2046 ∧
      (∀ c ∈ [12, 17, 15, 16], c ≤ 2 * (2 ^ (2 + 2) - 1)) ∧
      (decodedRun (decodedBlock 4 2 1035 [12, 17, 15, 16]) goodBlock).isSome = true) ∧
    (DecoderOk badBucket ∧ 1 ≠ 0 ∧ 8 < 9 ∧
      (decodedRun [(10, 1), (11, 9)] badBucket).isSome = true) ∧
    (DecoderOk badDc ∧ DecoderOk badDcAfterIndex ∧ 2046 < 2047 ∧
      (decodedRun (decodedBlock 0 0 2047 []) badDc).isSome = true ∧
      (decodedRun (decodedBlock 1 3 2047 []) badDcAfterIndex).isSome = true) ∧
    (DecoderOk badCoef ∧ [3].length < 2 ∧ 0 ≤ 8 ∧ 1023 ≤ 2046 ∧
      (∀ c ∈ [3], c ≤ 2 * (2 ^ (0 + 2) - 1)) ∧ 2 * (2 ^ (0 + 2) - 1) < 7 ∧
      (decodedRun (decodedBlock 2 0 1023 ([3] ++ [7])) badCoef).isSome = true)) ∧
    (∀ s ∈ [goodBlock, badBucket, badDc, badDcAfterIndex, badCoef],
      DecoderOk s → flag s .fault = false ∧ flag s .decAct = true ∧ StandardWidths s ∧
        ContextsOk s ∧ DecoderOk s) ∧
    flag (initCtx 10 5 goodBlock) .fault = false ∧ flag (initCtx 10 5 goodBlock) .decAct = true ∧
    (∀ n : Fin 16, n < 10 → ctxBits (initCtx 10 5 goodBlock) n =
      [3, 4, 5, 6, 7, 8, 9, 10, 11, 11, 6, 4].getD n.val 0) ∧
    ctxBits (initCtx 10 5 goodBlock) 10 ≠ [3, 4, 5, 6, 7, 8, 9, 10, 11, 11, 6, 4].getD 10 0 := by
  refine ⟨?_, ?_, by decide, by decide, by decide +kernel, by decide +kernel⟩
  · unfold DecoderOk IntervalOk
    decide +kernel
  · intro s hs h
    simp only [List.mem_cons, List.not_mem_nil, or_false] at hs
    rcases hs with rfl | rfl | rfl | rfl | rfl <;> exact ready_blockDecoder _ _ _ h

/-- The zig-zag table is a permutation that starts at 0, so the default parameters are valid. -/
theorem reset_parameters : State.reset.cfg.Valid where
  ob := by decide
  ib := by decide
  minRun := by decide
  zigzagInjective := by decide +kernel
  zigzagZero := by decide +kernel

theorem witness_BlkDeqResult : flag State.reset .fault = false ∧ State.reset.cfg.Valid :=
  ⟨by decide, reset_parameters⟩

theorem witness_RleEncResult :
    let s := rowEncoder
    (flag s .fault = false ∧ flag s .bwAct = true ∧ flag s .encAct = false ∧
      s.wpos.toNat % 8 = 0 ∧ s.arg0.toNat + s.arg1.toNat ≤ s.cfg.ibCap ∧ memoryWf s.ob = true ∧
      s.cfg.obCap ≤ 2 ^ 20 ∧ 1 ≤ s.cfg.rleMinRun ∧ s.cfg.rleMinRun = 3 ∧
      s.wpos.toNat + 16 * s.arg1.toNat ≤ 8 * s.cfg.obCap ∧
      ∀ k, s.wpos.toNat ≤ k → streamBit s.ob k = false) ∧
    s.cfg.ibCap < ({ s with arg0 := 65526 }).arg0.toNat + s.arg1.toNat :=
  ⟨⟨by decide, by decide, by decide, by decide, by decide, by decide, by decide, by decide,
    by decide, by decide, blank_stream rfl _⟩, by decide⟩

/-- The coded row of V-RLE-12. -/
theorem row_of_twelve : RleRow true [5, 1, 0x83, 2, 3, 3, 3, 4] [1, 1, 1, 1, 1, 2, 3, 3, 4, 4, 4] :=
  .run 5 1 _ [2, 3, 3, 4, 4, 4] (by decide) (by decide)
    (.literal [2, 3, 3] [3, 4] [4, 4, 4] (by decide) (by decide)
      (.run 3 4 [] [] (by decide) (by decide) .nil))

theorem witness_RleDecResult :
    let s := rowDecoder
    flag s .fault = false ∧ unitReady .rleDec s = true ∧ memoryWf s.ob = true ∧
    s.cfg.obCap ≤ 2 ^ 20 ∧ RleRow true [5, 1, 0x83, 2, 3, 3, 3, 4] [1, 1, 1, 1, 1, 2, 3, 3, 4, 4, 4] ∧
    11 = s.arg1.toNat ∧ bytesAt s.ib (s.rpos.toNat / 8) 8 = [5, 1, 0x83, 2, 3, 3, 3, 4] ∧
    s.rpos.toNat + 8 * 8 ≤ s.rlen.toNat ∧ s.wpos.toNat + 8 * 11 ≤ 8 * s.cfg.obCap ∧
    ∀ k, s.wpos.toNat ≤ k → streamBit s.ob k = false :=
  ⟨by decide, by decide, by decide, by decide, row_of_twelve, by decide, by decide +kernel, by decide,
    by decide, blank_stream rfl _⟩

/-- The three faulting length bytes for a row of 2: 0x80, a literal of 3, a run of 5 (V-RLE-17, V-RLE-20,
V-RLE-19). -/
theorem witness_RleDecResult_faults :
    let s := fun len : Byte => { rowDecoder with arg1 := 2, ib := [(0, len)] }
    let len := fun s : State => (readByte s.ib (s.rpos.toNat / 8)).toNat
    (flag (s 5) .fault = false ∧ unitReady .rleDec (s 5) = true ∧ memoryWf (s 5).ob = true ∧
      (s 5).cfg.obCap ≤ 2 ^ 20 ∧ 1 ≤ (s 5).arg1.toNat ∧
      (s 5).rpos.toNat + 16 ≤ (s 5).rlen.toNat ∧ len (s 5) < 0x80 ∧
      (s 5).arg1.toNat < len (s 5)) ∧
    (unitReady .rleDec (s 0x80) = true ∧ len (s 0x80) = 0x80) ∧
    (unitReady .rleDec (s 0x83) = true ∧ 0x80 < len (s 0x83) ∧
      (s 0x83).arg1.toNat < len (s 0x83) - 0x80) := by decide

theorem witness_RleRoundTrip :
    let e := rowEncoder
    let d := rowDecoder
    exec .rleEnc e = .next (after .rleEnc e) ∧ flag (after .rleEnc e) .fault = false ∧
    memoryWf e.ob = true ∧ e.cfg.obCap ≤ 2 ^ 20 ∧ 1 ≤ e.cfg.rleMinRun ∧ flag d .fault = false ∧
    unitReady .rleDec d = true ∧ memoryWf d.ob = true ∧ d.cfg.obCap ≤ 2 ^ 20 ∧ d.arg1 = e.arg1 ∧
    bytesAt d.ib (d.rpos.toNat / 8) (after .rleEnc e).ret0.toNat =
      bytesAt (after .rleEnc e).ob (e.wpos.toNat / 8) (after .rleEnc e).ret0.toNat ∧
    d.rpos.toNat + 8 * (after .rleEnc e).ret0.toNat ≤ d.rlen.toNat ∧
    d.wpos.toNat + 8 * d.arg1.toNat ≤ 8 * d.cfg.obCap ∧
    (∀ k, e.wpos.toNat ≤ k → streamBit e.ob k = false) ∧
    ∀ k, d.wpos.toNat ≤ k → streamBit d.ob k = false :=
  ⟨exec_after (by decide +kernel), by decide +kernel, by decide, by decide, by decide, by decide,
    by decide, by decide, by decide, by decide, by decide +kernel, by decide +kernel, by decide,
    blank_stream rfl _, blank_stream rfl _⟩

/-- A state that meets every invariant and a step from it, for the statements `StepKeeps…` and
`ConstantRegisters`. -/
theorem witness_StepKeeps :
    BuffersOk State.reset ∧ StatusOk State.reset ∧ ContextsOk State.reset ∧ CodersOk State.reset ∧
    CursorsOk State.reset ∧
    nextMeets (step (State.reset.withFetchWord 32 0x10000000)) (fun t => t.status == 2) = true ∧
    State.reset.cfg.Valid := by
  refine ⟨by unfold BuffersOk; decide, ?_, reset_contexts, ?_, ?_, by decide, reset_parameters⟩
  · exact ⟨by decide, by decide, by decide, by decide, by decide, by decide⟩
  · exact fun _ => ⟨fun h => absurd h (by decide), fun h => absurd h (by decide)⟩
  · exact ⟨by decide, by decide, by unfold BuffersOk; decide, by decide, by decide, by decide,
      fun h => absurd h (by decide), fun h => absurd h (by decide), fun h => absurd h (by decide),
      fun h => absurd h (by decide)⟩

end Sys2Proof.Tests
end

