-- ==== Sys2Proof/Proofs/HostWindow.lean ====
section
/-! PROOFS. The holes of the host's window: which accesses reach no element (`20_memory.md` R60, R61),
and what an access that reaches none does. -/

namespace Sys2Proof.Machine

/-! ## The accesses that reach no element -/

theorem mtLocation_eq_none_iff (offset : Nat) :
    mtLocation offset = none ↔ 2050 ≤ offset % 0x4000 / 4 := by
  simp [mtLocation]

/-- The holes of the window under word accesses: between the registers and PIX, between MBITS and MT,
behind the last element of each context, and from the end of MT on. -/
theorem wordLocation_eq_none_iff (addr : Nat) :
    wordLocation addr = none ↔
      (0x100 ≤ addr ∧ addr < 0x1000) ∨ (0x1A40 ≤ addr ∧ addr < 0x10000) ∨
      (0x10000 ≤ addr ∧ addr < 0x50000 ∧ 2050 ≤ addr % 0x4000 / 4) ∨ 0x50000 ≤ addr := by
  unfold wordLocation
  split
  case isTrue hmt =>
    rw [mtLocation_eq_none_iff]
    omega
  case isFalse hmt =>
    -- One case per page of 0x100 bytes; the pages without a name of their own here are full.
    split
    case h_12 => -- the page of MBITS, of which the first 16 words are mapped
      split <;> simp <;> omega
    case h_13 => -- a page that holds no element
      simp only [imp_false, true_iff] at *
      omega
    all_goals simp; omega

theorem byteLocation_eq_none_iff (c : Config) (addr : Nat) :
    byteLocation c addr = none ↔
      addr < 0x100000 ∨ (0x100000 + c.ibCap ≤ addr ∧ addr < 0x200000) ∨
      (0x100000 + c.ibCap ≤ addr ∧ 0x200000 + c.obCap ≤ addr) := by
  simp only [byteLocation, ibBase, obBase]
  split
  case isTrue hib => simp; omega
  case isFalse hib => split <;> simp <;> omega

theorem locate_byte (c : Config) (addr : Nat) : locate c .byte addr = byteLocation c addr := rfl

theorem locate_half (c : Config) (addr : Nat) : locate c .half addr = none := rfl

theorem locate_word_eq_none_iff (c : Config) (addr : Nat) :
    locate c .word addr = none ↔ addr % 4 ≠ 0 ∨ wordLocation addr = none := by
  simp [locate, imp_iff_not_or]

/-- `locate` misses exactly the accesses that R61 calls illegal for another reason than a write to
something read-only. -/
theorem locate_eq_none_iff (c : Config) (width : BusWidth) (addr : Nat) :
    locate c width addr = none ↔
      width = .half ∨
      (width = .word ∧ addr % 4 ≠ 0) ∨
      (width = .word ∧ 0x100 ≤ addr ∧ addr < 0x1000) ∨
      (width = .word ∧ 0x1A40 ≤ addr ∧ addr < 0x10000) ∨
      (width = .word ∧ 0x10000 ≤ addr ∧ addr < 0x50000 ∧ 2050 ≤ addr % 0x4000 / 4) ∨
      (width = .word ∧ 0x50000 ≤ addr) ∨
      (width = .byte ∧ addr < 0x100000) ∨
      (width = .byte ∧ 0x100000 + c.ibCap ≤ addr ∧ addr < 0x200000) ∨
      (width = .byte ∧ 0x100000 + c.ibCap ≤ addr ∧ 0x200000 + c.obCap ≤ addr) := by
  cases width with
  | byte => simp [locate_byte, byteLocation_eq_none_iff]
  | half => simp [locate_half]
  | word => simp [locate_word_eq_none_iff, wordLocation_eq_none_iff]

/-! ## What such an access does -/

section
variable {s : State} {width : BusWidth} {addr : Nat}

theorem isCmd_of_locate_eq_none {c : Config} (h : locate c width addr = none) :
    isCmd c width addr = false := by
  simp [isCmd, h]

theorem hostStore_of_locate_eq_none (h : locate s.cfg width addr = none) (v : Word) :
    hostStore width addr v s = s := by
  simp [hostStore, h]

theorem hostRead_of_locate_eq_none (h : locate s.cfg width addr = none) :
    hostRead width addr s =
      { s with hostData := Config.freeRead s.freeCount, freeCount := s.freeCount + 1 } := by
  simp [hostRead, h]

theorem act_write_of_locate_eq_none (h : locate s.cfg width addr = none) (v : Word) :
    act (.write width addr v) s = .next s := by
  simp [act, isCmd_of_locate_eq_none h, hostStore_of_locate_eq_none h]

theorem act_read_of_locate_eq_none (h : locate s.cfg width addr = none) :
    act (.read width addr) s =
      .next { s with hostData := Config.freeRead s.freeCount, freeCount := s.freeCount + 1 } := by
  simp [act, hostRead_of_locate_eq_none h]

end

/-- Settles O16: each kind of access it lists reaches no element. -/
theorem illegalHostAccesses : Obligations.IllegalHostAccesses := by
  intro s width addr hillegal
  have hnone : locate s.cfg width addr = none := (locate_eq_none_iff s.cfg width addr).mpr hillegal
  exact ⟨act_write_of_locate_eq_none hnone, act_read_of_locate_eq_none hnone⟩

end Sys2Proof.Machine
end

/-! PROOFS. The command word (`30_encoding.md`). `Form` is what a row of the opcode map says beside
its OPC: which low bits of M, F and IMM are free and which command they spell. `decode` accepts a
word exactly when the form of its OPC spells a command with the fields of the word
(`decode_eq_ok_iff`); the round trips, the masks of R95 and the faults of R96 to R98 follow. -/

namespace Sys2Proof

/-! ## Words and fields -/

/-- The word with these fields (R90). -/
def Fields.word (w : Fields) : Word := wordOf w.opc w.m w.f w.imm

theorem word_fieldsOf (w : Word) : (fieldsOf w).word = w := wordOf_fieldsOf w

theorem fieldsOf_inj {v w : Word} : fieldsOf v = fieldsOf w ↔ v = w :=
  ⟨fun h => by rw [← word_fieldsOf v, h, word_fieldsOf], fun h => h ▸ rfl⟩

theorem fieldsOf_opc_lt (w : Word) : (fieldsOf w).opc < 256 := by
  have := w.isLt
  simp only [fieldsOf]
  omega

theorem fieldsOf_m_lt (w : Word) : (fieldsOf w).m < 16 := Nat.mod_lt _ (by decide)

theorem fieldsOf_f_lt (w : Word) : (fieldsOf w).f < 16 := Nat.mod_lt _ (by decide)

theorem fieldsOf_imm_lt (w : Word) : (fieldsOf w).imm < 65536 := Nat.mod_lt _ (by decide)

/-! ## The form of a row of the opcode map -/

/-- The six forms of a command word: which operands it has, and the command they make. -/
inductive Form where
  | plain (i : Instr)
  | flag (g : Bool → Instr)
  | count (g : Nat → Instr)
  | ctx (g : Fin 16 → Instr)
  | ctxWidth (g : Fin 16 → Nat → Instr)
  | ctxSymbol (g : Fin 16 → Nat → Instr)

/-- The form that belongs to an OPC (R95). -/
def formOf : Nat → Option Form
  | 0x00 => some (.plain .nop)
  | 0x01 => some (.plain .reset)
  | 0x02 => some (.plain .clrw)
  | 0x10 => some (.flag .bwInit)
  | 0x11 => some (.count .bwPut)
  | 0x12 => some (.plain .bwFlush)
  | 0x18 => some (.plain .brInit)
  | 0x19 => some (.count .brGet)
  | 0x1A => some (.count .brPeek)
  | 0x1B => some (.count .brSkip)
  | 0x20 => some (.ctxWidth .mdlInit)
  | 0x21 => some (.plain .mdlInitStd)
  | 0x22 => some (.ctxSymbol .mdlUpd)
  | 0x23 => some (.ctxSymbol .mdlI2s)
  | 0x24 => some (.ctx .mdlS2i)
  | 0x25 => some (.ctx .mdlScale)
  | 0x30 => some (.plain .acEncInit)
  | 0x31 => some (.plain .acEnc)
  | 0x32 => some (.plain .acEncFlush)
  | 0x38 => some (.plain .acDecInit)
  | 0x39 => some (.plain .acDecCnt)
  | 0x3A => some (.plain .acDecRm)
  | 0x3C => some (.ctxSymbol .symEnc)
  | 0x3D => some (.ctx .symDec)
  | 0x40 => some (.flag .blkLoad)
  | 0x41 => some (.plain .blkFdct)
  | 0x42 => some (.flag .blkQuant)
  | 0x43 => some (.plain .blkLast)
  | 0x44 => some (.plain .blkMidx)
  | 0x45 => some (.plain .blkEnc)
  | 0x48 => some (.plain .blkDec)
  | 0x49 => some (.flag .blkDeq)
  | 0x4A => some (.plain .blkIdct)
  | 0x4B => some (.flag .blkRecon)
  | 0x50 => some (.plain .rleEnc)
  | 0x51 => some (.plain .rleDec)
  | _ => none

/-- The form, behind the OPC `opc`, spells a command with some fields: each operand fits its field
and every other bit of M, F and IMM is zero (R92 to R94, R97). -/
inductive Form.Spells (opc : Nat) : Form → Instr → Fields → Prop
  | plain (i : Instr) : Spells opc (.plain i) i ⟨opc, 0, 0, 0⟩
  | flag (g : Bool → Instr) (b : Bool) : Spells opc (.flag g) (g b) ⟨opc, 0, flagBit b, 0⟩
  | count (g : Nat → Instr) (n : Nat) (h : countFits n) : Spells opc (.count g) (g n) ⟨opc, 0, 0, n⟩
  | ctx (g : Fin 16 → Instr) (m : Fin 16) : Spells opc (.ctx g) (g m) ⟨opc, m, 0, 0⟩
  | ctxWidth (g : Fin 16 → Nat → Instr) (m : Fin 16) (n : Nat) (h : widthFits n) :
      Spells opc (.ctxWidth g) (g m n) ⟨opc, m, 0, n⟩
  | ctxSymbol (g : Fin 16 → Nat → Instr) (m : Fin 16) (n : Nat) (h : symbolFits n) :
      Spells opc (.ctxSymbol g) (g m n) ⟨opc, m, 0, n⟩

/-- The number of low bits of M, F and IMM that are free; every other bit of them must be zero. -/
structure FreeBits where
  m : Nat
  f : Nat
  imm : Nat

/-- The free bits of each form (R92 to R94). -/
def Form.free : Form → FreeBits
  | .plain _ => ⟨0, 0, 0⟩
  | .flag _ => ⟨0, 1, 0⟩
  | .count _ => ⟨0, 0, 6⟩
  | .ctx _ => ⟨4, 0, 0⟩
  | .ctxWidth _ => ⟨4, 0, 4⟩
  | .ctxSymbol _ => ⟨4, 0, 16⟩

/-- The must-be-zero bits of these fields are zero (R97). -/
def FreeBits.Admits (b : FreeBits) (w : Fields) : Prop :=
  w.m < 2 ^ b.m ∧ w.f < 2 ^ b.f ∧ w.imm < 2 ^ b.imm

section
variable {opc : Nat} {F : Form} {i : Instr} {w : Fields}

/-! ## What a form spells -/

theorem formOf_lt (h : formOf opc = some F) : opc < 256 := by
  unfold formOf at h
  split at h
  case h_37 => cases h
  all_goals decide

theorem Form.free_le (F : Form) : F.free.m ≤ 4 ∧ F.free.f ≤ 4 ∧ F.free.imm ≤ 16 := by
  cases F <;> simp [Form.free]

theorem Form.Spells.opc_eq (h : F.Spells opc i w) : w.opc = opc := by cases h <;> rfl

theorem Form.Spells.admits (h : F.Spells opc i w) : F.free.Admits w := by
  cases h with
  | flag g b => cases b <;> simp [Form.free, FreeBits.Admits, flagBit]
  | _ => simp_all [Form.free, FreeBits.Admits]

theorem Form.exists_spells_of_admits (h : F.free.Admits w) : ∃ i, F.Spells w.opc i w := by
  obtain ⟨opc, m, f, imm⟩ := w
  obtain ⟨hm, hf, hi⟩ := h
  cases F <;> simp only [Form.free, Nat.pow_zero, Nat.lt_one_iff] at hm hf hi <;> subst_vars
  case plain j => exact ⟨_, .plain j⟩
  case flag g =>
    obtain rfl | rfl : f = 0 ∨ f = 1 := by omega
    · exact ⟨_, .flag g false⟩
    · exact ⟨_, .flag g true⟩
  case count g => exact ⟨_, .count g imm hi⟩
  case ctx g => exact ⟨_, .ctx g ⟨m, hm⟩⟩
  case ctxWidth g => exact ⟨_, .ctxWidth g ⟨m, hm⟩ imm hi⟩
  case ctxSymbol g => exact ⟨_, .ctxSymbol g ⟨m, hm⟩ imm hi⟩

/-- A form spells some command exactly with the fields whose must-be-zero bits are zero. -/
theorem Form.exists_spells_iff : (∃ i, F.Spells opc i w) ↔ w.opc = opc ∧ F.free.Admits w := by
  constructor
  · rintro ⟨i, h⟩
    exact ⟨h.opc_eq, h.admits⟩
  · rintro ⟨rfl, h⟩
    exact exists_spells_of_admits h

/-- What the form of an OPC spells is a well-formed command of that OPC, and its word has the fields
it was spelt with. -/
theorem Form.Spells.encodes (h : F.Spells opc i w) (hF : formOf opc = some F) :
    i.WellFormed ∧ encode i = w.word ∧ i.opcode = opc := by
  unfold formOf at hF
  split at hF
  case h_37 => cases hF
  all_goals
    cases hF
    cases h
    refine ⟨?_, rfl, rfl⟩
    simp [*]

/-- Every well-formed command is spelt by the form of its OPC, with the fields of its word. -/
theorem exists_spells_of_wellFormed (i : Instr) (h : i.WellFormed) :
    ∃ F w, formOf i.opcode = some F ∧ F.Spells i.opcode i w ∧ encode i = w.word := by
  cases i with
  | bwInit b | blkLoad b | blkQuant b | blkDeq b | blkRecon b =>
    exact ⟨_, _, rfl, .flag _ b, rfl⟩
  | bwPut n | brGet n | brPeek n | brSkip n =>
    exact ⟨_, _, rfl, .count _ n (of_decide_eq_true h), rfl⟩
  | mdlInit m n => exact ⟨_, _, rfl, .ctxWidth _ m n (of_decide_eq_true h), rfl⟩
  | mdlUpd m n | mdlI2s m n | symEnc m n =>
    exact ⟨_, _, rfl, .ctxSymbol _ m n (of_decide_eq_true h), rfl⟩
  | mdlS2i m | mdlScale m | symDec m => exact ⟨_, _, rfl, .ctx _ m, rfl⟩
  | _ => exact ⟨_, _, rfl, .plain _, rfl⟩

theorem Form.Spells.fieldsOf_word (h : F.Spells opc i w) (hF : formOf opc = some F) :
    fieldsOf w.word = w := by
  obtain ⟨hm, hf, hi⟩ := h.admits
  obtain ⟨hm', hf', hi'⟩ := F.free_le
  exact fieldsOf_wordOf (h.opc_eq ▸ formOf_lt hF)
    (hm.trans_le (Nat.pow_le_pow_right (by decide) hm'))
    (hf.trans_le (Nat.pow_le_pow_right (by decide) hf'))
    (hi.trans_le (Nat.pow_le_pow_right (by decide) hi'))

/-! ## The decoder reads what the form spells -/

/-- How the decoder reads the operands of a form. -/
def Form.read (w : Fields) : Form → Except DecodeError Instr
  | .plain i => decodePlain w i
  | .flag g => decodeFlag w g
  | .count g => decodeCount w g
  | .ctx g => decodeCtx w g
  | .ctxWidth g => decodeCtxWidth w g
  | .ctxSymbol g => decodeCtxSymbol w g

/-- Decoding looks up the form of the OPC, then reads the operands of that form (R100). -/
theorem decodeFields_eq (w : Fields) :
    decodeFields w = (formOf w.opc).elim (.error .noSuchOpcode) (Form.read w) := by
  obtain ⟨opc, m, f, imm⟩ := w
  unfold decodeFields
  dsimp only
  split
  case h_37 => simp [formOf, *]
  all_goals rfl

theorem onlyIf_eq_ok {ok : Bool} {j : Instr} : onlyIf ok i = .ok j ↔ ok = true ∧ i = j := by
  cases ok <;> simp [onlyIf]

theorem Form.Spells.read_eq (h : F.Spells opc i w) : F.read w = .ok i := by
  cases h with
  | plain i => rfl
  | flag g b => cases b <;> rfl
  | count g n h => exact onlyIf_eq_ok.mpr ⟨by simpa using h, rfl⟩
  | ctx g m => exact onlyIf_eq_ok.mpr ⟨rfl, by simp⟩
  | ctxWidth g m n h => exact onlyIf_eq_ok.mpr ⟨by simpa using h, by simp⟩
  | ctxSymbol g m n h => exact onlyIf_eq_ok.mpr ⟨rfl, by simp⟩

theorem Form.admits_of_read (hm : w.m < 16) (hi : w.imm < 65536) (h : F.read w = .ok i) :
    F.free.Admits w := by
  cases F <;> obtain ⟨hok, -⟩ := onlyIf_eq_ok.mp h <;>
    simp only [Bool.and_eq_true, beq_iff_eq, decide_eq_true_eq] at hok <;>
    simp only [Form.free, FreeBits.Admits] <;> omega

/-- The reader accepts exactly the fields with which the form spells a command, and reads it. -/
theorem Form.read_eq_ok_iff (hm : w.m < 16) (hi : w.imm < 65536) :
    F.read w = .ok i ↔ F.Spells w.opc i w := by
  constructor
  · intro h
    obtain ⟨j, hj⟩ := exists_spells_of_admits (admits_of_read hm hi h)
    obtain rfl : i = j := by simpa [h] using hj.read_eq
    exact hj
  · exact fun h => h.read_eq

/-- The decoder, said once: a word decodes to the command that the form of its OPC spells with the
fields of the word. -/
theorem decode_eq_ok_iff {w : Word} {i : Instr} :
    decode w = .ok i ↔ ∃ F, formOf i.opcode = some F ∧ F.Spells i.opcode i (fieldsOf w) := by
  rw [decode, decodeFields_eq]
  constructor
  · intro h
    cases hF : formOf (fieldsOf w).opc with
    | none => simp [hF] at h
    | some F =>
      have hs : F.Spells (fieldsOf w).opc i (fieldsOf w) :=
        (Form.read_eq_ok_iff (fieldsOf_m_lt w) (fieldsOf_imm_lt w)).mp (by simpa [hF] using h)
      obtain ⟨-, -, hopc⟩ := hs.encodes hF
      exact ⟨F, hopc ▸ hF, hopc ▸ hs⟩
  · rintro ⟨F, hF, hs⟩
    rw [hs.opc_eq, hF]
    exact hs.read_eq

theorem opcode_of_decode {w : Word} {i : Instr} (h : decode w = .ok i) :
    i.opcode = w.toNat / 2 ^ 24 := by
  obtain ⟨F, -, hs⟩ := decode_eq_ok_iff.mp h
  exact hs.opc_eq.symm

end

/-! ## The round trips -/

/-- Settles O2: the word of a command has the fields the form of its OPC spells it with, and the
decoder reads them back. -/
theorem decodeOfEncode : Obligations.DecodeOfEncode := by
  intro i hi
  obtain ⟨F, w, hF, hs, hw⟩ := exists_spells_of_wellFormed i hi
  refine decode_eq_ok_iff.mpr ⟨F, hF, ?_⟩
  rwa [hw, hs.fieldsOf_word hF]

/-- Settles O3: the fields of a word that decodes spell its command, and a word is made of its
fields. -/
theorem encodeOfDecode : Obligations.EncodeOfDecode := by
  intro w i h
  obtain ⟨F, hF, hs⟩ := decode_eq_ok_iff.mp h
  obtain ⟨hwf, hword, -⟩ := hs.encodes hF
  exact ⟨hwf, hword.trans (word_fieldsOf w)⟩

/-- Settles O1: the decoder is run on each word. -/
theorem decodeSampleWords : Obligations.DecodeSampleWords :=
  ⟨rfl, rfl, rfl, rfl, rfl, rfl, rfl, rfl, rfl, rfl, rfl, rfl, rfl⟩

/-! ## The masks of the opcode map -/

/-- The fields of the mask that covers OPC and every must-be-zero bit (R95). -/
def FreeBits.maskFields (b : FreeBits) : Fields :=
  ⟨2 ^ 8 - 1, 2 ^ 4 - 2 ^ b.m, 2 ^ 4 - 2 ^ b.f, 2 ^ 16 - 2 ^ b.imm⟩

/-- Masking all but the low `k` of `n` bits leaves nothing of a number that has only those. -/
theorem and_high_bits_eq_zero_iff {x n k : Nat} (hx : x < 2 ^ n) (hk : k ≤ n) :
    x &&& (2 ^ n - 2 ^ k) = 0 ↔ x < 2 ^ k := by
  obtain ⟨d, rfl⟩ := Nat.exists_eq_add_of_le hk
  have hhigh : 2 ^ (k + d) - 2 ^ k = 2 ^ k * (2 ^ d - 1) := by
    rw [Nat.pow_add, Nat.mul_sub, Nat.mul_one]
  have hdiv : (x &&& (2 ^ (k + d) - 2 ^ k)) / 2 ^ k = x / 2 ^ k := by
    rw [Nat.and_div_two_pow, hhigh, Nat.mul_div_cancel_left _ (Nat.two_pow_pos k),
      Nat.and_two_pow_sub_one_eq_mod]
    exact Nat.mod_eq_of_lt (Nat.div_lt_of_lt_mul (Nat.pow_add 2 k d ▸ hx))
  have hmod : (x &&& (2 ^ (k + d) - 2 ^ k)) % 2 ^ k = 0 := by
    rw [Nat.and_mod_two_pow, hhigh, Nat.mul_mod_right, Nat.and_zero]
  rw [← Nat.div_eq_zero_iff_lt (Nat.two_pow_pos k), ← hdiv]
  have hsplit := Nat.div_add_mod (x &&& (2 ^ (k + d) - 2 ^ k)) (2 ^ k)
  constructor
  · intro h
    simp [h]
  · intro h
    rw [h, hmod] at hsplit
    simpa using hsplit.symm

theorem fieldsOf_and (v w : Word) :
    fieldsOf (v &&& w) = ⟨(fieldsOf v).opc &&& (fieldsOf w).opc, (fieldsOf v).m &&& (fieldsOf w).m,
      (fieldsOf v).f &&& (fieldsOf w).f, (fieldsOf v).imm &&& (fieldsOf w).imm⟩ := by
  have h16 : (16 : Nat) = 2 ^ 4 := rfl
  simp only [fieldsOf, BitVec.toNat_and, h16, Nat.and_div_two_pow, Nat.and_mod_two_pow]

/-- Every row of the opcode map has the mask of the form of its OPC, and its match is the OPC with
zeros behind it. -/
theorem opcodeMap_row : ∀ r ∈ opcodeMap,
    (formOf r.opc).map (fun F => F.free.maskFields) = some (fieldsOf r.mask) ∧
      fieldsOf r.value = ⟨r.opc, 0, 0, 0⟩ := by
  decide

/-- A word matches a row if and only if it has the OPC of the row and its must-be-zero bits are
zero. -/
theorem matches_row_iff {r : OpcodeRow} (hr : r ∈ opcodeMap) (w : Word) :
    w &&& r.mask = r.value ↔
      ∃ F, formOf r.opc = some F ∧ (fieldsOf w).opc = r.opc ∧ F.free.Admits (fieldsOf w) := by
  obtain ⟨hmask, hvalue⟩ := opcodeMap_row r hr
  obtain ⟨F, hF, hmask⟩ := Option.map_eq_some_iff.mp hmask
  obtain ⟨hm, hf, hi⟩ := F.free_le
  have hopc : (fieldsOf w).opc &&& (2 ^ 8 - 1) = (fieldsOf w).opc := by
    rw [Nat.and_two_pow_sub_one_eq_mod]
    exact Nat.mod_eq_of_lt (fieldsOf_opc_lt w)
  rw [← fieldsOf_inj, fieldsOf_and, hvalue, ← hmask]
  simp only [FreeBits.maskFields, Fields.mk.injEq, hopc, FreeBits.Admits,
    and_high_bits_eq_zero_iff (fieldsOf_m_lt w) hm, and_high_bits_eq_zero_iff (fieldsOf_f_lt w) hf,
    and_high_bits_eq_zero_iff (fieldsOf_imm_lt w) hi, hF, Option.some.injEq, exists_eq_left']

/-- The first sentence of R95: a word matches a row if and only if it is a command of the row. -/
theorem matches_row_iff_decodes {r : OpcodeRow} (hr : r ∈ opcodeMap) (w : Word) :
    w &&& r.mask = r.value ↔ ∃ i : Instr, decode w = .ok i ∧ i.opcode = r.opc := by
  simp only [matches_row_iff hr, ← Form.exists_spells_iff, decode_eq_ok_iff]
  constructor
  · rintro ⟨F, hF, i, hs⟩
    obtain ⟨-, -, hopc⟩ := hs.encodes hF
    exact ⟨i, ⟨F, hopc ▸ hF, hopc ▸ hs⟩, hopc⟩
  · rintro ⟨i, ⟨F, hF, hs⟩, hopc⟩
    exact ⟨F, hopc ▸ hF, i, hopc ▸ hs⟩

theorem opcodeMap_opc_distinct : opcodeMap.Pairwise (fun a b => a.opc ≠ b.opc) := by decide

/-- Every command has a row. -/
theorem exists_row_of_instr (i : Instr) : ∃ r ∈ opcodeMap, i.opcode = r.opc := by
  have hmem : (opcodeMap.map OpcodeRow.opc).contains i.opcode = true := by cases i <;> rfl
  obtain ⟨r, hr, hopc⟩ := List.mem_map.mp (List.contains_iff_mem.mp hmem)
  exact ⟨r, hr, hopc.symm⟩

theorem decode_of_no_row {w : Word} (h : ∀ r ∈ opcodeMap, w &&& r.mask ≠ r.value) :
    ∃ e, decode w = .error e := by
  cases hd : decode w with
  | error e => exact ⟨e, rfl⟩
  | ok i =>
    obtain ⟨r, hr, hopc⟩ := exists_row_of_instr i
    exact absurd ((matches_row_iff_decodes hr w).mpr ⟨i, hd, hopc⟩) (h r hr)

/-- No word satisfies two rows: each row's mask covers OPC, and no two rows have the same one. -/
theorem opcodeMap_disjoint : opcodeMap.Pairwise
    (fun a b => ∀ w : Word, ¬(w &&& a.mask = a.value ∧ w &&& b.mask = b.value)) := by
  refine opcodeMap_opc_distinct.imp_of_mem ?_
  rintro a b ha hb hne w ⟨hwa, hwb⟩
  obtain ⟨F, -, hopca, -⟩ := (matches_row_iff ha w).mp hwa
  obtain ⟨G, -, hopcb, -⟩ := (matches_row_iff hb w).mp hwb
  exact hne (hopca.symm.trans hopcb)

/-- Settles O4: a word matches the row of its form only. -/
theorem opcodeMapMasks : Obligations.OpcodeMapMasks :=
  ⟨fun _ hr w => matches_row_iff_decodes hr w, opcodeMap_disjoint, fun _ h => decode_of_no_row h⟩

/-! ## The fault of a word that is no command -/

/-- The words of an OPC in no row, a special case of the words that match no row. -/
theorem no_row_of_opc {w : Word} (h : ∀ r ∈ opcodeMap, w.toNat / 2 ^ 24 ≠ r.opc) :
    ∀ r ∈ opcodeMap, w &&& r.mask ≠ r.value := by
  intro r hr hw
  obtain ⟨F, -, hopc, -⟩ := (matches_row_iff hr w).mp hw
  exact h r hr hopc

theorem isRle_iff_opcode (i : Instr) : i.isRle = true ↔ i.opcode = 0x50 ∨ i.opcode = 0x51 := by
  cases i <;> simp [Instr.isRle, Instr.opcode]

theorem decodeFor_of_decode_error {w : Word} {e : DecodeError} (h : decode w = .error e)
    (hasRle : Bool) : decodeFor hasRle w = .error e := by
  simp [decodeFor, h]

/-- Without the RLE unit no word of its two opcodes is a command (R98). -/
theorem decodeFor_rle_absent {w : Word} (h : w.toNat / 2 ^ 24 = 0x50 ∨ w.toNat / 2 ^ 24 = 0x51) :
    ∃ e, decodeFor false w = .error e := by
  cases hd : decode w with
  | error e => exact ⟨e, decodeFor_of_decode_error hd false⟩
  | ok i =>
    have hrle : i.isRle = true := by rwa [isRle_iff_opcode, opcode_of_decode hd]
    exact ⟨.unitAbsent, by simp [decodeFor, hd, hrle]⟩

end Sys2Proof

namespace Sys2Proof.Machine

theorem raiseFault_eq_faultState (t : Trap) (s : State) :
    raiseFault t s = faultState (errByte t.code) t.info s := rfl

/-- A word the decoder refuses raises ERR_ILLEGAL_CMD with the word and changes nothing else. -/
theorem command_of_decodeFor_error {s : State} {w : Word} (hs : flag s .fault = false)
    (h : ∃ e, decodeFor s.cfg.hasRle w = .error e) :
    command w s = .next (faultState 0x01 w s) := by
  obtain ⟨e, he⟩ := h
  simp [command, he, illegalCommand, hs, raiseFault_eq_faultState, errByte]

/-- Settles O5: in each of its cases the decoder refuses the word. -/
theorem illegalWordFaults : Obligations.IllegalWordFaults := by
  intro s w hs
  have hno_row (h : ∀ r ∈ opcodeMap, w &&& r.mask ≠ r.value) :
      command w s = .next (faultState 0x01 w s) := by
    obtain ⟨e, he⟩ := decode_of_no_row h
    exact command_of_decodeFor_error hs ⟨e, decodeFor_of_decode_error he _⟩
  refine ⟨fun h => hno_row (no_row_of_opc h), hno_row, fun hcfg h => ?_⟩
  exact command_of_decodeFor_error hs (hcfg ▸ decodeFor_rle_absent h)

end Sys2Proof.Machine

/-! PROOFS. The frequency models (`41_model.md`): what MDL_INIT, MDL_INIT_STD, MDL_UPD, MDL_I2S,
MDL_SCALE and MDL_S2I do, and what Rescale makes of a table. Each command is a list of checks in
front of pseudocode; the checks are settled by lemmas about the context and the symbol, the
pseudocode by lemmas about tables. -/

namespace Sys2Proof.Machine.FrequencyModel

/-! ## The commands as checks and pseudocode -/

section
variable (s : State) (m : Fin 16)

theorem exec_mdlInit (bits : Nat) :
    exec (.mdlInit m bits) s = runCommand
      [⟨decide (1 ≤ bits) && decide (bits ≤ 11), ⟨.operand, wordOfNat bits⟩⟩]
      (always (initCtx m bits)) s := rfl

theorem exec_mdlInitStd : exec .mdlInitStd s = runCommand [] (always (initCtxs stdBits)) s := rfl

theorem exec_mdlUpd (sym : Nat) :
    exec (.mdlUpd m sym) s =
      runCommand [ctxInit s m, symOk s m sym] (always (updateCtx m sym)) s := rfl

theorem exec_mdlI2s (sym : Nat) :
    exec (.mdlI2s m sym) s = runCommand [ctxInit s m, symOk s m sym]
      (always fun s => latchScaleOf m (latchBoundsOf m sym s)) s := rfl

theorem exec_mdlScale :
    exec (.mdlScale m) s = runCommand [ctxInit s m]
      (always fun s => setRet0 ((ctxScale s m).setWidth 32) (latchScaleOf m s)) s := rfl

/-- The check of MDL_S2I that the count lies below the scale (`41_model.md` R143). -/
def countBelowScale : Check :=
  ⟨decide (s.cnt.toNat < (ctxScale s m).toNat), ⟨.operand, s.cnt.setWidth 32⟩⟩

/-- The check of MDL_S2I that Find answers a symbol (`41_model.md` R143). -/
def symbolFound : Check :=
  ⟨ctxFind s m s.cnt.toNat != 0, ⟨.badSymbol, s.cnt.setWidth 32⟩⟩

theorem exec_mdlS2i :
    exec (.mdlS2i m) s = runCommand [ctxInit s m, countBelowScale s m, symbolFound s m]
      (always (takeSymbol m)) s := rfl

end

/-! ## The checks -/

section
variable {s : State} {m : Fin 16} {sym : Nat}

/-- A failing check leaves the fault state of R285 and nothing else (`60_exceptions.md` R286). -/
theorem runCommand_faults {cs : List Check} {body : State → Run Unit} {e : Trap}
    (hs : flag s .fault = false) (hc : firstFailing cs = some e) :
    runCommand cs body s = .next (faultState (errByte e.code) e.info s) :=
  runCommand_check hs hc

/-- A command that only updates the state completes when its checks hold. -/
theorem runCommand_always {cs : List Check} {f : State → State} (hs : flag s .fault = false)
    (hc : firstFailing cs = none) : runCommand cs (always f) s = .next (retire (f s)) :=
  runCommand_done hs hc (always_eq f s)

theorem firstFailing_needSet {f : Flag} {opc : Word} {cs : List Check} (h : flag s f = true) :
    firstFailing (needSet s f opc :: cs) = firstFailing cs := by
  simp [h]

theorem firstFailing_uninit {cs : List Check} (h : ctxBits s m = 0) :
    firstFailing (ctxInit s m :: cs) = some ⟨.modelUninit, wordOfNat m⟩ := by
  simp [h]

theorem firstFailing_init {cs : List Check} (h : ctxBits s m ≠ 0) :
    firstFailing (ctxInit s m :: cs) = firstFailing cs := by
  simp [h]

theorem firstFailing_badSymbol (h : ctxBits s m ≠ 0) (hsym : ctxLen s m ≤ sym) :
    firstFailing [ctxInit s m, symOk s m sym] = some ⟨.operand, wordOfNat sym⟩ := by
  rw [firstFailing_init h]
  simp [Nat.not_lt.mpr hsym]

theorem firstFailing_goodSymbol (h : ctxBits s m ≠ 0) (hsym : sym < ctxLen s m) :
    firstFailing [ctxInit s m, symOk s m sym] = none := by
  rw [firstFailing_init h]
  simp [hsym]

theorem ctxBits_ne_zero (h : ContextOk s m) : ctxBits s m ≠ 0 := Nat.ne_of_gt h.width.1

end

/-! ## Initialise -/

section
variable {s : State} {m : Fin 16}

/-- Initialising contexts writes their tables and MBITS only (`41_model.md` R133, R135). -/
theorem initCtxs_frame (cs : List (Fin 16 × Nat)) (s : State) :
    initCtxs cs s =
      { s with tables := (initCtxs cs s).tables, mbits := (initCtxs cs s).mbits } := by
  induction cs generalizing s with
  | nil => rfl
  | cons c cs ih => exact ih (initCtx c.1 c.2 s)

theorem mbits_initCtx_of_ne {n : Fin 16} (h : n ≠ m) (bits : Nat) :
    (initCtx n bits s).mbits.get m = s.mbits.get m := by
  have hval : (n : Nat) ≠ m := fun e => h (Fin.ext e)
  simp [initCtx, Vector.get_eq_getElem, hval]

/-- A context that is not in the list stays as it is. -/
theorem initCtxs_of_not_listed {cs : List (Fin 16 × Nat)} (h : ∀ c ∈ cs, c.1 ≠ m) (s : State) :
    (initCtxs cs s).mbits.get m = s.mbits.get m ∧
      ctxTable (initCtxs cs s) m = ctxTable s m := by
  induction cs generalizing s with
  | nil => exact ⟨rfl, rfl⟩
  | cons c cs ih =>
    have hne : c.1 ≠ m := h c List.mem_cons_self
    obtain ⟨hmbits, htable⟩ := ih (fun d hd => h d (List.mem_cons_of_mem c hd)) (initCtx c.1 c.2 s)
    exact ⟨hmbits.trans (mbits_initCtx_of_ne hne c.2),
      htable.trans (by rw [ctxTable_initCtx, if_neg hne])⟩

/-- A context that is in the list once takes its width and its initial table. -/
theorem initCtxs_of_listed {cs : List (Fin 16 × Nat)} (hnodup : (cs.map Prod.fst).Nodup)
    {bits : Nat} (hmem : (m, bits) ∈ cs) (hbits : bits ≤ 11) (s : State) :
    ctxBits (initCtxs cs s) m = bits ∧
      ctxTable (initCtxs cs s) m = initTable (ctxTable s m) (2 ^ bits) := by
  induction cs generalizing s with
  | nil => exact absurd hmem List.not_mem_nil
  | cons c cs ih =>
    rw [List.map_cons, List.nodup_cons] at hnodup
    obtain ⟨hfresh, hnodup⟩ := hnodup
    rcases List.mem_cons.mp hmem with rfl | htail
    · have hrest : ∀ d ∈ cs, d.1 ≠ m := fun d hd e => hfresh (List.mem_map.mpr ⟨d, hd, e⟩)
      obtain ⟨hmbits, htable⟩ := initCtxs_of_not_listed hrest (initCtx m bits s)
      refine ⟨(congrArg BitVec.toNat hmbits).trans ?_, htable.trans ?_⟩
      · exact (ctxBits_initCtx s m m hbits).trans (if_pos rfl)
      · rw [ctxTable_initCtx, if_pos rfl]
    · have hne : c.1 ≠ m := fun e => hfresh (List.mem_map.mpr ⟨_, htail, e.symm⟩)
      obtain ⟨hwidth, htable⟩ := ih hnodup htail (initCtx c.1 c.2 s)
      exact ⟨hwidth, htable.trans (by rw [ctxTable_initCtx, if_neg hne])⟩

/-- The list of R131 names each context 0 to 11 once, with its standard width. -/
theorem mem_stdBits (m : Fin 16) (h : m.val < 12) :
    (m, [3, 4, 5, 6, 7, 8, 9, 10, 11, 11, 6, 4].getD m.val 0) ∈ stdBits := by
  revert m
  decide

theorem stdBits_of_not_standard (m : Fin 16) (h : ¬m.val < 12) : ∀ c ∈ stdBits, c.1 ≠ m := by
  revert m
  decide

end

/-- Settles O23: the table is `initTable`, whose elements `tableElem_initTable` gives. -/
theorem mdlInitResult : Obligations.MdlInitResult := by
  intro s m bits hs
  refine ⟨fun hlow hhigh => ⟨initTable (ctxTable s m) (2 ^ bits), ?_, ?_⟩, fun hbad => ?_⟩
  · rw [exec_mdlInit]
    exact runCommand_always hs (by simp [hlow, hhigh])
  · exact tableElem_initTable _ (Nat.pow_le_pow_right (by decide) hhigh)
  · have hwidth : (decide (1 ≤ bits) && decide (bits ≤ 11)) = false := by
      rw [← Bool.decide_and, decide_eq_false_iff_not]
      omega
    rw [exec_mdlInit]
    exact runCommand_faults hs (e := ⟨.operand, wordOfNat bits⟩)
      (by simp only [firstFailing_cons, hwidth]; rfl)

/-- Settles O24: a context of the list of R131 is initialised once, any other is not listed. -/
theorem mdlInitStdResult : Obligations.MdlInitStdResult := by
  intro s hs
  refine ⟨(initCtxs stdBits s).tables, (initCtxs stdBits s).mbits, ?_, fun m => ?_⟩
  · rw [exec_mdlInitStd, runCommand_always hs firstFailing_nil, initCtxs_frame]
    rfl
  · split
    case isTrue hstd =>
      have hmem := mem_stdBits m hstd
      have hbits : [3, 4, 5, 6, 7, 8, 9, 10, 11, 11, 6, 4].getD m.val 0 ≤ 11 := by
        revert m
        decide
      obtain ⟨hwidth, htable⟩ := initCtxs_of_listed (by decide) hmem hbits s
      exact ⟨hwidth, fun e => (congrArg (tableElem · e) htable).trans
        (tableElem_initTable _ (Nat.pow_le_pow_right (by decide) hbits) e)⟩
    case isFalse hother => exact initCtxs_of_not_listed (stdBits_of_not_standard m hother) s

/-! ## Update and rescale -/

/-- What a completed Update leaves (`41_model.md` R136). -/
theorem retire_updateCtx (s : State) (m : Fin 16) (sym : Nat) :
    retire (updateCtx m sym s) = { s with
      tables := s.tables.set m (updateTable (ctxTable s m) (ctxLen s m) sym)
      cmdcnt := s.cmdcnt + 1 } := by
  simp only [retire, updateCtx, setTable]

/-- Update depends on the model bank only. -/
theorem updateCtx_of_bank {s t : State} {m : Fin 16} {sym : Nat} (htables : t.tables = s.tables)
    (hmbits : t.mbits = s.mbits) :
    updateCtx m sym t = setTable m (updateTable (ctxTable s m) (ctxLen s m) sym) t := by
  simp only [updateCtx, ctxTable, ctxLen, ctxBits, htables, hmbits]

/-- A count depends on the table of its context only. -/
theorem ctxCount_of_tables {s t : State} {m : Fin 16} (h : t.tables = s.tables) (i : Nat) :
    ctxCount t m i = ctxCount s m i := by
  rw [ctxCount, ctxTable, h]
  rfl

/-- Settles O25: the table is `updateTable`, whose counts `updateTable_spec` gives. -/
theorem mdlUpdResult : Obligations.MdlUpdResult := by
  intro s m sym hs
  rw [exec_mdlUpd]
  refine ⟨fun hctx hsym => ?_, fun huninit => ?_, fun hinit hsym => ?_⟩
  · refine ⟨updateTable (ctxTable s m) (ctxLen s m) sym, ?_, updateTable_spec hctx sym⟩
    rw [runCommand_always hs (firstFailing_goodSymbol (ctxBits_ne_zero hctx) hsym),
      retire_updateCtx]
  · exact runCommand_faults hs (firstFailing_uninit huninit)
  · exact runCommand_faults hs (firstFailing_badSymbol hinit hsym)

section
variable {t : Table} {len : Nat}

/-- Rescale does not touch the virtual entry (`41_model.md` R139). -/
theorem rescaleTable_virtual (hlen : len ≤ 2048) :
    tableElem (rescaleTable t len) 0 = tableElem t 0 := by
  rw [tableElem_rescaleTable _ hlen, if_pos (Nat.zero_le _), rescaledElem]

/-- The counts of a rescaled table are the rescaled counts (`41_model.md` R139). -/
theorem rescaleTable_count (hlen : len ≤ 2048) (h0 : tableElem t 0 = 0) {i : Nat} (hi : i ≤ len) :
    (tableElem (rescaleTable t len) (i + 1)).toNat =
      rescaledCount (fun i => (tableElem t (i + 1)).toNat) i := by
  rw [tableElem_rescaleTable _ hlen, if_pos (by omega), rescaledElem_toNat h0 i (by omega)]

/-- A rescaled table rises strictly from its virtual entry on (`41_model.md` R140 (a), (c)). -/
theorem rescaleTable_rising (hlen : len ≤ 2048) (h0 : tableElem t 0 = 0) {e : Nat} (he : e ≤ len) :
    (tableElem (rescaleTable t len) e).toNat < (tableElem (rescaleTable t len) (e + 1)).toNat := by
  rw [rescaleTable_count hlen h0 he]
  cases e with
  | zero =>
    rw [rescaleTable_virtual hlen, h0]
    exact le_rescaledCount _ 0
  | succ i =>
    rw [rescaleTable_count hlen h0 (by omega)]
    exact rescaledCount_rising _ i

/-- A rescaled count is bounded by half the old one (`41_model.md` R140 (b)). -/
theorem rescaleTable_le_half (hlen : len ≤ 2048) (h0 : tableElem t 0 = 0)
    (hmono : ∀ e, e ≤ len → (tableElem t e).toNat ≤ (tableElem t (e + 1)).toNat)
    {i : Nat} (hi : i ≤ len) :
    (tableElem (rescaleTable t len) (i + 1)).toNat ≤ (tableElem t (i + 1)).toNat / 2 + i + 1 := by
  rw [rescaleTable_count hlen h0 hi]
  exact rescaledCount_le_half i fun j hj => hmono (j + 1) (by omega)

end

/-- Settles O26 from the counts of a rescaled table; (d) is (a) of the rescaled table, whose virtual
entry is still 0. -/
theorem rescaleProperties : Obligations.RescaleProperties := by
  intro t len _ hlen h0
  dsimp only
  have hvirtual : tableElem (rescaleTable t len) 0 = 0 := (rescaleTable_virtual hlen).trans h0
  refine ⟨fun e => rescaleTable_rising hlen h0, fun hmono => ⟨fun i => ?_, fun hscale => ?_⟩,
    fun e => rescaleTable_rising hlen hvirtual, fun hfirst => ?_⟩
  · exact rescaleTable_le_half hlen h0 hmono
  · have hhalf := rescaleTable_le_half hlen h0 hmono (le_refl len)
    omega
  · calc (tableElem (rescaleTable t len) (0 + 1)).toNat
        = max ((tableElem t 1).toNat / 2) 1 := rescaleTable_count hlen h0 (Nat.zero_le len)
      _ = 1 := by rw [hfirst]; rfl

/-! ## The counts of a context -/

section
variable {s : State} {m : Fin 16}

theorem count_mono (h : ContextOk s m) {i j : Nat} (hij : i ≤ j) (hj : j ≤ ctxLen s m) :
    count s m i ≤ count s m j := by
  induction j, hij using Nat.le_induction with
  | base => exact le_refl _
  | succ j _ ih => exact (ih (by omega)).trans (h.rising j (by omega)).le

theorem one_le_count (h : ContextOk s m) {i : Nat} (hi : i ≤ ctxLen s m) : 1 ≤ count s m i :=
  h.first ▸ count_mono h (Nat.zero_le i) hi

/-- Every count from 1 below the scale lies in the interval of a symbol (`41_model.md` R144). -/
theorem exists_symbol (h : ContextOk s m) {c : Nat} (hlow : 1 ≤ c)
    (hhigh : c < count s m (ctxLen s m)) :
    ∃ sym, sym < ctxLen s m ∧ count s m sym ≤ c ∧ c < count s m (sym + 1) := by
  generalize ctxLen s m = n at hhigh ⊢
  induction n with
  | zero => exact absurd hhigh (by rw [h.first]; omega)
  | succ n ih =>
    rcases Nat.lt_or_ge c (count s m n) with hlt | hge
    · obtain ⟨sym, hsym, hin⟩ := ih hlt
      exact ⟨sym, by omega, hin⟩
    · exact ⟨n, by omega, hge, hhigh⟩

/-- The counts above a symbol lie above every count in its interval. -/
theorem count_above (h : ContextOk s m) {sym c : Nat} (hc : c < count s m (sym + 1)) :
    ∀ d, sym < d → d < ctxLen s m → c < count s m d := fun _ hd hlen =>
  hc.trans_le (count_mono h hd hlen.le)

/-! ## Find -/

/-- Find answers the largest symbol whose count is at most the given one (`41_model.md` R142). -/
theorem ctxFind_eq {c sym : Nat} (hsym : sym < ctxLen s m) (hlow : count s m sym ≤ c)
    (habove : ∀ d, sym < d → d < ctxLen s m → c < count s m d) : ctxFind s m c = sym + 1 := by
  refine findElem_eq hsym hlow fun e hlt hle => ?_
  obtain ⟨d, rfl⟩ : ∃ d, e = d + 1 := ⟨e - 1, by omega⟩
  exact habove d (by omega) (by omega)

/-- Below every symbol's count Find answers the virtual index (`41_model.md` R142). -/
theorem ctxFind_eq_zero {c : Nat} (h : ∀ d, d < ctxLen s m → c < count s m d) :
    ctxFind s m c = 0 := by
  obtain ⟨hle, hfound | hfound, -⟩ := findElem_spec (ctxTable s m) c (ctxLen s m)
  · exact hfound
  · by_contra hne
    obtain ⟨d, hd⟩ : ∃ d, ctxFind s m c = d + 1 := Nat.exists_eq_succ_of_ne_zero hne
    change (tableElem (ctxTable s m) (ctxFind s m c)).toNat ≤ c at hfound
    change ctxFind s m c ≤ ctxLen s m at hle
    rw [hd] at hfound hle
    exact absurd (h d hle) (Nat.not_lt.mpr hfound)

theorem ctxFind_le (s : State) (m : Fin 16) (c : Nat) : ctxFind s m c ≤ ctxLen s m :=
  (findElem_spec (ctxTable s m) c (ctxLen s m)).1

/-- A symbol's triple in a context that meets R40 is legal, from 1 to 16382 (`41_model.md` R141). -/
theorem triple_legal (h : ContextOk s m) {sym : Nat} (hsym : sym < ctxLen s m) :
    1 ≤ count s m sym ∧ count s m sym < count s m (sym + 1) ∧
      count s m (sym + 1) ≤ count s m (ctxLen s m) ∧ count s m (ctxLen s m) ≤ 16382 :=
  ⟨one_le_count h hsym.le, h.rising sym hsym, h.count_le hsym, Nat.le_of_lt_succ h.scaleHigh⟩

end

/-! ## The conversions -/

/-- Settles O27: both commands load the latch; the triple is legal by `triple_legal`. -/
theorem modelLookupResults : Obligations.ModelLookupResults := by
  intro s m sym hs
  simp only [exec_mdlI2s, exec_mdlScale]
  refine ⟨fun hinit hsym => ?_, fun hinit => ?_, fun huninit => ?_, fun hinit hsym => ?_⟩
  · refine ⟨_, runCommand_always hs (firstFailing_goodSymbol hinit hsym), rfl, fun hctx => ?_⟩
    obtain ⟨hone, hrise, hle, hscale⟩ := triple_legal hctx hsym
    exact ⟨⟨hrise, hle, hone.trans (hrise.le.trans hle), hscale.trans (by decide)⟩, hone, hscale⟩
  · rw [runCommand_always hs ((firstFailing_init hinit).trans firstFailing_nil)]
    simp only [retire, setRet0, latchScaleOf, setLatchScale, ctxScale]
  · exact ⟨runCommand_faults hs (firstFailing_uninit huninit),
      runCommand_faults hs (firstFailing_uninit huninit)⟩
  · exact runCommand_faults hs (firstFailing_badSymbol hinit hsym)

section
variable {s : State} {m : Fin 16}

/-- What MDL_S2I leaves when it finds the symbol `c` (`41_model.md` R143). -/
def symbolTaken (s : State) (m : Fin 16) (c : Nat) : State :=
  { s with
    ret0 := BitVec.ofNat 32 c, symLow := ctxCount s m c, symHigh := ctxCount s m (c + 1)
    symScale := ctxCount s m (ctxLen s m), cmdcnt := s.cmdcnt + 1 }

theorem retire_takeSymbol {c : Nat} (h : ctxFind s m s.cnt.toNat = c + 1) :
    retire (takeSymbol m s) = symbolTaken s m c := by
  rw [takeSymbol, h]
  rfl

/-- MDL_S2I of a count below the scale whose symbol is `c` (`41_model.md` R143). -/
theorem exec_mdlS2i_found (hs : flag s .fault = false) {c : Nat} (hinit : ctxBits s m ≠ 0)
    (hscale : s.cnt.toNat < count s m (ctxLen s m)) (hc : c < ctxLen s m)
    (hlow : count s m c ≤ s.cnt.toNat)
    (habove : ∀ d, c < d → d < ctxLen s m → s.cnt.toNat < count s m d) :
    exec (.mdlS2i m) s = .next (symbolTaken s m c) := by
  have hfind := ctxFind_eq hc hlow habove
  have hbelow : (countBelowScale s m).ok = true := decide_eq_true hscale
  have hfound : (symbolFound s m).ok = true := by simp [symbolFound, hfind]
  rw [exec_mdlS2i, runCommand_always hs (by simp [hinit, hbelow, hfound]),
    retire_takeSymbol hfind]

/-- In a context that meets R40 it is enough that the count lies in the symbol's interval. -/
theorem exec_mdlS2i_interval (hs : flag s .fault = false) (hctx : ContextOk s m) {c : Nat}
    (hc : c < ctxLen s m) (hlow : count s m c ≤ s.cnt.toNat)
    (hhigh : s.cnt.toNat < count s m (c + 1)) :
    exec (.mdlS2i m) s = .next (symbolTaken s m c) :=
  exec_mdlS2i_found hs (ctxBits_ne_zero hctx) (hhigh.trans_le (hctx.count_le hc)) hc hlow
    (count_above hctx hhigh)

end

/-- Settles O28: the symbol is what Find answers; the last fault is Find's virtual index. -/
theorem mdlS2iResult : Obligations.MdlS2iResult := by
  intro s m hs
  refine ⟨fun c hinit hscale hc hlow habove => exec_mdlS2i_found hs hinit hscale hc hlow habove,
    fun huninit => ?_, fun hinit hscale => ?_, fun hinit hscale hnone => ?_⟩ <;> rw [exec_mdlS2i]
  · exact runCommand_faults hs (firstFailing_uninit huninit)
  · have hbelow : (countBelowScale s m).ok = false := decide_eq_false (Nat.not_lt.mpr hscale)
    refine runCommand_faults hs (e := ⟨.operand, s.cnt.setWidth 32⟩) ?_
    simp only [firstFailing_init hinit, firstFailing_cons, hbelow]
    rfl
  · have hbelow : (countBelowScale s m).ok = true := decide_eq_true hscale
    have hfound : (symbolFound s m).ok = false := by simp [symbolFound, ctxFind_eq_zero hnone]
    refine runCommand_faults hs (e := ⟨.badSymbol, s.cnt.setWidth 32⟩) ?_
    simp only [firstFailing_init hinit, firstFailing_cons, hbelow, hfound]
    rfl

/-- Settles O29: in a rising table the symbol whose interval holds the count is the largest one
whose count is at most it, and every count from 1 below the scale lies in an interval. -/
theorem s2iInvertsI2s : Obligations.S2iInvertsI2s := by
  intro s m hs hctx
  refine ⟨fun sym hsym hlow hhigh => ⟨_, exec_mdlS2i_interval hs hctx hsym hlow hhigh, hs, ?_⟩,
    fun hone hscale => ?_⟩
  · have hlen := ctxLen_le hctx.width.2
    rw [symbolTaken, BitVec.toNat_ofNat]
    omega
  · obtain ⟨sym, hsym, hlow, hhigh⟩ := exists_symbol hctx hone hscale
    exact ⟨_, exec_mdlS2i_interval hs hctx hsym hlow hhigh, hs, hlow, hhigh⟩

end Sys2Proof.Machine.FrequencyModel

/-! PROOFS. The composites SYM_ENC and SYM_DEC (`42_coder.md` R179 to R182). Narrowing on the
registers is narrowing on natural numbers when the interval meets R32 and the triple is legal; the
encoder's loop and the decoder's loop with bits enough are in Laws/Coder; the decoder's loop that
runs out of bits is here. That the composites equal their primitives rests on one fact: neither loop
reads or writes CMDCNT or RET0. -/

namespace Sys2Proof.Machine.Composite

open FrequencyModel

/-! ## The commands as checks and pseudocode -/

section
variable (s : State) (m : Fin 16)

theorem exec_symEnc (sym : Nat) :
    exec (.symEnc m sym) s = runCommand [needSet s .encAct 0x3C, ctxInit s m, symOk s m sym]
      (encSym m sym) s := rfl

/-- The pseudocode of SYM_DEC (`42_coder.md` R181). -/
def symDecBody (s : State) : Run Unit :=
  (decSym m s).andThen fun c s => .done () (setRet0 (wordOfNat c) s)

theorem exec_symDec :
    exec (.symDec m) s =
      runCommand [needSet s .decAct 0x3D, ctxInit s m] (symDecBody m) s := rfl

theorem exec_acEnc :
    exec .acEnc s = runCommand [needSet s .encAct 0x31, tripleOk s] encodeLatch s := rfl

theorem exec_acDecCnt :
    exec .acDecCnt s = runCommand [needSet s .decAct 0x39, scaleOk s] (always reportCount) s := rfl

theorem exec_acDecRm :
    exec .acDecRm s = runCommand
      [needSet s .decAct 0x3A, tripleOk s, ⟨codeInside s, ⟨.desync, s.dcode.setWidth 32⟩⟩]
      removeLatch s := rfl

end

/-! ## Narrowing on natural numbers -/

section
variable {low high lc hc sc : Nat}

/-- `IntervalOk` leaves room for every count of a legal scale (`42_coder.md` R164). -/
theorem intervalOk_range {low high : Half} (h : IntervalOk low high) :
    low.toNat ≤ high.toNat ∧ 16383 ≤ high.toNat - low.toNat + 1 := by
  obtain ⟨hlow, hhigh, hquarter⟩ := h
  omega

/-- The narrowed interval is not empty (`42_coder.md` R164). -/
theorem narrowedLow_le_narrowedHigh (hsc : 0 < sc) (hrange : sc ≤ high - low + 1) (h : lc < hc) :
    narrowedLow low high lc sc ≤ narrowedHigh low high hc sc := by
  have step : (high - low + 1) * lc / sc + 1 ≤ (high - low + 1) * hc / sc := by
    rw [← Nat.add_div_right _ hsc]
    apply Nat.div_le_div_right
    calc (high - low + 1) * lc + sc ≤ (high - low + 1) * lc + (high - low + 1) := by omega
      _ = (high - low + 1) * (lc + 1) := by ring
      _ ≤ (high - low + 1) * hc := Nat.mul_le_mul_left _ h
  unfold narrowedLow narrowedHigh
  omega

/-- The narrowed interval lies in the interval (`42_coder.md` R164). -/
theorem narrowedHigh_le (hle : low ≤ high) (h : hc ≤ sc) :
    narrowedHigh low high hc sc ≤ high := by
  have step : (high - low + 1) * hc / sc ≤ high - low + 1 :=
    Nat.div_le_of_le_mul (by rw [Nat.mul_comm sc]; exact Nat.mul_le_mul_left _ h)
  unfold narrowedHigh
  omega

end

/-- What the coder needs of an interval and a triple: R32 and R163. -/
structure NarrowOk (low high lc hc sc : Half) : Prop where
  interval : IntervalOk low high
  rising : lc.toNat < hc.toNat
  below : hc.toNat ≤ sc.toNat
  scale : sc.toNat ≤ 16383

section
variable {low high lc hc sc : Half}

theorem rangeOf_eq (h : low.toNat ≤ high.toNat) :
    rangeOf low high = ((high.toNat - low.toNat + 1 : Nat) : Int) := by
  unfold rangeOf
  omega

theorem narrowLow_eq (h : low.toNat ≤ high.toNat) :
    narrowLow low high lc sc = (narrowedLow low.toNat high.toNat lc.toNat sc.toNat : Int) := by
  rw [narrowLow, rangeOf_eq h, narrowedLow]
  push_cast
  rfl

theorem narrowHigh_eq (h : NarrowOk low high lc hc sc) :
    narrowHigh low high hc sc = (narrowedHigh low.toNat high.toNat hc.toNat sc.toNat : Int) := by
  obtain ⟨hle, hrange⟩ := intervalOk_range h.interval
  have hpos : 1 ≤ (high.toNat - low.toNat + 1) * hc.toNat / sc.toNat :=
    (Nat.one_le_div_iff (by have := h.rising; have := h.below; omega)).mpr <|
      (h.scale.trans hrange).trans (Nat.le_mul_of_pos_right _ (Nat.zero_lt_of_lt h.rising))
  rw [narrowHigh, rangeOf_eq hle, narrowedHigh, Nat.cast_sub (by omega)]
  push_cast
  rfl

theorem NarrowOk.low_le_high (h : NarrowOk low high lc hc sc) :
    narrowedLow low.toNat high.toNat lc.toNat sc.toNat ≤
      narrowedHigh low.toNat high.toNat hc.toNat sc.toNat :=
  narrowedLow_le_narrowedHigh ((Nat.zero_lt_of_lt h.rising).trans_le h.below)
    (h.scale.trans (intervalOk_range h.interval).2) h.rising

theorem NarrowOk.high_lt (h : NarrowOk low high lc hc sc) :
    narrowedHigh low.toNat high.toNat hc.toNat sc.toNat < 65536 :=
  (narrowedHigh_le (intervalOk_range h.interval).1 h.below).trans_lt high.isLt

theorem NarrowOk.ofInt_low (h : NarrowOk low high lc hc sc) :
    (BitVec.ofInt 16 (narrowLow low high lc sc)).toNat =
      narrowedLow low.toNat high.toNat lc.toNat sc.toNat := by
  rw [narrowLow_eq (intervalOk_range h.interval).1, BitVec.ofInt_natCast, BitVec.toNat_ofNat]
  exact Nat.mod_eq_of_lt (h.low_le_high.trans_lt h.high_lt)

theorem NarrowOk.ofInt_high (h : NarrowOk low high lc hc sc) :
    (BitVec.ofInt 16 (narrowHigh low high hc sc)).toNat =
      narrowedHigh low.toNat high.toNat hc.toNat sc.toNat := by
  rw [narrowHigh_eq h, BitVec.ofInt_natCast, BitVec.toNat_ofNat]
  exact Nat.mod_eq_of_lt h.high_lt

end

/-- A symbol's triple narrows an interval that meets R32. -/
theorem narrowOk_of_symbol {s : State} {m : Fin 16} {sym : Nat} {low high : Half}
    (hctx : ContextOk s m) (hsym : sym < ctxLen s m) (h : IntervalOk low high) :
    NarrowOk low high (ctxCount s m sym) (ctxCount s m (sym + 1)) (ctxCount s m (ctxLen s m)) := by
  obtain ⟨-, hrise, hle, hscale⟩ := triple_legal hctx hsym
  exact ⟨h, hrise, hle, hscale.trans (by decide)⟩

/-! ## SYM_ENC -/

section
variable {s : State} {m : Fin 16} {sym : Nat}

/-- Coding the latch is the loop on integers (`42_coder.md` R164, R165, R167). -/
theorem encodeLatch_room (hok : NarrowOk s.elow s.ehigh s.symLow s.symHigh s.symScale)
    (hm : memoryWf s.ob = true) (hcap : s.cfg.obCap ≤ 2 ^ 20) (huf : s.euf.toNat + 16 < 2 ^ 32)
    (hroom : s.wpos.toNat + (encoded s).bits.length ≤ 8 * s.cfg.obCap) :
    ∃ ob, encodeLatch s = .done () (setRenormed (encoded s) ob s) ∧
      AppendsBits s.ob ob s.wpos.toNat (encoded s).bits := by
  have hloop : renormalise 16 (narrowEnc s).elow.toNat (narrowEnc s).ehigh.toNat
      (narrowEnc s).euf.toNat = encoded s := by
    simp only [narrowEnc, setEnc_elow, setEnc_ehigh, setEnc_euf, hok.ofInt_low, hok.ofInt_high]
    rfl
  have hle : (narrowEnc s).elow.toNat ≤ (narrowEnc s).ehigh.toNat := by
    simp only [narrowEnc, setEnc_elow, setEnc_ehigh, hok.ofInt_low, hok.ofInt_high]
    exact hok.low_le_high
  obtain ⟨ob, hrun, happ, -⟩ := encRenorm_room 16 (s := narrowEnc s) hm hcap hle huf
    (by rw [hloop]; exact hroom)
  rw [hloop] at hrun happ
  exact ⟨ob, hrun, happ⟩

end

/-- The interval that SYM_ENC codes with the symbol's triple in the latch. -/
theorem encoded_latched (s : State) (m : Fin 16) (sym : Nat) :
    encoded (latchScaleOf m (latchBoundsOf m sym s)) =
      codedInterval s.elow.toNat s.ehigh.toNat s.euf.toNat (count s m sym) (count s m (sym + 1))
        (count s m (ctxLen s m)) := rfl

/-- What SYM_ENC leaves before it is counted, when the coding made `r` and wrote `ob`. -/
theorem updateCtx_setRenormed (s : State) (m : Fin 16) (sym : Nat) (r : Renormed) (ob : Memory) :
    updateCtx m sym (setRenormed r ob (latchScaleOf m (latchBoundsOf m sym s))) = { s with
      symLow := ctxCount s m sym, symHigh := ctxCount s m (sym + 1)
      symScale := ctxCount s m (ctxLen s m)
      elow := BitVec.ofNat 16 r.low, ehigh := BitVec.ofNat 16 r.high
      euf := BitVec.ofNat 32 r.pending, ob := ob
      wpos := s.wpos + BitVec.ofNat 32 r.bits.length
      tables := s.tables.set m (updateTable (ctxTable s m) (ctxLen s m) sym) } := by
  rw [updateCtx_of_bank (s := s)
    (t := setRenormed r ob (latchScaleOf m (latchBoundsOf m sym s))) rfl rfl]
  rfl

/-- Settles O40: the latch loaded, `encodeLatch_room` codes it and `updateTable_spec` gives the
updated table, which the coding has not touched. -/
theorem symEncResult : Obligations.SymEncResult := by
  intro s m sym hs henc r
  have hr : encoded (latchScaleOf m (latchBoundsOf m sym s)) = r := encoded_latched s m sym
  clear_value r
  rw [exec_symEnc]
  refine ⟨fun hctx hcoder hsym hm hcap huf hroom => ?_, fun huninit => ?_, fun hinit hsym => ?_⟩
  · obtain ⟨ob, hcode, happ⟩ := encodeLatch_room (s := latchScaleOf m (latchBoundsOf m sym s))
      (narrowOk_of_symbol hctx hsym hcoder) hm hcap huf (by rw [hr]; exact hroom)
    rw [hr] at hcode happ
    have hbody : encSym m sym s = .done ()
        (updateCtx m sym (setRenormed r ob (latchScaleOf m (latchBoundsOf m sym s)))) := by
      rw [encSym, hcode, done_andThen]
    refine ⟨ob, updateTable (ctxTable s m) (ctxLen s m) sym, ?_, happ, updateTable_spec hctx sym⟩
    rw [runCommand_done hs ((firstFailing_needSet henc).trans
      (firstFailing_goodSymbol (ctxBits_ne_zero hctx) hsym)) hbody, updateCtx_setRenormed]
    rfl
  · exact runCommand_faults hs ((firstFailing_needSet henc).trans (firstFailing_uninit huninit))
  · exact runCommand_faults hs
      ((firstFailing_needSet henc).trans (firstFailing_badSymbol hinit hsym))

/-! ## The count of the decoder -/

section
variable {low high code lc hc sc : Nat}

/-- A code whose count is at least a symbol's lower count is not below the symbol's interval. -/
theorem narrowedLow_le_of_le_count (hcode : low ≤ code) (hsc : 0 < sc)
    (h : lc ≤ decoderCount low high code sc) : narrowedLow low high lc sc ≤ code := by
  have hmul : lc * (high - low + 1) ≤ (code - low + 1) * sc - 1 :=
    (Nat.le_div_iff_mul_le (Nat.succ_pos _)).mp h
  have hpos : 0 < (code - low + 1) * sc := Nat.mul_pos (Nat.succ_pos _) hsc
  have hlt : (high - low + 1) * lc / sc < code - low + 1 :=
    (Nat.div_lt_iff_lt_mul hsc).mpr (by rw [Nat.mul_comm (high - low + 1)]; omega)
  unfold narrowedLow
  omega

/-- A code whose count is below a symbol's upper count is not above the symbol's interval. -/
theorem le_narrowedHigh_of_count_lt (hcode : low ≤ code) (hsc : 0 < sc)
    (h : decoderCount low high code sc < hc) : code ≤ narrowedHigh low high hc sc := by
  have hmul : (code - low + 1) * sc - 1 < hc * (high - low + 1) :=
    (Nat.div_lt_iff_lt_mul (Nat.succ_pos _)).mp h
  have hle : code - low + 1 ≤ (high - low + 1) * hc / sc :=
    (Nat.le_div_iff_mul_le hsc).mpr (by rw [Nat.mul_comm (high - low + 1)]; omega)
  unfold narrowedHigh
  omega

end

/-- AC_DEC_CNT's count is the count on natural numbers (`42_coder.md` R174). -/
theorem countOf_eq {low high code sc : Half} (hlow : low.toNat ≤ code.toNat)
    (hhigh : low.toNat ≤ high.toNat) (hsc : 0 < sc.toNat) :
    countOf low high code sc =
      (decoderCount low.toNat high.toNat code.toNat sc.toNat : Int) := by
  have hpos : 1 ≤ (code.toNat - low.toNat + 1) * sc.toNat := Nat.mul_pos (Nat.succ_pos _) hsc
  have hcast : ((code.toNat : Int) - low.toNat + 1) * sc.toNat - 1 =
      (((code.toNat - low.toNat + 1) * sc.toNat - 1 : Nat) : Int) := by
    rw [Nat.cast_sub hpos]
    push_cast [Nat.cast_sub hlow]
    rfl
  rw [countOf, rangeOf_eq hhigh, hcast]
  exact (Int.natCast_ediv _ _).symm

/-! ## The loop on integers in two parts -/

/-- An interval that needs no further pass (`42_coder.md` R165). -/
def Settled (low high : Nat) : Prop :=
  low < 0x8000 ∧ 0x8000 ≤ high ∧ (low < 0x4000 ∨ 0xC000 ≤ high)

/-- A renormalisation `q` that goes on where `r` has stopped. -/
def followedBy (r q : Renormed) : Renormed :=
  { q with bits := r.bits ++ q.bits, passes := r.passes + q.passes }

theorem renormalise_of_settled {low high : Nat} (h : Settled low high) (n pending : Nat) :
    renormalise n low high pending = ⟨low, high, pending, [], 0⟩ := by
  obtain ⟨hlow, hhigh, hquarter⟩ := h
  cases n with
  | zero => rfl
  | succ n => rw [renormalise, if_neg (by omega), if_neg (by omega), if_neg (by omega)]

theorem followedBy_afterPass (bits : List Bool) (r q : Renormed) :
    followedBy (r.afterPass bits) q = (followedBy r q).afterPass bits := by
  simp only [followedBy, Renormed.afterPass, List.append_assoc, Nat.add_right_comm]

/-- `a + b` passes are `a` passes and then `b` passes. -/
theorem renormalise_add (a b low high pending : Nat) :
    renormalise (a + b) low high pending =
      followedBy (renormalise a low high pending)
        (renormalise b (renormalise a low high pending).low (renormalise a low high pending).high
          (renormalise a low high pending).pending) := by
  induction a generalizing low high pending with
  | zero => simp [renormalise, followedBy]
  | succ a ih =>
    rw [Nat.succ_add, renormalise, renormalise]
    split
    · rw [ih, ← followedBy_afterPass]; rfl
    · split
      · rw [ih, ← followedBy_afterPass]; rfl
      · split
        · rw [ih, ← followedBy_afterPass]; rfl
        · have hsettled : Settled low high := by unfold Settled; omega
          simp [renormalise_of_settled hsettled, followedBy]

/-! ## The decoder's loop in two parts -/

theorem decRenorm_of_settled {s : State} (htops : ¬topsAgree s.dlow s.dhigh = true)
    (he3 : ¬isE3 s.dlow s.dhigh = true) (n : Nat) : decRenorm n s = .done () s := by
  cases n with
  | zero => rfl
  | succ n => rw [decRenorm, if_neg htops, if_neg he3]

theorem decRenorm_add (a b : Nat) (s : State) :
    decRenorm (a + b) s = (decRenorm a s).andThen fun _ s => decRenorm b s := by
  induction a generalizing s with
  | zero => rw [Nat.zero_add]; rfl
  | succ a ih =>
    rw [Nat.succ_add, decRenorm, decRenorm]
    by_cases htops : topsAgree s.dlow s.dhigh = true
    · simp only [if_pos htops, andThen_assoc, ih]
    · by_cases he3 : isE3 s.dlow s.dhigh = true
      · simp only [if_neg htops, if_pos he3, andThen_assoc, ih]
      · simp only [if_neg htops, if_neg he3, done_andThen, decRenorm_of_settled htops he3]

/-! ## The decoder's loop without bits enough -/

theorem shiftLow_eq {v : Half} {n : Nat} (h : 2 * v.toNat % 0x10000 = n) :
    shiftLow v = BitVec.ofNat 16 n := by
  apply BitVec.eq_of_toNat_eq
  rw [shiftLow_toNat, BitVec.toNat_ofNat]
  omega

theorem shiftHigh_eq {v : Half} {n : Nat} (h : 2 * v.toNat % 0x10000 + 1 = n) :
    shiftHigh v = BitVec.ofNat 16 n := by
  apply BitVec.eq_of_toNat_eq
  rw [shiftHigh_toNat, BitVec.toNat_ofNat]
  omega

/-- A shift without a bit left has moved both bounds and not DCODE (`42_coder.md` R176). -/
theorem shiftDec_overrun {s : State} (h : s.rpos = s.rlen) :
    shiftDec s =
      .raised ⟨.brOverrun, s.rlen⟩ (setDec (shiftLow s.dlow) (shiftHigh s.dhigh) s) := by
  rw [shiftDec, getBit_overrun (by simp [h]), raised_andThen, setDec_rpos, h]

/-- What a pass without a bit left makes of the decoder's registers (`42_coder.md` R176). -/
def cutPass (s : State) (low high : Nat) : State :=
  { s with
    dlow := BitVec.ofNat 16 low, dhigh := BitVec.ofNat 16 high
    dcode :=
      if s.dlow.toNat < 0x8000 ∧ 0x8000 ≤ s.dhigh.toNat then s.dcode ^^^ 0x4000 else s.dcode }

/-- DecRenorm that must make a pass and has no bit left. -/
theorem decRenorm_noBits {s : State} (h : s.rpos = s.rlen) (hle : s.dlow.toNat ≤ s.dhigh.toNat)
    (hmore : ¬Settled s.dlow.toNat s.dhigh.toNat) (k p : Nat) :
    decRenorm (k + 1) s = .raised ⟨.brOverrun, s.rlen⟩
      (cutPass s (renormalise 1 s.dlow.toNat s.dhigh.toNat p).low
        (renormalise 1 s.dlow.toNat s.dhigh.toNat p).high) := by
  have hlt := s.dlow.isLt
  have hlt' := s.dhigh.isLt
  by_cases htops : topsAgree s.dlow s.dhigh = true
  · have hside := (topsAgree_iff hle).mp htops
    rw [decRenorm, if_pos htops, shiftDec_overrun h, raised_andThen, cutPass, if_neg (by omega)]
    rcases hside with hlower | hupper
    · rw [renormalise, if_pos hlower, shiftLow_eq (n := 2 * s.dlow.toNat) (by omega),
        shiftHigh_eq (n := 2 * s.dhigh.toNat + 1) (by omega)]
      rfl
    · rw [renormalise, if_neg (by omega), if_pos hupper,
        shiftLow_eq (n := 2 * (s.dlow.toNat - 0x8000)) (by omega),
        shiftHigh_eq (n := 2 * (s.dhigh.toNat - 0x8000) + 1) (by omega)]
      rfl
  · have hsplit : s.dlow.toNat < 0x8000 ∧ 0x8000 ≤ s.dhigh.toNat := by
      have := mt (topsAgree_iff hle).mpr htops
      omega
    have hquarter : 0x4000 ≤ s.dlow.toNat ∧ s.dhigh.toNat < 0xC000 := by
      unfold Settled at hmore
      omega
    have he3 := (isE3_iff hsplit.1 hsplit.2).mpr hquarter
    have hlow : shiftLow (straddleDec s).dlow = BitVec.ofNat 16 (2 * (s.dlow.toNat - 0x4000)) :=
      shiftLow_eq (by rw [straddleDec, setDec_dlow, e3Low_toNat]; omega)
    have hhigh : shiftHigh (straddleDec s).dhigh =
        BitVec.ofNat 16 (2 * (s.dhigh.toNat - 0x4000) + 1) :=
      shiftHigh_eq (by rw [straddleDec, setDec_dhigh, e3High_toNat (by omega)]; omega)
    rw [decRenorm, if_neg htops, if_pos he3, shiftDec_overrun (s := straddleDec s) h,
      raised_andThen, hlow, hhigh, cutPass, if_pos hsplit, renormalise, if_neg (by omega),
      if_neg (by omega), if_pos hquarter]
    rfl

/-- The decoder where DecRenorm has run out of bits, `r` being the whole passes and `cut` those and
the one that was cut (`42_coder.md` R176). -/
def stoppedLoop (s : State) (r cut : Renormed) : State :=
  let code := BitVec.ofNat 16 (carriedCode s s.dlow.toNat r)
  { s with
    dlow := BitVec.ofNat 16 cut.low, dhigh := BitVec.ofNat 16 cut.high
    dcode := if r.low < 0x8000 ∧ 0x8000 ≤ r.high then code ^^^ 0x4000 else code
    rpos := s.rlen }

theorem cutPass_setCarried {s : State} {r : Renormed} (hlow : (setCarried r s).dlow.toNat = r.low)
    (hhigh : (setCarried r s).dhigh.toNat = r.high)
    (hpos : (setCarried r s).rpos = (setCarried r s).rlen) (cut : Renormed) :
    cutPass (setCarried r s) cut.low cut.high = stoppedLoop s r cut := by
  have hrpos : s.rpos + BitVec.ofNat 32 r.passes = s.rlen := hpos
  rw [cutPass, hlow, hhigh]
  simp only [setCarried, stoppedLoop, hrpos]

/-- A loop that makes more than `a` passes makes its first `a` passes and is not settled then. -/
theorem renormalise_unsettled {a k low high p : Nat} (hle : low ≤ high) (hh : high < 0x10000)
    (h : a < (renormalise (a + k) low high p).passes) :
    (renormalise a low high p).passes = a ∧
      ¬Settled (renormalise a low high p).low (renormalise a low high p).high := by
  have hmore : ¬Settled (renormalise a low high p).low (renormalise a low high p).high := by
    intro hsettled
    have hpasses := renormalise_passes_le a low high p
    rw [renormalise_add, renormalise_of_settled hsettled] at h
    exact absurd h (Nat.not_lt.mpr hpasses)
  exact ⟨(renormalise_exit a p hle hh).resolve_right hmore, hmore⟩

/-- DecRenorm with too few bits: the whole passes run, the next one is cut (`42_coder.md` R176,
`60_exceptions.md` R287). -/
theorem decRenorm_overrun {n : Nat} {s : State} (hl : s.dlow.toNat ≤ s.dcode.toNat)
    (hh : s.dcode.toNat ≤ s.dhigh.toNat) (hroom : s.rpos.toNat ≤ s.rlen.toNat)
    (hshort : s.rlen.toNat < s.rpos.toNat + (renormalise n s.dlow.toNat s.dhigh.toNat 0).passes) :
    decRenorm n s = .raised ⟨.brOverrun, s.rlen⟩ (stoppedLoop s
      (renormalise (s.rlen.toNat - s.rpos.toNat) s.dlow.toNat s.dhigh.toNat 0)
      (renormalise (s.rlen.toNat - s.rpos.toNat + 1) s.dlow.toNat s.dhigh.toNat 0)) := by
  have hle := hl.trans hh
  have hlen := s.rlen.isLt
  have hn := renormalise_passes_le n s.dlow.toNat s.dhigh.toNat 0
  generalize hwhole : s.rlen.toNat - s.rpos.toNat = whole
  obtain ⟨k, rfl⟩ : ∃ k, n = whole + (k + 1) := ⟨n - whole - 1, by omega⟩
  obtain ⟨hpasses, hmore⟩ := renormalise_unsettled (k := k + 1) (p := 0) hle s.dhigh.isLt
    (show whole < _ by omega)
  obtain ⟨hle', hlt'⟩ := renormalise_interval whole 0 hle s.dhigh.isLt
  have hrun := (decRenorm_room whole hl hh 0 (by omega)).1
  rw [renormalise_add whole 1]
  generalize renormalise whole s.dlow.toNat s.dhigh.toNat 0 = r at *
  have hlow : (setCarried r s).dlow.toNat = r.low := Nat.mod_eq_of_lt (hle'.trans_lt hlt')
  have hhigh : (setCarried r s).dhigh.toNat = r.high := Nat.mod_eq_of_lt hlt'
  have hpos : (setCarried r s).rpos = (setCarried r s).rlen := by
    apply BitVec.eq_of_toNat_eq
    change (s.rpos + BitVec.ofNat 32 r.passes).toNat = s.rlen.toNat
    rw [BitVec.toNat_add, BitVec.toNat_ofNat]
    omega
  rw [decRenorm_add, hrun, done_andThen, ← cutPass_setCarried hlow hhigh hpos,
    decRenorm_noBits hpos (by omega) (by rwa [hlow, hhigh]) k r.pending, hlow, hhigh]
  rfl

/-! ## Removing the latch -/

section
variable {s : State}

/-- The latch narrows the decoder's interval to one that holds the code (`42_coder.md` R177). -/
structure RemoveOk (s : State) : Prop where
  narrow : NarrowOk s.dlow s.dhigh s.symLow s.symHigh s.symScale
  low : narrowedLow s.dlow.toNat s.dhigh.toNat s.symLow.toNat s.symScale.toNat ≤ s.dcode.toNat
  high : s.dcode.toNat ≤ narrowedHigh s.dlow.toNat s.dhigh.toNat s.symHigh.toNat s.symScale.toNat

theorem RemoveOk.narrowDec_dlow (h : RemoveOk s) : (narrowDec s).dlow.toNat =
    narrowedLow s.dlow.toNat s.dhigh.toNat s.symLow.toNat s.symScale.toNat :=
  h.narrow.ofInt_low

theorem RemoveOk.narrowDec_dhigh (h : RemoveOk s) : (narrowDec s).dhigh.toNat =
    narrowedHigh s.dlow.toNat s.dhigh.toNat s.symHigh.toNat s.symScale.toNat :=
  h.narrow.ofInt_high

theorem RemoveOk.loop_eq_removed (h : RemoveOk s) :
    renormalise 16 (narrowDec s).dlow.toNat (narrowDec s).dhigh.toNat 0 = removed s := by
  rw [h.narrowDec_dlow, h.narrowDec_dhigh, removed, codedInterval]

/-- Removing the latch with bits enough (`42_coder.md` R176, R177). -/
theorem removeLatch_room (h : RemoveOk s)
    (hroom : s.rpos.toNat + (removed s).passes ≤ s.rlen.toNat) :
    removeLatch s = .done ()
      (setRpos (s.rpos + BitVec.ofNat 32 (removed s).passes)
      (setDcode (BitVec.ofNat 16 (carriedCode s
        (narrowedLow s.dlow.toNat s.dhigh.toNat s.symLow.toNat s.symScale.toNat) (removed s)))
      (setDec (BitVec.ofNat 16 (removed s).low) (BitVec.ofNat 16 (removed s).high) s))) := by
  have hloop := h.loop_eq_removed
  have hrun := (decRenorm_room 16 (s := narrowDec s) (h.narrowDec_dlow.trans_le h.low)
    (h.high.trans_eq h.narrowDec_dhigh.symm) 0 (by rw [hloop]; exact hroom)).1
  rw [hloop] at hrun
  generalize removed s = r at *
  rw [removeLatch, hrun, setCarried, h.narrowDec_dlow]
  rfl

/-- Removing the latch with too few bits (`42_coder.md` R176, `60_exceptions.md` R287). -/
theorem removeLatch_overrun (h : RemoveOk s) (hpos : s.rpos.toNat ≤ s.rlen.toNat)
    (hshort : s.rlen.toNat < s.rpos.toNat + (removed s).passes) :
    removeLatch s = .raised ⟨.brOverrun, s.rlen⟩
      (stoppedDecoder s s.symLow.toNat s.symHigh.toNat s.symScale.toNat) := by
  have hrun := decRenorm_overrun (n := 16) (s := narrowDec s) (h.narrowDec_dlow.trans_le h.low)
    (h.high.trans_eq h.narrowDec_dhigh.symm) hpos (by rw [h.loop_eq_removed]; exact hshort)
  rw [removeLatch, hrun, stoppedLoop, h.narrowDec_dlow, h.narrowDec_dhigh]
  rfl

end

/-! ## SYM_DEC -/

section
variable {s : State} {m : Fin 16} {sym c : Nat}

/-- The decoder with the count `c` in CNT and the scale in the latch (`42_coder.md` R181). -/
def counted (s : State) (m : Fin 16) (c : Nat) : State :=
  { s with symScale := ctxCount s m (ctxLen s m), cnt := BitVec.ofNat 16 c }

/-- The same with the triple of `sym` in the latch. -/
def latched (s : State) (m : Fin 16) (sym c : Nat) : State :=
  { s with
    symLow := ctxCount s m sym, symHigh := ctxCount s m (sym + 1)
    symScale := ctxCount s m (ctxLen s m), cnt := BitVec.ofNat 16 c }

@[simp] theorem latched_tables : (latched s m sym c).tables = s.tables := by simp only [latched]

@[simp] theorem latched_mbits : (latched s m sym c).mbits = s.mbits := by simp only [latched]

theorem latchBoundsOf_counted : latchBoundsOf m sym (counted s m c) = latched s m sym c := by
  have htables : (counted s m c).tables = s.tables := rfl
  rw [latchBoundsOf, ctxCount_of_tables htables, ctxCount_of_tables htables]
  rfl

/-- The count that SYM_DEC takes (`42_coder.md` R174, R181). -/
theorem takeCount_latchScaleOf (hctx : ContextOk s m) (hdec : DecoderOk s)
    (hc : c = decoderCount s.dlow.toNat s.dhigh.toNat s.dcode.toNat (count s m (ctxLen s m))) :
    takeCount (latchScaleOf m s) = counted s m c := by
  obtain ⟨hinterval, hlow, hhigh⟩ := hdec
  have hcount := countOf_eq (high := s.dhigh) (sc := ctxScale s m) hlow (hlow.trans hhigh)
    (one_le_count hctx (le_refl _))
  have hcnt : BitVec.ofInt 16 (countOf s.dlow s.dhigh s.dcode (ctxScale s m)) =
      BitVec.ofNat 16 c := by
    rw [hcount, BitVec.ofInt_natCast, hc]
    rfl
  calc takeCount (latchScaleOf m s)
      = setCnt (BitVec.ofInt 16 (countOf s.dlow s.dhigh s.dcode (ctxScale s m)))
          (latchScaleOf m s) := rfl
    _ = counted s m c := by rw [hcnt]; rfl

theorem counted_cnt (hc : c < 65536) : (counted s m c).cnt.toNat = c := Nat.mod_eq_of_lt hc

/-- Where Find answers a symbol it is removed and the context updated (`42_coder.md` R181). -/
theorem decSym_of_find
    (hfind : ctxFind (takeCount (latchScaleOf m s)) m (takeCount (latchScaleOf m s)).cnt.toNat =
      sym + 1) :
    decSym m s = (removeLatch (latchBoundsOf m sym (takeCount (latchScaleOf m s)))).andThen
      fun _ s => .done sym (updateCtx m sym s) := by
  rw [decSym]
  simp only [hfind]
  rfl

/-- A count that lies in the interval of a symbol: the symbol is removed (`42_coder.md` R181). -/
theorem decSym_found (htake : takeCount (latchScaleOf m s) = counted s m c) (hc : c < 65536)
    (hfind : ctxFind s m c = sym + 1) :
    decSym m s = (removeLatch (latched s m sym c)).andThen fun _ s =>
      .done sym (updateCtx m sym s) := by
  rw [decSym_of_find (by rw [htake, counted_cnt hc]; exact hfind), htake, latchBoundsOf_counted]

/-- A count that lies in no interval (`42_coder.md` R181). -/
theorem decSym_lost (htake : takeCount (latchScaleOf m s) = counted s m c) (hc : c < 65536)
    (hfind : ctxFind s m c = 0) :
    decSym m s = .raised ⟨.badSymbol, (BitVec.ofNat 16 c).setWidth 32⟩ (counted s m c) := by
  have hfind' : ctxFind (counted s m c) m (counted s m c).cnt.toNat = 0 := by
    rw [counted_cnt hc]
    exact hfind
  rw [decSym]
  simp only [htake, hfind']
  rfl

/-- The symbol whose interval holds the count can be removed (`42_coder.md` R175, R177). -/
theorem removeOk_latched (hctx : ContextOk s m) (hdec : DecoderOk s) (hsym : sym < ctxLen s m)
    (hc : c = decoderCount s.dlow.toNat s.dhigh.toNat s.dcode.toNat (count s m (ctxLen s m)))
    (hlow : count s m sym ≤ c) (hhigh : c < count s m (sym + 1)) :
    RemoveOk (latched s m sym c) := by
  obtain ⟨hinterval, hcode, -⟩ := hdec
  have hscale : 0 < count s m (ctxLen s m) := one_le_count hctx (le_refl _)
  have hnarrow := narrowOk_of_symbol hctx hsym hinterval
  exact ⟨hnarrow,
    narrowedLow_le_of_le_count hcode hscale (hc ▸ hlow),
    le_narrowedHigh_of_count_lt hcode hscale (hc ▸ hhigh)⟩

/-- The latch and CNT are no part of the code that the loop carries. -/
theorem carriedCode_latched (s : State) (m : Fin 16) (sym c nl : Nat) (r : Renormed) :
    carriedCode (latched s m sym c) nl r = carriedCode s nl r := rfl

theorem removed_latched (s : State) (m : Fin 16) (sym c : Nat) :
    removed (latched s m sym c) = codedInterval s.dlow.toNat s.dhigh.toNat 0 (count s m sym)
      (count s m (sym + 1)) (count s m (ctxLen s m)) := rfl

theorem narrowedLow_latched (s : State) (m : Fin 16) (sym c : Nat) :
    narrowedLow (latched s m sym c).dlow.toNat (latched s m sym c).dhigh.toNat
        (latched s m sym c).symLow.toNat (latched s m sym c).symScale.toNat =
      narrowedLow s.dlow.toNat s.dhigh.toNat (count s m sym) (count s m (ctxLen s m)) := rfl

/-- What SYM_DEC leaves when the removal has left these decoder registers. -/
theorem retire_updateCtx_latched (s : State) (m : Fin 16) (sym c : Nat) (low high code : Half)
    (pos : Word) :
    retire (setRet0 (wordOfNat sym) (updateCtx m sym
      (setRpos pos (setDcode code (setDec low high (latched s m sym c)))))) = { s with
        symLow := ctxCount s m sym, symHigh := ctxCount s m (sym + 1)
        symScale := ctxCount s m (ctxLen s m), cnt := BitVec.ofNat 16 c
        dlow := low, dhigh := high, dcode := code, rpos := pos
        tables := s.tables.set m (updateTable (ctxTable s m) (ctxLen s m) sym)
        ret0 := BitVec.ofNat 32 sym, cmdcnt := s.cmdcnt + 1 } := by
  rw [updateCtx_of_bank (s := s)
    (t := setRpos pos (setDcode code (setDec low high (latched s m sym c)))) (by simp) (by simp)]
  simp only [retire, setRet0, setTable, setRpos, setDcode, setDec, latched, wordOfNat]

theorem stoppedDecoder_latched (s : State) (m : Fin 16) (sym c lc hc sc : Nat) :
    stoppedDecoder (latched s m sym c) lc hc sc = { stoppedDecoder s lc hc sc with
      symLow := ctxCount s m sym, symHigh := ctxCount s m (sym + 1)
      symScale := ctxCount s m (ctxLen s m), cnt := BitVec.ofNat 16 c } := by
  simp only [stoppedDecoder, carriedCode_latched]
  rfl

/-- What SYM_DEC makes of a count in a symbol's interval. -/
theorem symDecBody_found (hctx : ContextOk s m) (hdec : DecoderOk s) (hsym : sym < ctxLen s m)
    (hc : c = decoderCount s.dlow.toNat s.dhigh.toNat s.dcode.toNat (count s m (ctxLen s m)))
    (hlow : count s m sym ≤ c) (hhigh : c < count s m (sym + 1)) :
    symDecBody m s = (removeLatch (latched s m sym c)).andThen fun _ s =>
      .done () (setRet0 (wordOfNat sym) (updateCtx m sym s)) := by
  have hlt : c < 65536 := hhigh.trans (ctxCount s m (sym + 1)).isLt
  rw [symDecBody, decSym_found (takeCount_latchScaleOf hctx hdec hc) hlt
    (ctxFind_eq hsym hlow (count_above hctx hhigh)), andThen_assoc]
  rfl

end

/-- Settles O41: the symbol is what Find answers for the count; the removal is `removeLatch_room` or
`removeLatch_overrun`. -/
theorem symDecResult : Obligations.SymDecResult := by
  intro s m hs hact scale c
  have hc : c = decoderCount s.dlow.toNat s.dhigh.toNat s.dcode.toNat (count s m (ctxLen s m)) :=
    rfl
  clear_value c
  rw [exec_symDec]
  have hchecks (h : ContextOk s m) :
      firstFailing [needSet s .decAct 0x3D, ctxInit s m] = none :=
    (firstFailing_needSet hact).trans (firstFailing_init (ctxBits_ne_zero h))
  refine ⟨?found, ?overrun, ?lost, ?uninit⟩
  case found =>
    intro sym hctx hdec hsym hlow hhigh nl r hroom
    have hr : removed (latched s m sym c) = r := removed_latched s m sym c
    have hremove := removeLatch_room (removeOk_latched hctx hdec hsym hc hlow hhigh)
      (by rw [hr]; exact hroom)
    rw [hr, carriedCode_latched, narrowedLow_latched] at hremove
    clear_value r
    have hbody := symDecBody_found hctx hdec hsym hc hlow hhigh
    rw [hremove, done_andThen] at hbody
    refine ⟨updateTable (ctxTable s m) (ctxLen s m) sym, ?_, updateTable_spec hctx sym⟩
    rw [runCommand_done hs (hchecks hctx) hbody, retire_updateCtx_latched]
    rfl
  case overrun =>
    intro sym hctx hdec hsym hlow hhigh hpos hshort
    have hremove := removeLatch_overrun (removeOk_latched hctx hdec hsym hc hlow hhigh) hpos
      (by rw [removed_latched]; exact hshort)
    have hbody := symDecBody_found hctx hdec hsym hc hlow hhigh
    rw [hremove, stoppedDecoder_latched, raised_andThen] at hbody
    exact runCommand_raised hs (hchecks hctx) hbody
  case lost =>
    intro hctx hdec hzero
    have hfind : ctxFind s m 0 = 0 := ctxFind_eq_zero fun d hd => one_le_count hctx hd.le
    have hbody : symDecBody m s = .raised ⟨.badSymbol, 0⟩ (counted s m 0) := by
      rw [symDecBody, decSym_lost (takeCount_latchScaleOf hctx hdec (hzero ▸ hc)) (by decide) hfind]
      rfl
    exact runCommand_raised hs (hchecks hctx) hbody
  case uninit =>
    intro huninit
    exact runCommand_faults hs ((firstFailing_needSet hact).trans (firstFailing_uninit huninit))

/-! ## What does not touch RET0 and CMDCNT -/

/-- The state with other values in RET0 and CMDCNT, which the primitives write and the coder's loops
neither read nor write. -/
def withReport (ret count : Word) (s : State) : State := { s with ret0 := ret, cmdcnt := count }

/-- The state that a run reaches, changed. -/
def mapState {α : Type} (f : State → State) : Run α → Run α
  | .done a s => .done a (f s)
  | .raised t s => .raised t (f s)

/-- Pseudocode that neither reads nor writes RET0 and CMDCNT. -/
def ReportFree {α : Type} (body : State → Run α) : Prop :=
  ∀ ret count s, body (withReport ret count s) = mapState (withReport ret count) (body s)

/-- An update that neither reads nor writes RET0 and CMDCNT. -/
def ReportFreeUpdate (f : State → State) : Prop :=
  ∀ ret count s, f (withReport ret count s) = withReport ret count (f s)

section
variable {α β : Type} {body : State → Run α} {k : α → State → Run β} {f : State → State}

theorem ReportFree.andThen (hbody : ReportFree body) (hk : ∀ a, ReportFree (k a)) :
    ReportFree fun s => (body s).andThen k := by
  intro ret count s
  dsimp only
  rw [hbody]
  cases body s with
  | done a t => exact hk a ret count t
  | raised e t => rfl

theorem ReportFree.after (hbody : ReportFree body) (hf : ReportFreeUpdate f) :
    ReportFree fun s => body (f s) := by
  intro ret count s
  dsimp only
  rw [hf, hbody]

theorem ReportFree.done (hf : ReportFreeUpdate f) (a : α) : ReportFree fun s => .done a (f s) :=
  fun ret count s => congrArg (Run.done a) (hf ret count s)

/-- Where pseudocode that does not touch RET0 and CMDCNT completes, it completes for other values
there, and leaves them. -/
theorem ReportFree.of_done {ret count : Word} {s t : State} {a : α} (h : ReportFree body)
    (hrun : body (withReport ret count s) = .done a t) :
    ∃ u, body s = .done a (withReport s.ret0 s.cmdcnt u) ∧ t = withReport ret count u := by
  have hself := h s.ret0 s.cmdcnt s
  rw [h] at hrun
  cases hs : body s with
  | done b u =>
    rw [hs] at hrun hself
    obtain ⟨rfl, rfl⟩ := Run.done.inj hrun
    exact ⟨u, hs.symm.trans hself, rfl⟩
  | raised e u =>
    rw [hs] at hrun
    simp [mapState] at hrun

end

theorem demand_reportFree {ok : State → Bool} {t : State → Trap}
    (hok : ∀ ret count s, ok (withReport ret count s) = ok s)
    (ht : ∀ ret count s, t (withReport ret count s) = t s) :
    ReportFree fun s => demand (ok s) (t s) s := by
  intro ret count s
  dsimp only
  rw [hok, ht]
  cases ok s <;> rfl

theorem putBit_reportFree (b : Bool) : ReportFree (putBit b) :=
  (demand_reportFree (fun _ _ _ => rfl) fun _ _ _ => rfl).andThen fun _ =>
    .done (fun _ _ _ => by cases b <;> rfl) ()

theorem getBit_reportFree : ReportFree getBit :=
  (demand_reportFree (fun _ _ _ => rfl) fun _ _ _ => rfl).andThen fun _ _ _ _ => rfl

theorem drainPending_reportFree (b : Bool) (n : Nat) : ReportFree (drainPending b n) := by
  induction n with
  | zero => exact .done (fun _ _ _ => rfl) ()
  | succ n ih =>
    exact (putBit_reportFree b).andThen fun _ => ih.after (f := fun s => setEuf (s.euf - 1) s)
      fun _ _ _ => rfl

theorem emitBit_reportFree (b : Bool) : ReportFree (emitBit b) :=
  (putBit_reportFree b).andThen fun _ ret count s =>
    drainPending_reportFree (!b) s.euf.toNat ret count s

theorem deferBit_reportFree : ReportFree deferBit :=
  (demand_reportFree (fun _ _ _ => rfl) fun _ _ _ => rfl).andThen fun _ =>
    .done (fun _ _ _ => rfl) ()

theorem encRenorm_reportFree (n : Nat) : ReportFree (encRenorm n) := by
  induction n with
  | zero => exact .done (fun _ _ _ => rfl) ()
  | succ n ih =>
    intro ret count s
    have rest : ReportFree fun s => encRenorm n (shiftEnc s) := ih.after fun _ _ _ => rfl
    have helow : (withReport ret count s).elow = s.elow := rfl
    have hehigh : (withReport ret count s).ehigh = s.ehigh := rfl
    rw [encRenorm, encRenorm, helow, hehigh]
    split
    · exact (emitBit_reportFree _).andThen (fun _ => rest) ret count s
    · split
      · exact deferBit_reportFree.andThen (fun _ => rest) ret count s
      · rfl

theorem encodeLatch_reportFree : ReportFree encodeLatch :=
  (encRenorm_reportFree renormPasses).after fun _ _ _ => rfl

theorem shiftDec_reportFree : ReportFree shiftDec :=
  (getBit_reportFree.after (f := fun s => setDec (shiftLow s.dlow) (shiftHigh s.dhigh) s)
    fun _ _ _ => rfl).andThen fun _ => .done (fun _ _ _ => rfl) ()

theorem decRenorm_reportFree (n : Nat) : ReportFree (decRenorm n) := by
  induction n with
  | zero => exact .done (fun _ _ _ => rfl) ()
  | succ n ih =>
    intro ret count s
    have hdlow : (withReport ret count s).dlow = s.dlow := rfl
    have hdhigh : (withReport ret count s).dhigh = s.dhigh := rfl
    rw [decRenorm, decRenorm, hdlow, hdhigh]
    split
    · exact shiftDec_reportFree.andThen (fun _ => ih) ret count s
    · split
      · exact (shiftDec_reportFree.after (f := straddleDec) fun _ _ _ => rfl).andThen (fun _ => ih)
          ret count s
      · rfl

theorem removeLatch_reportFree : ReportFree removeLatch :=
  (decRenorm_reportFree renormPasses).after fun _ _ _ => rfl

theorem updateCtx_reportFree (m : Fin 16) (sym : Nat) : ReportFreeUpdate (updateCtx m sym) :=
  fun _ _ s => updateCtx_of_bank (s := s) rfl rfl

/-! ## Runs of commands -/

/-- A command that leaves no fault behind has met its checks and run its pseudocode to the end. -/
theorem runCommand_completed {cs : List Check} {body : State → Run Unit} {s u : State}
    (h : runCommand cs body s = .next u) (hu : flag u .fault = false) :
    flag s .fault = false ∧ firstFailing cs = none ∧ ∃ v, body s = .done () v ∧ u = retire v := by
  rcases runCommand_cases cs body s with ⟨hs, h'⟩ | ⟨_, e, _, h'⟩ | ⟨hs, hc, v, hv, h'⟩ |
    ⟨_, _, e, v, _, h'⟩ <;> obtain rfl := Host.Outcome.next.inj (h.symm.trans h')
  · exact absurd (hs.symm.trans hu) (by decide)
  · exact absurd hu (by simp)
  · exact ⟨hs, hc, v, hv, rfl⟩
  · exact absurd hu (by simp)

/-- The first command of a run that ends has completed, and the rest runs from there. -/
theorem runAll_cons_completed {i : Instr} {is : List Instr} {cs : List Check}
    {body : State → Run Unit} {s t : State} (hexec : exec i s = runCommand cs body s)
    (h : runAll (i :: is) s = some t) :
    flag s .fault = false ∧ firstFailing cs = none ∧
      ∃ v, body s = .done () v ∧ runAll is (retire v) = some t := by
  obtain ⟨u, hu⟩ := runCommand_answers cs body s
  rw [runAll, hexec, hu] at h
  by_cases hflag : flag u .fault = true
  · simp [hflag] at h
  · obtain ⟨hs, hc, v, hv, rfl⟩ := runCommand_completed hu (Bool.eq_false_of_not_eq_true hflag)
    exact ⟨hs, hc, v, hv, by simpa [hflag] using h⟩

/-- The same for a command that only updates the state. -/
theorem runAll_cons_always {i : Instr} {is : List Instr} {cs : List Check} {f : State → State}
    {s t : State} (hexec : exec i s = runCommand cs (always f) s)
    (h : runAll (i :: is) s = some t) :
    flag s .fault = false ∧ firstFailing cs = none ∧ runAll is (retire (f s)) = some t := by
  obtain ⟨hs, hc, v, hv, hrest⟩ := runAll_cons_completed hexec h
  obtain ⟨-, rfl⟩ := Run.done.inj hv
  exact ⟨hs, hc, hrest⟩

theorem flag_of_needSet {s : State} {f : Flag} {opc : Word} {cs : List Check}
    (h : firstFailing (needSet s f opc :: cs) = none) : flag s f = true :=
  firstFailing_eq_none.mp h _ List.mem_cons_self

/-! ## The composites equal their primitives -/

theorem retire_withReport (ret count : Word) (s : State) :
    retire (withReport ret count s) = withReport ret (count + 1) s := rfl

theorem retire_updateCtx_withReport (m : Fin 16) (sym : Nat) (ret count : Word) (s : State) :
    retire (updateCtx m sym (withReport ret count s)) =
      withReport ret (count + 1) (updateCtx m sym s) := by
  rw [updateCtx_reportFree, retire_withReport]

/-- SYM_ENC leaves what MDL_I2S, AC_ENC, MDL_UPD leave (`42_coder.md` R180). -/
theorem symEnc_eq_primitives {s t : State} {m : Fin 16} {sym : Nat}
    (h : runAll [.mdlI2s m sym, .acEnc, .mdlUpd m sym] s = some t) :
    exec (.symEnc m sym) s = .next { t with cmdcnt := s.cmdcnt + 1 } := by
  obtain ⟨hs, hlookup, h⟩ := runAll_cons_always (exec_mdlI2s s m sym) h
  obtain ⟨-, hflag, e', hcode, h⟩ := runAll_cons_completed (exec_acEnc _) h
  obtain ⟨-, -, h⟩ := runAll_cons_always (exec_mdlUpd _ m sym) h
  have henc : flag s .encAct = true := flag_of_needSet hflag
  obtain ⟨e, he, rfl⟩ := encodeLatch_reportFree.of_done hcode
  rw [retire_withReport, retire_updateCtx_withReport] at h
  obtain rfl := Option.some.inj h
  have hbody : encSym m sym s = .done () (updateCtx m sym (withReport s.ret0 s.cmdcnt e)) := by
    rw [encSym, he, done_andThen]
    rfl
  rw [exec_symEnc, runCommand_done hs ((firstFailing_needSet henc).trans hlookup) hbody,
    retire_updateCtx_withReport]
  rfl

section
variable {s : State} {m : Fin 16} {sym : Nat}

/-- The state in which SYM_DEC looks for its symbol is that in which MDL_S2I does. -/
theorem reportCount_latchScale (ret : Word) (s : State) (m : Fin 16) :
    retire (reportCount (retire (setRet0 ret (latchScaleOf m s)))) =
      withReport ((takeCount (latchScaleOf m s)).cnt.setWidth 32) (s.cmdcnt + 1 + 1)
        (takeCount (latchScaleOf m s)) := by
  simp only [retire, reportCount, takeCount, setRet0, latchScaleOf, setLatchScale, setCnt,
    withReport]

theorem ctxFind_ne_zero_of_checks
    (h : firstFailing [ctxInit s m, countBelowScale s m, symbolFound s m] = none) :
    ctxFind s m s.cnt.toNat ≠ 0 := by
  have hfound : (symbolFound s m).ok = true := firstFailing_eq_none.mp h _ (by simp)
  simpa [symbolFound] using hfound

theorem latchScaleOf_self (h : s.symScale = ctxScale s m) : latchScaleOf m s = s := by
  rw [latchScaleOf, ← h]
  rfl

/-- MDL_S2I writes the bounds of its symbol and RET0; the scale is in the latch already. -/
theorem takeSymbol_withReport {ret count : Word} (hscale : s.symScale = ctxScale s m)
    (hfind : ctxFind s m s.cnt.toNat = sym + 1) :
    takeSymbol m (withReport ret count s) =
      withReport (wordOfNat sym) count (latchBoundsOf m sym s) := by
  have hfind' : ctxFind (withReport ret count s) m (withReport ret count s).cnt.toNat = sym + 1 :=
    hfind
  rw [takeSymbol, hfind', Nat.add_sub_cancel]
  exact latchScaleOf_self (s := withReport (wordOfNat sym) count (latchBoundsOf m sym s)) hscale

theorem wordOfNat_toNat_of_find {c : Nat} (hfind : ctxFind s m c = sym + 1) :
    (wordOfNat sym).toNat = sym := by
  have hle := ctxFind_le s m c
  have hlen : ctxLen s m ≤ 2 ^ 15 :=
    Nat.pow_le_pow_right (by decide) (Nat.le_of_lt_succ (s.mbits.get m).isLt)
  rw [wordOfNat, BitVec.toNat_ofNat]
  omega

/-- SYM_DEC leaves what MDL_SCALE, AC_DEC_CNT, MDL_S2I, AC_DEC_RM, MDL_UPD leave
(`42_coder.md` R182). -/
theorem symDec_eq_primitives {s a b t : State} {m : Fin 16}
    (hlook : runAll [.mdlScale m, .acDecCnt, .mdlS2i m] s = some a)
    (hremove : runAll [.acDecRm] a = some b) (hupd : runAll [.mdlUpd m a.ret0.toNat] b = some t) :
    exec (.symDec m) s = .next { t with cmdcnt := s.cmdcnt + 1 } := by
  obtain ⟨hs, hinit, hlook⟩ := runAll_cons_always (exec_mdlScale s m) hlook
  obtain ⟨-, hflag, hlook⟩ := runAll_cons_always (exec_acDecCnt _) hlook
  obtain ⟨-, hfound, hlook⟩ := runAll_cons_always (exec_mdlS2i _ m) hlook
  have hact : flag s .decAct = true := flag_of_needSet hflag
  rw [reportCount_latchScale] at hlook hfound
  have hne : ctxFind (takeCount (latchScaleOf m s)) m
      (takeCount (latchScaleOf m s)).cnt.toNat ≠ 0 := ctxFind_ne_zero_of_checks hfound
  obtain ⟨sym, hfind⟩ := Nat.exists_eq_succ_of_ne_zero hne
  rw [takeSymbol_withReport rfl hfind, retire_withReport] at hlook
  obtain rfl := Option.some.inj hlook
  obtain ⟨-, -, d', hrun, hremove⟩ := runAll_cons_completed (exec_acDecRm _) hremove
  obtain ⟨d, hd, rfl⟩ := removeLatch_reportFree.of_done hrun
  obtain rfl := Option.some.inj hremove
  obtain ⟨-, -, hupd⟩ := runAll_cons_always (exec_mdlUpd _ m _) hupd
  have hsym : (withReport (wordOfNat sym) (s.cmdcnt + 1 + 1 + 1)
      (latchBoundsOf m sym (takeCount (latchScaleOf m s)))).ret0.toNat = sym :=
    wordOfNat_toNat_of_find hfind
  rw [hsym, retire_withReport, retire_updateCtx_withReport] at hupd
  obtain rfl := Option.some.inj hupd
  have hbody : symDecBody m s = .done () (setRet0 (wordOfNat sym) (updateCtx m sym
      (withReport s.ret0 s.cmdcnt d))) := by
    rw [symDecBody, decSym_of_find hfind, hd]
    rfl
  rw [exec_symDec, runCommand_done hs ((firstFailing_needSet hact).trans hinit) hbody,
    updateCtx_reportFree]
  rfl

end

/-- Settles O42: neither loop of the coder touches RET0 and CMDCNT, so that it leaves the same
inside the composite as inside the primitive. -/
theorem compositesEqualPrimitives : Obligations.CompositesEqualPrimitives :=
  ⟨fun _ _ _ _ => symEnc_eq_primitives, fun _ _ _ _ _ => symDec_eq_primitives⟩

end Sys2Proof.Machine.Composite

/-! PROOFS. The arithmetic coder (`42_coder.md`): narrowing, the six commands, and that encoder and
decoder narrow alike. What a command does with room and bits enough rests on the loops of
Laws/Coder. Where nothing is known of room and bits, `Run.Ends` says what holds if the pseudocode
ends at all: both loops then have made the passes of the loop on integers. -/

namespace Sys2Proof.Machine

/-! ## What holds where a run ends -/

/-- A property of the result and the state of a run that is done; a raised fault has none. -/
def Run.Ends {α : Type} (p : α → State → Prop) : Run α → Prop
  | .done a s => p a s
  | .raised _ _ => True

section
variable {α β : Type} {p q : α → State → Prop} {r : Run α}

theorem Run.Ends.of_done {a : α} {t : State} (h : r.Ends p) (hr : r = .done a t) : p a t := by
  subst hr
  exact h

theorem Run.ends_of_done (h : ∀ a t, r = .done a t → p a t) : r.Ends p := by
  cases r with
  | done a t => exact h a t rfl
  | raised e t => trivial

theorem Run.Ends.andThen {k : α → State → Run β} {q : β → State → Prop} (h : r.Ends p)
    (hk : ∀ a s, p a s → (k a s).Ends q) : (r.andThen k).Ends q := by
  cases r with
  | done a s => exact hk a s h
  | raised e s => trivial

theorem Run.Ends.imp (h : r.Ends p) (hpq : ∀ a s, p a s → q a s) : r.Ends q := by
  cases r with
  | done a s => exact hpq a s h
  | raised e s => trivial

theorem demand_ends (ok : Bool) (e : Trap) (s : State) :
    (demand ok e s).Ends fun _ t => ok = true ∧ t = s := by
  cases ok with
  | true => exact ⟨rfl, rfl⟩
  | false => trivial

end

end Sys2Proof.Machine

namespace Sys2Proof.Machine.ArithmeticCoder

open FrequencyModel Composite

/-! ## The commands as checks and pseudocode -/

section
variable (s : State)

theorem exec_acEncInit :
    exec .acEncInit s =
      runCommand [needSet s .bwAct 0x30, needClear s .encAct 0x30] (always openEncoder) s := rfl

theorem exec_acEncFlush :
    exec .acEncFlush s = runCommand [needSet s .encAct 0x32] closeSegment s := rfl

theorem exec_acDecInit :
    exec .acDecInit s = runCommand [needSet s .brAct 0x38, bitsAvailable s 16] openDecoder s := rfl

end

/-! ## The checks -/

section
variable {s : State} {cs : List Check}

theorem firstFailing_unset {f : Flag} {opc : Word} (h : flag s f = false) :
    firstFailing (needSet s f opc :: cs) = some ⟨.seq, opc⟩ := by
  simp [h]

theorem firstFailing_clear {f : Flag} {opc : Word} (h : flag s f = false) :
    firstFailing (needClear s f opc :: cs) = firstFailing cs := by
  simp [h]

theorem firstFailing_notClear {f : Flag} {opc : Word} (h : flag s f = true) :
    firstFailing (needClear s f opc :: cs) = some ⟨.seq, opc⟩ := by
  simp [h]

theorem scaleLegal_iff :
    scaleLegal s = true ↔ 1 ≤ s.symScale.toNat ∧ s.symScale.toNat ≤ 16383 := by
  simp [scaleLegal]

theorem tripleLegal_iff : tripleLegal s = true ↔ LatchOk s := by
  simp only [tripleLegal, Bool.and_eq_true, decide_eq_true_eq, scaleLegal_iff, LatchOk, and_assoc]

theorem firstFailing_legalTriple (h : LatchOk s) :
    firstFailing (tripleOk s :: cs) = firstFailing cs := by
  rw [firstFailing_cons, tripleOk, if_pos (tripleLegal_iff.mpr h)]

theorem firstFailing_badTriple (h : ¬LatchOk s) :
    firstFailing (tripleOk s :: cs) = some ⟨.badTriple, tripleInfo s⟩ := by
  rw [firstFailing_cons, tripleOk, if_neg (mt tripleLegal_iff.mp h)]

end

/-! ## The flags of the segments (`10_state.md` R23) -/

section
variable (st : Word)

theorem statusWith_encAct_true : statusWith st .encAct true = st ||| 0x10 := rfl

theorem statusWith_encAct_false : statusWith st .encAct false = st &&& 0xFFFFFFEF := rfl

theorem statusWith_decAct_true : statusWith st .decAct true = st ||| 0x20 := rfl

end

/-! ## Narrowing -/

/-- A legal latch narrows an interval that meets R32. -/
theorem narrowOk_of_latchOk {s : State} {low high : Half} (hlatch : LatchOk s)
    (h : IntervalOk low high) : NarrowOk low high s.symLow s.symHigh s.symScale := by
  obtain ⟨hrise, hbelow, -, hscale⟩ := hlatch
  exact ⟨h, hrise, hbelow, hscale⟩

/-- Settles O31: on registers narrowing is narrowing on natural numbers, which stays inside. -/
theorem narrowStaysInside : Obligations.NarrowStaysInside := by
  intro low high lc hc sc hinterval hrise hbelow hscale
  have hok : NarrowOk low high lc hc sc := ⟨hinterval, hrise, hbelow, hscale⟩
  have hle := (intervalOk_range hinterval).1
  rw [narrowLow_eq hle, narrowHigh_eq hok]
  exact ⟨by exact_mod_cast Nat.le_add_right _ _, by exact_mod_cast hok.low_le_high,
    by exact_mod_cast narrowedHigh_le hle hbelow, rfl, rfl⟩

section
variable {low high lc hc sc : Half}

/-- A renormalised interval meets R32 (`42_coder.md` R165). -/
theorem codedInterval_settled (h : NarrowOk low high lc hc sc) (pending : Nat) :
    Settled (codedInterval low.toNat high.toNat pending lc.toNat hc.toNat sc.toNat).low
      (codedInterval low.toNat high.toNat pending lc.toNat hc.toNat sc.toNat).high :=
  renormalise_ok pending h.low_le_high h.high_lt

theorem codedInterval_high_lt (h : NarrowOk low high lc hc sc) (pending : Nat) :
    (codedInterval low.toNat high.toNat pending lc.toNat hc.toNat sc.toNat).high < 65536 :=
  (renormalise_interval 16 pending h.low_le_high h.high_lt).2

end

theorem intervalOk_ofNat {low high : Nat} (h : Settled low high) (hlt : high < 65536) :
    IntervalOk (BitVec.ofNat 16 low) (BitVec.ofNat 16 high) := by
  have hlow : (BitVec.ofNat 16 low).toNat = low := Nat.mod_eq_of_lt (h.1.trans (by decide))
  have hhigh : (BitVec.ofNat 16 high).toNat = high := Nat.mod_eq_of_lt hlt
  rw [IntervalOk, hlow, hhigh]
  exact h

/-! ## AC_ENC_INIT -/

/-- Settles O30: two checks on the unit state, then three registers and a flag. -/
theorem acEncInitResult : Obligations.AcEncInitResult := by
  intro s hs
  rw [exec_acEncInit]
  refine ⟨fun hbw henc => ?_, fun hbad => runCommand_faults hs (e := ⟨.seq, 0x30⟩) ?_⟩
  · rw [runCommand_always hs
      ((firstFailing_needSet hbw).trans ((firstFailing_clear henc).trans firstFailing_nil))]
    simp only [retire, openEncoder, setFlag, setEuf, setEnc, statusWith_encAct_true]
  · cases hbw : flag s .bwAct with
    | false => exact firstFailing_unset hbw
    | true =>
      have henc : flag s .encAct = true := hbad.resolve_left (by simp [hbw])
      exact (firstFailing_needSet hbw).trans (firstFailing_notClear henc)

/-! ## AC_ENC -/

section
variable {s : State}

/-- Narrowing the encoder's registers gives the interval the loop on integers starts from. -/
theorem narrowEnc_elow (h : NarrowOk s.elow s.ehigh s.symLow s.symHigh s.symScale) :
    (narrowEnc s).elow.toNat =
      narrowedLow s.elow.toNat s.ehigh.toNat s.symLow.toNat s.symScale.toNat := h.ofInt_low

theorem narrowEnc_ehigh (h : NarrowOk s.elow s.ehigh s.symLow s.symHigh s.symScale) :
    (narrowEnc s).ehigh.toNat =
      narrowedHigh s.elow.toNat s.ehigh.toNat s.symHigh.toNat s.symScale.toNat := h.ofInt_high

theorem narrowEnc_ordered (h : NarrowOk s.elow s.ehigh s.symLow s.symHigh s.symScale) :
    (narrowEnc s).elow.toNat ≤ (narrowEnc s).ehigh.toNat := by
  rw [narrowEnc_elow h, narrowEnc_ehigh h]
  exact h.low_le_high

theorem encLoop_eq_encoded (h : NarrowOk s.elow s.ehigh s.symLow s.symHigh s.symScale) :
    renormalise 16 (narrowEnc s).elow.toNat (narrowEnc s).ehigh.toNat s.euf.toNat = encoded s := by
  rw [narrowEnc_elow h, narrowEnc_ehigh h, encoded, codedInterval]

/-- Coding the latch with room, `encodeLatch_room` with the form of OB besides. -/
theorem encodeLatch_appends (h : NarrowOk s.elow s.ehigh s.symLow s.symHigh s.symScale)
    (hm : memoryWf s.ob = true) (hcap : s.cfg.obCap ≤ 2 ^ 20) (huf : s.euf.toNat + 16 < 2 ^ 32)
    (hroom : s.wpos.toNat + (encoded s).bits.length ≤ 8 * s.cfg.obCap) :
    ∃ ob, encodeLatch s = .done () (setRenormed (encoded s) ob s) ∧
      AppendsBits s.ob ob s.wpos.toNat (encoded s).bits ∧ memoryWf ob = true := by
  have hloop := encLoop_eq_encoded h
  obtain ⟨ob, hrun, happ, hwf⟩ := encRenorm_room 16 (s := narrowEnc s) hm hcap
    (narrowEnc_ordered h) huf (le_of_eq_of_le (congrArg (s.wpos.toNat + ·.bits.length) hloop) hroom)
  exact ⟨ob, hloop ▸ hrun, hloop ▸ happ, hwf⟩

theorem encoded_bits_add_pending (s : State) :
    (encoded s).bits.length + (encoded s).pending = (encoded s).passes + s.euf.toNat :=
  renormalise_bits ..

theorem encoded_passes_le (s : State) : (encoded s).passes ≤ 16 := renormalise_passes_le ..

/-- The registers after AC_ENC meet R32. -/
theorem encoderOk_setRenormed (h : NarrowOk s.elow s.ehigh s.symLow s.symHigh s.symScale)
    (ob : Memory) : EncoderOk (setRenormed (encoded s) ob s) :=
  intervalOk_ofNat (codedInterval_settled h _) (codedInterval_high_lt h _)

/-- Every pass writes a bit or defers one (`42_coder.md` R168). -/
theorem setRenormed_wpos_add_euf (ob : Memory) (hcap : s.cfg.obCap ≤ 2 ^ 20)
    (huf : s.euf.toNat + 16 < 2 ^ 32)
    (hroom : s.wpos.toNat + (encoded s).bits.length ≤ 8 * s.cfg.obCap) :
    (setRenormed (encoded s) ob s).wpos.toNat + (setRenormed (encoded s) ob s).euf.toNat =
      s.wpos.toNat + s.euf.toNat + (encoded s).passes := by
  have hbits := encoded_bits_add_pending s
  have hpasses := encoded_passes_le s
  simp only [setRenormed, BitVec.toNat_add, BitVec.toNat_ofNat]
  omega

end

/-- Settles O32: the latch is coded by `encodeLatch_appends`; the rest is about the interval and the
bits of the loop on integers. -/
theorem acEncResult : Obligations.AcEncResult := by
  intro s hs henc
  rw [exec_acEnc]
  refine ⟨fun hlatch hcoder hm hcap huf hroom => ?_, fun hlatch => ?_⟩
  · have hok := narrowOk_of_latchOk hlatch hcoder
    obtain ⟨ob, hrun, happ, -⟩ := encodeLatch_appends hok hm hcap huf hroom
    refine ⟨ob, retire (setRenormed (encoded s) ob s), ?_, rfl, happ, ?_, ?_⟩
    · exact runCommand_done hs ((firstFailing_needSet henc).trans (firstFailing_legalTriple hlatch))
        hrun
    · exact encoderOk_setRenormed hok ob
    · exact setRenormed_wpos_add_euf ob hcap huf hroom
  · exact runCommand_faults hs ((firstFailing_needSet henc).trans (firstFailing_badTriple hlatch))

/-! ## AC_ENC_FLUSH -/

section
variable {s : State}

theorem putList_singleton (b : Bool) (s : State) : putList [b] s = putBit b s := by
  rw [putList]
  cases putBit b s <;> rfl

/-- The bits of a flush before its zeros (`42_coder.md` R169). -/
def signBits (s : State) : List Bool :=
  s.elow.getLsbD 14 :: List.replicate (s.euf.toNat + 1) (!s.elow.getLsbD 14)

theorem signBits_length (s : State) : (signBits s).length = s.euf.toNat + 2 := by
  simp only [signBits, List.length_cons, List.length_replicate]

/-- Where writing a list of bits ends it has moved WPOS and changed OB. -/
theorem putList_ends (bits : List Bool) (s : State) :
    (putList bits s).Ends fun _ t => ∃ m w, t = setWpos w (setOb m s) := by
  rcases putList_cases bits s with ⟨m, w, h⟩ | ⟨m, w, h⟩ <;> rw [h]
  · exact ⟨m, w, rfl⟩
  · trivial

theorem andThen_congr {α β : Type} {r : Run α} {k l : α → State → Run β}
    (h : r.Ends fun a t => k a t = l a t) : r.andThen k = r.andThen l := by
  cases r with
  | done a t => exact h
  | raised e t => rfl

/-- AC_ENC_FLUSH writes two lists of bits and clears EUF between them. -/
theorem closeSegment_eq (s : State) :
    closeSegment s = (putList (signBits s) s).andThen fun _ t =>
      (putList (List.replicate 14 false) (setEuf 0 t)).andThen fun _ t =>
        .done () (setFlag .encAct false t) := by
  rw [signBits, putList, andThen_assoc, closeSegment]
  refine andThen_congr ?_
  rw [← putList_singleton]
  refine (putList_ends _ s).imp ?_
  rintro _ _ ⟨m, w, rfl⟩
  simp only [setWpos_elow, setWpos_euf, setOb_elow, setOb_euf, putRepeat_eq]

/-- What AC_ENC_FLUSH does with room. -/
theorem closeSegment_room (hm : memoryWf s.ob = true) (hcap : s.cfg.obCap ≤ 2 ^ 20)
    (hroom : s.wpos.toNat + s.euf.toNat + 16 ≤ 8 * s.cfg.obCap) :
    ∃ m, closeSegment s = .done () (setFlag .encAct false
        (setWpos (s.wpos + BitVec.ofNat 32 (s.euf.toNat + 16)) (setOb m (setEuf 0 s)))) ∧
      AppendsBits s.ob m s.wpos.toNat (signBits s ++ List.replicate 14 false) := by
  have hlen := signBits_length s
  obtain ⟨m₁, hrun₁, happ₁, hwf₁⟩ := putList_room (signBits s) hm hcap (by omega)
  rw [hlen] at hrun₁
  have hpos : (s.wpos + BitVec.ofNat 32 (s.euf.toNat + 2)).toNat =
      s.wpos.toNat + (signBits s).length := by
    rw [hlen, BitVec.toNat_add, BitVec.toNat_ofNat]
    omega
  obtain ⟨m, hrun, happ, -⟩ := putList_room (List.replicate 14 false)
    (s := setEuf 0 (setWpos (s.wpos + BitVec.ofNat 32 (s.euf.toNat + 2)) (setOb m₁ s))) hwf₁ hcap
    (by simp only [setEuf_wpos, setWpos_wpos, hpos, hlen, List.length_replicate, setEuf_cfg,
          setWpos_cfg, setOb_cfg]
        omega)
  refine ⟨m, ?_, happ₁.append (hpos ▸ happ)⟩
  have hend : s.wpos + BitVec.ofNat 32 (s.euf.toNat + 2) + BitVec.ofNat 32 14 =
      s.wpos + BitVec.ofNat 32 (s.euf.toNat + 16) := by
    rw [BitVec.add_assoc, ← BitVec.ofNat_add]
  rw [closeSegment_eq, hrun₁, done_andThen, hrun, done_andThen, List.length_replicate,
    setEuf_wpos, setWpos_wpos, hend]
  simp only [setWpos, setOb, setEuf]

end

/-- Settles O34: with room the bits of `closeSegment_eq` are appended. -/
theorem acEncFlushResult : Obligations.AcEncFlushResult := by
  intro s hs hm hcap
  rw [exec_acEncFlush]
  refine ⟨fun henc hroom => ?_, fun henc => runCommand_faults hs (firstFailing_unset henc)⟩
  obtain ⟨m, hrun, happ⟩ := closeSegment_room hm hcap hroom
  refine ⟨m, ?_, happ⟩
  rw [runCommand_done hs ((firstFailing_needSet henc).trans firstFailing_nil) hrun]
  simp only [retire, setFlag, setWpos, setOb, setEuf, statusWith_encAct_false]

/-! ## AC_DEC_INIT -/

section
variable {s : State}

/-- The code register after 16 bits have been read. -/
def initialCode (s : State) : Half := BitVec.ofNat 16 (bitsValue s.ib s.rpos.toNat 16)

theorem initialCode_getLsbD (s : State) {i : Nat} (h : i < 16) :
    (initialCode s).getLsbD (15 - i) = streamBit s.ib (s.rpos.toNat + i) := by
  rw [← bitsValue_testBit s.ib s.rpos.toNat 16 i h, BitVec.getLsbD, initialCode,
    BitVec.toNat_ofNat, Nat.mod_eq_of_lt (bitsValue_lt ..)]

theorem openDecoder_room (h : s.rpos.toNat + 16 ≤ s.rlen.toNat) :
    openDecoder s = .done () (setFlag .decAct true (setDcode (initialCode s)
      (setRpos (s.rpos + 16) (setDec 0 0xFFFF s)))) := by
  have hpos : wordOfNat (s.rpos.toNat + 16) = s.rpos + 16 := by
    rw [wordOfNat, BitVec.ofNat_add, BitVec.ofNat_toNat, BitVec.setWidth_eq]
    rfl
  rw [openDecoder, getBits_room (s := setDec 0 0xFFFF s) h, done_andThen, setDec_rpos, hpos]
  rfl

end

/-- Settles O35: `openDecoder_room`; the bits of the code are those of the number read. -/
theorem acDecInitResult : Obligations.AcDecInitResult := by
  intro s hs
  rw [exec_acDecInit]
  refine ⟨fun hbr hroom => ⟨initialCode s, fun i hi => initialCode_getLsbD s hi, ?_⟩, fun hbr => ?_,
    fun hbr hshort => ?_⟩
  · have hchecks : firstFailing [needSet s .brAct 0x38, bitsAvailable s 16] = none := by
      simp [hbr, hroom]
    rw [runCommand_done hs hchecks (openDecoder_room hroom)]
    simp only [retire, setFlag, setDcode, setRpos, setDec, statusWith_decAct_true]
  · exact runCommand_faults hs (firstFailing_unset hbr)
  · refine runCommand_faults hs (e := ⟨.brOverrun, s.rpos⟩) ((firstFailing_needSet hbr).trans ?_)
    simp [Nat.not_le.mpr hshort]

/-! ## AC_DEC_CNT -/

/-- The count lies below the scale (`42_coder.md` R175 (a)). -/
theorem decoderCount_lt {low high code sc : Nat} (hlow : low ≤ code) (hhigh : code ≤ high)
    (hsc : 1 ≤ sc) : decoderCount low high code sc < sc := by
  have hpos : 0 < (code - low + 1) * sc := Nat.mul_pos (Nat.succ_pos _) hsc
  have hmul : (code - low + 1) * sc ≤ sc * (high - low + 1) := by
    rw [Nat.mul_comm sc]
    exact Nat.mul_le_mul_right _ (by omega)
  exact (Nat.div_lt_iff_lt_mul (Nat.succ_pos _)).mpr
    ((Nat.sub_lt hpos Nat.one_pos).trans_le hmul)

/-- What AC_DEC_CNT leaves when the count is `c` (`42_coder.md` R174). -/
theorem reportCount_eq {s : State} {c : Nat} (hc : c < 65536)
    (hcount : countOf s.dlow s.dhigh s.dcode s.symScale = c) :
    reportCount s = setRet0 (BitVec.ofNat 32 c) (setCnt (BitVec.ofNat 16 c) s) := by
  have hret : (BitVec.ofNat 16 c).setWidth 32 = BitVec.ofNat 32 c := by
    apply BitVec.eq_of_toNat_eq
    simp only [BitVec.toNat_setWidth, BitVec.toNat_ofNat]
    omega
  have htake : takeCount s = setCnt (BitVec.ofNat 16 c) s := by
    rw [takeCount, hcount, BitVec.ofInt_natCast]
  rw [reportCount, htake, setCnt_cnt, hret]

/-- Settles O36: on the registers of a code inside the interval the count is that on natural
numbers. -/
theorem acDecCntResult : Obligations.AcDecCntResult := by
  intro s hs
  rw [exec_acDecCnt]
  refine ⟨fun hdec hone hscale hlow hhigh => ?_, fun hdec => ?_, fun hdec hbad => ?_⟩
  · have hlt := decoderCount_lt hlow hhigh hone
    have hlegal : (scaleOk s).ok = true := scaleLegal_iff.mpr ⟨hone, hscale⟩
    refine ⟨hlt, ?_⟩
    rw [runCommand_always hs ((firstFailing_needSet hdec).trans (by simp [hlegal])),
      reportCount_eq (hlt.trans s.symScale.isLt) (countOf_eq hlow (hlow.trans hhigh) hone)]
    rfl
  · exact runCommand_faults hs (firstFailing_unset hdec)
  · have hillegal : (scaleOk s).ok = false := by
      refine Bool.eq_false_of_not_eq_true fun h => ?_
      have := scaleLegal_iff.mp h
      omega
    refine runCommand_faults hs (e := ⟨.badTriple, tripleInfo s⟩)
      ((firstFailing_needSet hdec).trans ?_)
    rw [firstFailing_cons, hillegal]
    rfl

/-! ## The count selects the symbol -/

section
variable {range d sc lc hc : Int}

/-- A symbol's lower end is at most the distance of the code exactly when its lower count is at most
the count (`42_coder.md` R175). -/
theorem scaled_le_iff (hrange : 0 < range) (hsc : 0 < sc) :
    range * lc / sc ≤ d ↔ lc ≤ ((d + 1) * sc - 1) / range := by
  rw [Int.le_ediv_iff_mul_le hrange, ← Int.lt_add_one_iff, Int.ediv_lt_iff_lt_mul hsc,
    Int.mul_comm range, Int.le_sub_one_iff]

/-- And its upper end lies above the code exactly when its upper count lies above the count. -/
theorem lt_scaled_iff (hrange : 0 < range) (hsc : 0 < sc) :
    d < range * hc / sc ↔ ((d + 1) * sc - 1) / range < hc := by
  rw [Int.ediv_lt_iff_lt_mul hrange, ← Int.add_one_le_iff, Int.le_ediv_iff_mul_le hsc,
    Int.mul_comm range, Int.sub_one_lt_iff]

end

/-- Settles O37: each bound of the narrowed interval against the code is one bound of the triple
against the count. -/
theorem countSelectsSymbol : Obligations.CountSelectsSymbol := by
  intro low high code sc hlow hhigh hone
  have hrange : 0 < rangeOf low high := by
    unfold rangeOf
    omega
  have hsc : (0 : Int) < sc.toNat := by exact_mod_cast hone
  rw [countOf_eq hlow (hlow.trans hhigh) hone]
  refine ⟨by positivity, by exact_mod_cast decoderCount_lt hlow hhigh hone, fun lc hc => ?_⟩
  rw [← countOf_eq hlow (hlow.trans hhigh) hone]
  refine and_congr ?_ ?_
  · rw [countOf, ← scaled_le_iff hrange hsc, narrowLow]
    omega
  · rw [countOf, ← lt_scaled_iff hrange hsc, narrowHigh]
    omega

/-! ## One pass of a renormalisation -/

/-- The pass that takes an interval of registers to another: `off` is taken from both ends, then
they are doubled, as the loop on integers does it (`42_coder.md` R165). -/
structure PassBy (off : Nat) (low high low' high' : Half) : Prop where
  off_le : off ≤ low.toNat
  low_eq : low'.toNat = 2 * (low.toNat - off)
  high_eq : high'.toNat = 2 * (high.toNat - off) + 1
  loop : ∀ n p, ∃ q bits, renormalise (n + 1) low.toNat high.toNat p =
    (renormalise n (2 * (low.toNat - off)) (2 * (high.toNat - off) + 1) q).afterPass bits

section
variable {low high low' high' : Half} {off : Nat}

theorem PassBy.ordered (h : PassBy off low high low' high') (hle : low.toNat ≤ high.toNat) :
    low'.toNat ≤ high'.toNat := by
  rw [h.low_eq, h.high_eq]
  omega

/-- After a pass the loop goes on from the new registers, up to the deferred bits. -/
theorem PassBy.renormalise_eq (h : PassBy off low high low' high') (n p q : Nat) :
    (renormalise (n + 1) low.toNat high.toNat p).low =
        (renormalise n low'.toNat high'.toNat q).low ∧
      (renormalise (n + 1) low.toNat high.toNat p).high =
        (renormalise n low'.toNat high'.toNat q).high := by
  obtain ⟨p', bits, hloop⟩ := h.loop n p
  obtain ⟨hlow, hhigh, -⟩ :=
    renormalise_pending n (2 * (low.toNat - off)) (2 * (high.toNat - off) + 1) p' q
  rw [hloop, h.low_eq, h.high_eq]
  exact ⟨hlow, hhigh⟩

/-- A code of the old interval that is moved as the ends are lies in the new interval. -/
theorem PassBy.code_inside (h : PassBy off low high low' high') {code : Nat}
    (hlow : low.toNat ≤ code) (hhigh : code ≤ high.toNat) (b : Bool) :
    low'.toNat ≤ 2 * (code - off) + b.toNat ∧ 2 * (code - off) + b.toNat ≤ high'.toNat := by
  have hb := b.toNat_lt
  rw [h.low_eq, h.high_eq]
  omega

/-- A pass with the top bits equal; the code register follows by its shift alone. -/
theorem passBy_of_topsAgree (hle : low.toNat ≤ high.toNat) (h : topsAgree low high = true) :
    ∃ off, PassBy off low high (shiftLow low) (shiftHigh high) ∧
      ∀ code : Half, low.toNat ≤ code.toNat → code.toNat ≤ high.toNat →
        2 * code.toNat % 0x10000 = 2 * (code.toNat - off) := by
  have hlt := low.isLt
  have hlt' := high.isLt
  rcases (topsAgree_iff hle).mp h with hlower | hupper
  · refine ⟨0, ⟨Nat.zero_le _, ?_, ?_, fun n p => ⟨0, false :: List.replicate p true, ?_⟩⟩,
      fun code hl hh => by omega⟩
    · rw [shiftLow_toNat]; omega
    · rw [shiftHigh_toNat]; omega
    · rw [renormalise, if_pos hlower]; rfl
  · refine ⟨0x8000, ⟨hupper, ?_, ?_, fun n p => ⟨0, true :: List.replicate p false, ?_⟩⟩,
      fun code hl hh => by omega⟩
    · rw [shiftLow_toNat]; omega
    · rw [shiftHigh_toNat]; omega
    · rw [renormalise, if_neg (by omega), if_pos hupper]

/-- An E3 pass; the code register follows by inverting bit 14 before its shift. -/
theorem passBy_of_isE3 (hle : low.toNat ≤ high.toNat) (htops : ¬topsAgree low high = true)
    (h : isE3 low high = true) :
    PassBy 0x4000 low high (shiftLow (e3Low low)) (shiftHigh (e3High high)) ∧
      ∀ code : Half, low.toNat ≤ code.toNat → code.toNat ≤ high.toNat →
        2 * (code ^^^ 0x4000).toNat % 0x10000 = 2 * (code.toNat - 0x4000) := by
  have hsplit : low.toNat < 0x8000 ∧ 0x8000 ≤ high.toNat := by
    have := mt (topsAgree_iff hle).mpr htops
    omega
  have hquarter := (isE3_iff hsplit.1 hsplit.2).mp h
  refine ⟨⟨hquarter.1, ?_, ?_, fun n p => ⟨p + 1, [], ?_⟩⟩,
    fun code hl hh => xor_bit14_toNat code (by omega) (by omega)⟩
  · rw [shiftLow_toNat, e3Low_toNat]; omega
  · rw [shiftHigh_toNat, e3High_toNat (by omega)]; omega
  · rw [renormalise, if_neg (by omega), if_neg (by omega), if_pos hquarter]

/-- An interval that no pass changes is the one the loop on integers ends with. -/
theorem renormalise_of_noPass (hle : low.toNat ≤ high.toNat) (htops : ¬topsAgree low high = true)
    (he3 : ¬isE3 low high = true) (n p : Nat) :
    renormalise n low.toNat high.toNat p = ⟨low.toNat, high.toNat, p, [], 0⟩ := by
  have hsplit : low.toNat < 0x8000 ∧ 0x8000 ≤ high.toNat := by
    have := mt (topsAgree_iff hle).mpr htops
    omega
  have hquarter := mt (isE3_iff hsplit.1 hsplit.2).mpr he3
  exact renormalise_of_settled ⟨hsplit.1, hsplit.2, by omega⟩ n p

end

/-! ## The encoder's loop, where it ends -/

/-- Only OB, WPOS and EUF may differ. -/
def WriterMoved (s t : State) : Prop := 
  ∃ m w v, t = { s with ob := m, wpos := w, euf := v }

theorem WriterMoved.trans {s t u : State} (hst : WriterMoved s t) (htu : WriterMoved t u) :
    WriterMoved s u := by
  obtain ⟨m₁, w₁, v₁, rfl⟩ := hst
  obtain ⟨m, w, v, rfl⟩ := htu
  exact ⟨m, w, v, rfl⟩

theorem putBit_ends (b : Bool) (s : State) : (putBit b s).Ends fun _ t => WriterMoved s t := by
  rw [← putList_singleton]
  refine (putList_ends [b] s).imp ?_
  rintro _ _ ⟨m, w, rfl⟩
  exact ⟨m, w, s.euf, rfl⟩

theorem drainPending_ends (b : Bool) (n : Nat) (s : State) :
    (drainPending b n s).Ends fun _ t => WriterMoved s t := by
  induction n generalizing s with
  | zero => exact ⟨s.ob, s.wpos, s.euf, rfl⟩
  | succ n ih =>
    rw [drainPending]
    refine (putBit_ends b s).andThen fun _ t ht => (ih _).imp fun _ u hu => ht.trans (.trans ?_ hu)
    exact ⟨t.ob, t.wpos, t.euf - 1, rfl⟩

theorem emitBit_ends (b : Bool) (s : State) : (emitBit b s).Ends fun _ t => WriterMoved s t :=
  (putBit_ends b s).andThen fun _ _ ht => (drainPending_ends _ _ _).imp fun _ _ hu => ht.trans hu

/-- Where EncRenorm ends, ELOW and EHIGH are those of the loop on integers; beside them only OB,
WPOS and EUF have changed (`42_coder.md` R165). -/
theorem encRenorm_ends (n : Nat) {s : State} (hle : s.elow.toNat ≤ s.ehigh.toNat) (p : Nat) :
    (encRenorm n s).Ends fun _ t => WriterMoved
      (setEnc (BitVec.ofNat 16 (renormalise n s.elow.toNat s.ehigh.toNat p).low)
        (BitVec.ofNat 16 (renormalise n s.elow.toNat s.ehigh.toNat p).high) s) t := by
  have stay (s : State) : WriterMoved (setEnc (BitVec.ofNat 16 s.elow.toNat)
      (BitVec.ofNat 16 s.ehigh.toNat) s) s := by
    rw [BitVec.ofNat_toNat, BitVec.ofNat_toNat, BitVec.setWidth_eq, BitVec.setWidth_eq]
    exact ⟨s.ob, s.wpos, s.euf, rfl⟩
  induction n generalizing s p with
  | zero => exact stay s
  | succ n ih =>
    -- a pass, whatever it writes, and then the rest of the loop
    have pass {off : Nat} {low' high' : Half} (hpass : PassBy off s.elow s.ehigh low' high')
        {t : State} (ht : WriterMoved (setEnc low' high' s) t) :
        (encRenorm n t).Ends fun _ u => WriterMoved
          (setEnc (BitVec.ofNat 16 (renormalise (n + 1) s.elow.toNat s.ehigh.toNat p).low)
            (BitVec.ofNat 16 (renormalise (n + 1) s.elow.toNat s.ehigh.toNat p).high) s) u := by
      obtain ⟨m₁, w₁, v₁, rfl⟩ := ht
      obtain ⟨hlow, hhigh⟩ := hpass.renormalise_eq n p 0
      refine (ih (hpass.ordered hle) 0).imp ?_
      rintro _ _ ⟨m, w, v, rfl⟩
      rw [hlow, hhigh]
      exact ⟨m, w, v, rfl⟩
    rw [encRenorm]
    by_cases htops : topsAgree s.elow s.ehigh = true
    · obtain ⟨off, hpass, -⟩ := passBy_of_topsAgree hle htops
      rw [if_pos htops]
      refine (emitBit_ends _ s).andThen ?_
      rintro _ _ ⟨m, w, v, rfl⟩
      exact pass hpass ⟨m, w, v, rfl⟩
    · by_cases he3 : isE3 s.elow s.ehigh = true
      · obtain ⟨hpass, -⟩ := passBy_of_isE3 hle htops he3
        rw [if_neg htops, if_pos he3, deferBit, andThen_assoc]
        refine (demand_ends _ _ s).andThen ?_
        rintro _ _ ⟨-, rfl⟩
        exact pass hpass ⟨_, _, _, rfl⟩
      · rw [if_neg htops, if_neg he3, renormalise_of_noPass hle htops he3]
        exact stay s

/-- Where coding the latch ends, the interval is the renormalised one. -/
theorem encodeLatch_ends {s : State}
    (h : NarrowOk s.elow s.ehigh s.symLow s.symHigh s.symScale) :
    (encodeLatch s).Ends fun _ t => WriterMoved
      (setEnc (BitVec.ofNat 16 (encoded s).low) (BitVec.ofNat 16 (encoded s).high) s) t := by
  have hrun := encRenorm_ends renormPasses (narrowEnc_ordered h) s.euf.toNat
  rw [encLoop_eq_encoded h] at hrun
  exact hrun

/-! ## The decoder's loop, where it ends -/

theorem shiftDec_ends (s : State) : (shiftDec s).Ends fun _ t => ∃ b : Bool,
    t = setDcode (s.dcode <<< 1 ||| (BitVec.ofBool b).setWidth 16)
      (setRpos (s.rpos + 1) (setDec (shiftLow s.dlow) (shiftHigh s.dhigh) s)) := by
  rw [shiftDec, getBit, andThen_assoc]
  refine (demand_ends _ _ _).andThen ?_
  rintro _ _ ⟨-, rfl⟩
  exact ⟨_, rfl⟩

/-- The decoder with the interval of `r`, a code inside it, and the reader moved. -/
def DecoderCarried (s : State) (low high : Nat) (t : State) : Prop :=
  ∃ (code : Half) (pos : Word),
    t = { s with
      dlow := BitVec.ofNat 16 low, dhigh := BitVec.ofNat 16 high, dcode := code, rpos := pos } ∧
    low ≤ code.toNat ∧ code.toNat ≤ high

/-- Where DecRenorm ends, DLOW and DHIGH are those of the loop on integers and DCODE lies between
them; beside them only RPOS has changed (`42_coder.md` R176). -/
theorem decRenorm_ends (n : Nat) {s : State} (hlow : s.dlow.toNat ≤ s.dcode.toNat)
    (hhigh : s.dcode.toNat ≤ s.dhigh.toNat) :
    (decRenorm n s).Ends fun _ t => DecoderCarried s
      (renormalise n s.dlow.toNat s.dhigh.toNat 0).low
      (renormalise n s.dlow.toNat s.dhigh.toNat 0).high t := by
  have stay (s : State) (hlow : s.dlow.toNat ≤ s.dcode.toNat)
      (hhigh : s.dcode.toNat ≤ s.dhigh.toNat) :
      DecoderCarried s s.dlow.toNat s.dhigh.toNat s := by
    refine ⟨s.dcode, s.rpos, ?_, hlow, hhigh⟩
    rw [BitVec.ofNat_toNat, BitVec.ofNat_toNat, BitVec.setWidth_eq, BitVec.setWidth_eq]
  induction n generalizing s with
  | zero => exact stay s hlow hhigh
  | succ n ih =>
    have hle := hlow.trans hhigh
    -- a pass that shifts the registers of `t`, and then the rest of the loop
    have pass {off : Nat} {t : State}
        (hpass : PassBy off s.dlow s.dhigh (shiftLow t.dlow) (shiftHigh t.dhigh))
        (hcode : 2 * t.dcode.toNat % 0x10000 = 2 * (s.dcode.toNat - off))
        (hframe : ∀ low high code pos,
          { t with dlow := low, dhigh := high, dcode := code, rpos := pos } =
            { s with dlow := low, dhigh := high, dcode := code, rpos := pos }) :
        ((shiftDec t).andThen fun _ u => decRenorm n u).Ends fun _ u => DecoderCarried s
          (renormalise (n + 1) s.dlow.toNat s.dhigh.toNat 0).low
          (renormalise (n + 1) s.dlow.toNat s.dhigh.toNat 0).high u := by
      refine (shiftDec_ends t).andThen ?_
      rintro _ _ ⟨b, rfl⟩
      obtain ⟨hlow', hhigh'⟩ := hpass.code_inside hlow hhigh b
      rw [← hcode, ← shiftedCode_toNat] at hlow' hhigh'
      obtain ⟨hnext_low, hnext_high⟩ := hpass.renormalise_eq n 0 0
      refine (ih hlow' hhigh').imp ?_
      rintro _ _ ⟨code, pos, rfl, hin⟩
      rw [hnext_low, hnext_high]
      exact ⟨code, pos, hframe _ _ code pos, hin⟩
    rw [decRenorm]
    by_cases htops : topsAgree s.dlow s.dhigh = true
    · obtain ⟨off, hpass, hcode⟩ := passBy_of_topsAgree hle htops
      rw [if_pos htops]
      exact pass hpass (hcode s.dcode hlow hhigh) fun _ _ _ _ => rfl
    · by_cases he3 : isE3 s.dlow s.dhigh = true
      · obtain ⟨hpass, hcode⟩ := passBy_of_isE3 hle htops he3
        rw [if_neg htops, if_pos he3]
        exact pass (t := straddleDec s) hpass (hcode s.dcode hlow hhigh) fun _ _ _ _ => rfl
      · rw [if_neg htops, if_neg he3, renormalise_of_noPass hle htops he3]
        exact stay s hlow hhigh

/-- Where removing the latch ends, the interval is the renormalised one and holds the code. -/
theorem removeLatch_ends {s : State} (h : RemoveOk s) :
    (removeLatch s).Ends fun _ t => DecoderCarried s (removed s).low (removed s).high t := by
  have hrun := decRenorm_ends renormPasses (s := narrowDec s) (h.narrowDec_dlow.trans_le h.low)
    (h.high.trans_eq h.narrowDec_dhigh.symm)
  rw [h.loop_eq_removed] at hrun
  exact hrun

section
variable {s t : State} {low high : Nat}

theorem DecoderCarried.dlow_eq (h : DecoderCarried s low high t) :
    t.dlow = BitVec.ofNat 16 low := by
  obtain ⟨code, pos, rfl, -⟩ := h
  rfl

theorem DecoderCarried.dhigh_eq (h : DecoderCarried s low high t) :
    t.dhigh = BitVec.ofNat 16 high := by
  obtain ⟨code, pos, rfl, -⟩ := h
  rfl

/-- A settled interval that holds the code meets R32. -/
theorem DecoderCarried.decoderOk (h : DecoderCarried s low high t) (hsettled : Settled low high)
    (hlt : high < 65536) : DecoderOk t := by
  have hlow : (BitVec.ofNat 16 low).toNat = low :=
    Nat.mod_eq_of_lt (hsettled.1.trans (by decide))
  have hhigh : (BitVec.ofNat 16 high).toNat = high := Nat.mod_eq_of_lt hlt
  obtain ⟨code, pos, rfl, hinside⟩ := h
  refine ⟨intervalOk_ofNat hsettled hlt, ?_⟩
  change (BitVec.ofNat 16 low).toNat ≤ code.toNat ∧ code.toNat ≤ (BitVec.ofNat 16 high).toNat
  rwa [hlow, hhigh]

end

/-! ## AC_DEC_RM -/

section
variable {s : State}

/-- The check of AC_DEC_RM on natural numbers (`42_coder.md` R177). -/
theorem codeInside_iff (h : NarrowOk s.dlow s.dhigh s.symLow s.symHigh s.symScale) :
    codeInside s = true ↔
      narrowedLow s.dlow.toNat s.dhigh.toNat s.symLow.toNat s.symScale.toNat ≤ s.dcode.toNat ∧
      s.dcode.toNat ≤ narrowedHigh s.dlow.toNat s.dhigh.toNat s.symHigh.toNat
        s.symScale.toNat := by
  rw [codeInside, narrowLow_eq (intervalOk_range h.interval).1, narrowHigh_eq h]
  simp only [Bool.and_eq_true, decide_eq_true_eq, Nat.cast_le]

/-- The checks of AC_DEC_RM after that on the unit state hold exactly where the latch can be
removed. -/
theorem firstFailing_remove (hdec : flag s .decAct = true) (hlatch : LatchOk s)
    (h : codeInside s = true) : firstFailing [needSet s .decAct 0x3A, tripleOk s,
      ⟨codeInside s, ⟨.desync, s.dcode.setWidth 32⟩⟩] = none :=
  (firstFailing_needSet hdec).trans ((firstFailing_legalTriple hlatch).trans (by simp [h]))

theorem removeOk_of_checks (hcoder : DecoderOk s) (h : firstFailing [needSet s .decAct 0x3A,
      tripleOk s, ⟨codeInside s, ⟨.desync, s.dcode.setWidth 32⟩⟩] = none) : RemoveOk s := by
  have hok := firstFailing_eq_none.mp h
  have hlatch : LatchOk s := tripleLegal_iff.mp (hok (tripleOk s) (by simp))
  have hinside : codeInside s = true :=
    hok ⟨codeInside s, ⟨.desync, s.dcode.setWidth 32⟩⟩ (by simp)
  have hnarrow := narrowOk_of_latchOk hlatch hcoder.1
  obtain ⟨hlow, hhigh⟩ := (codeInside_iff hnarrow).mp hinside
  exact ⟨hnarrow, hlow, hhigh⟩

theorem removed_settled (h : RemoveOk s) : Settled (removed s).low (removed s).high :=
  codedInterval_settled h.narrow 0

theorem removed_high_lt (h : RemoveOk s) : (removed s).high < 65536 :=
  codedInterval_high_lt h.narrow 0

theorem decoderOk_retire (h : DecoderOk s) : DecoderOk (retire s) := h

/-- The registers after a removal meet R32. -/
theorem decoderOk_of_removeLatch {t : State} (h : RemoveOk s) (hrun : removeLatch s = .done () t) :
    DecoderOk t :=
  ((removeLatch_ends h).of_done hrun).decoderOk (removed_settled h) (removed_high_lt h)

end

/-- Settles O38: the removal is `removeLatch_room` or `removeLatch_overrun`. -/
theorem acDecRmResult : Obligations.AcDecRmResult := by
  intro s hs hdec nl nh
  rw [exec_acDecRm]
  have hremove (hlatch : LatchOk s) (hcoder : DecoderOk s) (hlow : nl ≤ s.dcode.toNat)
      (hhigh : s.dcode.toNat ≤ nh) : RemoveOk s :=
    ⟨narrowOk_of_latchOk hlatch hcoder.1, hlow, hhigh⟩
  refine ⟨?removed, ?overrun, ?badTriple, ?desync⟩
  case removed =>
    intro hlatch hcoder hlow hhigh hroom
    have hok := hremove hlatch hcoder hlow hhigh
    have hrun := removeLatch_room hok hroom
    refine ⟨_, runCommand_done hs (firstFailing_remove hdec hlatch
      ((codeInside_iff hok.narrow).mpr ⟨hlow, hhigh⟩)) hrun, ?_,
      decoderOk_retire (decoderOk_of_removeLatch hok hrun)⟩
    rfl
  case overrun =>
    intro hlatch hcoder hlow hhigh hpos hshort
    have hok := hremove hlatch hcoder hlow hhigh
    exact runCommand_raised hs (firstFailing_remove hdec hlatch
      ((codeInside_iff hok.narrow).mpr ⟨hlow, hhigh⟩)) (removeLatch_overrun hok hpos hshort)
  case badTriple =>
    intro hlatch
    exact runCommand_faults hs ((firstFailing_needSet hdec).trans (firstFailing_badTriple hlatch))
  case desync =>
    intro hlatch hcoder houtside
    have hinside : codeInside s = false := by
      refine Bool.eq_false_of_not_eq_true fun h => ?_
      obtain ⟨hlow, hhigh⟩ := (codeInside_iff (narrowOk_of_latchOk hlatch hcoder.1)).mp h
      exact houtside.elim (Nat.not_lt.mpr hlow) (Nat.not_lt.mpr hhigh)
    refine runCommand_faults hs (e := ⟨.desync, s.dcode.setWidth 32⟩)
      ((firstFailing_needSet hdec).trans ((firstFailing_legalTriple hlatch).trans ?_))
    rw [firstFailing_cons, hinside]
    rfl

/-! ## Lockstep -/

/-- AC_ENC that leaves no fault has made the interval the renormalised one. -/
theorem acEnc_completed {s t : State} (hcoder : EncoderOk s) (h : exec .acEnc s = .next t)
    (ht : flag t .fault = false) :
    LatchOk s ∧ t.elow = BitVec.ofNat 16 (encoded s).low ∧
      t.ehigh = BitVec.ofNat 16 (encoded s).high := by
  obtain ⟨-, hchecks, v, hrun, rfl⟩ := runCommand_completed ((exec_acEnc s).symm.trans h) ht
  have hlatch : LatchOk s :=
    tripleLegal_iff.mp (firstFailing_eq_none.mp hchecks (tripleOk s) (by simp))
  obtain ⟨m, w, u, rfl⟩ := (encodeLatch_ends (narrowOk_of_latchOk hlatch hcoder)).of_done hrun
  exact ⟨hlatch, rfl, rfl⟩

/-- AC_DEC_RM that leaves no fault has made the interval the renormalised one. -/
theorem acDecRm_completed {s t : State} (hcoder : DecoderOk s) (h : exec .acDecRm s = .next t)
    (ht : flag t .fault = false) :
    DecoderOk t ∧ t.dlow = BitVec.ofNat 16 (removed s).low ∧
      t.dhigh = BitVec.ofNat 16 (removed s).high := by
  obtain ⟨-, hchecks, v, hrun, rfl⟩ := runCommand_completed ((exec_acDecRm s).symm.trans h) ht
  have hok := removeOk_of_checks hcoder hchecks
  have hcarried := (removeLatch_ends hok).of_done hrun
  exact ⟨hcarried.decoderOk (removed_settled hok) (removed_high_lt hok), hcarried.dlow_eq,
    hcarried.dhigh_eq⟩

/-- Settles O39: both commands renormalise the same narrowed interval, and the deferred bits make no
difference to it. -/
theorem lockstepOneSymbol : Obligations.LockstepOneSymbol := by
  intro e e' d d' henc hdec hlow hhigh hsymLow hsymHigh hsymScale he hd he' hd'
  obtain ⟨-, helow, hehigh⟩ := acEnc_completed henc he he'
  obtain ⟨⟨-, hinside⟩, hdlow, hdhigh⟩ := acDecRm_completed hdec hd hd'
  have hsame : (removed d).low = (encoded e).low ∧ (removed d).high = (encoded e).high := by
    rw [removed, encoded, hlow, hhigh, hsymLow, hsymHigh, hsymScale]
    obtain ⟨hsame_low, hsame_high, -⟩ := renormalise_pending 16
      (narrowedLow e.elow.toNat e.ehigh.toNat e.symLow.toNat e.symScale.toNat)
      (narrowedHigh e.elow.toNat e.ehigh.toNat e.symHigh.toNat e.symScale.toNat) 0 e.euf.toNat
    exact ⟨hsame_low, hsame_high⟩
  exact ⟨by rw [hdlow, helow, hsame.1], by rw [hdhigh, hehigh, hsame.2], hinside⟩

end Sys2Proof.Machine.ArithmeticCoder

/-! PROOFS. The block coder (`43_block.md`): BLK_ENC and BLK_DEC. Both commands code a list of
symbols, each in its context, so that what they do is an induction on that list: EncSym and DecSym
keep the invariants that the next symbol needs (the contexts of R40, the interval of R32, the
standard widths), and BLK_DEC besides writes one element of ZZ for each coefficient. -/

namespace Sys2Proof.Machine.BlockCoder

open FrequencyModel Composite ArithmeticCoder

/-! ## The commands as checks and pseudocode -/

section
variable (s : State)

theorem exec_blkEnc :
    exec .blkEnc s =
      runCommand ([needSet s .encAct 0x45] ++ stdCtxOk s ++ [coefRangeOk s]) encodeBlock s := rfl

theorem exec_blkDec :
    exec .blkDec s = runCommand ([needSet s .decAct 0x48] ++ stdCtxOk s) decodeBlock s := rfl

end

/-! ## Contexts that an update keeps -/

section
variable {s t : State} {m : Fin 16} {sym : Nat}

theorem contextOk_congr (hbits : ctxBits t m = ctxBits s m) (htable : ctxTable t m = ctxTable s m)
    (h : ContextOk s m) : ContextOk t m := by
  have hlen : ctxLen t m = ctxLen s m := by rw [ctxLen, hbits, ctxLen]
  have hcount (i : Nat) : count t m i = count s m i := by rw [count, ctxCount, htable]; rfl
  obtain ⟨hwidth, hvirtual, hfirst, hrising, hlow, hhigh⟩ := h
  exact ⟨by rwa [hbits], by rwa [htable], by rwa [hcount],
    fun i hi => by rw [hcount, hcount]; exact hrising i (hlen ▸ hi),
    by rwa [hlen, hcount], by rwa [hlen, hcount]⟩

theorem contextsOk_congr (hmbits : t.mbits = s.mbits) (htables : t.tables = s.tables)
    (h : ContextsOk s) : ContextsOk t := by
  intro m hm
  have hbits : ctxBits t m = ctxBits s m := by rw [ctxBits, hmbits, ctxBits]
  exact contextOk_congr hbits (by rw [ctxTable, htables, ctxTable]) (h m (hbits ▸ hm))

theorem bumpedCount_rising {old : Nat → Nat} {i : Nat} (h : old i < old (i + 1)) :
    bumpedCount old sym i < bumpedCount old sym (i + 1) := by
  simp only [bumpedCount]
  split <;> split <;> omega

theorem le_bumpedCount (old : Nat → Nat) (sym i : Nat) : old i ≤ bumpedCount old sym i := by
  rw [bumpedCount]
  split <;> omega

theorem bumpedCount_le (old : Nat → Nat) (sym i : Nat) : bumpedCount old sym i ≤ old i + 1 := by
  rw [bumpedCount]
  split <;> omega

/-- The updated counts of a context that meets R40 meet it (`41_model.md` R137, R140). -/
theorem contextOk_of_tableUpdated (h : ContextOk s m) (hbits : ctxBits t m = ctxBits s m)
    (htable : TableUpdated s m sym (ctxTable t m)) : ContextOk t m := by
  have hlen : ctxLen t m = ctxLen s m := by rw [ctxLen, hbits, ctxLen]
  have hlen_le := ctxLen_le h.width.2
  have hcount (i : Nat) (hi : i ≤ ctxLen s m) :
      count t m i = updatedCount (count s m) (ctxLen s m) sym i := by
    rw [count, ctxCount, htable (i + 1), if_pos ⟨by omega, by omega⟩, Nat.add_sub_cancel]
  have hvirtual : tableElem (ctxTable t m) 0 = 0 := by
    apply BitVec.eq_of_toNat_eq
    rw [htable 0, if_neg (by omega), h.virtual]
  have hrising (i : Nat) (hi : i < ctxLen s m) :
      bumpedCount (count s m) sym i < bumpedCount (count s m) sym (i + 1) :=
    bumpedCount_rising (h.rising i hi)
  have hbump_zero : bumpedCount (count s m) sym 0 = 1 := by simp [bumpedCount, h.first]
  have hscale := h.scaleHigh
  have hscale_low := h.scaleLow
  have hbump_low := le_bumpedCount (count s m) sym (ctxLen s m)
  have hbump_high := bumpedCount_le (count s m) sym (ctxLen s m)
  by_cases hfull : 16383 ≤ bumpedCount (count s m) sym (ctxLen s m)
  · -- the counts are halved
    have hupdated (i : Nat) (hi : i ≤ ctxLen s m) :
        count t m i = rescaledCount (bumpedCount (count s m) sym) i := by
      rw [hcount i hi, updatedCount, if_pos hfull]
    refine ⟨hbits ▸ h.width, hvirtual, ?_, fun i hi => ?_, ?_, ?_⟩
    · rw [hupdated 0 (Nat.zero_le _), rescaledCount, hbump_zero]
      rfl
    · rw [hlen] at hi
      rw [hupdated i hi.le, hupdated (i + 1) hi]
      exact rescaledCount_rising _ i
    · rw [hlen, hupdated _ (le_refl _)]
      exact le_rescaledCount _ _
    · have hhalf := rescaledCount_le_half (ctxLen s m) fun j hj => (hrising j hj).le
      rw [hlen, hupdated _ (le_refl _)]
      omega
  · have hupdated (i : Nat) (hi : i ≤ ctxLen s m) :
        count t m i = bumpedCount (count s m) sym i := by
      rw [hcount i hi, updatedCount, if_neg hfull]
    refine ⟨hbits ▸ h.width, hvirtual, ?_, fun i hi => ?_, ?_, ?_⟩
    · rw [hupdated 0 (Nat.zero_le _), hbump_zero]
    · rw [hlen] at hi
      rw [hupdated i hi.le, hupdated (i + 1) hi]
      exact hrising i hi
    · rw [hlen, hupdated _ (le_refl _)]
      omega
    · rw [hlen, hupdated _ (le_refl _)]
      omega

/-- Writing the updated table of one context keeps the invariants of all. -/
theorem contextsOk_of_updated {table : Table} (h : ContextsOk s) (hbits : ctxBits s m ≠ 0)
    (htable : TableUpdated s m sym table) (hmbits : t.mbits = s.mbits)
    (htables : t.tables = s.tables.set m table) : ContextsOk t := by
  have hwidth (n : Fin 16) : ctxBits t n = ctxBits s n := by rw [ctxBits, hmbits, ctxBits]
  have hget (n : Fin 16) : ctxTable t n = if m = n then table else ctxTable s n :=
    (congrArg (·.get n) htables).trans (ctxTable_setTable s m n table)
  intro n hn
  by_cases hmn : m = n
  · subst hmn
    exact contextOk_of_tableUpdated (h m hbits) (hwidth m) (by rwa [hget, if_pos rfl])
  · exact contextOk_congr (hwidth n) (by rw [hget, if_neg hmn]) (h n (hwidth n ▸ hn))

end

/-! ## Coding one symbol -/

/-- What EncSym may change besides the table it updates: the latch, the encoder's registers, OB and
WPOS (`42_coder.md` R179). -/
def SymbolCoded (s : State) (m : Fin 16) (sym : Nat) (t : State) : Prop :=
  ∃ (low high : Half) (v : Word) (ob : Memory) (w : Word), t = { s with
    symLow := ctxCount s m sym, symHigh := ctxCount s m (sym + 1)
    symScale := ctxCount s m (ctxLen s m)
    elow := low, ehigh := high, euf := v, ob := ob, wpos := w
    tables := s.tables.set m (updateTable (ctxTable s m) (ctxLen s m) sym) }

/-- Only the encoder's registers, OB and WPOS may differ. -/
def EncoderMoved (s t : State) : Prop :=
  ∃ (low high : Half) (v : Word) (ob : Memory) (w : Word),
    t = { s with elow := low, ehigh := high, euf := v, ob := ob, wpos := w }

theorem encRenorm_frame (n : Nat) (s : State) :
    (encRenorm n s).Ends fun _ t => EncoderMoved s t := by
  have stay (s : State) : EncoderMoved s s := ⟨s.elow, s.ehigh, s.euf, s.ob, s.wpos, rfl⟩
  induction n generalizing s with
  | zero => exact stay s
  | succ n ih =>
    -- what a pass leaves, and then the rest of the loop
    have pass {t : State} (ht : EncoderMoved s t) :
        (encRenorm n t).Ends fun _ u => EncoderMoved s u := by
      obtain ⟨low₁, high₁, v₁, ob₁, w₁, rfl⟩ := ht
      refine (ih _).imp ?_
      rintro _ _ ⟨low, high, v, ob, w, rfl⟩
      exact ⟨low, high, v, ob, w, rfl⟩
    rw [encRenorm]
    split
    · refine (emitBit_ends _ s).andThen ?_
      rintro _ _ ⟨ob, w, v, rfl⟩
      exact pass ⟨_, _, v, ob, w, rfl⟩
    · split
      · rw [deferBit, andThen_assoc]
        refine (demand_ends _ _ s).andThen ?_
        rintro _ _ ⟨-, rfl⟩
        exact pass ⟨_, _, _, _, _, rfl⟩
      · exact stay s

/-- The state whose latch EncSym codes. -/
def loaded (s : State) (m : Fin 16) (sym : Nat) : State := latchScaleOf m (latchBoundsOf m sym s)

section
variable {s t : State} {m : Fin 16} {sym : Nat}

theorem encSym_eq (s : State) (m : Fin 16) (sym : Nat) : encSym m sym s =
    (encodeLatch (loaded s m sym)).andThen fun _ t => .done () (updateCtx m sym t) := rfl

theorem loaded_eq (s : State) (m : Fin 16) (sym : Nat) : loaded s m sym = { s with
    symLow := ctxCount s m sym, symHigh := ctxCount s m (sym + 1)
    symScale := ctxCount s m (ctxLen s m) } := rfl

theorem symbolCoded_updateCtx (h : EncoderMoved (loaded s m sym) t) :
    SymbolCoded s m sym (updateCtx m sym t) := by
  rw [loaded_eq] at h
  obtain ⟨low, high, v, ob, w, rfl⟩ := h
  refine ⟨low, high, v, ob, w, ?_⟩
  exact updateCtx_of_bank (s := s) rfl rfl

theorem encSym_frame (m : Fin 16) (sym : Nat) (s : State) :
    (encSym m sym s).Ends fun _ t => SymbolCoded s m sym t := by
  rw [encSym_eq, encodeLatch]
  refine (encRenorm_frame renormPasses _).andThen fun _ t ht => symbolCoded_updateCtx ?_
  obtain ⟨low, high, v, ob, w, rfl⟩ := ht
  exact ⟨low, high, v, ob, w, rfl⟩

/-- EncSym keeps the invariant of R32. -/
theorem encSym_encoderOk (hctx : ContextOk s m) (henc : EncoderOk s) (hsym : sym < ctxLen s m) :
    (encSym m sym s).Ends fun _ t => EncoderOk t := by
  have hok := narrowOk_of_symbol hctx hsym henc
  rw [encSym_eq]
  refine (encodeLatch_ends (s := loaded s m sym) hok).andThen ?_
  rintro _ _ ⟨ob, w, v, rfl⟩
  exact intervalOk_ofNat (codedInterval_settled hok _) (codedInterval_high_lt hok _)

theorem SymbolCoded.mbits_eq (h : SymbolCoded s m sym t) : t.mbits = s.mbits := by
  obtain ⟨low, high, v, ob, w, rfl⟩ := h
  rfl

theorem SymbolCoded.zz_eq (h : SymbolCoded s m sym t) : t.zz = s.zz := by
  obtain ⟨low, high, v, ob, w, rfl⟩ := h
  rfl

theorem SymbolCoded.status_eq (h : SymbolCoded s m sym t) : t.status = s.status := by
  obtain ⟨low, high, v, ob, w, rfl⟩ := h
  rfl

theorem SymbolCoded.contextsOk (h : SymbolCoded s m sym t) (hctxs : ContextsOk s)
    (hbits : ctxBits s m ≠ 0) : ContextsOk t := by
  obtain ⟨low, high, v, ob, w, rfl⟩ := h
  exact contextsOk_of_updated hctxs hbits (updateTable_spec (hctxs m hbits) sym) rfl rfl

end

/-! ## Coding a list of symbols -/

/-- EncSym of each symbol of a list, in order. -/
def encSyms : List (Fin 16 × Nat) → State → Run Unit
  | [], s => .done () s
  | c :: cs, s => (encSym c.1 c.2 s).andThen fun _ s => encSyms cs s

theorem encSyms_append (cs ds : List (Fin 16 × Nat)) (s : State) :
    encSyms (cs ++ ds) s = (encSyms cs s).andThen fun _ t => encSyms ds t := by
  induction cs generalizing s with
  | nil => rfl
  | cons c cs ih => simp only [List.cons_append, encSyms, ih, andThen_assoc]

theorem encSyms_singleton (m : Fin 16) (sym : Nat) (s : State) :
    encSyms [(m, sym)] s = encSym m sym s := by
  rw [encSyms]
  cases encSym m sym s <;> rfl

theorem encSyms_zz (cs : List (Fin 16 × Nat)) (s : State) :
    (encSyms cs s).Ends fun _ t => t.zz = s.zz := by
  induction cs generalizing s with
  | nil => exact rfl
  | cons c cs ih =>
    exact (encSym_frame c.1 c.2 s).andThen fun _ t ht => (ih t).imp fun _ u hu => hu.trans ht.zz_eq

/-- Every symbol of the list is one of its context, and the context is initialised. -/
def Fits (s : State) (cs : List (Fin 16 × Nat)) : Prop :=
  ∀ c ∈ cs, ctxBits s c.1 ≠ 0 ∧ c.2 < ctxLen s c.1

theorem Fits.of_mbits {s t : State} {cs : List (Fin 16 × Nat)} (h : Fits s cs)
    (hmbits : t.mbits = s.mbits) : Fits t cs := by
  intro c hc
  simp only [ctxLen, ctxBits, hmbits]
  exact h c hc

/-- What coding one more symbol needs of the contexts and the registers. -/
structure CodingReady (s : State) : Prop where
  noFault : flag s .fault = false
  active : flag s .encAct = true
  contexts : ContextsOk s
  coder : EncoderOk s

theorem CodingReady.retire {s : State} (h : CodingReady s) : CodingReady (retire s) :=
  ⟨h.noFault, h.active, contextsOk_congr (s := s) rfl rfl h.contexts, h.coder⟩

section
variable {s t : State} {m : Fin 16} {sym : Nat}

theorem CodingReady.next (h : CodingReady s) (hbits : ctxBits s m ≠ 0)
    (hsym : sym < ctxLen s m) (hrun : encSym m sym s = .done () t) : CodingReady t := by
  have hcoded := (encSym_frame m sym s).of_done hrun
  refine ⟨?_, ?_, hcoded.contextsOk h.contexts hbits,
    (encSym_encoderOk (h.contexts m hbits) h.coder hsym).of_done hrun⟩
  · rw [flag, hcoded.status_eq]
    exact h.noFault
  · rw [flag, hcoded.status_eq]
    exact h.active

end

/-! ## With room -/

/-- Room for `n` more symbols: each makes at most 16 passes (`42_coder.md` R168). -/
structure RoomFor (n : Nat) (s : State) : Prop where
  form : memoryWf s.ob = true
  cap : s.cfg.obCap ≤ 2 ^ 20
  counter : s.euf.toNat + 16 * n < 2 ^ 32
  space : s.wpos.toNat + s.euf.toNat + 16 * n ≤ 8 * s.cfg.obCap

theorem RoomFor.mono {k n : Nat} {s : State} (h : RoomFor n s) (hk : k ≤ n) : RoomFor k s := by
  obtain ⟨hform, hcap, hcounter, hspace⟩ := h
  exact ⟨hform, hcap, by omega, by omega⟩

section
variable {s : State} {m : Fin 16} {sym n : Nat}

theorem encSym_room (hready : CodingReady s) (hbits : ctxBits s m ≠ 0) (hsym : sym < ctxLen s m)
    (hroom : RoomFor (n + 1) s) : ∃ t, encSym m sym s = .done () t ∧ RoomFor n t := by
  obtain ⟨hform, hcap, hcounter, hspace⟩ := hroom
  have hok := narrowOk_of_symbol (hready.contexts m hbits) hsym hready.coder
  have hpasses := encoded_passes_le (loaded s m sym)
  have hbitcount := encoded_bits_add_pending (loaded s m sym)
  have heuf : (loaded s m sym).euf = s.euf := rfl
  rw [heuf] at hbitcount
  have hbits : s.wpos.toNat + (encoded (loaded s m sym)).bits.length ≤ 8 * s.cfg.obCap := by omega
  obtain ⟨ob, hrun, -, hwf⟩ := encodeLatch_appends (s := loaded s m sym) hok hform hcap
    (by rw [heuf]; omega) hbits
  have hsum := setRenormed_wpos_add_euf (s := loaded s m sym) ob hcap (by rw [heuf]; omega) hbits
  refine ⟨updateCtx m sym (setRenormed (encoded (loaded s m sym)) ob (loaded s m sym)),
    by rw [encSym_eq, hrun, done_andThen], hwf, hcap, ?_, ?_⟩
  · change (BitVec.ofNat 32 (encoded (loaded s m sym)).pending).toNat + 16 * n < 2 ^ 32
    rw [BitVec.toNat_ofNat]
    omega
  · have hwpos : (loaded s m sym).wpos = s.wpos := rfl
    rw [heuf, hwpos] at hsum
    change (setRenormed (encoded (loaded s m sym)) ob (loaded s m sym)).wpos.toNat +
      (setRenormed (encoded (loaded s m sym)) ob (loaded s m sym)).euf.toNat + 16 * n ≤
        8 * s.cfg.obCap
    omega

end

theorem encSyms_room {cs : List (Fin 16 × Nat)} {s : State} (hready : CodingReady s)
    (hfits : Fits s cs) (hroom : RoomFor cs.length s) : ∃ t, encSyms cs s = .done () t := by
  induction cs generalizing s with
  | nil => exact ⟨s, rfl⟩
  | cons c cs ih =>
    obtain ⟨hbits, hsym⟩ := hfits c List.mem_cons_self
    obtain ⟨t, hrun, hroom'⟩ := encSym_room hready hbits hsym hroom
    have hrest : Fits t cs := Fits.of_mbits (fun d hd => hfits d (List.mem_cons_of_mem c hd))
      ((encSym_frame c.1 c.2 s).of_done hrun).mbits_eq
    obtain ⟨u, hu⟩ := ih (hready.next hbits hsym hrun) hrest hroom'
    exact ⟨u, by rw [encSyms, hrun, done_andThen, hu]⟩

/-! ## The same symbols by SYM_ENC -/

theorem encSym_reportFree (m : Fin 16) (sym : Nat) : ReportFree (encSym m sym) :=
  (encodeLatch_reportFree.after (f := fun s => latchScaleOf m (latchBoundsOf m sym s))
    fun _ _ _ => rfl).andThen fun _ => .done (updateCtx_reportFree m sym) ()

theorem encSyms_reportFree (cs : List (Fin 16 × Nat)) : ReportFree (encSyms cs) := by
  induction cs with
  | nil => exact .done (fun _ _ _ => rfl) ()
  | cons c cs ih => exact (encSym_reportFree c.1 c.2).andThen fun _ => ih

theorem encSyms_report (cs : List (Fin 16 × Nat)) (s : State) :
    (encSyms cs s).Ends fun _ t => t.ret0 = s.ret0 ∧ t.cmdcnt = s.cmdcnt := by
  induction cs generalizing s with
  | nil => exact ⟨rfl, rfl⟩
  | cons c cs ih =>
    refine (encSym_frame c.1 c.2 s).andThen ?_
    rintro _ _ ⟨low, high, v, ob, w, rfl⟩
    exact ih _

/-- SYM_ENC completes where EncSym ends. -/
theorem exec_symEnc_of_done {s t : State} {m : Fin 16} {sym : Nat} (hready : CodingReady s)
    (hbits : ctxBits s m ≠ 0) (hsym : sym < ctxLen s m) (hrun : encSym m sym s = .done () t) :
    exec (.symEnc m sym) s = .next (retire t) := by
  rw [exec_symEnc]
  exact runCommand_done hready.noFault ((firstFailing_needSet hready.active).trans
    (firstFailing_goodSymbol hbits hsym)) hrun

/-- Where coding a list of symbols ends, SYM_ENC of each of them leaves the same, but for CMDCNT. -/
theorem runAll_symEnc {cs : List (Fin 16 × Nat)} {s t : State} (hready : CodingReady s)
    (hfits : Fits s cs) (hrun : encSyms cs s = .done () t) :
    ∃ n, runAll (cs.map fun c => .symEnc c.1 c.2) s = some (withReport s.ret0 n t) := by
  induction cs generalizing s t with
  | nil =>
    obtain ⟨-, rfl⟩ := Run.done.inj hrun
    exact ⟨s.cmdcnt, rfl⟩
  | cons c cs ih =>
    obtain ⟨hbits, hsym⟩ := hfits c List.mem_cons_self
    obtain ⟨_, v, hv, hrest⟩ := andThen_eq_done.mp hrun
    have hcoded := (encSym_frame c.1 c.2 s).of_done hv
    have hready' := (hready.next hbits hsym hv).retire
    have hfits' : Fits (retire v) cs :=
      Fits.of_mbits (fun d hd => hfits d (List.mem_cons_of_mem c hd)) hcoded.mbits_eq
    have hrest' := encSyms_reportFree cs v.ret0 (v.cmdcnt + 1) v
    rw [hrest] at hrest'
    obtain ⟨n, hn⟩ := ih hready' hfits' hrest'
    have hret : (retire v).ret0 = s.ret0 := by
      obtain ⟨low, high, w, ob, p, rfl⟩ := hcoded
      rfl
    rw [hret] at hn
    refine ⟨n, ?_⟩
    rw [List.map_cons, runAll, exec_symEnc_of_done hready hbits hsym hv]
    simp only [hready'.noFault]
    exact hn

/-! ## The standard contexts -/

/-- The width of each standard context (`41_model.md` R131, `43_block.md` R214). -/
abbrev standardWidth (m : Fin 16) : Nat := [3, 4, 5, 6, 7, 8, 9, 10, 11, 11, 6, 4].getD m.val 0

/-- Every standard context has its width. -/
def StandardBits (s : State) : Prop := ∀ c ∈ stdBits, ctxBits s c.1 = c.2

section
variable {s t : State}

theorem standardBits_of_widths (h : StandardWidths s) : StandardBits s := by
  have hall : [ctxBits s 0, ctxBits s 1, ctxBits s 2, ctxBits s 3, ctxBits s 4, ctxBits s 5,
      ctxBits s 6, ctxBits s 7, ctxBits s 8, ctxBits s 9, ctxBits s 10, ctxBits s 11] =
        [3, 4, 5, 6, 7, 8, 9, 10, 11, 11, 6, 4] := h
  simpa [StandardBits, stdBits] using hall

theorem StandardBits.of_mbits (h : StandardBits s) (hmbits : t.mbits = s.mbits) :
    StandardBits t := by
  intro c hc
  rw [ctxBits, hmbits]
  exact h c hc

/-- A symbol below `2^bits` of a standard context with `bits` fits. -/
theorem StandardBits.fits (h : StandardBits s) {m : Fin 16} {bits sym : Nat}
    (hmem : (m, bits) ∈ stdBits) (hsym : sym < 2 ^ bits) :
    ctxBits s m ≠ 0 ∧ sym < ctxLen s m := by
  have hbits : ctxBits s m = bits := h _ hmem
  have hpos : ∀ c ∈ stdBits, c.2 ≠ 0 := by decide
  rw [ctxLen, hbits]
  exact ⟨hpos _ hmem, hsym⟩

theorem firstFailing_stdCtxOk (h : StandardBits s) (cs : List Check) :
    firstFailing (stdCtxOk s ++ cs) = firstFailing cs := by
  have hnone : firstFailing (stdCtxOk s) = none := by
    refine firstFailing_eq_none.mpr fun c hc => ?_
    obtain ⟨d, hd, rfl⟩ := List.mem_map.mp hc
    exact beq_iff_eq.mpr (h d hd)
  rw [firstFailing_append, hnone, Option.none_or]

theorem standardBits_of_checks {cs : List Check} (h : firstFailing (stdCtxOk s ++ cs) = none) :
    StandardBits s ∧ firstFailing cs = none := by
  obtain ⟨hstd, hrest⟩ : firstFailing (stdCtxOk s) = none ∧ firstFailing cs = none := by
    rwa [firstFailing_append, Option.or_eq_none_iff] at h
  refine ⟨fun c hc => ?_, hrest⟩
  exact beq_iff_eq.mp (firstFailing_eq_none.mp hstd _ (List.mem_map.mpr ⟨c, hc, rfl⟩))

/-- The list of R131 up to a context `m`, and from it. -/
theorem stdBits_split (m : Fin 16) (h : m.val < 12) :
    stdBits = stdBits.take m.val ++ (m, standardWidth m) :: stdBits.drop (m.val + 1) ∧
      ∀ c ∈ stdBits.take m.val, c.1 < m ∧ c.2 = standardWidth c.1 := by
  revert m
  decide

/-- The first standard context without its width raises ERR_MODEL_CFG (`43_block.md` R214). -/
theorem firstFailing_modelCfg {m : Fin 16} (hm : m.val < 12)
    (hbefore : ∀ n : Fin 16, n < m → ctxBits s n = standardWidth n)
    (hbad : ctxBits s m ≠ standardWidth m) (cs : List Check) :
    firstFailing (stdCtxOk s ++ cs) = some ⟨.modelCfg, wordOfNat m⟩ := by
  obtain ⟨hsplit, hlower⟩ := stdBits_split m hm
  have hnone : firstFailing ((stdBits.take m.val).map fun c =>
      (⟨ctxBits s c.1 == c.2, ⟨.modelCfg, wordOfNat c.1⟩⟩ : Check)) = none := by
    refine firstFailing_eq_none.mpr fun c hc => ?_
    obtain ⟨d, hd, rfl⟩ := List.mem_map.mp hc
    obtain ⟨hlt, hwidth⟩ := hlower d hd
    exact beq_iff_eq.mpr (hwidth ▸ hbefore d.1 hlt)
  have hfirst : (ctxBits s m == standardWidth m) = false := beq_eq_false_iff_ne.mpr hbad
  rw [stdCtxOk, hsplit, List.map_append, List.append_assoc, firstFailing_append, hnone,
    Option.none_or, List.map_cons, List.cons_append, firstFailing_cons, hfirst]
  rfl

end

/-! ## The symbols of a block -/

section
variable {s t : State}

theorem zzInt_of_zz (h : t.zz = s.zz) (i : Nat) : zzInt t i = zzInt s i := by
  unfold zzInt
  rw [h]

theorem coefSymbol_of_zz (h : t.zz = s.zz) (off i : Nat) :
    coefSymbol t off i = coefSymbol s off i := by
  rw [coefSymbol, zzInt_of_zz h, coefSymbol]

theorem maxAbs_of_zz (h : t.zz = s.zz) : maxAbs t = maxAbs s := by
  have hbelow (n : Nat) : maxAbsBelow t n = maxAbsBelow s n := by
    induction n with
    | zero => rfl
    | succ n ih => rw [maxAbsBelow, maxAbsBelow, ih, zzInt_of_zz h]
  exact hbelow 64

/-- LastNZ finds the last non-zero coefficient (`43_block.md` R211). -/
theorem isLastNonZero_lastNz (s : State) : IsLastNonZero s (lastNz s) := by
  have hscan (n : Nat) : lastFrom s n ≤ n ∧ (lastFrom s n = 0 ∨ zzInt s (lastFrom s n) ≠ 0) ∧
      ∀ i, lastFrom s n < i → i ≤ n → zzInt s i = 0 := by
    induction n with
    | zero => exact ⟨le_refl _, .inl rfl, fun i h h' => by omega⟩
    | succ n ih =>
      obtain ⟨hle, hfound, habove⟩ := ih
      rw [lastFrom]
      split
      case isTrue hzero =>
        refine ⟨by omega, hfound, fun i h h' => ?_⟩
        rcases Nat.lt_or_ge n i with hi | hi
        · exact (show i = n + 1 by omega) ▸ hzero
        · exact habove i h hi
      case isFalse hne => exact ⟨le_refl _, .inr hne, fun i h h' => by omega⟩
  exact hscan 63

theorem isLastNonZero_unique {a b : Nat} (ha : IsLastNonZero s a) (hb : IsLastNonZero s b) :
    a = b := by
  obtain ⟨ha_le, ha_found, ha_above⟩ := ha
  obtain ⟨hb_le, hb_found, hb_above⟩ := hb
  rcases Nat.lt_trichotomy a b with h | h | h
  · exact absurd (ha_above b h hb_le) (hb_found.resolve_left (by omega))
  · exact h
  · exact absurd (hb_above a h ha_le) (ha_found.resolve_left (by omega))

/-- The largest magnitude is reached (`43_block.md` R212). -/
theorem isLargest_maxAbs (s : State) : IsLargest s (maxAbs s) := by
  have hbelow (n : Nat) : (∃ i, i ≤ n ∧ (zzInt s i).natAbs = maxAbsBelow s (n + 1)) ∧
      ∀ i, i ≤ n → (zzInt s i).natAbs ≤ maxAbsBelow s (n + 1) := by
    induction n with
    | zero =>
      refine ⟨⟨0, le_refl _, ?_⟩, fun i hi => ?_⟩
      · simp [maxAbsBelow]
      · obtain rfl : i = 0 := by omega
        simp [maxAbsBelow]
    | succ n ih =>
      obtain ⟨⟨j, hj, hreach⟩, hbound⟩ := ih
      rw [maxAbsBelow]
      refine ⟨?_, fun i hi => ?_⟩
      · rcases le_total (maxAbsBelow s (n + 1)) (zzInt s (n + 1)).natAbs with h | h
        · exact ⟨n + 1, le_refl _, (max_eq_right h).symm⟩
        · exact ⟨j, by omega, hreach.trans (max_eq_left h).symm⟩
      · rcases Nat.lt_or_ge n i with h | h
        · exact (show i = n + 1 by omega) ▸ le_max_right _ _
        · exact (hbound i h).trans (le_max_left _ _)
  exact hbelow 63

theorem isLargest_unique {a b : Nat} (ha : IsLargest s a) (hb : IsLargest s b) : a = b := by
  obtain ⟨⟨i, hi, rfl⟩, ha_bound⟩ := ha
  obtain ⟨⟨j, hj, rfl⟩, hb_bound⟩ := hb
  exact le_antisymm (hb_bound i hi) (ha_bound j hj)

/-- A magnitude in range has a bucket (`43_block.md` R212). -/
theorem isBucket_bucket {mx : Nat} (h : mx ≤ 1023) : IsBucket mx (bucket mx) := by
  have hsome : ((List.range 9).find? fun k => decide (mx < 2 ^ (k + 2))).isSome := by
    rw [List.find?_isSome]
    exact ⟨8, by decide, decide_eq_true (by omega)⟩
  obtain ⟨k, hk⟩ := Option.isSome_iff_exists.mp hsome
  rw [bucket, hk, Option.getD_some]
  obtain ⟨hlt, hmem, hbefore⟩ := List.find?_range_eq_some.mp hk
  refine ⟨Nat.le_of_lt_succ (List.mem_range.mp hmem), of_decide_eq_true hlt, fun j hj => ?_⟩
  simpa using hbefore j hj

theorem isBucket_unique {mx a b : Nat} (ha : IsBucket mx a) (hb : IsBucket mx b) : a = b := by
  obtain ⟨-, ha_lt, ha_below⟩ := ha
  obtain ⟨-, hb_lt, hb_below⟩ := hb
  rcases Nat.lt_trichotomy a b with h | h | h
  · exact absurd (hb_below a h) (Nat.not_le.mpr ha_lt)
  · exact h
  · exact absurd (ha_below b h) (Nat.not_le.mpr hb_lt)

end

/-- The bucket that BLK_ENC codes the coefficients in: 0 where the last index is 0
(`43_block.md` R215). -/
def codedBucket (s : State) : Nat := if lastNz s = 0 then 0 else bucket (maxAbs s)

/-- The symbols of `n` coefficients from scan index `i` on, with their context. -/
def coefSymbols (s : State) (k i n : Nat) : List (Fin 16 × Nat) :=
  (List.range' i n).map fun j => (mCoef k, coefSymbol s (coefOffset k) j)

/-- The symbol of the bucket, which a block of a DC coefficient alone has not. -/
def bucketSymbols (last k : Nat) : List (Fin 16 × Nat) := if last = 0 then [] else [(mIdx, k)]

section
variable {s t : State}

theorem coefOffset_cast (k : Nat) : ((coefOffset k : Nat) : Int) = 2 ^ (k + 2) - 1 := by
  rw [coefOffset, Nat.cast_sub Nat.one_le_two_pow]
  push_cast
  rfl

theorem blockSymbols_eq (s : State) (last k : Nat) :
    blockSymbols s last k = [(mLast, last)] ++ (bucketSymbols last k ++
      ([(mDc, coefSymbol s Config.offDc 0)] ++ coefSymbols s k 1 last)) := by
  have hcoefs : coefSymbols s k 1 last = (List.range last).map fun i =>
      (Fin.ofNat 16 k, (zzInt s (i + 1) + (2 ^ (k + 2) - 1)).toNat) := by
    rw [coefSymbols, List.range'_eq_map_range, List.map_map]
    refine List.map_congr_left fun i _ => ?_
    rw [Function.comp_apply, coefSymbol, coefOffset_cast, Nat.add_comm 1 i]
    rfl
  rw [hcoefs, bucketSymbols, blockSymbols, List.append_assoc, List.append_assoc]
  rfl

theorem encCoefs_eq (k n i : Nat) (hzz : t.zz = s.zz) :
    encCoefs k n i t = encSyms (coefSymbols s k i n) t := by
  induction n generalizing i t with
  | zero => rfl
  | succ n ih =>
    rw [encCoefs, coefSymbols, List.range'_succ, List.map_cons, encSyms, coefSymbol_of_zz hzz]
    exact andThen_congr ((encSym_frame _ _ t).imp fun _ u hu => ih (i + 1) (hu.zz_eq.trans hzz))

theorem encBucket_eq (last : Nat) (hzz : t.zz = s.zz) :
    encBucket last t =
      (encSyms (bucketSymbols last (bucket (maxAbs s))) t).andThen fun _ u =>
        .done (if last = 0 then 0 else bucket (maxAbs s)) u := by
  rw [encBucket, bucketSymbols]
  split
  · rfl
  · rw [encSyms_singleton, maxAbs_of_zz hzz]
    refine andThen_congr ((encSym_frame _ _ t).imp fun _ u hu => ?_)
    rw [maxAbs_of_zz (hu.zz_eq.trans hzz)]

theorem bucketSymbols_codedBucket (s : State) :
    bucketSymbols (lastNz s) (codedBucket s) = bucketSymbols (lastNz s) (bucket (maxAbs s)) := by
  rw [bucketSymbols, bucketSymbols, codedBucket]
  split <;> rfl

/-- The pseudocode of BLK_ENC is EncSym of the block's symbols, in order, and then the two reports
(`43_block.md` R215). -/
theorem encodeBlock_eq (s : State) :
    encodeBlock s = (encSyms (blockSymbols s (lastNz s) (codedBucket s)) s).andThen fun _ t =>
      .done () (setRet1 (wordOfNat (codedBucket s)) (setRet0 (wordOfNat (lastNz s)) t)) := by
  rw [blockSymbols_eq, encSyms_append, encSyms_singleton, andThen_assoc, encodeBlock]
  refine andThen_congr ((encSym_frame _ _ s).imp fun _ t ht => ?_)
  rw [encSyms_append, bucketSymbols_codedBucket, encBucket_eq _ ht.zz_eq, andThen_assoc,
    andThen_assoc]
  refine andThen_congr ((encSyms_zz _ t).imp fun _ u hu => ?_)
  have hzz : u.zz = s.zz := hu.trans ht.zz_eq
  rw [encSyms_append, encSyms_singleton, done_andThen, coefSymbol_of_zz hzz, andThen_assoc]
  refine andThen_congr ((encSym_frame _ _ u).imp fun _ v hv => ?_)
  rw [encCoefs_eq _ _ _ (hv.zz_eq.trans hzz)]
  rfl

/-- A coefficient's symbol lies below twice the bound on its magnitude. -/
theorem coefSymbol_lt {off i : Nat} (h : (zzInt s i).natAbs ≤ off) :
    coefSymbol s off i < 2 * (off + 1) := by
  rw [coefSymbol]
  omega

theorem mem_stdBits_mCoef (k : Nat) (hk : k ≤ 8) : (mCoef k, k + 3) ∈ stdBits := by
  interval_cases k <;> decide

theorem magnitude_le {i mx : Nat} (h : IsLargest s mx) : (zzInt s i).natAbs ≤ mx := by
  rcases Nat.lt_or_ge i 64 with hi | hi
  · exact h.2 i (by omega)
  · rw [zzInt, dif_neg (by omega)]
    exact Nat.zero_le _

/-- The symbols of a block in range are symbols of the standard contexts (`43_block.md` R213). -/
theorem fits_blockSymbols {last k mx : Nat} (hstd : StandardBits s) (hlast : IsLastNonZero s last)
    (hmx : IsLargest s mx) (hrange : mx ≤ 1023)
    (hk : if last = 0 then k = 0 else IsBucket mx k) : Fits s (blockSymbols s last k) := by
  intro c hc
  rw [blockSymbols_eq] at hc
  simp only [List.mem_append, List.mem_singleton] at hc
  rcases hc with rfl | hc | rfl | hc
  · exact hstd.fits (m := mLast) (bits := 6) (by decide) (by have := hlast.1; omega)
  · rw [bucketSymbols] at hc
    split at hc
    case isTrue => exact absurd hc List.not_mem_nil
    case isFalse hne =>
      obtain rfl := List.mem_singleton.mp hc
      rw [if_neg hne] at hk
      exact hstd.fits (m := mIdx) (bits := 4) (by decide) (by have := hk.1; omega)
  · exact hstd.fits (m := mDc) (bits := 11) (by decide)
      (coefSymbol_lt ((magnitude_le hmx).trans hrange))
  · obtain ⟨j, hj, rfl⟩ := List.mem_map.mp hc
    have hne : last ≠ 0 := by
      rintro rfl
      exact absurd hj List.not_mem_nil
    rw [if_neg hne] at hk
    obtain ⟨hk_le, hk_lt, -⟩ := hk
    have hpow : 2 * (coefOffset k + 1) = 2 ^ (k + 3) := by
      rw [coefOffset, Nat.sub_add_cancel Nat.one_le_two_pow, Nat.pow_succ 2 (k + 2), Nat.mul_comm]
    refine hstd.fits (mem_stdBits_mCoef k hk_le) (hpow ▸ coefSymbol_lt ?_)
    exact (magnitude_le hmx).trans (Nat.le_sub_one_of_lt hk_lt)

theorem blockSymbols_length_le {last k : Nat} (hlast : last ≤ 63) :
    (blockSymbols s last k).length ≤ 66 := by
  have hbucket : (bucketSymbols last k).length ≤ 1 := by
    rw [bucketSymbols]
    split
    · exact Nat.zero_le _
    · exact le_refl _
  simp only [blockSymbols_eq, coefSymbols, List.length_append, List.length_map,
    List.length_range', List.length_singleton]
  omega

end

/-! ## BLK_ENC -/

theorem isBucket_codedBucket {s : State} (h : maxAbs s ≤ 1023) :
    if lastNz s = 0 then codedBucket s = 0 else IsBucket (maxAbs s) (codedBucket s) := by
  rw [codedBucket]
  split
  · rfl
  · exact isBucket_bucket h

/-- The bucket of R215 is that of the pseudocode. -/
theorem codedBucket_eq {s : State} {k : Nat} (hrange : maxAbs s ≤ 1023)
    (hk : if lastNz s = 0 then k = 0 else IsBucket (maxAbs s) k) : codedBucket s = k := by
  have hcoded := isBucket_codedBucket hrange
  split at hk
  case isTrue hzero => rw [hk]; rwa [if_pos hzero] at hcoded
  case isFalse hne =>
    rw [if_neg hne] at hcoded
    exact isBucket_unique hcoded hk

/-- Settles O48: by `encodeBlock_eq` the command codes the block's symbols one by one, and so do the
SYM_ENC commands. -/
theorem blkEncResult : Obligations.BlkEncResult := by
  intro s last mx hs henc hlast hmx
  obtain rfl := isLastNonZero_unique (isLastNonZero_lastNz s) hlast
  obtain rfl := isLargest_unique (isLargest_maxAbs s) hmx
  rw [exec_blkEnc, List.append_assoc]
  refine ⟨fun k hstd hctxs hcoder hform hcap hrange hk hcounter hspace => ?_,
    fun m hm hbefore hbad => ?_, fun hstd hrange => ?_⟩
  · have hbits := standardBits_of_widths hstd
    have hready : CodingReady s := ⟨hs, henc, hctxs, hcoder⟩
    have hroom : RoomFor 66 s := ⟨hform, hcap, hcounter, hspace⟩
    have hfits := fits_blockSymbols hbits hlast hmx hrange hk
    obtain ⟨t, hrun⟩ := encSyms_room hready hfits (hroom.mono (blockSymbols_length_le hlast.1))
    obtain ⟨n, hall⟩ := runAll_symEnc hready hfits hrun
    obtain ⟨-, hcount⟩ := (encSyms_report _ s).of_done hrun
    have hchecks : firstFailing ([needSet s .encAct 0x45] ++ (stdCtxOk s ++ [coefRangeOk s])) =
        none :=
      (firstFailing_needSet henc).trans ((firstFailing_stdCtxOk hbits _).trans
        (by simp [coefRangeOk, hrange]))
    have hbody := encodeBlock_eq s
    rw [codedBucket_eq hrange hk, hrun, done_andThen] at hbody
    refine ⟨_, hall, ?_⟩
    rw [runCommand_done hs hchecks hbody, ← hcount]
    rfl
  · exact runCommand_faults hs ((firstFailing_needSet henc).trans
      (firstFailing_modelCfg hm hbefore hbad _))
  · refine runCommand_faults hs (e := ⟨.coefRange, wordOfNat (maxAbs s)⟩)
      ((firstFailing_needSet henc).trans
        ((firstFailing_stdCtxOk (standardBits_of_widths hstd) _).trans ?_))
    simp [coefRangeOk, Nat.not_le.mpr hrange]

/-! ## Decoding one symbol -/

/-- What DecSym may change besides the table it updates: the latch, CNT, the decoder's registers and
RPOS (`42_coder.md` R181). -/
def SymbolDecoded (s : State) (m : Fin 16) (sym : Nat) (t : State) : Prop :=
  ∃ (cnt low high code : Half) (pos : Word), t = { s with
    symLow := ctxCount s m sym, symHigh := ctxCount s m (sym + 1)
    symScale := ctxCount s m (ctxLen s m), cnt := cnt
    dlow := low, dhigh := high, dcode := code, rpos := pos
    tables := s.tables.set m (updateTable (ctxTable s m) (ctxLen s m) sym) }

section
variable {s t : State} {m : Fin 16} {sym : Nat}

theorem SymbolDecoded.mbits_eq (h : SymbolDecoded s m sym t) : t.mbits = s.mbits := by
  obtain ⟨cnt, low, high, code, pos, rfl⟩ := h
  rfl

theorem SymbolDecoded.contextsOk (h : SymbolDecoded s m sym t) (hctxs : ContextsOk s)
    (hbits : ctxBits s m ≠ 0) : ContextsOk t := by
  obtain ⟨cnt, low, high, code, pos, rfl⟩ := h
  exact contextsOk_of_updated hctxs hbits (updateTable_spec (hctxs m hbits) sym) rfl rfl

theorem symbolDecoded_updateCtx {c low high : Nat}
    (h : DecoderCarried (latched s m sym c) low high t) :
    SymbolDecoded s m sym (updateCtx m sym t) := by
  obtain ⟨code, pos, rfl, -⟩ := h
  exact ⟨BitVec.ofNat 16 c, BitVec.ofNat 16 low, BitVec.ofNat 16 high, code, pos,
    updateCtx_of_bank (s := s) rfl rfl⟩

/-- The symbol that Find answers is one of the context, and its interval holds the count
(`41_model.md` R142). -/
theorem symbol_of_find {c : Nat} (hfind : ctxFind s m c = sym + 1)
    (hc : c < count s m (ctxLen s m)) :
    sym < ctxLen s m ∧ count s m sym ≤ c ∧ c < count s m (sym + 1) := by
  obtain ⟨hle, hfound, habove⟩ := findElem_spec (ctxTable s m) c (ctxLen s m)
  change ctxFind s m c ≤ _ at hle
  change ctxFind s m c = 0 ∨ (tableElem (ctxTable s m) (ctxFind s m c)).toNat ≤ c at hfound
  change ∀ e, ctxFind s m c < e → _ at habove
  rw [hfind] at hle hfound habove
  refine ⟨hle, hfound.resolve_left (Nat.succ_ne_zero _), ?_⟩
  rcases Nat.lt_or_ge (sym + 1) (ctxLen s m) with h | h
  · exact habove (sym + 2) (Nat.lt_succ_self _) h
  · rwa [show sym + 1 = ctxLen s m by omega]

/-- DecSym keeps the invariant of R32. -/
theorem decSym_ends (hctx : ContextOk s m) (hdec : DecoderOk s) :
    (decSym m s).Ends fun sym t => SymbolDecoded s m sym t ∧ DecoderOk t := by
  have ⟨_, hlow, hhigh⟩ := hdec
  have hlt := decoderCount_lt hlow hhigh (one_le_count hctx (le_refl _))
  have htake := takeCount_latchScaleOf hctx hdec rfl
  have hc := hlt.trans (ctxCount s m (ctxLen s m)).isLt
  cases hfind : ctxFind s m (decoderCount s.dlow.toNat s.dhigh.toNat s.dcode.toNat
      (count s m (ctxLen s m))) with
  | zero =>
    rw [decSym_lost htake hc hfind]
    trivial
  | succ sym =>
    obtain ⟨hsym, hin_low, hin_high⟩ := symbol_of_find hfind hlt
    have hok := removeOk_latched hctx hdec hsym rfl hin_low hin_high
    rw [decSym_found htake hc hfind]
    exact (removeLatch_ends hok).andThen fun _ t ht =>
      ⟨symbolDecoded_updateCtx ht, ht.decoderOk (removed_settled hok) (removed_high_lt hok)⟩

/-- What DecSym of a given symbol needs of the stream: its interval holds the count, and the reader
has the bits of its removal. -/
def Decodes (s : State) (m : Fin 16) (sym : Nat) : Prop :=
  let scale := count s m (ctxLen s m)
  let c := decoderCount s.dlow.toNat s.dhigh.toNat s.dcode.toNat scale
  let r := codedInterval s.dlow.toNat s.dhigh.toNat 0 (count s m sym) (count s m (sym + 1)) scale
  sym < ctxLen s m ∧ count s m sym ≤ c ∧ c < count s m (sym + 1) ∧
    s.rpos.toNat + r.passes ≤ s.rlen.toNat

theorem updateTable_eq_tableOf (hctx : ContextOk s m) (sym : Nat) :
    updateTable (ctxTable s m) (ctxLen s m) sym = tableOf fun e =>
      if 1 ≤ e ∧ e ≤ ctxLen s m + 1 then
        BitVec.ofNat 16 (updatedCount (count s m) (ctxLen s m) sym (e - 1))
      else tableElem (ctxTable s m) e := by
  have hlen := ctxLen_le hctx.width.2
  refine table_ext fun e => BitVec.eq_of_toNat_eq ?_
  have hspec := updateTable_spec hctx sym e
  have hlt := (tableElem (updateTable (ctxTable s m) (ctxLen s m) sym) e).isLt
  rw [tableElem_tableOf]
  by_cases he : 1 ≤ e ∧ e ≤ ctxLen s m + 1
  · rw [if_pos he] at hspec
    rw [if_pos (by omega), if_pos he, BitVec.toNat_ofNat, ← hspec]
    exact (Nat.mod_eq_of_lt hlt).symm
  · rw [if_neg he] at hspec
    rw [hspec, if_neg he]
    split
    · rfl
    · rw [tableElem_of_le (by omega)]

/-- DecSym of a symbol that the stream holds (`42_coder.md` R181). -/
theorem decSym_of_decodes (hctx : ContextOk s m) (hdec : DecoderOk s) (h : Decodes s m sym) :
    decSym m s = .done sym (decodedState s m sym) := by
  obtain ⟨hsym, hlow, hhigh, hroom⟩ := h
  have hlt := hhigh.trans (ctxCount s m (sym + 1)).isLt
  have hremove := removeLatch_room (removeOk_latched hctx hdec hsym rfl hlow hhigh) hroom
  rw [removed_latched, carriedCode_latched, narrowedLow_latched] at hremove
  rw [decSym_found (takeCount_latchScaleOf hctx hdec rfl) hlt
    (ctxFind_eq hsym hlow (count_above hctx hhigh)), hremove, done_andThen, decodedState,
    updateCtx_of_bank (s := s) (by simp) (by simp), updateTable_eq_tableOf hctx]
  simp only [setTable, setRpos, setDcode, setDec, latched]

end

/-! ## Decoding a list of symbols -/

/-- What decoding one more symbol of a block needs of the contexts and the registers. -/
structure DecodingReady (s : State) : Prop where
  widths : StandardBits s
  contexts : ContextsOk s
  coder : DecoderOk s

section
variable {s u : State} {m : Fin 16} {sym bits : Nat}

theorem decSym_next (hready : DecodingReady s) (hbits : ctxBits s m ≠ 0) (h : Decodes s m sym) :
    decSym m s = .done sym (decodedState s m sym) ∧ DecodingReady (decodedState s m sym) := by
  have hctx := hready.contexts m hbits
  have hrun := decSym_of_decodes hctx hready.coder h
  obtain ⟨hdecoded, hcoder⟩ := (decSym_ends hctx hready.coder).of_done hrun
  exact ⟨hrun, hready.widths.of_mbits hdecoded.mbits_eq,
    hdecoded.contextsOk hready.contexts hbits, hcoder⟩

theorem decodedRun_cons {rest : List (Fin 16 × Nat)} :
    decodedRun ((m, sym) :: rest) s = some u ↔
      Decodes s m sym ∧ decodedRun rest (decodedState s m sym) = some u := by
  rw [decodedRun]
  exact Option.ite_none_right_eq_some

theorem decodedRun_append {cs ds : List (Fin 16 × Nat)} :
    decodedRun (cs ++ ds) s = some u ↔
      ∃ a, decodedRun cs s = some a ∧ decodedRun ds a = some u := by
  induction cs generalizing s with
  | nil => simp [decodedRun]
  | cons c cs ih =>
    obtain ⟨m, sym⟩ := c
    simp only [List.cons_append, decodedRun_cons, ih, exists_and_left, and_assoc]

/-- Decoding symbols touches neither ZZ nor CMDCNT. -/
theorem decodedRun_frame {cs : List (Fin 16 × Nat)} (h : decodedRun cs s = some u) :
    u.zz = s.zz ∧ u.cmdcnt = s.cmdcnt := by
  induction cs generalizing s with
  | nil =>
    obtain rfl := Option.some.inj h
    exact ⟨rfl, rfl⟩
  | cons c cs ih =>
    obtain ⟨m, sym⟩ := c
    obtain ⟨hzz, hcount⟩ := ih (decodedRun_cons.mp h).2
    exact ⟨hzz, hcount⟩

/-- The first symbol of a run in a standard context. -/
theorem decSym_of_decodedRun {rest : List (Fin 16 × Nat)} (hready : DecodingReady s)
    (hm : (m, bits) ∈ stdBits) (h : decodedRun ((m, sym) :: rest) s = some u) :
    decSym m s = .done sym (decodedState s m sym) ∧ DecodingReady (decodedState s m sym) ∧
      decodedRun rest (decodedState s m sym) = some u := by
  obtain ⟨hdecodes, hrest⟩ := decodedRun_cons.mp h
  obtain ⟨hbits, -⟩ := hready.widths.fits hm (Nat.two_pow_pos bits)
  obtain ⟨hrun, hnext⟩ := decSym_next hready hbits hdecodes
  exact ⟨hrun, hnext, hrest⟩

end

/-! ## Coefficients into ZZ -/

/-- `ZZ[i] <- v`. -/
def zzWith (i : Nat) (v : Int) (z : Block 16) : Block 16 :=
  if h : i < 64 then z.set i (BitVec.ofInt 16 v) else z

/-- The coefficients of these symbols, from scan index `i` on (`43_block.md` R218). -/
def zzWithCoefs (off : Nat) : Nat → List Nat → Block 16 → Block 16
  | _, [], z => z
  | i, c :: cs, z => zzWithCoefs off (i + 1) cs (zzWith i ((c : Int) - off) z)

/-- ZZ with the DC coefficient and the coefficients behind it (`43_block.md` R218). -/
def blockZz (k dc : Nat) (cs : List Nat) (z : Block 16) : Block 16 :=
  zzWithCoefs (coefOffset k) 1 cs (zzWith 0 ((dc : Int) - 1023) z)

theorem getElem_zzWith {i j : Nat} (hj : j < 64) (v : Int) (z : Block 16) :
    (zzWith i v z)[j] = if i = j then BitVec.ofInt 16 v else z[j] := by
  rw [zzWith]
  split
  · exact Vector.getElem_set ..
  · rw [if_neg (by omega)]

theorem getElem_zzWithCoefs (off : Nat) {j : Nat} (hj : j < 64) (i : Nat) (cs : List Nat)
    (z : Block 16) : (zzWithCoefs off i cs z)[j] =
      if i ≤ j ∧ j < i + cs.length then BitVec.ofInt 16 ((cs.getD (j - i) 0 : Nat) - off)
      else z[j] := by
  induction cs generalizing i z with
  | nil =>
    rw [zzWithCoefs, List.length_nil, if_neg (by omega)]
  | cons c cs ih =>
    rw [zzWithCoefs, ih, getElem_zzWith hj, List.length_cons]
    rcases Nat.lt_trichotomy i j with h | h | h
    · obtain ⟨d, rfl⟩ : ∃ d, j = i + 1 + d := ⟨j - (i + 1), by omega⟩
      rw [if_neg (show ¬i = i + 1 + d by omega), show i + 1 + d - (i + 1) = d by omega,
        show i + 1 + d - i = d + 1 by omega, List.getD_cons_succ]
      exact if_congr (by omega) rfl rfl
    · subst h
      rw [if_neg (by omega), if_pos rfl, if_pos ⟨le_refl _, by omega⟩, Nat.sub_self,
        List.getD_cons_zero]
    · rw [if_neg (by omega), if_neg (by omega), if_neg (by omega)]

theorem putZz_setZz (i : Nat) (v : Int) (z : Block 16) (s : State) :
    putZz i v (setZz z s) = setZz (zzWith i v z) s := by
  rw [putZz, zzWith]
  split <;> rfl

section
variable {s u : State} {m : Fin 16} {sym bits off : Nat} {z : Block 16}

theorem decodedState_setZz (z : Block 16) (s : State) (m : Fin 16) (sym : Nat) :
    decodedState (setZz z s) m sym = setZz z (decodedState s m sym) := rfl

theorem DecodingReady.setZz (h : DecodingReady s) (z : Block 16) :
    DecodingReady (setZz z s) :=
  ⟨h.widths, contextsOk_congr (s := s) rfl rfl h.contexts, h.coder⟩

/-- DecSym does not see ZZ. -/
theorem decSym_setZz {rest : List (Fin 16 × Nat)} (hready : DecodingReady s)
    (hm : (m, bits) ∈ stdBits) (h : decodedRun ((m, sym) :: rest) s = some u) (z : Block 16) :
    decSym m (setZz z s) = .done sym (setZz z (decodedState s m sym)) := by
  obtain ⟨hdecodes, -⟩ := decodedRun_cons.mp h
  obtain ⟨hbits, -⟩ := hready.widths.fits hm (Nat.two_pow_pos bits)
  rw [← decodedState_setZz]
  exact (decSym_next (hready.setZz z) hbits hdecodes).1

/-- A symbol that an encoder can produce is written to ZZ less its offset (`43_block.md` R218). -/
theorem decCoef_legal {rest : List (Fin 16 × Nat)} (hready : DecodingReady s)
    (hm : (m, bits) ∈ stdBits) (h : decodedRun ((m, sym) :: rest) s = some u)
    (hsym : sym ≤ 2 * off) (i : Nat) (z : Block 16) :
    decCoef m off i (setZz z s) =
      .done () (setZz (zzWith i ((sym : Int) - off) z) (decodedState s m sym)) := by
  rw [decCoef, decSym_setZz hready hm h, done_andThen, decide_eq_true hsym, demand_true,
    done_andThen, putZz_setZz]

/-- A symbol that no encoder produces faults, its context updated and ZZ as it was
(`43_block.md` R218). -/
theorem decCoef_foreign {rest : List (Fin 16 × Nat)} (hready : DecodingReady s)
    (hm : (m, bits) ∈ stdBits) (h : decodedRun ((m, sym) :: rest) s = some u)
    (hsym : 2 * off < sym) (i : Nat) (z : Block 16) :
    decCoef m off i (setZz z s) =
      .raised ⟨.coefRange, wordOfNat sym⟩ (setZz z (decodedState s m sym)) := by
  rw [decCoef, decSym_setZz hready hm h, done_andThen, decide_eq_false (Nat.not_le.mpr hsym),
    demand_false, raised_andThen]

end

/-- The loop over the coefficients as far as the symbols are legal: they are written, and the rest
of the loop goes on from there. -/
theorem decCoefs_legal {s u : State} {k : Nat} (hk : k ≤ 8) {cs : List Nat}
    (hready : DecodingReady s) (hcs : ∀ c ∈ cs, c ≤ 2 * coefOffset k)
    (h : decodedRun (cs.map fun c => (mCoef k, c)) s = some u) (n i : Nat) (z : Block 16) :
    DecodingReady u ∧ decCoefs k (cs.length + n) i (setZz z s) =
      decCoefs k n (i + cs.length) (setZz (zzWithCoefs (coefOffset k) i cs z) u) := by
  induction cs generalizing s i z with
  | nil =>
    obtain rfl := Option.some.inj h
    exact ⟨hready, by rw [List.length_nil, Nat.zero_add, Nat.add_zero, zzWithCoefs]⟩
  | cons c cs ih =>
    have hm := mem_stdBits_mCoef k hk
    obtain ⟨-, hready', hrest⟩ := decSym_of_decodedRun hready hm h
    obtain ⟨hu, hloop⟩ := ih hready' (fun d hd => hcs d (List.mem_cons_of_mem c hd)) hrest (i + 1)
      (zzWith i ((c : Int) - coefOffset k) z)
    refine ⟨hu, ?_⟩
    rw [List.length_cons, Nat.add_right_comm, decCoefs,
      decCoef_legal hready hm h (hcs c List.mem_cons_self), done_andThen, hloop, zzWithCoefs,
      Nat.add_right_comm i, Nat.add_assoc]

/-! ## BLK_DEC -/

section
variable {s u : State} {last k dc : Nat}

/-- The head of a block: the last index and the bucket (`43_block.md` R218). -/
theorem decodeBlock_head {rest : List (Fin 16 × Nat)} (hready : DecodingReady s) (hk : k ≤ 8)
    (hzero : last = 0 → k = 0)
    (h : decodedRun ([(mLast, last)] ++ bucketSymbols last k ++ rest) s = some u) :
    ∃ a, DecodingReady a ∧ a.zz = s.zz ∧ decodedRun rest a = some u ∧
      decodeBlock s = (decCoef mDc Config.offDc 0 a).andThen fun _ t =>
        (decCoefs k last 1 t).andThen fun _ t =>
          .done () (setRet1 (wordOfNat k) (setRet0 (wordOfNat last) (clearZzAfter last t))) := by
  rw [List.append_assoc, List.singleton_append] at h
  obtain ⟨hlast, hready₁, h₁⟩ := decSym_of_decodedRun (bits := 6) hready (by decide) h
  rw [bucketSymbols] at h₁
  split at h₁
  case isTrue hlast_zero =>
    obtain rfl := hzero hlast_zero
    refine ⟨_, hready₁, rfl, h₁, ?_⟩
    rw [decodeBlock, hlast, done_andThen, decBucket, if_pos hlast_zero, done_andThen]
  case isFalse hne =>
    obtain ⟨hbucket, hready₂, h₂⟩ := decSym_of_decodedRun (bits := 4) hready₁ (by decide) h₁
    refine ⟨_, hready₂, rfl, h₂, ?_⟩
    rw [decodeBlock, hlast, done_andThen, decBucket, if_neg hne, hbucket, done_andThen,
      decide_eq_true hk, demand_true, done_andThen, done_andThen]

theorem decodedBlock_eq (last k dc : Nat) (cs : List Nat) :
    decodedBlock last k dc cs = [(mLast, last)] ++ bucketSymbols last k ++
      ((mDc, dc) :: cs.map fun c => (mCoef k, c)) := by
  rw [decodedBlock, bucketSymbols, List.append_assoc ([(10, last)] ++ _)]
  rfl

/-- The block up to a coefficient symbol: the DC symbol and the symbols `cs` are in ZZ. -/
theorem decodeBlock_upTo {cs ds : List Nat} (hready : DecodingReady s) (hk : k ≤ 8)
    (hzero : last = 0 → k = 0) (hdc : dc ≤ 2046) (hcs : ∀ c ∈ cs, c ≤ 2 * coefOffset k)
    (h : decodedRun (decodedBlock last k dc (cs ++ ds)) s = some u) {n : Nat}
    (hn : last = cs.length + n) :
    ∃ a, DecodingReady a ∧ decodedRun (ds.map fun c => (mCoef k, c)) a = some u ∧
      decodeBlock s =
        (decCoefs k n (1 + cs.length) (setZz (blockZz k dc cs s.zz) a)).andThen fun _ t =>
        .done () (setRet1 (wordOfNat k) (setRet0 (wordOfNat last) (clearZzAfter last t))) := by
  rw [decodedBlock_eq] at h
  obtain ⟨a, ha, hzz, hrun, hbody⟩ := decodeBlock_head hready hk hzero h
  have hm : (mDc, 11) ∈ stdBits := by decide
  obtain ⟨-, hb, hcoefs⟩ := decSym_of_decodedRun ha hm hrun
  rw [List.map_append] at hcoefs
  obtain ⟨d, hlegal, hrest⟩ := decodedRun_append.mp hcoefs
  obtain ⟨hd, hloop⟩ := decCoefs_legal hk hb hcs hlegal n 1
    (zzWith 0 ((dc : Int) - Config.offDc) a.zz)
  have hself : a = setZz a.zz a := rfl
  refine ⟨d, hd, hrest, ?_⟩
  rw [hbody, hself, decCoef_legal ha hm hrun hdc, done_andThen, hn, hloop, hzz]
  rfl

end

theorem toInt_ofInt_half {v : Int} (hlow : -32768 ≤ v) (hhigh : v < 32768) :
    (BitVec.ofInt 16 v).toInt = v :=
  BitVec.toInt_ofInt_eq_self (by decide) hlow hhigh

section
variable {k dc : Nat} {cs : List Nat} {z : Block 16}

/-- The elements of ZZ that a block's coefficients have been written to. -/
theorem coefs_written (hk : k ≤ 8) (hdc : dc ≤ 2046) (hcs : ∀ c ∈ cs, c ≤ 2 * coefOffset k)
    (z : Block 16) :
    (blockZz k dc cs z)[0].toInt = (dc : Int) - 1023 ∧
      (∀ i : Fin 64, 1 ≤ i.val → i.val ≤ cs.length →
        (blockZz k dc cs z)[i].toInt =
          (cs.getD (i.val - 1) 0 : Int) - (2 ^ (k + 2) - 1)) ∧
      ∀ i : Fin 64, cs.length < i.val →
        (blockZz k dc cs z)[i] = z[i] := by
  have hoff : coefOffset k ≤ 1023 := by
    rw [coefOffset]
    have := Nat.pow_le_pow_right (show 0 < 2 by decide) (show k + 2 ≤ 10 by omega)
    omega
  refine ⟨?_, fun i hi hle => ?_, fun i hlt => ?_⟩
  · rw [blockZz, getElem_zzWithCoefs _ (by decide), if_neg (by omega), getElem_zzWith (by decide),
      if_pos rfl, toInt_ofInt_half (by omega) (by omega)]
  · have hmem : cs.getD (i.val - 1) 0 ≤ 2 * coefOffset k := by
      rw [List.getD_eq_getElem _ _ (by omega)]
      exact hcs _ (List.getElem_mem _)
    rw [Fin.getElem_fin, blockZz, getElem_zzWithCoefs _ i.isLt, if_pos ⟨hi, by omega⟩,
      toInt_ofInt_half (by omega) (by omega), coefOffset_cast]
  · rw [Fin.getElem_fin, blockZz, getElem_zzWithCoefs _ i.isLt, if_neg (by omega),
      getElem_zzWith i.isLt, if_neg (by omega)]
    rfl

end

/-- `for i from last + 1 to 63: ZZ[i] <- 0` (`43_block.md` R218). -/
def zzCleared (last : Nat) (z : Block 16) : Block 16 :=
  Vector.ofFn fun i => if last < i.val then 0 else z[i]

theorem getElem_zzCleared (last : Nat) (z : Block 16) (i : Fin 64) :
    (zzCleared last z)[i] = if last < i.val then 0 else z[i] := by
  rw [zzCleared, Fin.getElem_fin, Vector.getElem_ofFn]

theorem clearZzAfter_setZz (last : Nat) (z : Block 16) (s : State) :
    clearZzAfter last (setZz z s) = setZz (zzCleared last z) s := rfl

section
variable {s u : State} {last k dc : Nat}

/-- A bucket above 8 faults, its context updated (`43_block.md` R218). -/
theorem decodeBlock_badBucket (hready : DecodingReady s) (hne : last ≠ 0) (hk : 8 < k)
    (h : decodedRun [(mLast, last), (mIdx, k)] s = some u) :
    decodeBlock s = .raised ⟨.badIndex, wordOfNat k⟩ u := by
  obtain ⟨hlast, hready', h'⟩ := decSym_of_decodedRun (bits := 6) hready (by decide) h
  obtain ⟨hbucket, -, hu⟩ := decSym_of_decodedRun (bits := 4) hready' (by decide) h'
  obtain rfl := Option.some.inj hu
  rw [decodeBlock, hlast, done_andThen, decBucket, if_neg hne, hbucket, done_andThen,
    decide_eq_false (Nat.not_le.mpr hk), demand_false, raised_andThen, raised_andThen]

/-- A DC symbol above 2046 faults, its context updated (`43_block.md` R218). -/
theorem decodeBlock_badDc (hready : DecodingReady s) (hk : k ≤ 8) (hzero : last = 0 → k = 0)
    (hdc : 2046 < dc) (h : decodedRun (decodedBlock last k dc []) s = some u) :
    decodeBlock s = .raised ⟨.coefRange, wordOfNat dc⟩ u := by
  rw [decodedBlock_eq] at h
  obtain ⟨a, ha, -, hrun, hbody⟩ := decodeBlock_head hready hk hzero h
  have hm : (mDc, 11) ∈ stdBits := by decide
  obtain ⟨-, -, hu⟩ := decSym_of_decodedRun ha hm hrun
  obtain rfl := Option.some.inj hu
  have hself : a = setZz a.zz a := rfl
  rw [hbody, hself, decCoef_foreign ha hm hrun hdc, raised_andThen]
  rfl

/-- A coefficient symbol above twice its offset faults, its context updated and the elements before
it written (`43_block.md` R218). -/
theorem decodeBlock_badCoef {cs : List Nat} {c : Nat} (hready : DecodingReady s)
    (hlen : cs.length < last) (hk : k ≤ 8) (hdc : dc ≤ 2046)
    (hcs : ∀ c ∈ cs, c ≤ 2 * coefOffset k) (hc : 2 * coefOffset k < c)
    (h : decodedRun (decodedBlock last k dc (cs ++ [c])) s = some u) :
    decodeBlock s = .raised ⟨.coefRange, wordOfNat c⟩ (setZz (blockZz k dc cs s.zz) u) := by
  obtain ⟨n, hn⟩ : ∃ n, last = cs.length + (n + 1) := ⟨last - cs.length - 1, by omega⟩
  obtain ⟨a, ha, hrun, hbody⟩ := decodeBlock_upTo hready hk (by omega) hdc hcs h hn
  have hm := mem_stdBits_mCoef k hk
  obtain ⟨-, -, hu⟩ := decSym_of_decodedRun ha hm hrun
  obtain rfl := Option.some.inj hu
  rw [hbody, decCoefs, decCoef_foreign ha hm hrun hc, raised_andThen, raised_andThen]

/-- A legal block (`43_block.md` R218). -/
theorem decodeBlock_legal {cs : List Nat} (hready : DecodingReady s) (hlen : cs.length = last)
    (hk : k ≤ 8) (hzero : last = 0 → k = 0) (hdc : dc ≤ 2046)
    (hcs : ∀ c ∈ cs, c ≤ 2 * coefOffset k)
    (h : decodedRun (decodedBlock last k dc cs) s = some u) :
    decodeBlock s = .done () (setRet1 (wordOfNat k) (setRet0 (wordOfNat last)
      (setZz (zzCleared last (blockZz k dc cs s.zz)) u))) := by
  rw [← List.append_nil cs] at h
  obtain ⟨a, -, hu, hbody⟩ := decodeBlock_upTo (n := 0) hready hk hzero hdc hcs h hlen.symm
  obtain rfl := Option.some.inj hu
  rw [hbody, decCoefs, done_andThen, clearZzAfter_setZz]

end

/-- Settles O49: the lemmas above run the pseudocode, and `coefs_written` gives the elements of
ZZ. -/
theorem blkDecResult : Obligations.BlkDecResult := by
  intro s hs hdec
  rw [exec_blkDec]
  refine ⟨fun hstd hctxs hcoder => ?_, fun m hm hbefore hbad => ?_⟩
  · have hbits := standardBits_of_widths hstd
    have hready : DecodingReady s := ⟨hbits, hctxs, hcoder⟩
    have hchecks : firstFailing ([needSet s .decAct 0x48] ++ stdCtxOk s) = none := by
      rw [← List.append_nil (stdCtxOk s)]
      exact (firstFailing_needSet hdec).trans (firstFailing_stdCtxOk hbits [])
    refine ⟨?legal, ?badBucket, ?badDc, ?badCoef⟩
    case legal =>
      intro last k dc cs u hlen hk hzero hdc hcs hrun
      have hbody := decodeBlock_legal hready hlen hk hzero hdc hcs hrun
      obtain ⟨hfirst, hcoefs, -⟩ := coefs_written hk hdc hcs s.zz
      obtain ⟨-, hcount⟩ := decodedRun_frame hrun
      refine ⟨zzCleared last (blockZz k dc cs s.zz), ?_, ?_, fun i hi hle => ?_, fun i hlt => ?_⟩
      · rw [runCommand_done hs hchecks hbody]
        simp only [retire, setRet1, setRet0, setZz, wordOfNat, hcount]
      · exact (congrArg BitVec.toInt (getElem_zzCleared last _ 0)).trans hfirst
      · rw [getElem_zzCleared, if_neg (Nat.not_lt.mpr hle)]
        exact hcoefs i hi (hlen ▸ hle)
      · rw [getElem_zzCleared, if_pos hlt]
    case badBucket =>
      intro last k u hne hk hrun
      exact runCommand_raised hs hchecks (decodeBlock_badBucket hready hne hk hrun)
    case badDc =>
      intro last k dc u hk hzero hdc hrun
      exact runCommand_raised hs hchecks (decodeBlock_badDc hready hk hzero hdc hrun)
    case badCoef =>
      intro last k dc c cs u hlen hk hdc hcs hc hrun
      obtain ⟨hfirst, hcoefs, hrest⟩ := coefs_written hk hdc hcs s.zz
      exact ⟨_, runCommand_raised hs hchecks
        (decodeBlock_badCoef hready hlen hk hdc hcs hc hrun), hfirst, hcoefs, hrest⟩
  · have hmodel := firstFailing_modelCfg hm hbefore hbad []
    rw [List.append_nil] at hmodel
    exact runCommand_faults hs ((firstFailing_needSet hdec).trans hmodel)

end Sys2Proof.Machine.BlockCoder

/-! PROOFS. Every step keeps the invariant of the coder registers (`10_state.md` R32). Only the
commands of the coder and of the block coder, BR_INIT and the two resets write these registers or
open and close a segment; every other command leaves them, which `coderView` says. -/

namespace Sys2Proof.Machine.CoderInvariant

open FrequencyModel Composite ArithmeticCoder BlockCoder

/-! ## What R32 depends on -/

/-- Whether the encoder's segment is open, and its interval. -/
def encoderView (s : State) : Bool × Half × Half := (flag s .encAct, s.elow, s.ehigh)

/-- Whether the decoder's segment is open, its interval and its code. -/
def decoderView (s : State) : Bool × Half × Half × Half :=
  (flag s .decAct, s.dlow, s.dhigh, s.dcode)

/-- All of the state that R32 depends on, but for STATUS.FAULT. -/
def coderView (s : State) : (Bool × Half × Half) × Bool × Half × Half × Half :=
  (encoderView s, decoderView s)

/-- The registers of each open segment meet R32. -/
def SegmentsOk (s : State) : Prop :=
  (flag s .encAct = true → EncoderOk s) ∧ (flag s .decAct = true → DecoderOk s)

section
variable {s t : State}

theorem encoder_congr (h : encoderView t = encoderView s)
    (hs : flag s .encAct = true → EncoderOk s) (ht : flag t .encAct = true) : EncoderOk t := by
  obtain ⟨hact, hlow, hhigh⟩ : flag t .encAct = flag s .encAct ∧ t.elow = s.elow ∧
      t.ehigh = s.ehigh := by simpa [encoderView] using h
  rw [EncoderOk, hlow, hhigh]
  exact hs (hact ▸ ht)

theorem decoder_congr (h : decoderView t = decoderView s)
    (hs : flag s .decAct = true → DecoderOk s) (ht : flag t .decAct = true) : DecoderOk t := by
  obtain ⟨hact, hlow, hhigh, hcode⟩ : flag t .decAct = flag s .decAct ∧ t.dlow = s.dlow ∧
      t.dhigh = s.dhigh ∧ t.dcode = s.dcode := by simpa [decoderView] using h
  rw [DecoderOk, hlow, hhigh, hcode]
  exact hs (hact ▸ ht)

theorem segmentsOk_congr (h : coderView t = coderView s) (hs : SegmentsOk s) : SegmentsOk t :=
  ⟨encoder_congr (congrArg Prod.fst h) hs.1, decoder_congr (congrArg Prod.snd h) hs.2⟩

theorem segmentsOk_of_encoder (henc : EncoderOk t) (hdec : decoderView t = decoderView s)
    (hs : SegmentsOk s) : SegmentsOk t :=
  ⟨fun _ => henc, decoder_congr hdec hs.2⟩

theorem segmentsOk_of_decoder (hdec : DecoderOk t) (henc : encoderView t = encoderView s)
    (hs : SegmentsOk s) : SegmentsOk t :=
  ⟨encoder_congr henc hs.1, fun _ => hdec⟩

/-- Closed segments need nothing. -/
theorem segmentsOk_of_closed (henc : flag t .encAct = false) (hdec : flag t .decAct = false) :
    SegmentsOk t :=
  ⟨fun h => absurd (henc.symm.trans h) (by decide), fun h => absurd (hdec.symm.trans h) (by decide)⟩

theorem segmentsOk_retire (h : SegmentsOk t) : SegmentsOk (retire t) := h

/-- A command keeps R32 if its pseudocode does where it ends: with a fault there is nothing to
keep. -/
theorem codersOk_of_runCommand {cs : List Check} {body : State → Run Unit} (hok : CodersOk s)
    (h : runCommand cs body s = .next t)
    (hbody : firstFailing cs = none → SegmentsOk s → (body s).Ends fun _ u => SegmentsOk u) :
    CodersOk t := by
  intro ht
  obtain ⟨hs, hchecks, v, hrun, rfl⟩ := runCommand_completed h ht
  exact segmentsOk_retire ((hbody hchecks (hok hs)).of_done hrun)

end

/-! ## Pseudocode that leaves the coder alone -/

/-- Where the pseudocode ends it has left the coder registers and the segments as they were. -/
def CoderFree {α : Type} (body : State → Run α) : Prop :=
  ∀ s, (body s).Ends fun _ t => coderView t = coderView s

section
variable {α β : Type} {s t : State}

theorem CoderFree.codersOk {cs : List Check} {body : State → Run Unit} (hbody : CoderFree body)
    (hok : CodersOk s) (h : runCommand cs body s = .next t) : CodersOk t :=
  codersOk_of_runCommand hok h fun _ hs => (hbody s).imp fun _ _ hu => segmentsOk_congr hu hs

theorem always_coderFree {f : State → State} (h : ∀ s, coderView (f s) = coderView s) :
    CoderFree (always f) := h

/-- The same one step at a time: a run that has left the coder alone so far goes on with pseudocode
that does. -/
theorem andThen_coderFree {r : Run α} {k : α → State → Run β}
    (hr : r.Ends fun _ t => coderView t = coderView s) (hk : ∀ a, CoderFree (k a)) :
    (r.andThen k).Ends fun _ t => coderView t = coderView s :=
  hr.andThen fun a _ ht => (hk a _).imp fun _ _ hu => hu.trans ht

theorem CoderFree.andThen {body : State → Run α} {k : α → State → Run β} (hbody : CoderFree body)
    (hk : ∀ a, CoderFree (k a)) : CoderFree fun s => (body s).andThen k :=
  fun s => andThen_coderFree (hbody s) hk

theorem done_coderFree (a : α) {f : State → State} (h : ∀ s, coderView (f s) = coderView s) :
    CoderFree fun s => .done a (f s) := h

theorem demand_coderFree (ok : Bool) (e : Trap) : CoderFree (demand ok e) :=
  fun s => (demand_ends ok e s).imp fun _ _ ⟨_, ht⟩ => congrArg coderView ht

theorem putList_coderFree (bits : List Bool) : CoderFree (putList bits) := by
  intro s
  refine (putList_ends bits s).imp ?_
  rintro _ _ ⟨m, w, rfl⟩
  rfl

theorem putBits_coderFree (v : Word) (n : Nat) : CoderFree (putBits v n) := by
  intro s
  rw [putBits_eq]
  exact putList_coderFree _ s

theorem putByte_coderFree (v : Byte) : CoderFree (putByte v) := putBits_coderFree _ 8

theorem peekBits_coderFree (n : Nat) : CoderFree (peekBits n) :=
  fun s => andThen_coderFree (demand_coderFree _ _ s) fun _ _ => rfl

theorem getBits_coderFree (n : Nat) : CoderFree (getBits n) :=
  (peekBits_coderFree n).andThen fun _ => done_coderFree _ fun _ => rfl

end

/-! ## The RLE unit -/

theorem putFromIb_coderFree (a n : Nat) : CoderFree (putFromIb a n) := by
  induction n generalizing a with
  | zero => exact fun _ => rfl
  | succ n ih =>
    exact fun s => andThen_coderFree (putByte_coderFree (readByte s.ib a) s) fun _ => ih (a + 1)

theorem flushLiteral_coderFree (a n : Nat) : CoderFree (flushLiteral a n) := by
  intro s
  rw [flushLiteral]
  split
  · exact rfl
  · exact andThen_coderFree (putByte_coderFree _ s) fun _ => putFromIb_coderFree a n

theorem rleEncLoop_coderFree (fuel a left ls ll : Nat) :
    CoderFree (rleEncLoop fuel a left ls ll) := by
  induction fuel generalizing a left ls ll with
  | zero => exact flushLiteral_coderFree ls ll
  | succ fuel ih =>
    intro s
    rw [rleEncLoop]
    split
    · exact flushLiteral_coderFree ls ll s
    · split
      · refine andThen_coderFree (flushLiteral_coderFree ls ll s) fun _ t => ?_
        refine andThen_coderFree (putByte_coderFree _ t) fun _ u => ?_
        exact andThen_coderFree (putByte_coderFree _ u) fun _ v => ih _ _ 0 0 v
      · split
        · exact andThen_coderFree (flushLiteral_coderFree ls ll s) fun _ => ih (a + 1) _ a 1
        · exact ih (a + 1) (left - 1) _ (ll + 1) s

theorem rleEncode_coderFree : CoderFree rleEncode :=
  fun s => andThen_coderFree (rleEncLoop_coderFree _ _ _ 0 0 s) fun _ _ => rfl

theorem copyBytes_coderFree (n : Nat) : CoderFree (copyBytes n) := by
  induction n with
  | zero => exact fun _ => rfl
  | succ n ih =>
    exact (getBits_coderFree 8).andThen fun _ => (putByte_coderFree _).andThen fun _ => ih

theorem repeatByte_coderFree (v : Byte) (n : Nat) : CoderFree (repeatByte v n) := by
  induction n with
  | zero => exact fun _ => rfl
  | succ n ih => exact (putByte_coderFree v).andThen fun _ => ih

theorem rleDecRecord_coderFree (left : Nat) : CoderFree (rleDecRecord left) := by
  intro s
  rw [rleDecRecord]
  refine andThen_coderFree (getBits_coderFree 8 s) fun len t => ?_
  refine andThen_coderFree (demand_coderFree _ _ t) fun _ u => ?_
  split
  · generalize len - 0x80 = n
    refine andThen_coderFree (demand_coderFree _ _ u) fun _ v => ?_
    exact andThen_coderFree (copyBytes_coderFree n v) fun _ _ => rfl
  · refine andThen_coderFree (getBits_coderFree 8 u) fun v w => ?_
    refine andThen_coderFree (demand_coderFree _ _ w) fun _ x => ?_
    exact andThen_coderFree (repeatByte_coderFree (BitVec.ofNat 8 v) len x) fun _ _ => rfl

theorem rleDecLoop_coderFree (fuel left : Nat) : CoderFree (rleDecLoop fuel left) := by
  induction fuel generalizing left with
  | zero => exact fun _ => rfl
  | succ fuel ih =>
    intro s
    rw [rleDecLoop]
    split
    · exact rfl
    · exact andThen_coderFree (rleDecRecord_coderFree left s) fun c => ih (left - c)

theorem rleDecode_coderFree : CoderFree rleDecode :=
  fun s => andThen_coderFree (rleDecLoop_coderFree _ _ s) fun _ _ => rfl

/-! ## Updates that leave the coder alone -/

theorem coderView_startWriter (hdr : Bool) (s : State) :
    coderView (startWriter hdr s) = coderView s := by
  simp [coderView, encoderView, decoderView, startWriter]

theorem coderView_flushWriter (s : State) : coderView (flushWriter s) = coderView s := by
  simp [coderView, encoderView, decoderView, flushWriter]

theorem coderView_clipw (b : Bool) (s : State) :
    coderView (setFlag .clipw b s) = coderView s := by
  simp [coderView, encoderView, decoderView]

/-! ## The updates of the other commands -/

section
variable (s : State)

@[simp] theorem coderView_setRet0 (v : Word) : coderView (setRet0 v s) = coderView s := rfl
@[simp] theorem coderView_setRet1 (v : Word) : coderView (setRet1 v s) = coderView s := rfl
@[simp] theorem coderView_setCnt (v : Half) : coderView (setCnt v s) = coderView s := rfl
@[simp] theorem coderView_setRpos (v : Word) : coderView (setRpos v s) = coderView s := rfl
@[simp] theorem coderView_setLatchBounds (v w : Half) :
    coderView (setLatchBounds v w s) = coderView s := rfl
@[simp] theorem coderView_setLatchScale (v : Half) :
    coderView (setLatchScale v s) = coderView s := rfl
@[simp] theorem coderView_setTable (m : Fin 16) (t : Table) :
    coderView (setTable m t s) = coderView s := rfl
@[simp] theorem coderView_setMbits (m : Fin 16) (bits : BitVec 4) :
    coderView (setMbits m bits s) = coderView s := rfl
@[simp] theorem coderView_setCoef (b : Block 32) : coderView (setCoef b s) = coderView s := rfl
@[simp] theorem coderView_setZz (b : Block 16) : coderView (setZz b s) = coderView s := rfl
@[simp] theorem coderView_setRecon (b : Block 8) : coderView (setRecon b s) = coderView s := rfl

theorem coderView_initCtx (m : Fin 16) (bits : Nat) :
    coderView (initCtx m bits s) = coderView s := by simp [initCtx]

theorem coderView_initCtxs (cs : List (Fin 16 × Nat)) :
    coderView (initCtxs cs s) = coderView s := by
  induction cs generalizing s with
  | nil => rfl
  | cons c cs ih => exact (ih (initCtx c.1 c.2 s)).trans (coderView_initCtx s c.1 c.2)

theorem coderView_updateCtx (m : Fin 16) (sym : Nat) :
    coderView (updateCtx m sym s) = coderView s := coderView_setTable ..

theorem coderView_latchBoundsOf (m : Fin 16) (sym : Nat) :
    coderView (latchBoundsOf m sym s) = coderView s := coderView_setLatchBounds ..

theorem coderView_latchScaleOf (m : Fin 16) :
    coderView (latchScaleOf m s) = coderView s := coderView_setLatchScale ..

theorem coderView_takeSymbol (m : Fin 16) : coderView (takeSymbol m s) = coderView s := by
  rw [takeSymbol, coderView_latchScaleOf, coderView_latchBoundsOf, coderView_setRet0]

theorem coderView_reportCount : coderView (reportCount s) = coderView s := by
  rw [reportCount, coderView_setRet0, takeCount, coderView_setCnt]

theorem coderView_transformBlock (f : (Nat → Int) → Nat → Int) :
    coderView (transformBlock f s) = coderView s := coderView_setCoef ..

theorem coderView_loadBlock (inter : Bool) : coderView (loadBlock inter s) = coderView s :=
  coderView_setCoef ..

theorem coderView_dequantBlock (inter : Bool) : coderView (dequantBlock inter s) = coderView s :=
  coderView_setCoef ..

theorem coderView_reconBlock (inter : Bool) : coderView (reconBlock inter s) = coderView s :=
  coderView_setRecon ..

theorem coderView_quantBlock (inter : Bool) : coderView (quantBlock inter s) = coderView s := by
  rw [quantBlock]
  split
  · rw [coderView_clipw, coderView_setZz]
  · rw [coderView_setZz]

end

/-! ## The commands of the coder -/

/-- BR_INIT closes the decoder's segment. -/
theorem startReader_segmentsOk {s : State} (hs : SegmentsOk s) : SegmentsOk (startReader s) := by
  have henc : encoderView (startReader s) = encoderView s := by simp [encoderView, startReader]
  refine ⟨encoder_congr henc hs.1, fun h => ?_⟩
  simp [startReader] at h

theorem openEncoder_segmentsOk {s : State} (hs : SegmentsOk s) : SegmentsOk (openEncoder s) := by
  refine segmentsOk_of_encoder ?_ (s := s) ?_ hs
  · exact show IntervalOk 0 0xFFFF by unfold IntervalOk; decide
  · simp [decoderView, openEncoder]

/-- AC_ENC_FLUSH closes the encoder's segment. -/
theorem closeSegment_segmentsOk {s : State} (hs : SegmentsOk s) :
    (closeSegment s).Ends fun _ t => SegmentsOk t := by
  rw [closeSegment_eq]
  refine (putList_ends _ s).andThen ?_
  rintro _ _ ⟨m₁, w₁, rfl⟩
  refine (putList_ends _ _).andThen ?_
  rintro _ _ ⟨m, w, rfl⟩
  refine ⟨fun h => ?_, decoder_congr ?_ hs.2⟩
  · simp at h
  · simp [decoderView]

theorem openDecoder_segmentsOk {s : State} (hs : SegmentsOk s) :
    (openDecoder s).Ends fun _ t => SegmentsOk t := by
  rw [openDecoder]
  refine (getBits_coderFree 16 _).andThen fun v t ht => ?_
  obtain ⟨⟨henc, helow, hehigh⟩, -, hdlow, hdhigh, -⟩ :
      (flag t .encAct = flag s .encAct ∧ t.elow = s.elow ∧ t.ehigh = s.ehigh) ∧
        flag t .decAct = flag s .decAct ∧ t.dlow = 0 ∧ t.dhigh = 0xFFFF ∧ t.dcode = s.dcode := by
    simpa [coderView, encoderView, decoderView] using ht
  refine segmentsOk_of_decoder (s := s) ⟨?_, ?_, ?_⟩ ?_ hs
  · simp only [setFlag_dlow, setDcode_dlow, setFlag_dhigh, setDcode_dhigh, hdlow, hdhigh]
    unfold IntervalOk
    decide
  · simp only [setFlag_dlow, setDcode_dlow, hdlow]
    exact Nat.zero_le _
  · simp only [setFlag_dhigh, setDcode_dhigh, hdhigh]
    exact Nat.le_of_lt_succ (BitVec.isLt _)
  · simp [encoderView, henc, helow, hehigh]

section
variable {s : State} {m : Fin 16} {sym : Nat}

theorem ctxBits_of_checks {cs : List Check} (h : firstFailing cs = none)
    (hmem : ctxInit s m ∈ cs) : ctxBits s m ≠ 0 := by
  simpa using firstFailing_eq_none.mp h _ hmem

theorem encodeLatch_segmentsOk (hlatch : LatchOk s) (henc : flag s .encAct = true)
    (hs : SegmentsOk s) : (encodeLatch s).Ends fun _ t => SegmentsOk t := by
  have hok := narrowOk_of_latchOk hlatch (hs.1 henc)
  refine (encodeLatch_ends hok).imp ?_
  rintro _ _ ⟨ob, w, v, rfl⟩
  exact segmentsOk_of_encoder (s := s)
    (intervalOk_ofNat (codedInterval_settled hok _) (codedInterval_high_lt hok _)) rfl hs

theorem removeLatch_segmentsOk (hok : RemoveOk s) (hs : SegmentsOk s) :
    (removeLatch s).Ends fun _ t => SegmentsOk t := by
  refine (removeLatch_ends hok).imp fun _ t ht => ?_
  have hdec := ht.decoderOk (removed_settled hok) (removed_high_lt hok)
  obtain ⟨code, pos, rfl, -⟩ := ht
  exact segmentsOk_of_decoder (s := s) hdec rfl hs

theorem decoderView_of_symbolCoded {t : State} (h : SymbolCoded s m sym t) :
    decoderView t = decoderView s := by
  obtain ⟨low, high, v, ob, w, rfl⟩ := h
  rfl

theorem encoderView_of_symbolDecoded {t : State} (h : SymbolDecoded s m sym t) :
    encoderView t = encoderView s := by
  obtain ⟨cnt, low, high, code, pos, rfl⟩ := h
  rfl

theorem encSym_segmentsOk (hctxs : ContextsOk s) (hbits : ctxBits s m ≠ 0)
    (hsym : sym < ctxLen s m) (henc : flag s .encAct = true) (hs : SegmentsOk s) :
    (encSym m sym s).Ends fun _ t => SegmentsOk t :=
  Run.ends_of_done fun _ _ hrun => segmentsOk_of_encoder
    ((encSym_encoderOk (hctxs m hbits) (hs.1 henc) hsym).of_done hrun)
    (decoderView_of_symbolCoded ((encSym_frame m sym s).of_done hrun)) hs

theorem symDecBody_segmentsOk (hctxs : ContextsOk s) (hbits : ctxBits s m ≠ 0)
    (hdec : flag s .decAct = true) (hs : SegmentsOk s) :
    (symDecBody m s).Ends fun _ t => SegmentsOk t := by
  rw [symDecBody]
  refine (decSym_ends (hctxs m hbits) (hs.2 hdec)).andThen fun sym t ⟨hdecoded, hcoder⟩ => ?_
  have hview := encoderView_of_symbolDecoded hdecoded
  exact segmentsOk_congr (coderView_setRet0 t _) (segmentsOk_of_decoder hcoder hview hs)

/-! ## The block coder -/

theorem encSyms_encoder {cs : List (Fin 16 × Nat)} (hready : CodingReady s) (hfits : Fits s cs) :
    (encSyms cs s).Ends fun _ t => EncoderOk t ∧ decoderView t = decoderView s := by
  induction cs generalizing s with
  | nil => exact ⟨hready.coder, rfl⟩
  | cons c cs ih =>
    obtain ⟨hbits, hsym⟩ := hfits c List.mem_cons_self
    refine Run.Ends.andThen (Run.ends_of_done fun _ _ h => h) fun _ t hrun => ?_
    have hcoded := (encSym_frame c.1 c.2 s).of_done hrun
    have hrest : Fits t cs :=
      Fits.of_mbits (fun d hd => hfits d (List.mem_cons_of_mem c hd)) hcoded.mbits_eq
    refine (ih (hready.next hbits hsym hrun) hrest).imp fun _ u ⟨hcoder, hview⟩ => ?_
    exact ⟨hcoder, hview.trans (decoderView_of_symbolCoded hcoded)⟩

theorem encodeBlock_segmentsOk (hready : CodingReady s) (hstd : StandardBits s)
    (hrange : maxAbs s ≤ 1023) (hs : SegmentsOk s) :
    (encodeBlock s).Ends fun _ t => SegmentsOk t := by
  have hfits := fits_blockSymbols hstd (isLastNonZero_lastNz s) (isLargest_maxAbs s) hrange
    (isBucket_codedBucket hrange)
  rw [encodeBlock_eq]
  refine (encSyms_encoder hready hfits).andThen fun _ t ⟨hcoder, hview⟩ => ?_
  refine segmentsOk_congr (s := t) ?_ (segmentsOk_of_encoder hcoder hview hs)
  rw [coderView_setRet1, coderView_setRet0]

/-- A decoder that has gone on from `s` and is ready for the next symbol. -/
def DecodingFrom (s t : State) : Prop := DecodingReady t ∧ encoderView t = encoderView s

theorem DecodingFrom.trans {t u : State} (hst : DecodingFrom s t) (htu : DecodingFrom t u) :
    DecodingFrom s u := ⟨htu.1, htu.2.trans hst.2⟩

theorem decSym_decodingFrom {bits : Nat} (hready : DecodingReady s) (hm : (m, bits) ∈ stdBits) :
    (decSym m s).Ends fun _ t => DecodingFrom s t := by
  obtain ⟨hbits, -⟩ := hready.widths.fits hm (Nat.two_pow_pos bits)
  refine (decSym_ends (hready.contexts m hbits) hready.coder).imp fun sym t ⟨hdecoded, hcoder⟩ => ?_
  exact ⟨⟨hready.widths.of_mbits hdecoded.mbits_eq, hdecoded.contextsOk hready.contexts hbits,
    hcoder⟩, encoderView_of_symbolDecoded hdecoded⟩

theorem decCoef_decodingFrom {bits : Nat} (hready : DecodingReady s) (hm : (m, bits) ∈ stdBits)
    (off i : Nat) : (decCoef m off i s).Ends fun _ t => DecodingFrom s t := by
  rw [decCoef]
  refine (decSym_decodingFrom hready hm).andThen fun sym t ht => ?_
  refine (demand_ends _ _ t).andThen ?_
  rintro _ u ⟨-, rfl⟩
  have hput : putZz i ((sym : Int) - off) u = setZz (zzWith i ((sym : Int) - off) u.zz) u :=
    putZz_setZz i _ u.zz u
  refine ht.trans ?_
  rw [hput]
  exact ⟨ht.1.setZz _, congrArg Prod.fst (coderView_setZz u _)⟩

theorem decCoefs_decodingFrom {k : Nat} (hk : k ≤ 8) (n i : Nat) (hready : DecodingReady s) :
    (decCoefs k n i s).Ends fun _ t => DecodingFrom s t := by
  induction n generalizing s i with
  | zero => exact ⟨hready, rfl⟩
  | succ n ih =>
    exact (decCoef_decodingFrom hready (mem_stdBits_mCoef k hk) _ i).andThen fun _ _ ht =>
      (ih (i + 1) ht.1).imp fun _ _ hu => ht.trans hu

theorem decBucket_decodingFrom (last : Nat) (hready : DecodingReady s) :
    (decBucket last s).Ends fun k t => k ≤ 8 ∧ DecodingFrom s t := by
  rw [decBucket]
  split
  · exact ⟨Nat.zero_le _, hready, rfl⟩
  · refine (decSym_decodingFrom (bits := 4) hready (by decide)).andThen fun k t ht => ?_
    refine (demand_ends _ _ t).andThen ?_
    rintro _ _ ⟨hk, rfl⟩
    exact ⟨of_decide_eq_true hk, ht⟩

theorem decodeBlock_decodingFrom (hready : DecodingReady s) :
    (decodeBlock s).Ends fun _ t => ∃ u, coderView t = coderView u ∧ DecodingFrom s u := by
  rw [decodeBlock]
  refine (decSym_decodingFrom (bits := 6) hready (by decide)).andThen fun last a ha => ?_
  refine (decBucket_decodingFrom last ha.1).andThen fun k b ⟨hk, hb⟩ => ?_
  refine (decCoef_decodingFrom (bits := 11) hb.1 (by decide) _ 0).andThen fun _ c hc => ?_
  refine (decCoefs_decodingFrom hk last 1 hc.1).andThen fun _ d hd => ?_
  refine ⟨d, ?_, ((ha.trans hb).trans hc).trans hd⟩
  rw [coderView_setRet1, coderView_setRet0, clearZzAfter, coderView_setZz]

end

/-! ## Every command -/

section
variable {s t : State}

theorem flag_softReset (f : Flag) (s : State) : flag (softReset s) f = false := by
  simp [flag, statusFlag, softReset]

theorem flag_hardReset (f : Flag) (p : PowerUp) (s : State) : flag (hardReset p s) f = false :=
  flag_softReset f s

theorem acEnc_codersOk (hok : CodersOk s) (h : exec .acEnc s = .next t) : CodersOk t :=
  codersOk_of_runCommand hok ((exec_acEnc s).symm.trans h) fun hchecks hs =>
    encodeLatch_segmentsOk (tripleLegal_iff.mp (firstFailing_eq_none.mp hchecks (tripleOk s)
      (by simp))) (flag_of_needSet hchecks) hs

theorem acDecRm_codersOk (hok : CodersOk s) (h : exec .acDecRm s = .next t) : CodersOk t :=
  codersOk_of_runCommand hok ((exec_acDecRm s).symm.trans h) fun hchecks hs =>
    removeLatch_segmentsOk (removeOk_of_checks (hs.2 (flag_of_needSet hchecks)) hchecks) hs

theorem symEnc_codersOk {m : Fin 16} {sym : Nat} (hctxs : ContextsOk s) (hok : CodersOk s)
    (h : exec (.symEnc m sym) s = .next t) : CodersOk t := by
  refine codersOk_of_runCommand hok ((exec_symEnc s m sym).symm.trans h) fun hchecks hs => ?_
  have hsym : sym < ctxLen s m := by
    simpa using firstFailing_eq_none.mp hchecks (symOk s m sym) (by simp)
  exact encSym_segmentsOk hctxs (ctxBits_of_checks hchecks (by simp)) hsym
    (flag_of_needSet hchecks) hs

theorem symDec_codersOk {m : Fin 16} (hctxs : ContextsOk s) (hok : CodersOk s)
    (h : exec (.symDec m) s = .next t) : CodersOk t :=
  codersOk_of_runCommand hok ((exec_symDec s m).symm.trans h) fun hchecks hs =>
    symDecBody_segmentsOk hctxs (ctxBits_of_checks hchecks (by simp)) (flag_of_needSet hchecks) hs

theorem blkEnc_codersOk (hctxs : ContextsOk s) (hok : CodersOk s)
    (h : exec .blkEnc s = .next t) : CodersOk t := by
  intro ht
  obtain ⟨hs, hchecks, v, hrun, rfl⟩ := runCommand_completed ((exec_blkEnc s).symm.trans h) ht
  have henc : flag s .encAct = true := flag_of_needSet hchecks
  have hrest := (firstFailing_needSet henc).symm.trans hchecks
  obtain ⟨hstd, hrange⟩ := standardBits_of_checks hrest
  have hrange' : maxAbs s ≤ 1023 := by simpa [coefRangeOk] using hrange
  exact segmentsOk_retire ((encodeBlock_segmentsOk ⟨hs, henc, hctxs, (hok hs).1 henc⟩ hstd hrange'
    (hok hs)).of_done hrun)

theorem blkDec_codersOk (hctxs : ContextsOk s) (hok : CodersOk s)
    (h : exec .blkDec s = .next t) : CodersOk t := by
  refine codersOk_of_runCommand hok ((exec_blkDec s).symm.trans h) fun hchecks hs => ?_
  have hdec : flag s .decAct = true := flag_of_needSet hchecks
  have hrest := (firstFailing_needSet hdec).symm.trans hchecks
  rw [← List.append_nil (stdCtxOk s)] at hrest
  obtain ⟨hstd, -⟩ := standardBits_of_checks hrest
  refine (decodeBlock_decodingFrom ⟨hstd, hctxs, hs.2 hdec⟩).imp ?_
  rintro _ t ⟨u, ht, hready, hview⟩
  exact segmentsOk_congr ht (segmentsOk_of_decoder hready.coder hview hs)

/-- Every command keeps R32. -/
theorem exec_codersOk (i : Instr) (hctxs : ContextsOk s) (hok : CodersOk s)
    (h : exec i s = .next t) : CodersOk t := by
  cases i with
  | nop =>
    rw [exec, execNop] at h
    exact (always_coderFree (f := id) fun _ => rfl).codersOk hok h
  | reset =>
    obtain rfl := Host.Outcome.next.inj h
    exact fun _ => segmentsOk_of_closed (flag_softReset _ s) (flag_softReset _ s)
  | clrw =>
    rw [exec, execClrw] at h
    exact (always_coderFree (coderView_clipw false)).codersOk hok h
  | bwInit hdr =>
    rw [exec, execBwInit] at h
    exact (always_coderFree (coderView_startWriter hdr)).codersOk hok h
  | bwPut n =>
    rw [exec, execBwPut] at h
    exact (putBits_coderFree s.arg0 n).codersOk hok h
  | bwFlush =>
    rw [exec, execBwFlush] at h
    exact (always_coderFree coderView_flushWriter).codersOk hok h
  | brInit =>
    rw [exec, execBrInit] at h
    exact codersOk_of_runCommand hok h fun _ => startReader_segmentsOk
  | brGet n =>
    rw [exec, execBrGet] at h
    exact ((getBits_coderFree n).andThen fun v => done_coderFree ()
      (coderView_setRet0 · (wordOfNat v))).codersOk hok h
  | brPeek n =>
    rw [exec, execBrPeek] at h
    exact ((peekBits_coderFree n).andThen fun v => done_coderFree ()
      (coderView_setRet0 · (wordOfNat v))).codersOk hok h
  | brSkip n =>
    rw [exec, execBrSkip] at h
    exact (always_coderFree fun s => coderView_setRpos s _).codersOk hok h
  | mdlInit m bits =>
    rw [exec, execMdlInit] at h
    exact (always_coderFree (coderView_initCtx · m bits)).codersOk hok h
  | mdlInitStd =>
    rw [exec, execMdlInitStd] at h
    exact (always_coderFree (coderView_initCtxs · stdBits)).codersOk hok h
  | mdlUpd m sym =>
    rw [exec, execMdlUpd] at h
    exact (always_coderFree (coderView_updateCtx · m sym)).codersOk hok h
  | mdlI2s m sym =>
    rw [exec, execMdlI2s] at h
    exact (always_coderFree fun s => (coderView_latchScaleOf _ m).trans
      (coderView_latchBoundsOf s m sym)).codersOk hok h
  | mdlS2i m =>
    rw [exec, execMdlS2i] at h
    exact (always_coderFree (coderView_takeSymbol · m)).codersOk hok h
  | mdlScale m =>
    rw [exec, execMdlScale] at h
    exact (always_coderFree fun s => (coderView_setRet0 _ _).trans
      (coderView_latchScaleOf s m)).codersOk hok h
  | acEncInit =>
    exact codersOk_of_runCommand hok ((exec_acEncInit s).symm.trans h) fun _ =>
      openEncoder_segmentsOk
  | acEnc => exact acEnc_codersOk hok h
  | acEncFlush =>
    exact codersOk_of_runCommand hok ((exec_acEncFlush s).symm.trans h) fun _ =>
      closeSegment_segmentsOk
  | acDecInit =>
    exact codersOk_of_runCommand hok ((exec_acDecInit s).symm.trans h) fun _ =>
      openDecoder_segmentsOk
  | acDecCnt =>
    rw [exec, execAcDecCnt] at h
    exact (always_coderFree coderView_reportCount).codersOk hok h
  | acDecRm => exact acDecRm_codersOk hok h
  | symEnc m sym => exact symEnc_codersOk hctxs hok h
  | symDec m => exact symDec_codersOk hctxs hok h
  | blkLoad inter =>
    rw [exec, execBlkLoad] at h
    exact (always_coderFree (coderView_loadBlock · inter)).codersOk hok h
  | blkFdct =>
    rw [exec, execBlkFdct] at h
    exact (always_coderFree (coderView_transformBlock · _)).codersOk hok h
  | blkQuant inter =>
    rw [exec, execBlkQuant] at h
    exact (always_coderFree (coderView_quantBlock · inter)).codersOk hok h
  | blkLast =>
    rw [exec, execBlkLast] at h
    exact (always_coderFree fun s => coderView_setRet0 s _).codersOk hok h
  | blkMidx =>
    rw [exec, execBlkMidx] at h
    exact (always_coderFree fun s => (coderView_setRet1 _ _).trans
      (coderView_setRet0 s _)).codersOk hok h
  | blkEnc => exact blkEnc_codersOk hctxs hok h
  | blkDec => exact blkDec_codersOk hctxs hok h
  | blkDeq inter =>
    rw [exec, execBlkDeq] at h
    exact (always_coderFree (coderView_dequantBlock · inter)).codersOk hok h
  | blkIdct =>
    rw [exec, execBlkIdct] at h
    exact (always_coderFree (coderView_transformBlock · _)).codersOk hok h
  | blkRecon inter =>
    rw [exec, execBlkRecon] at h
    exact (always_coderFree (coderView_reconBlock · inter)).codersOk hok h
  | rleEnc =>
    rw [exec, execRleEnc] at h
    exact rleEncode_coderFree.codersOk hok h
  | rleDec =>
    rw [exec, execRleDec] at h
    exact rleDecode_coderFree.codersOk hok h

/-! ## Every action -/

theorem codersOk_congr (hview : coderView t = coderView s) (hfault : flag t .fault = flag s .fault)
    (h : CodersOk s) : CodersOk t :=
  fun ht => segmentsOk_congr hview (h (hfault.symm.trans ht))

theorem hostRead_codersOk (width : BusWidth) (addr : Nat) (h : CodersOk s) :
    CodersOk (hostRead width addr s) := by
  rw [hostRead]
  split <;> exact h

/-- The host writes no coder register and no flag. -/
theorem writeLocation_frame (loc : Location) (v : Word) (s : State) :
    coderView (writeLocation loc v s) = coderView s ∧
      flag (writeLocation loc v s) .fault = flag s .fault := by
  cases loc with
  | reg n =>
    simp only [writeLocation, writeReg]
    split <;> exact ⟨rfl, rfl⟩
  | _ => exact ⟨rfl, rfl⟩

theorem hostStore_codersOk (width : BusWidth) (addr : Nat) (v : Word) (h : CodersOk s) :
    CodersOk (hostStore width addr v s) := by
  rw [hostStore]
  split
  · obtain ⟨hview, hfault⟩ := writeLocation_frame _ v s
    exact codersOk_congr hview hfault h
  · exact h

theorem illegalCommand_codersOk (w : Word) (h : CodersOk s) : CodersOk (illegalCommand w s) := by
  rw [illegalCommand]
  split
  · exact h
  · intro hfault
    simp at hfault

theorem command_codersOk (w : Word) (hctxs : ContextsOk s) (hok : CodersOk s)
    (h : command w s = .next t) : CodersOk t := by
  rw [command] at h
  split at h
  · exact exec_codersOk _ hctxs hok h
  · obtain rfl := Host.Outcome.next.inj h
    exact illegalCommand_codersOk w hok

theorem act_codersOk (a : HostAction) (hctxs : ContextsOk s) (hok : CodersOk s)
    (h : act a s = .next t) : CodersOk t := by
  cases a with
  | read width addr =>
    obtain rfl := Host.Outcome.next.inj h
    exact hostRead_codersOk width addr hok
  | write width addr v =>
    rw [act] at h
    split at h
    · exact command_codersOk v hctxs hok h
    · obtain rfl := Host.Outcome.next.inj h
      exact hostStore_codersOk width addr v hok
  | hardwareReset p =>
    obtain rfl := Host.Outcome.next.inj h
    exact fun _ => segmentsOk_of_closed (flag_hardReset _ p s) (flag_hardReset _ p s)

end

/-- Settles O58: the queue of the host is no part of the invariants, and every action keeps R32. -/
theorem stepKeepsCoders : Obligations.StepKeepsCoders := by
  intro s t hctxs hok h
  rw [step] at h
  split at h
  · obtain rfl := Host.Outcome.next.inj h
    exact hok
  · next a rest _ =>
    have hctxs' : ContextsOk { s with host := rest } := contextsOk_congr (s := s) rfl rfl hctxs
    have hok' : CodersOk { s with host := rest } := hok
    exact act_codersOk a hctxs' hok' h

end Sys2Proof.Machine.CoderInvariant

/-! PROOFS. The block pipeline without its entropy coder (`43_block.md`): BLK_LOAD, BLK_FDCT,
BLK_QUANT, BLK_LAST, BLK_MIDX, BLK_DEQ, BLK_IDCT and BLK_RECON. Each of them but BLK_MIDX has no
check, so that it completes, and its result is a fact about the one block or register it writes. A
transform is a double sum over the 8 rows and 8 columns of K, and BLK_DEQ a run of writes at the
distinct elements of ZIGZAG. -/

namespace Sys2Proof.Machine.BlockPipeline

open FrequencyModel BlockCoder

/-! ## The commands as checks and pseudocode -/

section
variable (s : State) (inter : Bool)

theorem exec_blkLoad :
    exec (.blkLoad inter) s = runCommand [] (always (loadBlock inter)) s := rfl

theorem exec_blkFdct : exec .blkFdct s =
    runCommand [] (always (transformBlock (forwardTransform s.cfg.transform))) s := rfl

theorem exec_blkIdct : exec .blkIdct s =
    runCommand [] (always (transformBlock (inverseTransform s.cfg.transform))) s := rfl

theorem exec_blkQuant :
    exec (.blkQuant inter) s = runCommand [] (always (quantBlock inter)) s := rfl

theorem exec_blkLast :
    exec .blkLast s = runCommand [] (always fun s => setRet0 (wordOfNat (lastNz s)) s) s := rfl

theorem exec_blkMidx : exec .blkMidx s = runCommand [coefRangeOk s] (always fun s =>
    setRet1 (wordOfNat (maxAbs s)) (setRet0 (wordOfNat (bucket (maxAbs s))) s)) s := rfl

theorem exec_blkDeq :
    exec (.blkDeq inter) s = runCommand [] (always (dequantBlock inter)) s := rfl

theorem exec_blkRecon :
    exec (.blkRecon inter) s = runCommand [] (always (reconBlock inter)) s := rfl

end

/-- A command without a check that only updates the state completes. -/
theorem runCommand_unchecked {f : State → State} {s : State} (hs : flag s .fault = false) :
    runCommand [] (always f) s = .next (retire (f s)) :=
  runCommand_always hs firstFailing_nil

/-! ## What a completed command leaves

The values written are variables here, so that comparing two states unfolds no block of 64
formulas. -/

section
variable (s : State)

theorem retire_setRet0 (n : Nat) : retire (setRet0 (wordOfNat n) s) =
    { s with ret0 := BitVec.ofNat 32 n, cmdcnt := s.cmdcnt + 1 } := rfl

theorem retire_setRet1_setRet0 (m n : Nat) :
    retire (setRet1 (wordOfNat m) (setRet0 (wordOfNat n) s)) =
      { s with ret0 := BitVec.ofNat 32 n, ret1 := BitVec.ofNat 32 m, cmdcnt := s.cmdcnt + 1 } := rfl

theorem retire_setCoef (b : Block 32) :
    retire (setCoef b s) = { s with coef := b, cmdcnt := s.cmdcnt + 1 } := rfl

theorem retire_setRecon (b : Block 8) :
    retire (setRecon b s) = { s with recon := b, cmdcnt := s.cmdcnt + 1 } := rfl

theorem retire_setZz (b : Block 16) :
    retire (setZz b s) = { s with zz := b, cmdcnt := s.cmdcnt + 1 } := rfl

/-- CLIPW is bit 8 of STATUS (`10_state.md` R23). -/
theorem retire_setZz_clipped (b : Block 16) : retire (setFlag .clipw true (setZz b s)) =
    { s with zz := b, status := s.status ||| 0x100, cmdcnt := s.cmdcnt + 1 } := rfl

variable {s} {t : State}

theorem retire_of_coef_frame (h : t = setCoef t.coef s) :
    retire t = { s with coef := t.coef, cmdcnt := s.cmdcnt + 1 } :=
  (congrArg retire h).trans (retire_setCoef s t.coef)

theorem retire_of_recon_frame (h : t = setRecon t.recon s) :
    retire t = { s with recon := t.recon, cmdcnt := s.cmdcnt + 1 } :=
  (congrArg retire h).trans (retire_setRecon s t.recon)

end

/-! ## Elements and stored numbers -/

theorem ofFn_at {α : Type} (f : Fin 64 → α) (p : Fin 64) : (Vector.ofFn f)[p] = f p := by
  simp

theorem toInt_ofInt_word {v : Int} (hlow : -2147483648 ≤ v) (hhigh : v < 2147483648) :
    (BitVec.ofInt 32 v).toInt = v :=
  BitVec.toInt_ofInt_eq_self (by decide) hlow hhigh

/-- A number that a byte holds is stored as it is. -/
theorem toNat_ofInt_byte {v : Int} (hlow : 0 ≤ v) (hhigh : v ≤ 255) :
    ((BitVec.ofInt 8 v).toNat : Int) = v := by
  rw [BitVec.toNat_ofInt]
  omega

theorem clampInt_eq_max_min {lo hi : Int} (h : lo ≤ hi) (v : Int) :
    clampInt v lo hi = max lo (min v hi) := by
  unfold clampInt
  split
  · omega
  · split <;> omega

/-! ## BLK_LOAD and BLK_RECON -/

section
variable (s : State) (inter : Bool) (p : Fin 64)

/-- BLK_LOAD writes COEF only. -/
theorem loadBlock_frame : loadBlock inter s = setCoef (loadBlock inter s).coef s := rfl

/-- A loaded value lies between -255 and 255, so that s32 holds it (`43_block.md` R202). -/
theorem toInt_loadBlock : (loadBlock inter s).coef[p].toInt = loadedPixel inter s p := by
  have hpix := s.pix[p].isLt
  have href := s.ref[p].isLt
  have hbounds : -255 ≤ loadedPixel inter s p ∧ loadedPixel inter s p ≤ 255 := by
    unfold loadedPixel
    split <;> omega
  rw [loadBlock, setCoef_coef, ofFn_at]
  exact toInt_ofInt_word (by omega) (by omega)

/-- BLK_RECON writes REC only. -/
theorem reconBlock_frame : reconBlock inter s = setRecon (reconBlock inter s).recon s := rfl

/-- The clamp brings a reconstructed value into a byte (`43_block.md` R224). -/
theorem toNat_reconBlock :
    ((reconBlock inter s).recon[p].toNat : Int) = max 0 (min (predicted inter s p) 255) := by
  rw [reconBlock, setRecon_recon, ofFn_at, clampInt_eq_max_min (by decide)]
  exact toNat_ofInt_byte (by omega) (by omega)

theorem predicted_eq :
    predicted inter s p = s.coef[p].toInt + if inter then (s.ref[p].toNat : Int) else 0 := by
  cases inter <;> simp [predicted]

end

/-- Settles O43: both commands write the block that their formula gives, element by element. -/
theorem blkPixelResults : Obligations.BlkPixelResults := by
  intro s inter hs
  refine ⟨⟨(loadBlock inter s).coef, ?_, toInt_loadBlock s inter⟩,
    ⟨(reconBlock inter s).recon, ?_, fun p => ?_⟩⟩
  · rw [exec_blkLoad, runCommand_unchecked hs, retire_of_coef_frame (loadBlock_frame ..)]
  · rw [exec_blkRecon, runCommand_unchecked hs, retire_of_recon_frame (reconBlock_frame ..)]
  · rw [toNat_reconBlock, predicted_eq]

/-! ## A transform as a double sum -/

theorem sumBelow_eq_sum (n : Nat) (f : Nat → Int) : sumBelow n f = ∑ i : Fin n, f i := by
  induction n with
  | zero => rfl
  | succ n ih =>
    rw [sumBelow, Fin.sum_univ_castSucc, ih]
    rfl

/-- The table of R204 is the formula for its entries. -/
theorem dctK_eq_basisK : ∀ u x : Fin 8, dctK u x = basisK u x := by decide

section
variable (s : State)

theorem coefInt_raster (x y : Fin 8) :
    coefInt s (8 * x.val + y.val) = (s.coef[8 * x.val + y.val]'(by omega)).toInt :=
  dif_pos _

/-- A transform writes COEF only. -/
theorem transformBlock_frame (f : (Nat → Int) → Nat → Int) :
    transformBlock f s = setCoef (transformBlock f s).coef s := rfl

theorem transformBlock_at (f : (Nat → Int) → Nat → Int) (p : Fin 64) :
    (transformBlock f s).coef[p] = BitVec.ofInt 32 (f (coefInt s) p) := by
  rw [transformBlock, setCoef_coef, ofFn_at]

/-- FDCT (`43_block.md` R204). -/
theorem fdct_raster (u v : Fin 8) :
    fdct (coefInt s) (8 * u.val + v.val) = roundTransform (∑ x : Fin 8, ∑ y : Fin 8,
      basisK u x * basisK v y * (s.coef[8 * x.val + y.val]'(by omega)).toInt) := by
  have hrow : (8 * u.val + v.val) / 8 = u := by omega
  have hcol : (8 * u.val + v.val) % 8 = v := by omega
  simp only [fdct, hrow, hcol, sumBelow_eq_sum, dctK_eq_basisK, coefInt_raster]

/-- IDCT (`43_block.md` R205). -/
theorem idct_raster (x y : Fin 8) :
    idct (coefInt s) (8 * x.val + y.val) = roundTransform (∑ u : Fin 8, ∑ v : Fin 8,
      basisK u x * basisK v y * (s.coef[8 * u.val + v.val]'(by omega)).toInt) := by
  have hrow : (8 * x.val + y.val) / 8 = x := by omega
  have hcol : (8 * x.val + y.val) % 8 = y := by omega
  simp only [idct, hrow, hcol, sumBelow_eq_sum, dctK_eq_basisK, coefInt_raster]

/-! ## Another transform pair -/

theorem transformInputs_coefInt : transformInputs (coefInt s) = s.coef.map BitVec.toInt := by
  apply Vector.ext
  intro i hi
  rw [transformInputs, Vector.getElem_ofFn, Vector.getElem_map]
  exact dif_pos hi

/-- The inputs are all equal exactly when the elements of COEF are: reading as s32 loses nothing. -/
theorem inputs_constant_iff :
    (∀ q : Fin 64, (s.coef.map BitVec.toInt)[q] = (s.coef.map BitVec.toInt)[0]) ↔
      ∀ q : Fin 64, s.coef[q] = s.coef[0] := by
  simp [BitVec.toInt_inj]

/-- FDCT of another pair on COEF (`43_block.md` R203, R207). -/
theorem otherForward_coefInt (id : Nat) (p : Fin 64) :
    BitVec.ofInt 32 (otherForward id (transformInputs (coefInt s)) p) =
      if p ≠ 0 ∧ ∀ q : Fin 64, s.coef[q] = s.coef[0] then 0
      else BitVec.ofInt 32 (Config.otherFdct id (s.coef.map BitVec.toInt) p) := by
  have hzero : p.val ≠ 0 ↔ p ≠ 0 := Fin.val_ne_zero_iff
  rw [otherForward_eq, transformInputs_coefInt, apply_ite (BitVec.ofInt 32)]
  exact if_congr (by rw [inputs_constant_iff, hzero, and_comm]) rfl rfl

end

/-- Settles O44: the double sums of the default pair, and the free functions of another one. -/
theorem blkTransformResults : Obligations.BlkTransformResults := by
  intro s hs
  refine ⟨⟨(transformBlock (forwardTransform s.cfg.transform) s).coef, ?_,
      fun id hid p => ?_, fun href u v => ?_⟩,
    ⟨(transformBlock (inverseTransform s.cfg.transform) s).coef, ?_,
      fun id hid p => ?_, fun href x y => ?_⟩⟩
  · rw [exec_blkFdct, runCommand_unchecked hs, retire_of_coef_frame (transformBlock_frame ..)]
  · rw [transformBlock_at, hid]
    exact otherForward_coefInt s id p
  · refine (transformBlock_at s _ ⟨8 * u.val + v.val, by omega⟩).trans ?_
    rw [href]
    exact congrArg _ (fdct_raster s u v)
  · rw [exec_blkIdct, runCommand_unchecked hs, retire_of_coef_frame (transformBlock_frame ..)]
  · rw [transformBlock_at, hid, inverseTransform, transformInputs_coefInt]
  · refine (transformBlock_at s _ ⟨8 * x.val + y.val, by omega⟩).trans ?_
    rw [href]
    exact congrArg _ (idct_raster s x y)

/-! ## Constant blocks and blocks with a DC coefficient alone -/

theorem raster_index (p : Fin 64) : ∃ u v : Fin 8, p.val = 8 * u.val + v.val :=
  ⟨⟨p / 8, by omega⟩, ⟨p % 8, by omega⟩, (Nat.div_add_mod p.val 8).symm⟩

/-- The rows of K but the first one sum to zero (`43_block.md` R204). -/
theorem sum_basisK : ∀ u : Fin 8, ∑ x : Fin 8, basisK u x = if u = 0 then 46344 else 0 := by decide

/-- A double sum with one summand. -/
theorem sum_sum_eq_origin {f : Fin 8 → Fin 8 → Int} (h : ∀ u v, 8 * u.val + v.val ≠ 0 → f u v = 0) :
    ∑ u : Fin 8, ∑ v : Fin 8, f u v = f 0 0 := by
  rw [Fintype.sum_eq_single 0 fun u hu => Finset.sum_eq_zero fun v _ => h u v (by omega)]
  exact Fintype.sum_eq_single 0 fun v hv => h 0 v (by omega)

section
variable {s : State} {c d : Int}

/-- The double sum of a constant block is the product of two row sums, zero outside index 0. -/
theorem fdct_of_constant (hc : ∀ p : Fin 64, s.coef[p].toInt = c) (p : Fin 64) :
    fdct (coefInt s) p = roundTransform (if p = 0 then 46344 * 46344 * c else 0) := by
  obtain ⟨u, v, hp⟩ := raster_index p
  have hcoef (x y : Fin 8) : (s.coef[8 * x.val + y.val]'(by omega)).toInt = c :=
    hc ⟨8 * x.val + y.val, by omega⟩
  have hsum : ∑ x : Fin 8, ∑ y : Fin 8, basisK u x * basisK v y * c =
      (∑ x : Fin 8, basisK u x) * (∑ y : Fin 8, basisK v y) * c := by
    rw [Finset.sum_mul_sum]
    simp only [Finset.sum_mul]
  have hzero : p = 0 ↔ u = 0 ∧ v = 0 := by omega
  rw [hp, fdct_raster]
  simp only [hcoef]
  rw [hsum, sum_basisK, sum_basisK]
  by_cases hu : u = 0 <;> by_cases hv : v = 0 <;> simp [hzero, hu, hv]

/-- IDCT of a block with a DC coefficient alone is the same everywhere. -/
theorem idct_of_dc (hd : ∀ p : Fin 64, s.coef[p].toInt = if p = 0 then d else 0) (p : Fin 64) :
    idct (coefInt s) p = roundTransform (5793 * 5793 * d) := by
  obtain ⟨x, y, hp⟩ := raster_index p
  have hcoef (u v : Fin 8) : (s.coef[8 * u.val + v.val]'(by omega)).toInt =
      if 8 * u.val + v.val = 0 then d else 0 :=
    (hd ⟨8 * u.val + v.val, by omega⟩).trans (if_congr Fin.ext_iff rfl rfl)
  rw [hp, idct_raster]
  simp only [hcoef]
  rw [sum_sum_eq_origin fun u v h => by rw [if_neg h, mul_zero]]
  rfl

theorem roundTransform_zero : roundTransform 0 = 0 := by decide

/-- The DC coefficient of a constant block: the excess of `46344 ^ 2` over `2 ^ 31` stays below one
half. -/
theorem roundTransform_constant (hlow : -255 ≤ c) (hhigh : c ≤ 255) :
    roundTransform (46344 * 46344 * c) = 8 * c := by
  unfold roundTransform asr
  omega

/-- The eighth of a DC coefficient: the excess of `5793 ^ 2` over `2 ^ 25` moves no value of this
range over a rounding boundary, and carries a negative tie away from zero. -/
theorem roundTransform_dc (hlow : -7600 ≤ d) (hhigh : d ≤ 7600) :
    roundTransform (5793 * 5793 * d) = if 0 ≤ d then (d + 4) / 8 else -((-d + 4) / 8) := by
  unfold roundTransform asr
  split
  · omega
  · by_cases h : d < -7595
    · -- the last five values, which a bound on the eighth alone does not reach
      have heighth : (-d + 4) / 8 = 950 := by omega
      omega
    · omega

end

/-- Settles O45: each transform is one product of row sums, or one summand, rounded. -/
theorem transformConstantBlock : Obligations.TransformConstantBlock := by
  intro s t hs
  rw [exec_blkFdct, exec_blkIdct, runCommand_unchecked hs, runCommand_unchecked hs]
  refine ⟨fun hconst h p hp => ?_, fun c href hlow hhigh hc h p => ?_,
    fun d href hlow hhigh hd h p => ?_⟩
  · obtain rfl := Host.Outcome.next.inj h
    rw [retire_coef, transformBlock_at]
    cases s.cfg.transform with
    | reference =>
      have hc (q : Fin 64) : s.coef[q].toInt = s.coef[0].toInt := congrArg BitVec.toInt (hconst q)
      rw [forwardTransform, fdct_of_constant hc, if_neg hp, roundTransform_zero]
      rfl
    | other id => exact (otherForward_coefInt s id p).trans (if_pos ⟨hp, hconst⟩)
  · obtain rfl := Host.Outcome.next.inj h
    rw [retire_coef, transformBlock_at, href, forwardTransform, fdct_of_constant hc,
      apply_ite roundTransform, roundTransform_constant hlow hhigh, roundTransform_zero]
    exact toInt_ofInt_word (by omega) (by omega)
  · obtain rfl := Host.Outcome.next.inj h
    rw [retire_coef, transformBlock_at, href, inverseTransform, idct_of_dc hd,
      roundTransform_dc hlow hhigh]
    exact toInt_ofInt_word (by omega) (by omega)

/-! ## BLK_QUANT -/

section
variable (s : State) (inter : Bool)

/-- ZZ after BLK_QUANT (`43_block.md` R208). -/
def quantisedBlock : Block 16 :=
  Vector.ofFn fun i => BitVec.ofInt 16 (clampInt (quantised inter s i) (-1023) 1023)

theorem toInt_quantisedBlock (i : Fin 64) :
    (quantisedBlock s inter)[i].toInt = max (-1023) (min (quantised inter s i) 1023) := by
  rw [quantisedBlock, ofFn_at, clampInt_eq_max_min (by decide)]
  exact toInt_ofInt_half (by omega) (by omega)

theorem quantBlock_eq : quantBlock inter s =
    if anyClipped inter s then setFlag .clipw true (setZz (quantisedBlock s inter) s)
    else setZz (quantisedBlock s inter) s := rfl

theorem anyClipped_iff : anyClipped inter s = true ↔
    ∃ i, quantised inter s i < -1023 ∨ 1023 < quantised inter s i := by
  simp [anyClipped, outOfRange, or_comm]

end

/-- Settles O46: CLIPW is set exactly when some quotient lies outside the clip. -/
theorem blkQuantResult : Obligations.BlkQuantResult := by
  intro s inter hs
  refine ⟨quantisedBlock s inter, toInt_quantisedBlock s inter, fun hclipped => ?_,
    fun hinside => ?_⟩
  · rw [exec_blkQuant, runCommand_unchecked hs, quantBlock_eq,
      if_pos ((anyClipped_iff s inter).mpr hclipped), retire_setZz_clipped]
  · have hnone : ¬anyClipped inter s = true := by
      rw [anyClipped_iff]
      rintro ⟨i, hi⟩
      obtain ⟨hlow, hhigh⟩ : -1023 ≤ quantised inter s i ∧ quantised inter s i ≤ 1023 := hinside i
      omega
    rw [exec_blkQuant, runCommand_unchecked hs, quantBlock_eq, if_neg hnone, retire_setZz]

/-! ## BLK_LAST and BLK_MIDX -/

section
variable {s : State}

/-- BLK_MIDX in range (`43_block.md` R212). -/
theorem exec_blkMidx_inRange (hs : flag s .fault = false) {mx : Nat} (hmx : maxAbs s = mx)
    (hrange : mx ≤ 1023) : exec .blkMidx s = .next { s with
      ret0 := BitVec.ofNat 32 (bucket mx), ret1 := BitVec.ofNat 32 mx
      cmdcnt := s.cmdcnt + 1 } := by
  have hcheck : firstFailing [coefRangeOk s] = none := by
    simp [coefRangeOk, hmx, hrange]
  rw [exec_blkMidx, runCommand_always hs hcheck, hmx, retire_setRet1_setRet0]

/-- BLK_MIDX above COEF_MAX (`43_block.md` R212). -/
theorem exec_blkMidx_outOfRange (hs : flag s .fault = false) {mx : Nat} (hmx : maxAbs s = mx)
    (hrange : 1023 < mx) : exec .blkMidx s = .next (faultState 0x0C (BitVec.ofNat 32 mx) s) := by
  have hcheck : firstFailing [coefRangeOk s] = some ⟨.coefRange, wordOfNat mx⟩ := by
    simp [coefRangeOk, hmx, hrange]
  rw [exec_blkMidx, runCommand_faults hs hcheck]
  rfl

end

/-- Settles O47: the scan finds the last index, and the largest magnitude is in range or faults. -/
theorem blkObserverResults : Obligations.BlkObserverResults := by
  intro s hs
  refine ⟨⟨lastNz s, isLastNonZero_lastNz s, ?_⟩, fun mx hmx => ?_⟩
  · rw [exec_blkLast, runCommand_unchecked hs, retire_setRet0]
  · have hmax : maxAbs s = mx := isLargest_unique (isLargest_maxAbs s) hmx
    exact ⟨fun hrange => ⟨bucket mx, isBucket_bucket hrange, exec_blkMidx_inRange hs hmax hrange⟩,
      exec_blkMidx_outOfRange hs hmax⟩

/-! ## BLK_DEQ -/

section
variable {α β : Type} {n : Nat} (ix : α → Fin n) (v : α → β)

/-- Writing the elements that a list of positions names, one after the other. -/
def writeAll (l : List α) (b : Vector β n) : Vector β n := l.foldl (fun b i => b.set (ix i) (v i)) b

variable {ix} (hix : Function.Injective ix)
include hix

/-- Where no two positions share an element, an element that holds its value keeps it. -/
theorem writeAll_keeps (i : α) (l : List α) {b : Vector β n} (hb : b[ix i] = v i) :
    (writeAll ix v l b)[ix i] = v i := by
  induction l generalizing b with
  | nil => exact hb
  | cons j l ih =>
    refine ih (b := b.set (ix j) (v j)) ?_
    rw [Fin.getElem_fin, Vector.getElem_set]
    split
    case isTrue heq => rw [hix (Fin.ext heq)]
    case isFalse => exact hb

/-- Each element that the list names holds its value in the end. -/
theorem writeAll_at {i : α} {l : List α} (hi : i ∈ l) {b : Vector β n} :
    (writeAll ix v l b)[ix i] = v i := by
  induction hi generalizing b with
  | head l => exact writeAll_keeps v hix i l (Vector.getElem_set_self _)
  | tail j _ ih => exact ih

end

section
variable (s : State) (inter : Bool)

/-- BLK_DEQ writes COEF only. -/
theorem dequantBlock_frame : dequantBlock inter s = setCoef (dequantBlock inter s).coef s := rfl

theorem dequantBlock_coef : (dequantBlock inter s).coef =
    (writeAll s.cfg.zigzag.get (fun i => BitVec.ofInt 32 (dequantised inter s i))
      (List.finRange 64) s.coef).set 0 (BitVec.ofInt 32 (8 * s.zz[0].toInt)) := rfl

/-- A product of s16 and u16, shifted right, fits s32 (`43_block.md` R220). -/
theorem toInt_dequantised (i : Fin 64) :
    (BitVec.ofInt 32 (dequantised inter s i)).toInt =
      s.zz[i].toInt * (if inter then s.qi1 else s.qi0)[i].toNat / 16 := by
  have hlow : -32768 ≤ s.zz[i].toInt := BitVec.le_toInt _
  have hhigh : s.zz[i].toInt < 32768 := BitVec.toInt_lt
  have hq := (inverseMatrix inter s)[i].isLt
  have hge : -32768 * 65536 ≤ s.zz[i].toInt * (inverseMatrix inter s)[i].toNat := by nlinarith
  have hle : s.zz[i].toInt * (inverseMatrix inter s)[i].toNat ≤ 32768 * 65536 := by nlinarith
  have hasr : dequantised inter s i = s.zz[i].toInt * (inverseMatrix inter s)[i].toNat / 16 := rfl
  rw [toInt_ofInt_word (by omega) (by omega), hasr, inverseMatrix]

theorem toInt_dc : (BitVec.ofInt 32 (8 * s.zz[0].toInt)).toInt = 8 * s.zz[0].toInt := by
  have hlow : -32768 ≤ s.zz[0].toInt := BitVec.le_toInt _
  have hhigh : s.zz[0].toInt < 32768 := BitVec.toInt_lt
  exact toInt_ofInt_word (by omega) (by omega)

variable {s}

/-- Every element of COEF but the DC one after BLK_DEQ: ZIGZAG is a permutation that keeps 0. -/
theorem dequantBlock_at_zigzag (hv : s.cfg.Valid) {i : Fin 64} (hi : i ≠ 0) :
    (dequantBlock inter s).coef[s.cfg.zigzag.get i] = BitVec.ofInt 32 (dequantised inter s i) := by
  have hne : s.cfg.zigzag.get i ≠ 0 := fun h =>
    hi (hv.zigzagInjective i 0 (h.trans hv.zigzagZero.symm))
  rw [dequantBlock_coef, Fin.getElem_fin,
    Vector.getElem_set_ne _ _ (Fin.val_ne_zero_iff.mpr hne).symm]
  exact writeAll_at _ hv.zigzagInjective (List.mem_finRange i)

end

/-- Settles O50: each element of ZIGZAG is written once, and the DC element once more at the end. -/
theorem blkDeqResult : Obligations.BlkDeqResult := by
  intro s inter hs hv
  refine ⟨(dequantBlock inter s).coef, ?_, ?_, fun i hi => ?_⟩
  · rw [exec_blkDeq, runCommand_unchecked hs, retire_of_coef_frame (dequantBlock_frame ..)]
  · rw [dequantBlock_coef, Vector.getElem_set_self, toInt_dc]
  · rw [dequantBlock_at_zigzag inter hv hi, toInt_dequantised]

end Sys2Proof.Machine.BlockPipeline

/-! PROOFS. The system commands NOP and CLRW (`45_system.md` R270, R274): neither has a check, so that
without a fault each completes, and CMDCNT counts it. -/

namespace Sys2Proof.Machine.SystemCommands

open BlockPipeline

theorem exec_nop (s : State) : exec .nop s = runCommand [] (always id) s := rfl

theorem exec_clrw (s : State) :
    exec .clrw s = runCommand [] (always (setFlag .clipw false)) s := rfl

/-- Clearing CLIPW keeps every bit of STATUS but bit 8 (`10_state.md` R23). -/
theorem statusWith_clipw_false (st : Word) : statusWith st .clipw false = st &&& 0xFFFFFEFF := rfl

theorem retire_clearClipw (s : State) : retire (setFlag .clipw false s) =
    { s with status := s.status &&& 0xFFFFFEFF, cmdcnt := s.cmdcnt + 1 } := by
  simp only [retire, setFlag, statusWith_clipw_false]

/-- Settles O13: NOP counts the state it was given, CLRW the state with CLIPW cleared. -/
theorem systemCommandResults : Obligations.SystemCommandResults := by
  intro s hs
  constructor
  · rw [exec_nop, runCommand_unchecked hs, id_eq, retire]
  · rw [exec_clrw, runCommand_unchecked hs, retire_clearClipw]

end Sys2Proof.Machine.SystemCommands

/-! PROOFS. Faults (`60_exceptions.md` R283 to R288). Every command but RESET is a list of unit-state
checks, a list of operand checks and pseudocode (`exec_eq_runCommand`); `pseudocodeCodes` lists the
codes that the pseudocode itself can raise. A fault is then raised by a check and changes nothing
else, or it has one of those codes (`exec_fault_cases`), and no code that R286 or R283 gives to checks
alone is among them. -/

namespace Sys2Proof.Machine

/-! ## Pseudocode that raises listed codes only -/

/-- A run that leaves STATUS.FAULT clear where it is done, and raises listed codes only. -/
def Run.RaisesIn {α : Type} (codes : List ErrCode) : Run α → Prop
  | .done _ t => flag t .fault = false
  | .raised e _ => e.code ∈ codes

/-- Pseudocode that, from every state without a fault, raises listed codes only. -/
def RaisesOnly {α : Type} (codes : List ErrCode) (body : State → Run α) : Prop :=
  ∀ s, flag s .fault = false → Run.RaisesIn codes (body s)

section
variable {α β : Type} {codes : List ErrCode} {s : State}

theorem Run.RaisesIn.andThen {r : Run α} {k : α → State → Run β} (hr : Run.RaisesIn codes r)
    (hk : ∀ a, RaisesOnly codes (k a)) : Run.RaisesIn codes (r.andThen k) := by
  cases r with
  | done a t => exact hk a t hr
  | raised e t => exact hr

theorem RaisesOnly.andThen {body : State → Run α} {k : α → State → Run β}
    (hbody : RaisesOnly codes body) (hk : ∀ a, RaisesOnly codes (k a)) :
    RaisesOnly codes fun s => (body s).andThen k :=
  fun s hs => (hbody s hs).andThen hk

theorem demand_raisesIn {e : Trap} (he : e.code ∈ codes) (ok : Bool) (hs : flag s .fault = false) :
    Run.RaisesIn codes (demand ok e s) := by
  cases ok with
  | true => exact hs
  | false => exact he

end

end Sys2Proof.Machine

namespace Sys2Proof.Machine.FaultFrame

open FrequencyModel Composite ArithmeticCoder BlockCoder CoderInvariant BlockPipeline

/-! ## The bit writer and the bit reader -/

section
variable {codes : List ErrCode} (hfull : ErrCode.obFull ∈ codes)
include hfull

theorem putList_raisesOnly (bits : List Bool) : RaisesOnly codes (putList bits) := by
  intro s hs
  rcases putList_cases bits s with ⟨m, w, h⟩ | ⟨m, w, h⟩ <;> rw [h]
  · exact hs
  · exact hfull

theorem putBit_raisesOnly (b : Bool) : RaisesOnly codes (putBit b) := by
  intro s hs
  rw [← putList_singleton]
  exact putList_raisesOnly hfull [b] s hs

theorem putByte_raisesOnly (v : Byte) : RaisesOnly codes (putByte v) := by
  intro s hs
  rw [putByte, putBits_eq]
  exact putList_raisesOnly hfull _ s hs

end

section
variable {codes : List ErrCode} (hover : ErrCode.brOverrun ∈ codes)
include hover

theorem getBit_raisesOnly : RaisesOnly codes getBit :=
  fun _ hs => (demand_raisesIn hover _ hs).andThen fun _ _ ht => ht

theorem peekBits_raisesOnly (n : Nat) : RaisesOnly codes (peekBits n) :=
  fun _ hs => (demand_raisesIn hover _ hs).andThen fun _ _ ht => ht

theorem getBits_raisesOnly (n : Nat) : RaisesOnly codes (getBits n) :=
  (peekBits_raisesOnly hover n).andThen fun _ _ ht => ht

end

/-- PutBits with room for every bit completes, and leaves STATUS as it was. -/
theorem putList_fits (bits : List Bool) {s : State} (hs : flag s .fault = false)
    (h : s.wpos.toNat + bits.length ≤ 8 * s.cfg.obCap) : Run.RaisesIn [] (putList bits s) := by
  induction bits generalizing s with
  | nil => exact hs
  | cons b bs ih =>
    rw [List.length_cons] at h
    have hpos : (s.wpos + 1).toNat ≤ s.wpos.toNat + 1 := by
      rw [BitVec.toNat_add]
      exact Nat.mod_le _ _
    have hrest : (s.wpos + 1).toNat + bs.length ≤ 8 * s.cfg.obCap := by omega
    rw [putList, putBit_room (by omega), done_andThen]
    cases b with
    | true => exact ih hs hrest
    | false => exact ih hs hrest

theorem lowBits_length (v : Word) (n : Nat) : (lowBits v n).length = n := by
  simp [lowBits]

/-! ## The encoder -/

section
variable {codes : List ErrCode} (hfull : ErrCode.obFull ∈ codes)
include hfull

theorem drainPending_raisesOnly (b : Bool) (n : Nat) : RaisesOnly codes (drainPending b n) := by
  induction n with
  | zero => exact fun _ hs => hs
  | succ n ih => exact (putBit_raisesOnly hfull b).andThen fun _ t ht => ih (setEuf (t.euf - 1) t) ht

theorem emitBit_raisesOnly (b : Bool) : RaisesOnly codes (emitBit b) :=
  (putBit_raisesOnly hfull b).andThen fun _ t ht => drainPending_raisesOnly hfull _ t.euf.toNat t ht

theorem closeSegment_raisesOnly : RaisesOnly codes closeSegment := by
  intro s hs
  rw [closeSegment_eq]
  refine (putList_raisesOnly hfull (signBits s) s hs).andThen fun _ t ht => ?_
  refine (putList_raisesOnly hfull _ (setEuf 0 t) ht).andThen fun _ u hu => ?_
  exact (flag_setFlag .encAct .fault false u).trans hu

variable (hovf : ErrCode.ufOvf ∈ codes)
include hovf

theorem encRenorm_raisesOnly (n : Nat) : RaisesOnly codes (encRenorm n) := by
  induction n with
  | zero => exact fun _ hs => hs
  | succ n ih =>
    intro s hs
    have hrest : RaisesOnly codes fun t => encRenorm n (shiftEnc t) := fun t ht => ih (shiftEnc t) ht
    rw [encRenorm]
    split
    · exact (emitBit_raisesOnly hfull _ s hs).andThen fun _ => hrest
    · split
      · have hdefer : Run.RaisesIn codes (deferBit s) :=
          (demand_raisesIn hovf _ hs).andThen fun _ _ ht => ht
        exact hdefer.andThen fun _ => hrest
      · exact hs

theorem encodeLatch_raisesOnly : RaisesOnly codes encodeLatch :=
  fun s hs => encRenorm_raisesOnly hfull hovf renormPasses (narrowEnc s) hs

theorem encSym_raisesOnly (m : Fin 16) (sym : Nat) : RaisesOnly codes (encSym m sym) :=
  fun s hs => (encodeLatch_raisesOnly hfull hovf (loaded s m sym) hs).andThen fun _ _ ht => ht

theorem encCoefs_raisesOnly (k n i : Nat) : RaisesOnly codes (encCoefs k n i) := by
  induction n generalizing i with
  | zero => exact fun _ hs => hs
  | succ n ih =>
    exact fun s hs => (encSym_raisesOnly hfull hovf _ _ s hs).andThen fun _ => ih (i + 1)

theorem encBucket_raisesOnly (last : Nat) : RaisesOnly codes (encBucket last) := by
  intro s hs
  rw [encBucket]
  split
  · exact hs
  · exact (encSym_raisesOnly hfull hovf _ _ s hs).andThen fun _ _ ht => ht

theorem encodeBlock_raisesOnly : RaisesOnly codes encodeBlock := by
  intro s hs
  rw [encodeBlock]
  refine (encSym_raisesOnly hfull hovf mLast (lastNz s) s hs).andThen fun _ => ?_
  refine (encBucket_raisesOnly hfull hovf (lastNz s)).andThen fun k => ?_
  refine fun t ht => (encSym_raisesOnly hfull hovf mDc _ t ht).andThen fun _ => ?_
  exact (encCoefs_raisesOnly hfull hovf k (lastNz s) 1).andThen fun _ _ hu => hu

end

/-! ## The decoder -/

section
variable {codes : List ErrCode} (hover : ErrCode.brOverrun ∈ codes)
include hover

theorem shiftDec_raisesOnly : RaisesOnly codes shiftDec :=
  fun s hs => (getBit_raisesOnly hover (setDec (shiftLow s.dlow) (shiftHigh s.dhigh) s) hs).andThen
    fun _ _ ht => ht

theorem decRenorm_raisesOnly (n : Nat) : RaisesOnly codes (decRenorm n) := by
  induction n with
  | zero => exact fun _ hs => hs
  | succ n ih =>
    intro s hs
    rw [decRenorm]
    split
    · exact (shiftDec_raisesOnly hover s hs).andThen fun _ => ih
    · split
      · exact (shiftDec_raisesOnly hover (straddleDec s) hs).andThen fun _ => ih
      · exact hs

theorem removeLatch_raisesOnly : RaisesOnly codes removeLatch :=
  fun s hs => decRenorm_raisesOnly hover renormPasses (narrowDec s) hs

variable (hbad : ErrCode.badSymbol ∈ codes)
include hbad

theorem decSym_raisesOnly (m : Fin 16) : RaisesOnly codes (decSym m) := by
  intro s hs
  rw [decSym]
  have hcount : flag (takeCount (latchScaleOf m s)) .fault = false := hs
  generalize takeCount (latchScaleOf m s) = t at hcount
  generalize ctxFind t m t.cnt.toNat = e
  refine (demand_raisesIn hbad _ hcount).andThen fun _ u hu => ?_
  exact (removeLatch_raisesOnly hover (latchBoundsOf m (e - 1) u) hu).andThen fun _ _ hv => hv

theorem symDecBody_raisesOnly (m : Fin 16) : RaisesOnly codes (symDecBody m) :=
  (decSym_raisesOnly hover hbad m).andThen fun _ _ ht => ht

theorem decBucket_raisesOnly (hindex : ErrCode.badIndex ∈ codes) (last : Nat) :
    RaisesOnly codes (decBucket last) := by
  intro s hs
  rw [decBucket]
  split
  · exact hs
  · refine (decSym_raisesOnly hover hbad mIdx s hs).andThen fun k t ht => ?_
    exact (demand_raisesIn hindex _ ht).andThen fun _ _ hu => hu

variable (hrange : ErrCode.coefRange ∈ codes)
include hrange

theorem decCoef_raisesOnly (m : Fin 16) (off i : Nat) : RaisesOnly codes (decCoef m off i) := by
  refine (decSym_raisesOnly hover hbad m).andThen fun sym t ht => ?_
  refine (demand_raisesIn hrange _ ht).andThen fun _ u hu => ?_
  have hput : putZz i ((sym : Int) - off) u = setZz (zzWith i ((sym : Int) - off) u.zz) u :=
    putZz_setZz i _ u.zz u
  rw [hput]
  exact hu

theorem decCoefs_raisesOnly (k n i : Nat) : RaisesOnly codes (decCoefs k n i) := by
  induction n generalizing i with
  | zero => exact fun _ hs => hs
  | succ n ih => exact (decCoef_raisesOnly hover hbad hrange _ _ i).andThen fun _ => ih (i + 1)

theorem decodeBlock_raisesOnly (hindex : ErrCode.badIndex ∈ codes) :
    RaisesOnly codes decodeBlock := by
  refine (decSym_raisesOnly hover hbad mLast).andThen fun last => ?_
  refine (decBucket_raisesOnly hover hbad hindex last).andThen fun k => ?_
  refine (decCoef_raisesOnly hover hbad hrange mDc _ 0).andThen fun _ => ?_
  refine (decCoefs_raisesOnly hover hbad hrange k last 1).andThen fun _ t ht => ?_
  simpa [Run.RaisesIn, clearZzAfter] using ht

end

/-! ## The RLE unit -/

section
variable {codes : List ErrCode} (hfull : ErrCode.obFull ∈ codes)
include hfull

theorem putFromIb_raisesOnly (a n : Nat) : RaisesOnly codes (putFromIb a n) := by
  induction n generalizing a with
  | zero => exact fun _ hs => hs
  | succ n ih => exact fun s hs => (putByte_raisesOnly hfull _ s hs).andThen fun _ => ih (a + 1)

theorem flushLiteral_raisesOnly (a n : Nat) : RaisesOnly codes (flushLiteral a n) := by
  intro s hs
  rw [flushLiteral]
  split
  · exact hs
  · exact (putByte_raisesOnly hfull _ s hs).andThen fun _ => putFromIb_raisesOnly hfull a n

theorem rleEncLoop_raisesOnly (fuel a left ls ll : Nat) :
    RaisesOnly codes (rleEncLoop fuel a left ls ll) := by
  induction fuel generalizing a left ls ll with
  | zero => exact flushLiteral_raisesOnly hfull ls ll
  | succ fuel ih =>
    intro s hs
    have hflush := flushLiteral_raisesOnly hfull ls ll s hs
    rw [rleEncLoop]
    split
    · exact hflush
    · split
      · refine hflush.andThen fun _ t ht => ?_
        refine (putByte_raisesOnly hfull _ t ht).andThen fun _ u hu => ?_
        exact (putByte_raisesOnly hfull _ u hu).andThen fun _ v => ih _ _ 0 0 v
      · split
        · exact hflush.andThen fun _ => ih (a + 1) _ a 1
        · exact ih (a + 1) (left - 1) _ (ll + 1) s hs

theorem rleEncode_raisesOnly : RaisesOnly codes rleEncode :=
  fun s hs => (rleEncLoop_raisesOnly hfull _ _ _ 0 0 s hs).andThen fun _ _ ht => ht

theorem repeatByte_raisesOnly (v : Byte) (n : Nat) : RaisesOnly codes (repeatByte v n) := by
  induction n with
  | zero => exact fun _ hs => hs
  | succ n ih => exact (putByte_raisesOnly hfull v).andThen fun _ => ih

variable (hover : ErrCode.brOverrun ∈ codes)
include hover

theorem copyBytes_raisesOnly (n : Nat) : RaisesOnly codes (copyBytes n) := by
  induction n with
  | zero => exact fun _ hs => hs
  | succ n ih =>
    exact (getBits_raisesOnly hover 8).andThen fun _ =>
      (putByte_raisesOnly hfull _).andThen fun _ => ih

variable (hformat : ErrCode.rleFormat ∈ codes) (hrow : ErrCode.rleOverrun ∈ codes)
include hformat hrow

theorem rleDecRecord_raisesOnly (left : Nat) : RaisesOnly codes (rleDecRecord left) := by
  refine (getBits_raisesOnly hover 8).andThen fun len t ht => ?_
  refine (demand_raisesIn hformat _ ht).andThen fun _ u hu => ?_
  split
  · generalize len - 0x80 = n
    refine (demand_raisesIn hrow _ hu).andThen fun _ => ?_
    exact (copyBytes_raisesOnly hfull hover n).andThen fun _ _ hw => hw
  · refine (getBits_raisesOnly hover 8 u hu).andThen fun v w hw => ?_
    refine (demand_raisesIn hrow _ hw).andThen fun _ => ?_
    exact (repeatByte_raisesOnly hfull (BitVec.ofNat 8 v) len).andThen fun _ _ hx => hx

theorem rleDecLoop_raisesOnly (fuel left : Nat) : RaisesOnly codes (rleDecLoop fuel left) := by
  induction fuel generalizing left with
  | zero => exact fun _ hs => hs
  | succ fuel ih =>
    intro s hs
    rw [rleDecLoop]
    split
    · exact hs
    · exact (rleDecRecord_raisesOnly hfull hover hformat hrow left s hs).andThen fun c =>
        ih (left - c)

theorem rleDecode_raisesOnly : RaisesOnly codes rleDecode :=
  fun s hs => (rleDecLoop_raisesOnly hfull hover hformat hrow _ _ s hs).andThen fun _ _ ht => ht

end

/-! ## Every command as checks and pseudocode -/

/-- The unit-state checks of a command, in the order of its rule (R283). -/
def unitChecks (i : Instr) (s : State) : List Check :=
  let opc := BitVec.ofNat 32 i.opcode
  match i with
  | .bwInit _ => [needClear s .encAct opc]
  | .bwPut _ => [needSet s .bwAct opc]
  | .bwFlush | .acEncInit => [needSet s .bwAct opc, needClear s .encAct opc]
  | .brGet _ | .brPeek _ | .brSkip _ | .acDecInit => [needSet s .brAct opc]
  | .acEnc | .acEncFlush | .symEnc _ _ | .blkEnc => [needSet s .encAct opc]
  | .acDecCnt | .acDecRm | .symDec _ | .blkDec => [needSet s .decAct opc]
  | .rleEnc => [needSet s .bwAct opc, needClear s .encAct opc, needAligned s.wpos opc]
  | .rleDec => [needSet s .brAct opc, needSet s .bwAct opc, needClear s .encAct opc,
      needClear s .decAct opc, needAligned s.rpos opc, needAligned s.wpos opc]
  | _ => []

/-- The operand and configuration checks of a command, in the order of its rule (R284). -/
def operandChecks (i : Instr) (s : State) : List Check :=
  match i with
  | .bwInit hdr => [⟨!hdr || decide (4 ≤ s.cfg.obCap), ⟨.obFull, 0⟩⟩]
  | .bwPut n => [countLegal n, ⟨decide (s.wpos.toNat + n ≤ 8 * s.cfg.obCap), ⟨.obFull, s.wpos⟩⟩]
  | .brInit => [⟨decide (s.arg0.toNat + s.arg1.toNat ≤ 8 * s.cfg.ibCap), ⟨.operand, s.arg1⟩⟩]
  | .brGet n | .brPeek n | .brSkip n => [countLegal n, bitsAvailable s n]
  | .mdlInit _ bits => [⟨decide (1 ≤ bits) && decide (bits ≤ 11), ⟨.operand, wordOfNat bits⟩⟩]
  | .mdlUpd m sym | .mdlI2s m sym | .symEnc m sym => [ctxInit s m, symOk s m sym]
  | .mdlS2i m => [ctxInit s m, countBelowScale s m, symbolFound s m]
  | .mdlScale m | .symDec m => [ctxInit s m]
  | .acEnc => [tripleOk s]
  | .acDecInit => [bitsAvailable s 16]
  | .acDecCnt => [scaleOk s]
  | .acDecRm => [tripleOk s, ⟨codeInside s, ⟨.desync, s.dcode.setWidth 32⟩⟩]
  | .blkMidx => [coefRangeOk s]
  | .blkEnc => stdCtxOk s ++ [coefRangeOk s]
  | .blkDec => stdCtxOk s
  | .rleEnc => [⟨decide (s.arg0.toNat + s.arg1.toNat ≤ s.cfg.ibCap), ⟨.operand, s.arg1⟩⟩]
  | _ => []

/-- All checks of a command (R284). -/
def checksOf (i : Instr) (s : State) : List Check := unitChecks i s ++ operandChecks i s

/-- The codes that the pseudocode of a command can raise behind its checks (the cases of R287). -/
def pseudocodeCodes : Instr → List ErrCode
  | .acEnc | .symEnc _ _ | .blkEnc => [.obFull, .ufOvf]
  | .acEncFlush | .rleEnc => [.obFull]
  | .acDecRm => [.brOverrun]
  | .symDec _ => [.brOverrun, .badSymbol]
  | .blkDec => [.brOverrun, .badSymbol, .badIndex, .coefRange]
  | .rleDec => [.obFull, .brOverrun, .rleFormat, .rleOverrun]
  | _ => []

section
variable (s : State) (n : Nat)

theorem exec_bwPut : exec (.bwPut n) s = runCommand [needSet s .bwAct 0x11, countLegal n,
    ⟨decide (s.wpos.toNat + n ≤ 8 * s.cfg.obCap), ⟨.obFull, s.wpos⟩⟩] (putBits s.arg0 n) s := rfl

theorem exec_brGet : exec (.brGet n) s = runCommand (readChecks 0x19 n s)
    (fun s => (getBits n s).andThen fun v s => .done () (setRet0 (wordOfNat v) s)) s := rfl

theorem exec_brPeek : exec (.brPeek n) s = runCommand (readChecks 0x1A n s)
    (fun s => (peekBits n s).andThen fun v s => .done () (setRet0 (wordOfNat v) s)) s := rfl

theorem exec_brSkip : exec (.brSkip n) s = runCommand (readChecks 0x1B n s)
    (always fun s => setRpos (wordOfNat (s.rpos.toNat + n)) s) s := rfl

end

section
variable {s : State} {n : Nat}

theorem bwPut_raisesIn (hs : flag s .fault = false)
    (hchecks : firstFailing [needSet s .bwAct 0x11, countLegal n,
      ⟨decide (s.wpos.toNat + n ≤ 8 * s.cfg.obCap), ⟨.obFull, s.wpos⟩⟩] = none) :
    Run.RaisesIn [] (putBits s.arg0 n s) := by
  have hroom : s.wpos.toNat + n ≤ 8 * s.cfg.obCap :=
    of_decide_eq_true (firstFailing_eq_none.mp hchecks
      ⟨decide (s.wpos.toNat + n ≤ 8 * s.cfg.obCap), ⟨.obFull, s.wpos⟩⟩ (by simp))
  rw [putBits_eq]
  exact putList_fits _ hs (by rwa [lowBits_length])

theorem rpos_of_bitsAvailable {cs : List Check} (hchecks : firstFailing cs = none)
    (hmem : bitsAvailable s n ∈ cs) : s.rpos.toNat + n ≤ s.rlen.toNat :=
  of_decide_eq_true (firstFailing_eq_none.mp hchecks (bitsAvailable s n) hmem)

theorem brGet_raisesIn {opc : Word} (hs : flag s .fault = false)
    (hchecks : firstFailing (readChecks opc n s) = none) :
    Run.RaisesIn [] ((getBits n s).andThen fun v s => .done () (setRet0 (wordOfNat v) s)) := by
  rw [getBits_room (rpos_of_bitsAvailable hchecks (by simp [readChecks]))]
  exact hs

theorem brPeek_raisesIn {opc : Word} (hs : flag s .fault = false)
    (hchecks : firstFailing (readChecks opc n s) = none) :
    Run.RaisesIn [] ((peekBits n s).andThen fun v s => .done () (setRet0 (wordOfNat v) s)) := by
  rw [peekBits_room (rpos_of_bitsAvailable hchecks (by simp [readChecks]))]
  exact hs

theorem acDecInit_raisesIn (hs : flag s .fault = false)
    (hchecks : firstFailing [needSet s .brAct 0x38, bitsAvailable s 16] = none) :
    Run.RaisesIn [] (openDecoder s) := by
  rw [openDecoder_room (rpos_of_bitsAvailable hchecks (by simp))]
  exact (flag_setFlag .decAct .fault true _).trans hs

/-- An update that leaves STATUS.FAULT as it was. -/
theorem always_raisesIn {f : State → State} {codes : List ErrCode}
    (hf : flag (f s) .fault = flag s .fault) (hs : flag s .fault = false) :
    Run.RaisesIn codes (always f s) := hf.trans hs

/-- An update that leaves STATUS as it was. -/
theorem always_quiet {f : State → State} {codes : List ErrCode} (hf : (f s).status = s.status)
    (hs : flag s .fault = false) : Run.RaisesIn codes (always f s) :=
  always_raisesIn (congrArg (statusFlag · .fault) hf) hs

theorem initCtxs_status (cs : List (Fin 16 × Nat)) : (initCtxs cs s).status = s.status :=
  (congrArg State.status (initCtxs_frame cs s)).trans rfl

theorem flag_fault_quantBlock (inter : Bool) :
    flag (quantBlock inter s) .fault = flag s .fault := by
  rw [quantBlock_eq]
  split <;> simp

end

/-- Every command but RESET runs its checks and then pseudocode that raises the codes of R287 only. -/
theorem exec_eq_runCommand (i : Instr) (s : State) (hi : i ≠ .reset) :
    ∃ body, exec i s = runCommand (checksOf i s) body s ∧
      (flag s .fault = false → firstFailing (checksOf i s) = none →
        Run.RaisesIn (pseudocodeCodes i) (body s)) := by
  cases i with
  | nop => exact ⟨always id, rfl, fun hs _ => always_quiet rfl hs⟩
  | reset => exact absurd rfl hi
  | clrw => exact ⟨always (setFlag .clipw false), rfl, fun hs _ => always_raisesIn (by simp) hs⟩
  | bwInit hdr =>
    exact ⟨always (startWriter hdr), rfl, fun hs _ => always_raisesIn (by simp [startWriter]) hs⟩
  | bwPut n => exact ⟨_, exec_bwPut s n, bwPut_raisesIn⟩
  | bwFlush =>
    exact ⟨always flushWriter, rfl, fun hs _ => always_raisesIn (by simp [flushWriter]) hs⟩
  | brInit =>
    exact ⟨always startReader, rfl, fun hs _ => always_raisesIn (by simp [startReader]) hs⟩
  | brGet n => exact ⟨_, exec_brGet s n, brGet_raisesIn⟩
  | brPeek n => exact ⟨_, exec_brPeek s n, brPeek_raisesIn⟩
  | brSkip n => exact ⟨_, exec_brSkip s n, fun hs _ => always_quiet rfl hs⟩
  | mdlInit m bits => exact ⟨always (initCtx m bits), rfl, fun hs _ => always_quiet rfl hs⟩
  | mdlInitStd =>
    exact ⟨always (initCtxs stdBits), rfl, fun hs _ => always_quiet (initCtxs_status stdBits) hs⟩
  | mdlUpd m sym => exact ⟨always (updateCtx m sym), rfl, fun hs _ => always_quiet rfl hs⟩
  | mdlI2s m sym => exact ⟨_, exec_mdlI2s s m sym, fun hs _ => always_quiet rfl hs⟩
  | mdlS2i m => exact ⟨always (takeSymbol m), rfl, fun hs _ => always_quiet rfl hs⟩
  | mdlScale m => exact ⟨_, exec_mdlScale s m, fun hs _ => always_quiet rfl hs⟩
  | acEncInit =>
    exact ⟨always openEncoder, rfl, fun hs _ => always_raisesIn (by simp [openEncoder]) hs⟩
  | acEnc =>
    exact ⟨encodeLatch, rfl, fun hs _ => encodeLatch_raisesOnly (by decide) (by decide) s hs⟩
  | acEncFlush => exact ⟨closeSegment, rfl, fun hs _ => closeSegment_raisesOnly (by decide) s hs⟩
  | acDecInit => exact ⟨openDecoder, rfl, acDecInit_raisesIn⟩
  | acDecCnt => exact ⟨always reportCount, rfl, fun hs _ => always_quiet rfl hs⟩
  | acDecRm => exact ⟨removeLatch, rfl, fun hs _ => removeLatch_raisesOnly (by decide) s hs⟩
  | symEnc m sym =>
    exact ⟨encSym m sym, rfl, fun hs _ =>
      encSym_raisesOnly (codes := [.obFull, .ufOvf]) (by decide) (by decide) m sym s hs⟩
  | symDec m =>
    exact ⟨symDecBody m, rfl, fun hs _ =>
      symDecBody_raisesOnly (codes := [.brOverrun, .badSymbol]) (by decide) (by decide) m s hs⟩
  | blkLoad inter =>
    exact ⟨always (loadBlock inter), rfl, fun hs _ => always_quiet (setCoef_status ..) hs⟩
  | blkFdct => exact ⟨_, exec_blkFdct s, fun hs _ => always_quiet (setCoef_status ..) hs⟩
  | blkQuant inter =>
    exact ⟨always (quantBlock inter), rfl, fun hs _ =>
      always_raisesIn (flag_fault_quantBlock inter) hs⟩
  | blkLast => exact ⟨_, exec_blkLast s, fun hs _ => always_quiet rfl hs⟩
  | blkMidx =>
    exact ⟨_, exec_blkMidx s, fun hs _ =>
      always_quiet ((setRet1_status ..).trans (setRet0_status ..)) hs⟩
  | blkEnc =>
    exact ⟨encodeBlock, rfl, fun hs _ => encodeBlock_raisesOnly (by decide) (by decide) s hs⟩
  | blkDec =>
    exact ⟨decodeBlock, rfl, fun hs _ =>
      decodeBlock_raisesOnly (by decide) (by decide) (by decide) (by decide) s hs⟩
  | blkDeq inter =>
    exact ⟨always (dequantBlock inter), rfl, fun hs _ => always_quiet (setCoef_status ..) hs⟩
  | blkIdct => exact ⟨_, exec_blkIdct s, fun hs _ => always_quiet (setCoef_status ..) hs⟩
  | blkRecon inter =>
    exact ⟨always (reconBlock inter), rfl, fun hs _ => always_quiet (setRecon_status ..) hs⟩
  | rleEnc => exact ⟨rleEncode, rfl, fun hs _ => rleEncode_raisesOnly (by decide) s hs⟩
  | rleDec =>
    exact ⟨rleDecode, rfl, fun hs _ =>
      rleDecode_raisesOnly (by decide) (by decide) (by decide) (by decide) s hs⟩

section
variable {i : Instr} {s t : State}

/-- A fault is raised by a check, which changes nothing else, or has a code of the pseudocode. -/
theorem exec_fault_cases (hs : flag s .fault = false) (h : exec i s = .next t)
    (ht : flag t .fault = true) :
    (∃ e, firstFailing (checksOf i s) = some e ∧ t = faultState (errByte e.code) e.info s) ∨
    ∃ c ∈ pseudocodeCodes i, t.fcode = errByte c := by
  have hi : i ≠ .reset := by
    rintro rfl
    obtain rfl := Host.Outcome.next.inj h
    exact absurd ((flag_softReset .fault s).symm.trans ht) (by decide)
  obtain ⟨body, hexec, hbody⟩ := exec_eq_runCommand i s hi
  rcases runCommand_cases (checksOf i s) body s with ⟨hfault, -⟩ | ⟨-, e, hfails, hrun⟩ |
    ⟨-, hchecks, u, hdone, hrun⟩ | ⟨-, hchecks, e, u, hraised, hrun⟩
  · exact absurd (hfault.symm.trans hs) (by decide)
  · obtain rfl := Host.Outcome.next.inj ((h.symm.trans hexec).trans hrun)
    exact .inl ⟨e, hfails, raiseFault_eq_faultState e s⟩
  · obtain rfl := Host.Outcome.next.inj ((h.symm.trans hexec).trans hrun)
    have hclear : flag u .fault = false := by simpa [hdone, Run.RaisesIn] using hbody hs hchecks
    exact absurd (hclear.symm.trans ht) (by decide)
  · obtain rfl := Host.Outcome.next.inj ((h.symm.trans hexec).trans hrun)
    have hcode : e.code ∈ pseudocodeCodes i := by
      simpa [hraised, Run.RaisesIn] using hbody hs hchecks
    exact .inr ⟨e.code, hcode, rfl⟩

end

/-! ## Precise faults -/

/-- The pseudocode raises none of the codes that R286 gives to checks alone. -/
theorem errByte_of_pseudocode (i : Instr) :
    ∀ c ∈ pseudocodeCodes i, 7 ≤ (errByte c).toNat ∧ errByte c ≠ 0x0A := by
  unfold pseudocodeCodes
  split <;> decide

theorem errByte_of_blkEnc : ∀ c ∈ pseudocodeCodes .blkEnc, errByte c ≠ 0x0C := by decide

theorem pseudocodeCodes_of_precise {i : Instr} (h : faultsPrecisely i = true) :
    pseudocodeCodes i = [] := by
  revert h
  cases i <;> simp [faultsPrecisely, pseudocodeCodes]

/-- Settles O9: a fault of the listed kinds is no fault of the pseudocode. -/
theorem preciseFaults : Obligations.PreciseFaults := by
  intro i s t hs h ht hkind
  rcases exec_fault_cases hs h ht with ⟨e, -, rfl⟩ | ⟨c, hc, hcode⟩
  · rfl
  · exfalso
    obtain ⟨hlow, hne⟩ := errByte_of_pseudocode i c hc
    rw [hcode] at hkind
    rcases hkind with hprecise | ⟨-, hhigh⟩ | hdesync | ⟨rfl, hrange⟩
    · rw [pseudocodeCodes_of_precise hprecise] at hc
      exact absurd hc List.not_mem_nil
    · omega
    · exact hne hdesync
    · exact errByte_of_blkEnc c hc hrange

/-! ## Unit-state faults -/

theorem unitChecks_trap (i : Instr) (s : State) :
    ∀ c ∈ unitChecks i s, c.trap = ⟨.seq, BitVec.ofNat 32 i.opcode⟩ := by
  unfold unitChecks
  split <;> simp

/-- The unit-state checks of a command are its row of the table of R283. -/
theorem unitReady_eq (i : Instr) (s : State) : unitReady i s = (unitChecks i s).all Check.ok := by
  cases i <;> simp [unitReady, unitChecks, Bool.and_assoc]

/-- No check behind the unit-state checks raises ERR_SEQ. -/
theorem operandChecks_code (i : Instr) (s : State) :
    ∀ c ∈ operandChecks i s, c.trap.code ≠ .seq := by
  have hstd : ∀ c ∈ stdCtxOk s, c.trap.code ≠ .seq := by simp [stdCtxOk, stdBits]
  cases i with
  | blkEnc => exact List.forall_mem_append.mpr ⟨hstd, by simp [coefRangeOk]⟩
  | blkDec => exact hstd
  | _ =>
    simp [operandChecks, countBelowScale, symbolFound, tripleOk, scaleOk, coefRangeOk]

/-- A list of checks that share one trap. -/
theorem firstFailing_uniform {cs : List Check} {e : Trap} (h : ∀ c ∈ cs, c.trap = e) :
    firstFailing cs = if cs.all Check.ok then none else some e := by
  induction cs with
  | nil => rfl
  | cons c cs ih =>
    obtain ⟨hc, hcs⟩ := List.forall_mem_cons.mp h
    cases hok : c.ok <;> simp [hok, hc, ih hcs]

theorem trap_of_firstFailing {cs : List Check} {e : Trap} (h : firstFailing cs = some e) :
    ∃ c ∈ cs, c.trap = e := by
  induction cs with
  | nil => exact absurd h (by simp)
  | cons c cs ih =>
    cases hok : c.ok with
    | true =>
      obtain ⟨d, hd, he⟩ := ih (by simpa [hok] using h)
      exact ⟨d, List.mem_cons_of_mem c hd, he⟩
    | false => exact ⟨c, List.mem_cons_self, by simpa [hok] using h⟩

section
variable {i : Instr} {s : State}

theorem firstFailing_unitChecks (i : Instr) (s : State) : firstFailing (unitChecks i s) =
    if unitReady i s then none else some ⟨.seq, BitVec.ofNat 32 i.opcode⟩ := by
  rw [unitReady_eq, firstFailing_uniform (unitChecks_trap i s)]

theorem firstFailing_of_unready (h : unitReady i s = false) :
    firstFailing (checksOf i s) = some ⟨.seq, BitVec.ofNat 32 i.opcode⟩ := by
  simp [checksOf, firstFailing_append, firstFailing_unitChecks, h]

theorem firstFailing_of_ready (h : unitReady i s = true) :
    firstFailing (checksOf i s) = firstFailing (operandChecks i s) := by
  simp [checksOf, firstFailing_append, firstFailing_unitChecks, h]

end

theorem eq_seq_of_errByte {c : ErrCode} : errByte c = 0x02 → c = .seq := by
  cases c <;> decide

/-- Settles O10: the unit-state checks come first and are the only source of ERR_SEQ. -/
theorem unitStateFaults : Obligations.UnitStateFaults := by
  intro i s hs
  refine ⟨fun hready => ?_, fun hready t h ht => ?_⟩
  · have hi : i ≠ .reset := by
      rintro rfl
      exact absurd hready (by simp [unitReady])
    obtain ⟨body, hexec, -⟩ := exec_eq_runCommand i s hi
    rw [hexec, runCommand_faults hs (firstFailing_of_unready hready)]
    rfl
  · rcases exec_fault_cases hs h ht with ⟨e, hfails, rfl⟩ | ⟨c, hc, hcode⟩
    · obtain ⟨d, hd, rfl⟩ := trap_of_firstFailing ((firstFailing_of_ready hready).symm.trans hfails)
      exact mt eq_seq_of_errByte (operandChecks_code i s d hd)
    · intro hseq
      have hlow := (errByte_of_pseudocode i c hc).1
      rw [← hcode, hseq] at hlow
      exact absurd hlow (by decide)

/-! ## The unit while FAULT is 1 -/

/-- While a fault is pending every command but RESET changes nothing. -/
theorem exec_ignored {i : Instr} {s : State} (hi : i ≠ .reset) (hs : flag s .fault = true) :
    exec i s = .next s := by
  obtain ⟨body, hexec, -⟩ := exec_eq_runCommand i s hi
  rw [hexec, runCommand_ignored hs]

theorem decodeFor_eq_ok {hasRle : Bool} {w : Word} {i : Instr} (h : decodeFor hasRle w = .ok i) :
    decode w = .ok i := by
  unfold decodeFor at h
  split at h
  · split at h
    · cases h
    · exact h ▸ ‹decode w = _›
  · cases h

theorem command_ignored {w : Word} {s : State} (hw : w ≠ 0x01000000) (hs : flag s .fault = true) :
    command w s = .next s := by
  rw [command]
  split
  · next i hdecode =>
    have hencode := (encodeOfDecode w i (decodeFor_eq_ok hdecode)).2
    refine exec_ignored (fun hreset => hw ?_) hs
    rw [← hencode, hreset]
    rfl
  · rw [illegalCommand, if_pos hs]

theorem command_reset (s : State) : command 0x01000000 s = .next (softReset s) := by
  have hdecode : decodeFor s.cfg.hasRle 0x01000000 = .ok .reset := by
    cases s.cfg.hasRle <;> decide
  rw [command, hdecode]
  rfl

/-- The state with other fault registers. -/
def withFaultRegisters (status : Word) (code : Byte) (info : Word) (s : State) : State :=
  { s with status := status, fcode := code, finfo := info }

section
variable (status : Word) (code : Byte) (info : Word) (s : State)

/-- A host write neither reads nor writes the fault registers. -/
theorem writeLocation_withFaultRegisters (loc : Location) (v : Word) :
    writeLocation loc v (withFaultRegisters status code info s) =
      withFaultRegisters status code info (writeLocation loc v s) := by
  cases loc with
  | reg n =>
    simp only [writeLocation, writeReg]
    split <;> rfl
  | _ => rfl

theorem hostStore_withFaultRegisters (width : BusWidth) (addr : Nat) (v : Word) :
    hostStore width addr v (withFaultRegisters status code info s) =
      withFaultRegisters status code info (hostStore width addr v s) := by
  have hcfg : (withFaultRegisters status code info s).cfg = s.cfg := rfl
  rw [hostStore, hostStore, hcfg]
  split
  · exact writeLocation_withFaultRegisters ..
  · rfl

theorem readReg_withFaultRegisters {n : Nat} (h1 : n ≠ 1) (h2 : n ≠ 2) (h3 : n ≠ 3) :
    readReg (withFaultRegisters status code info s) n = readReg s n := by
  unfold readReg
  split
  · exact absurd rfl h1
  · exact absurd rfl h2
  · exact absurd rfl h3
  all_goals rfl

theorem readLocation_withFaultRegisters {loc : Location} (h1 : loc ≠ .reg 1) (h2 : loc ≠ .reg 2)
    (h3 : loc ≠ .reg 3) :
    readLocation (withFaultRegisters status code info s) loc = readLocation s loc := by
  cases loc with
  | reg n =>
    exact readReg_withFaultRegisters status code info s (fun h => h1 (h ▸ rfl))
      (fun h => h2 (h ▸ rfl)) (fun h => h3 (h ▸ rfl))
  | _ => rfl

end

/-- A host write leaves the fault registers. -/
theorem hostStore_faultRegisters (width : BusWidth) (addr : Nat) (v : Word) (s : State) :
    hostStore width addr v s =
      withFaultRegisters s.status s.fcode s.finfo (hostStore width addr v s) :=
  hostStore_withFaultRegisters s.status s.fcode s.finfo s width addr v

/-- Settles O7: RESET alone is no command that a pending fault ignores, and no host access depends on
the fault registers but a read of them. -/
theorem faultFreezesUnit : Obligations.FaultFreezesUnit := by
  intro s hs
  refine ⟨fun w hw => command_ignored hw hs, ⟨softReset s, command_reset s, flag_softReset .fault s⟩,
    fun width addr v => ?_, fun loc h1 h2 h3 => ?_⟩
  · have hclear := hostStore_withFaultRegisters 0 0 0 s width addr v
    rw [withFaultRegisters] at hclear
    rw [hclear]
    exact hostStore_faultRegisters width addr v s
  · exact (readLocation_withFaultRegisters 0 0 0 s h1 h2 h3).symm

end Sys2Proof.Machine.FaultFrame

/-! PROOFS. Every step keeps IB and OB in canonical form (the model's own representation: log 18).
Bytes are written one at a time by `writeByte`, which keeps the form (`writeByte_wf`), or a whole
buffer is made anew: empty by BW_INIT, out of any list of bytes by a hardware reset. Pseudocode may
stop at a fault and what it has written stays (`60_exceptions.md` R287), so that `Run.All` says of
each routine that the form holds whichever way it ends. -/

namespace Sys2Proof.Machine.BufferForm

open FrequencyModel Composite ArithmeticCoder BlockCoder BlockPipeline SystemCommands FaultFrame

/-! ## Pseudocode that keeps the form -/

/-- From canonical buffers the pseudocode reaches canonical buffers, whether it ends or faults. -/
def KeepsForm {α : Type} (body : State → Run α) : Prop :=
  ∀ s, BuffersOk s → (body s).All BuffersOk

/-- The update writes neither IB nor OB. -/
def LeavesBuffers (f : State → State) : Prop := ∀ s, (f s).ib = s.ib ∧ (f s).ob = s.ob

section
variable {α β : Type} {s : State}

theorem LeavesBuffers.ok {f : State → State} (hf : LeavesBuffers f) (hs : BuffersOk s) :
    BuffersOk (f s) := by
  obtain ⟨hib, hob⟩ := hf s
  rw [BuffersOk, hib, hob]
  exact hs

theorem LeavesBuffers.keepsForm {f : State → State} (hf : LeavesBuffers f) :
    KeepsForm (always f) := fun _ hs => hf.ok hs

theorem LeavesBuffers.comp {f g : State → State} (hf : LeavesBuffers f) (hg : LeavesBuffers g) :
    LeavesBuffers fun s => f (g s) :=
  fun s => ⟨(hf (g s)).1.trans (hg s).1, (hf (g s)).2.trans (hg s).2⟩

theorem setFlag_leavesBuffers (f : Flag) (b : Bool) : LeavesBuffers (setFlag f b) :=
  fun _ => ⟨rfl, rfl⟩

theorem setRet0_leavesBuffers (v : Word) : LeavesBuffers (setRet0 v) := fun _ => ⟨rfl, rfl⟩

theorem setRets_leavesBuffers (v w : Word) : LeavesBuffers fun s => setRet1 w (setRet0 v s) :=
  fun _ => ⟨rfl, rfl⟩

theorem setZz_leavesBuffers (b : Block 16) : LeavesBuffers (setZz b) := fun _ => ⟨rfl, rfl⟩

theorem setCoef_leavesBuffers (b : Block 32) : LeavesBuffers (setCoef b) := fun _ => ⟨rfl, rfl⟩

theorem setRecon_leavesBuffers (b : Block 8) : LeavesBuffers (setRecon b) := fun _ => ⟨rfl, rfl⟩

theorem KeepsForm.andThen {body : State → Run α} {k : α → State → Run β} (hbody : KeepsForm body)
    (hk : ∀ a, KeepsForm (k a)) : KeepsForm fun s => (body s).andThen k :=
  fun s hs => (hbody s hs).andThen hk

theorem demand_keepsForm (ok : Bool) (e : Trap) : KeepsForm (demand ok e) :=
  fun _ hs => Run.All.demand hs ok e

/-- A command keeps the form if its pseudocode does. -/
theorem KeepsForm.runCommand {cs : List Check} {body : State → Run Unit} {t : State}
    (hbody : KeepsForm body) (hs : BuffersOk s) (h : runCommand cs body s = .next t) :
    BuffersOk t :=
  runCommand_keeps hs (fun _ _ hu => hu) (fun _ hu => hu) (fun _ _ => hbody s hs) h

end

/-! ## The bit writer and the bit reader -/

theorem putBit_keepsForm (b : Bool) : KeepsForm (putBit b) := by
  intro s hs
  refine (demand_keepsForm _ _ s hs).andThen fun _ t ⟨hib, hob⟩ => ?_
  cases b with
  | true => exact ⟨hib, setStreamBit_wf hob _⟩
  | false => exact ⟨hib, hob⟩

theorem putList_keepsForm (bits : List Bool) : KeepsForm (putList bits) := by
  induction bits with
  | nil => exact fun _ hs => hs
  | cons b bits ih => exact (putBit_keepsForm b).andThen fun _ => ih

theorem putBits_keepsForm (v : Word) (n : Nat) : KeepsForm (putBits v n) := by
  intro s hs
  rw [putBits_eq]
  exact putList_keepsForm _ s hs

theorem putByte_keepsForm (v : Byte) : KeepsForm (putByte v) := putBits_keepsForm _ 8

theorem getBit_keepsForm : KeepsForm getBit :=
  fun s hs => (demand_keepsForm _ _ s hs).andThen fun _ _ ht => ht

theorem peekBits_keepsForm (n : Nat) : KeepsForm (peekBits n) :=
  fun s hs => (demand_keepsForm _ _ s hs).andThen fun _ _ ht => ht

theorem getBits_keepsForm (n : Nat) : KeepsForm (getBits n) :=
  (peekBits_keepsForm n).andThen fun _ _ ht => ht

/-- BW_INIT empties OB, and the empty buffer is canonical. -/
theorem startWriter_keepsForm (hdr : Bool) : KeepsForm (always (startWriter hdr)) :=
  fun _ ⟨hib, _⟩ => ⟨hib, rfl⟩

theorem flushWriter_ob (s : State) : (flushWriter s).ob =
    if flag s .bwHdr then writeHeader s.ob (payloadBytes s) else s.ob := rfl

/-- BW_FLUSH writes the four bytes of the header, if there is one. -/
theorem flushWriter_keepsForm : KeepsForm (always flushWriter) := by
  intro s ⟨hib, hob⟩
  refine ⟨hib, ?_⟩
  rw [flushWriter_ob]
  split
  · exact writeHeader_wf hob _
  · exact hob

/-! ## The encoder -/

theorem drainPending_keepsForm (b : Bool) (n : Nat) : KeepsForm (drainPending b n) := by
  induction n with
  | zero => exact fun _ hs => hs
  | succ n ih => exact (putBit_keepsForm b).andThen fun _ t ht => ih (setEuf (t.euf - 1) t) ht

theorem emitBit_keepsForm (b : Bool) : KeepsForm (emitBit b) :=
  (putBit_keepsForm b).andThen fun _ t ht => drainPending_keepsForm _ t.euf.toNat t ht

theorem deferBit_keepsForm : KeepsForm deferBit :=
  fun s hs => (demand_keepsForm _ _ s hs).andThen fun _ _ ht => ht

theorem encRenorm_keepsForm (n : Nat) : KeepsForm (encRenorm n) := by
  induction n with
  | zero => exact fun _ hs => hs
  | succ n ih =>
    intro s hs
    have hrest : KeepsForm fun t => encRenorm n (shiftEnc t) := fun t ht => ih (shiftEnc t) ht
    rw [encRenorm]
    split
    · exact (emitBit_keepsForm _ s hs).andThen fun _ => hrest
    · split
      · exact (deferBit_keepsForm s hs).andThen fun _ => hrest
      · exact hs

theorem encodeLatch_keepsForm : KeepsForm encodeLatch :=
  fun s hs => encRenorm_keepsForm renormPasses (narrowEnc s) hs

theorem closeSegment_keepsForm : KeepsForm closeSegment := by
  intro s hs
  rw [closeSegment_eq]
  refine (putList_keepsForm (signBits s) s hs).andThen fun _ t ht => ?_
  exact (putList_keepsForm _ (setEuf 0 t) ht).andThen fun _ _ hu => hu

theorem encSym_keepsForm (m : Fin 16) (sym : Nat) : KeepsForm (encSym m sym) :=
  fun s hs => (encodeLatch_keepsForm (loaded s m sym) hs).andThen fun _ _ ht => ht

theorem encCoefs_keepsForm (k n i : Nat) : KeepsForm (encCoefs k n i) := by
  induction n generalizing i with
  | zero => exact fun _ hs => hs
  | succ n ih => exact fun s hs => (encSym_keepsForm _ _ s hs).andThen fun _ => ih (i + 1)

theorem encBucket_keepsForm (last : Nat) : KeepsForm (encBucket last) := by
  intro s hs
  rw [encBucket]
  split
  · exact hs
  · exact (encSym_keepsForm _ _ s hs).andThen fun _ _ ht => ht

theorem encodeBlock_keepsForm : KeepsForm encodeBlock := by
  intro s hs
  rw [encodeBlock]
  refine (encSym_keepsForm mLast (lastNz s) s hs).andThen fun _ => ?_
  refine (encBucket_keepsForm (lastNz s)).andThen fun k t ht => ?_
  refine (encSym_keepsForm mDc _ t ht).andThen fun _ => ?_
  exact (encCoefs_keepsForm k (lastNz s) 1).andThen fun _ _ hu => hu

/-! ## The decoder -/

theorem openDecoder_keepsForm : KeepsForm openDecoder :=
  fun s hs => (getBits_keepsForm 16 (setDec 0 0xFFFF s) hs).andThen fun _ _ ht => ht

theorem shiftDec_keepsForm : KeepsForm shiftDec :=
  fun s hs => (getBit_keepsForm (setDec (shiftLow s.dlow) (shiftHigh s.dhigh) s) hs).andThen
    fun _ _ ht => ht

theorem decRenorm_keepsForm (n : Nat) : KeepsForm (decRenorm n) := by
  induction n with
  | zero => exact fun _ hs => hs
  | succ n ih =>
    intro s hs
    rw [decRenorm]
    split
    · exact (shiftDec_keepsForm s hs).andThen fun _ => ih
    · split
      · exact (shiftDec_keepsForm (straddleDec s) hs).andThen fun _ => ih
      · exact hs

theorem removeLatch_keepsForm : KeepsForm removeLatch :=
  fun s hs => decRenorm_keepsForm renormPasses (narrowDec s) hs

theorem decSym_keepsForm (m : Fin 16) : KeepsForm (decSym m) := by
  intro s hs
  rw [decSym]
  have hcount : BuffersOk (takeCount (latchScaleOf m s)) := hs
  generalize takeCount (latchScaleOf m s) = t at hcount
  generalize ctxFind t m t.cnt.toNat = e
  refine (demand_keepsForm _ _ t hcount).andThen fun _ u hu => ?_
  exact (removeLatch_keepsForm (latchBoundsOf m (e - 1) u) hu).andThen fun _ _ hv => hv

theorem symDecBody_keepsForm (m : Fin 16) : KeepsForm (symDecBody m) :=
  (decSym_keepsForm m).andThen fun _ _ ht => ht

theorem putZz_leavesBuffers (i : Nat) (v : Int) : LeavesBuffers (putZz i v) := by
  intro s
  rw [putZz]
  split
  · exact setZz_leavesBuffers _ s
  · exact ⟨rfl, rfl⟩

theorem decCoef_keepsForm (m : Fin 16) (off i : Nat) : KeepsForm (decCoef m off i) :=
  (decSym_keepsForm m).andThen fun _ => (demand_keepsForm _ _).andThen fun _ _ ht =>
    (putZz_leavesBuffers i _).ok ht

theorem decCoefs_keepsForm (k n i : Nat) : KeepsForm (decCoefs k n i) := by
  induction n generalizing i with
  | zero => exact fun _ hs => hs
  | succ n ih => exact (decCoef_keepsForm _ _ i).andThen fun _ => ih (i + 1)

theorem decBucket_keepsForm (last : Nat) : KeepsForm (decBucket last) := by
  intro s hs
  rw [decBucket]
  split
  · exact hs
  · exact (decSym_keepsForm mIdx s hs).andThen fun _ =>
      (demand_keepsForm _ _).andThen fun _ _ ht => ht

theorem clearZzAfter_leavesBuffers (last : Nat) : LeavesBuffers (clearZzAfter last) :=
  fun s => setZz_leavesBuffers _ s

theorem decodeBlock_keepsForm : KeepsForm decodeBlock := by
  refine (decSym_keepsForm mLast).andThen fun last => ?_
  refine (decBucket_keepsForm last).andThen fun k => ?_
  refine (decCoef_keepsForm mDc _ 0).andThen fun _ => ?_
  exact (decCoefs_keepsForm k last 1).andThen fun _ _ ht =>
    (setRets_leavesBuffers _ _).ok ((clearZzAfter_leavesBuffers last).ok ht)

/-! ## The RLE unit -/

theorem putFromIb_keepsForm (a n : Nat) : KeepsForm (putFromIb a n) := by
  induction n generalizing a with
  | zero => exact fun _ hs => hs
  | succ n ih => exact fun s hs => (putByte_keepsForm _ s hs).andThen fun _ => ih (a + 1)

theorem flushLiteral_keepsForm (a n : Nat) : KeepsForm (flushLiteral a n) := by
  intro s hs
  rw [flushLiteral]
  split
  · exact hs
  · exact (putByte_keepsForm _ s hs).andThen fun _ => putFromIb_keepsForm a n

theorem rleEncLoop_keepsForm (fuel a left ls ll : Nat) :
    KeepsForm (rleEncLoop fuel a left ls ll) := by
  induction fuel generalizing a left ls ll with
  | zero => exact flushLiteral_keepsForm ls ll
  | succ fuel ih =>
    intro s hs
    have hflush := flushLiteral_keepsForm ls ll s hs
    rw [rleEncLoop]
    split
    · exact hflush
    · split
      · refine hflush.andThen fun _ t ht => ?_
        refine (putByte_keepsForm _ t ht).andThen fun _ u hu => ?_
        exact (putByte_keepsForm _ u hu).andThen fun _ v => ih _ _ 0 0 v
      · split
        · exact hflush.andThen fun _ => ih (a + 1) _ a 1
        · exact ih (a + 1) (left - 1) _ (ll + 1) s hs

theorem rleEncode_keepsForm : KeepsForm rleEncode :=
  fun s hs => (rleEncLoop_keepsForm _ _ _ 0 0 s hs).andThen fun _ _ ht => ht

theorem copyBytes_keepsForm (n : Nat) : KeepsForm (copyBytes n) := by
  induction n with
  | zero => exact fun _ hs => hs
  | succ n ih =>
    exact (getBits_keepsForm 8).andThen fun _ => (putByte_keepsForm _).andThen fun _ => ih

theorem repeatByte_keepsForm (v : Byte) (n : Nat) : KeepsForm (repeatByte v n) := by
  induction n with
  | zero => exact fun _ hs => hs
  | succ n ih => exact (putByte_keepsForm v).andThen fun _ => ih

theorem rleDecRecord_keepsForm (left : Nat) : KeepsForm (rleDecRecord left) := by
  refine (getBits_keepsForm 8).andThen fun len t ht => ?_
  refine (demand_keepsForm _ _ t ht).andThen fun _ u hu => ?_
  split
  · generalize len - 0x80 = n
    refine (demand_keepsForm _ _ u hu).andThen fun _ => ?_
    exact (copyBytes_keepsForm n).andThen fun _ _ hv => hv
  · refine (getBits_keepsForm 8 u hu).andThen fun v w hw => ?_
    refine (demand_keepsForm _ _ w hw).andThen fun _ => ?_
    exact (repeatByte_keepsForm (BitVec.ofNat 8 v) len).andThen fun _ _ hx => hx

theorem rleDecLoop_keepsForm (fuel left : Nat) : KeepsForm (rleDecLoop fuel left) := by
  induction fuel generalizing left with
  | zero => exact fun _ hs => hs
  | succ fuel ih =>
    intro s hs
    rw [rleDecLoop]
    split
    · exact hs
    · exact (rleDecRecord_keepsForm left s hs).andThen fun c => ih (left - c)

theorem rleDecode_keepsForm : KeepsForm rleDecode :=
  fun s hs => (rleDecLoop_keepsForm _ _ s hs).andThen fun _ _ ht => ht

/-! ## Every command -/

theorem initCtxs_leavesBuffers (cs : List (Fin 16 × Nat)) : LeavesBuffers (initCtxs cs) := by
  intro s
  rw [initCtxs_frame]
  exact ⟨rfl, rfl⟩

theorem quantBlock_leavesBuffers (inter : Bool) : LeavesBuffers (quantBlock inter) := by
  intro s
  rw [quantBlock_eq]
  split
  · exact (setFlag_leavesBuffers .clipw true).comp (setZz_leavesBuffers _) s
  · exact setZz_leavesBuffers _ s

/-- Every command but RESET is checks and pseudocode that keeps the form. -/
theorem exec_eq_runCommand_keepsForm (i : Instr) (s : State) (hi : i ≠ .reset) :
    ∃ cs body, exec i s = runCommand cs body s ∧ KeepsForm body := by
  cases i with
  | nop => exact ⟨_, _, exec_nop s, fun _ hs => hs⟩
  | reset => exact absurd rfl hi
  | clrw => exact ⟨_, _, exec_clrw s, fun _ hs => hs⟩
  | bwInit hdr => exact ⟨_, _, rfl, startWriter_keepsForm hdr⟩
  | bwPut n => exact ⟨_, _, exec_bwPut s n, putBits_keepsForm s.arg0 n⟩
  | bwFlush => exact ⟨_, _, rfl, flushWriter_keepsForm⟩
  | brInit => exact ⟨_, always startReader, rfl, fun _ hs => hs⟩
  | brGet n => exact ⟨_, _, exec_brGet s n, (getBits_keepsForm n).andThen fun _ _ ht => ht⟩
  | brPeek n => exact ⟨_, _, exec_brPeek s n, (peekBits_keepsForm n).andThen fun _ _ ht => ht⟩
  | brSkip n => exact ⟨_, _, exec_brSkip s n, fun _ hs => hs⟩
  | mdlInit m bits => exact ⟨_, _, exec_mdlInit s m bits, fun _ hs => hs⟩
  | mdlInitStd =>
    exact ⟨_, _, exec_mdlInitStd s, (initCtxs_leavesBuffers stdBits).keepsForm⟩
  | mdlUpd m sym => exact ⟨_, _, exec_mdlUpd s m sym, fun _ hs => hs⟩
  | mdlI2s m sym => exact ⟨_, _, exec_mdlI2s s m sym, fun _ hs => hs⟩
  | mdlS2i m => exact ⟨_, _, exec_mdlS2i s m, fun _ hs => hs⟩
  | mdlScale m => exact ⟨_, _, exec_mdlScale s m, fun _ hs => hs⟩
  | acEncInit => exact ⟨_, _, exec_acEncInit s, fun _ hs => hs⟩
  | acEnc => exact ⟨_, _, exec_acEnc s, encodeLatch_keepsForm⟩
  | acEncFlush => exact ⟨_, _, exec_acEncFlush s, closeSegment_keepsForm⟩
  | acDecInit => exact ⟨_, _, exec_acDecInit s, openDecoder_keepsForm⟩
  | acDecCnt => exact ⟨_, _, exec_acDecCnt s, fun _ hs => hs⟩
  | acDecRm => exact ⟨_, _, exec_acDecRm s, removeLatch_keepsForm⟩
  | symEnc m sym => exact ⟨_, _, exec_symEnc s m sym, encSym_keepsForm m sym⟩
  | symDec m => exact ⟨_, _, exec_symDec s m, symDecBody_keepsForm m⟩
  | blkLoad inter =>
    exact ⟨_, _, exec_blkLoad s inter, fun _ => (setCoef_leavesBuffers _).ok⟩
  | blkFdct => exact ⟨_, _, exec_blkFdct s, fun _ => (setCoef_leavesBuffers _).ok⟩
  | blkQuant inter =>
    exact ⟨_, _, exec_blkQuant s inter, (quantBlock_leavesBuffers inter).keepsForm⟩
  | blkLast => exact ⟨_, _, exec_blkLast s, fun _ => (setRet0_leavesBuffers _).ok⟩
  | blkMidx =>
    exact ⟨_, _, exec_blkMidx s, fun _ => (setRets_leavesBuffers _ _).ok⟩
  | blkEnc => exact ⟨_, _, exec_blkEnc s, encodeBlock_keepsForm⟩
  | blkDec => exact ⟨_, _, exec_blkDec s, decodeBlock_keepsForm⟩
  | blkDeq inter => exact ⟨_, _, exec_blkDeq s inter, fun _ => (setCoef_leavesBuffers _).ok⟩
  | blkIdct => exact ⟨_, _, exec_blkIdct s, fun _ => (setCoef_leavesBuffers _).ok⟩
  | blkRecon inter =>
    exact ⟨_, _, exec_blkRecon s inter, fun _ => (setRecon_leavesBuffers _).ok⟩
  | rleEnc => exact ⟨_, _, rfl, rleEncode_keepsForm⟩
  | rleDec => exact ⟨_, _, rfl, rleDecode_keepsForm⟩

section
variable {s t : State}

/-- RESET keeps IB and OB as they are (`45_system.md` R272), every other command keeps the form. -/
theorem exec_buffersOk (i : Instr) (hs : BuffersOk s) (h : exec i s = .next t) : BuffersOk t := by
  rcases eq_or_ne i .reset with rfl | hi
  · obtain rfl := Host.Outcome.next.inj h
    exact hs
  · obtain ⟨cs, body, hexec, hbody⟩ := exec_eq_runCommand_keepsForm i s hi
    exact hbody.runCommand hs (hexec.symm.trans h)

/-! ## Every action -/

theorem hostRead_leavesBuffers (width : BusWidth) (addr : Nat) :
    LeavesBuffers (hostRead width addr) := by
  intro s
  rw [hostRead]
  split <;> exact ⟨rfl, rfl⟩

theorem writeReg_leavesBuffers (n : Nat) (v : Word) : LeavesBuffers (writeReg n v) := by
  intro s
  simp only [writeReg]
  split <;> exact ⟨rfl, rfl⟩

/-- The host writes bytes of IB, one at a time; OB it can only read. -/
theorem writeLocation_buffersOk (loc : Location) (v : Word) (hs : BuffersOk s) :
    BuffersOk (writeLocation loc v s) := by
  cases loc with
  | reg n => exact (writeReg_leavesBuffers n v).ok hs
  | ib i =>
    obtain ⟨hib, hob⟩ := hs
    exact ⟨writeByte_wf hib i _, hob⟩
  | _ => exact hs

theorem hostStore_buffersOk (width : BusWidth) (addr : Nat) (v : Word) (hs : BuffersOk s) :
    BuffersOk (hostStore width addr v s) := by
  rw [hostStore]
  split
  · exact writeLocation_buffersOk _ v hs
  · exact hs

theorem illegalCommand_leavesBuffers (w : Word) : LeavesBuffers (illegalCommand w) := by
  intro s
  rw [illegalCommand]
  split <;> exact ⟨rfl, rfl⟩

theorem command_buffersOk (w : Word) (hs : BuffersOk s) (h : command w s = .next t) :
    BuffersOk t := by
  rw [command] at h
  split at h
  · exact exec_buffersOk _ hs h
  · obtain rfl := Host.Outcome.next.inj h
    exact (illegalCommand_leavesBuffers w).ok hs

/-- After a hardware reset the buffers hold any bytes, in canonical form (`10_state.md` R50). -/
theorem hardReset_buffersOk (p : PowerUp) (s : State) : BuffersOk (hardReset p s) :=
  ⟨memoryOf_wf s.cfg.ibCap p.ib, memoryOf_wf s.cfg.obCap p.ob⟩

theorem act_buffersOk (a : HostAction) (hs : BuffersOk s) (h : act a s = .next t) :
    BuffersOk t := by
  cases a with
  | read width addr =>
    obtain rfl := Host.Outcome.next.inj h
    exact (hostRead_leavesBuffers width addr).ok hs
  | write width addr v =>
    rw [act] at h
    split at h
    · exact command_buffersOk v hs h
    · obtain rfl := Host.Outcome.next.inj h
      exact hostStore_buffersOk width addr v hs
  | hardwareReset p =>
    obtain rfl := Host.Outcome.next.inj h
    exact hardReset_buffersOk p s

end

/-- Settles O55: the queue of the host is no part of the buffers, and every action keeps the form. -/
theorem stepKeepsBufferForm : Obligations.StepKeepsBufferForm := by
  intro s t hs h
  rw [step] at h
  split at h
  · obtain rfl := Host.Outcome.next.inj h
    exact hs
  · next a rest _ =>
    have hs' : BuffersOk { s with host := rest } := hs
    exact act_buffersOk a hs' h

end Sys2Proof.Machine.BufferForm

/-! PROOFS. What a property of the state needs so that every step keeps it. The pseudocode of the
commands is made of few kinds of write (`WriteKind`); `writesOf` lists those of each command
(`20_memory.md` R60). A property that each listed kind keeps is kept by the pseudocode whichever way
it ends (`bodyOf_keeps`), and so by the command (`exec_keeps`); with what the host and a reset do, it
is kept by every step (`step_keeps`). -/

namespace Sys2Proof.Machine.Keeping

open FrequencyModel Composite ArithmeticCoder BlockCoder BlockPipeline SystemCommands FaultFrame
open CoderInvariant (flag_softReset)

/-! ## The kinds of write -/

/-- The kinds of write that the pseudocode of the commands is made of. -/
inductive WriteKind where
  /-- PutBit (`40_bitio.md` R111). -/
  | putBit
  /-- RPOS moves past bits that the reader has (`40_bitio.md` R118). -/
  | takeBits
  /-- ELOW, EHIGH, EUF. -/
  | encoder
  /-- DLOW, DHIGH, DCODE. -/
  | decoder
  /-- The symbol latch. -/
  | latch
  /-- CNT. -/
  | count
  /-- RET0 and RET1. -/
  | report
  /-- Update of a context (`41_model.md` R136). -/
  | update
  /-- MDL_INIT of a context with a legal width (`41_model.md` R133). -/
  | initialise
  | coef
  | zz
  | recon
  /-- CLIPW. -/
  | clipWarning
  /-- What BW_INIT does (`40_bitio.md` R113). -/
  | openWriter
  /-- What BW_FLUSH does (`40_bitio.md` R116). -/
  | closeWriter
  /-- What BR_INIT does (`40_bitio.md` R117). -/
  | openReader
  /-- ENC_ACT set with a writer open (`42_coder.md` R161). -/
  | openEncoder
  /-- ENC_ACT cleared (`42_coder.md` R169). -/
  | closeEncoder
  /-- DEC_ACT set with a reader open (`42_coder.md` R172). -/
  | openDecoder
deriving DecidableEq

/-- The state after PutBit with room (`40_bitio.md` R111). -/
def bitPut (b : Bool) (s : State) : State :=
  setWpos (s.wpos + 1) (if b then setOb (setStreamBit s.ob s.wpos.toNat) s else s)

/-- Every write of the kind keeps the property, where the checks before it hold. -/
def WriteKind.Keeps (p : State → Prop) : WriteKind → Prop
  | .putBit => ∀ b s, s.wpos.toNat < 8 * s.cfg.obCap → p s → p (bitPut b s)
  | .takeBits => ∀ n s, s.rpos.toNat + n ≤ s.rlen.toNat → p s →
      p (setRpos (wordOfNat (s.rpos.toNat + n)) s)
  | .encoder => ∀ s, p s → (∀ low high, p (setEnc low high s)) ∧ ∀ v, p (setEuf v s)
  | .decoder => ∀ s, p s → (∀ low high, p (setDec low high s)) ∧ ∀ code, p (setDcode code s)
  | .latch => ∀ s, p s → (∀ low high, p (setLatchBounds low high s)) ∧ ∀ v, p (setLatchScale v s)
  | .count => ∀ v s, p s → p (setCnt v s)
  | .report => ∀ v s, p s → p (setRet0 v s) ∧ p (setRet1 v s)
  | .update => ∀ m sym s, p s → p (updateCtx m sym s)
  | .initialise => ∀ m bits s, 1 ≤ bits → bits ≤ 11 → p s → p (initCtx m bits s)
  | .coef => ∀ b s, p s → p (setCoef b s)
  | .zz => ∀ b s, p s → p (setZz b s)
  | .recon => ∀ b s, p s → p (setRecon b s)
  | .clipWarning => ∀ b s, p s → p (setFlag .clipw b s)
  | .openWriter => ∀ hdr s, (hdr = true → 4 ≤ s.cfg.obCap) → p s → p (startWriter hdr s)
  | .closeWriter => ∀ s, flag s .bwAct = true → flag s .encAct = false → p s → p (flushWriter s)
  | .openReader => ∀ s, s.arg0.toNat + s.arg1.toNat ≤ 8 * s.cfg.ibCap → p s → p (startReader s)
  | .openEncoder => ∀ s, flag s .bwAct = true → p s → p (setFlag .encAct true s)
  | .closeEncoder => ∀ s, p s → p (setFlag .encAct false s)
  | .openDecoder => ∀ s, flag s .brAct = true → p s → p (setFlag .decAct true s)

/-- The kinds of write in the pseudocode of each command. -/
def writesOf : Instr → List WriteKind
  | .nop | .reset => []
  | .clrw => [.clipWarning]
  | .bwInit _ => [.openWriter]
  | .bwPut _ => [.putBit]
  | .bwFlush => [.closeWriter]
  | .brInit => [.openReader]
  | .brGet _ => [.takeBits, .report]
  | .brPeek _ => [.report]
  | .brSkip _ => [.takeBits]
  | .mdlInit _ _ | .mdlInitStd => [.initialise]
  | .mdlUpd _ _ => [.update]
  | .mdlI2s _ _ => [.latch]
  | .mdlS2i _ | .mdlScale _ => [.latch, .report]
  | .acEncInit => [.encoder, .openEncoder]
  | .acEnc => [.putBit, .encoder]
  | .acEncFlush => [.putBit, .encoder, .closeEncoder]
  | .acDecInit => [.takeBits, .decoder, .openDecoder]
  | .acDecCnt => [.count, .report]
  | .acDecRm => [.takeBits, .decoder]
  | .symEnc _ _ => [.putBit, .encoder, .latch, .update]
  | .symDec _ => [.takeBits, .decoder, .latch, .count, .update, .report]
  | .blkLoad _ | .blkFdct | .blkDeq _ | .blkIdct => [.coef]
  | .blkQuant _ => [.zz, .clipWarning]
  | .blkLast | .blkMidx => [.report]
  | .blkEnc => [.putBit, .encoder, .latch, .update, .report]
  | .blkDec => [.takeBits, .decoder, .latch, .count, .update, .zz, .report]
  | .blkRecon _ => [.recon]
  | .rleEnc => [.putBit, .report]
  | .rleDec => [.takeBits, .putBit, .report]

/-- The pseudocode of a command. That of BW_PUT and of the transforms names the state in which the
command starts, for ARG0 and for the parameters. -/
def bodyOf (i : Instr) (s : State) : State → Run Unit :=
  match i with
  | .nop | .reset => always id
  | .clrw => always (setFlag .clipw false)
  | .bwInit hdr => always (startWriter hdr)
  | .bwPut n => putBits s.arg0 n
  | .bwFlush => always flushWriter
  | .brInit => always startReader
  | .brGet n => fun s => (getBits n s).andThen fun v s => .done () (setRet0 (wordOfNat v) s)
  | .brPeek n => fun s => (peekBits n s).andThen fun v s => .done () (setRet0 (wordOfNat v) s)
  | .brSkip n => always fun s => setRpos (wordOfNat (s.rpos.toNat + n)) s
  | .mdlInit m bits => always (initCtx m bits)
  | .mdlInitStd => always (initCtxs stdBits)
  | .mdlUpd m sym => always (updateCtx m sym)
  | .mdlI2s m sym => always fun s => latchScaleOf m (latchBoundsOf m sym s)
  | .mdlS2i m => always (takeSymbol m)
  | .mdlScale m => always fun s => setRet0 ((ctxScale s m).setWidth 32) (latchScaleOf m s)
  | .acEncInit => always openEncoder
  | .acEnc => encodeLatch
  | .acEncFlush => closeSegment
  | .acDecInit => openDecoder
  | .acDecCnt => always reportCount
  | .acDecRm => removeLatch
  | .symEnc m sym => encSym m sym
  | .symDec m => symDecBody m
  | .blkLoad inter => always (loadBlock inter)
  | .blkFdct => always (transformBlock (forwardTransform s.cfg.transform))
  | .blkQuant inter => always (quantBlock inter)
  | .blkLast => always fun s => setRet0 (wordOfNat (lastNz s)) s
  | .blkMidx => always fun s =>
      setRet1 (wordOfNat (maxAbs s)) (setRet0 (wordOfNat (bucket (maxAbs s))) s)
  | .blkEnc => encodeBlock
  | .blkDec => decodeBlock
  | .blkDeq inter => always (dequantBlock inter)
  | .blkIdct => always (transformBlock (inverseTransform s.cfg.transform))
  | .blkRecon inter => always (reconBlock inter)
  | .rleEnc => rleEncode
  | .rleDec => rleDecode

/-- Every command but RESET is its checks and its pseudocode. -/
theorem exec_eq_bodyOf {i : Instr} (hi : i ≠ .reset) (s : State) :
    exec i s = runCommand (checksOf i s) (bodyOf i s) s := by
  cases i with
  | reset => exact absurd rfl hi
  | _ => rfl

/-! ## Pseudocode that keeps a property -/

/-- From a state with the property the pseudocode reaches states with it, whether it ends or
faults. -/
def Preserves {α : Type} (p : State → Prop) (body : State → Run α) : Prop :=
  ∀ s, p s → (body s).All p

section
variable {α β : Type} {p : State → Prop}

theorem Preserves.andThen {body : State → Run α} {k : α → State → Run β} (hbody : Preserves p body)
    (hk : ∀ a, Preserves p (k a)) : Preserves p fun s => (body s).andThen k :=
  fun s hs => (hbody s hs).andThen hk

theorem demand_preserves (ok : Bool) (e : Trap) : Preserves p (demand ok e) :=
  fun _ hs => Run.All.demand hs ok e

theorem peekBits_preserves (n : Nat) : Preserves p (peekBits n) :=
  (fun _ hs => (demand_preserves _ _ _ hs).andThen fun _ _ ht => ht)

/-! ### The bit writer -/

section
variable (hput : WriteKind.putBit.Keeps p)
include hput

theorem putBit_preserves (b : Bool) : Preserves p (putBit b) := by
  intro s hs
  by_cases h : s.wpos.toNat < 8 * s.cfg.obCap
  · rw [putBit_room h]
    exact hput b s h hs
  · rw [putBit_full h]
    exact hs

theorem putList_preserves (bits : List Bool) : Preserves p (putList bits) := by
  induction bits with
  | nil => exact fun _ hs => hs
  | cons b bits ih => exact (putBit_preserves hput b).andThen fun _ => ih

theorem putBits_preserves (v : Word) (n : Nat) : Preserves p (putBits v n) := by
  intro s hs
  rw [putBits_eq]
  exact putList_preserves hput _ s hs

theorem putByte_preserves (v : Byte) : Preserves p (putByte v) := putBits_preserves hput _ 8

theorem putFromIb_preserves (a n : Nat) : Preserves p (putFromIb a n) := by
  induction n generalizing a with
  | zero => exact fun _ hs => hs
  | succ n ih => exact fun s hs => (putByte_preserves hput _ s hs).andThen fun _ => ih (a + 1)

theorem flushLiteral_preserves (a n : Nat) : Preserves p (flushLiteral a n) := by
  intro s hs
  rw [flushLiteral]
  split
  · exact hs
  · exact (putByte_preserves hput _ s hs).andThen fun _ => putFromIb_preserves hput a n

theorem rleEncLoop_preserves (fuel a left ls ll : Nat) :
    Preserves p (rleEncLoop fuel a left ls ll) := by
  induction fuel generalizing a left ls ll with
  | zero => exact flushLiteral_preserves hput ls ll
  | succ fuel ih =>
    intro s hs
    have hflush := flushLiteral_preserves hput ls ll s hs
    rw [rleEncLoop]
    split
    · exact hflush
    · split
      · refine hflush.andThen fun _ t ht => ?_
        refine (putByte_preserves hput _ t ht).andThen fun _ u hu => ?_
        exact (putByte_preserves hput _ u hu).andThen fun _ v => ih _ _ 0 0 v
      · split
        · exact hflush.andThen fun _ => ih (a + 1) _ a 1
        · exact ih (a + 1) (left - 1) _ (ll + 1) s hs

theorem repeatByte_preserves (v : Byte) (n : Nat) : Preserves p (repeatByte v n) := by
  induction n with
  | zero => exact fun _ hs => hs
  | succ n ih => exact (putByte_preserves hput v).andThen fun _ => ih

end

/-! ### The bit reader -/

theorem rpos_add_one (s : State) : s.rpos + 1 = wordOfNat (s.rpos.toNat + 1) := by
  rw [wordOfNat, BitVec.ofNat_add, BitVec.ofNat_toNat, BitVec.setWidth_eq]
  rfl

section
variable (htake : WriteKind.takeBits.Keeps p)
include htake

theorem getBits_preserves (n : Nat) : Preserves p (getBits n) := by
  intro s hs
  by_cases h : s.rpos.toNat + n ≤ s.rlen.toNat
  · rw [getBits_room h]
    exact htake n s h hs
  · rw [getBits_overrun h]
    exact hs

theorem getBit_preserves : Preserves p getBit := by
  intro s hs
  by_cases h : s.rpos.toNat + 1 ≤ s.rlen.toNat
  · rw [getBit_room h, rpos_add_one]
    exact htake 1 s h hs
  · rw [getBit_overrun h]
    exact hs

variable (hput : WriteKind.putBit.Keeps p)
include hput

theorem copyBytes_preserves (n : Nat) : Preserves p (copyBytes n) := by
  induction n with
  | zero => exact fun _ hs => hs
  | succ n ih =>
    exact (getBits_preserves htake 8).andThen fun _ => (putByte_preserves hput _).andThen fun _ => ih

theorem rleDecRecord_preserves (left : Nat) : Preserves p (rleDecRecord left) := by
  refine (getBits_preserves htake 8).andThen fun len t ht => ?_
  refine (demand_preserves _ _ t ht).andThen fun _ u hu => ?_
  split
  · generalize len - 0x80 = n
    refine (demand_preserves _ _ u hu).andThen fun _ => ?_
    exact (copyBytes_preserves htake hput n).andThen fun _ _ hv => hv
  · refine (getBits_preserves htake 8 u hu).andThen fun v w hw => ?_
    refine (demand_preserves _ _ w hw).andThen fun _ => ?_
    exact (repeatByte_preserves hput (BitVec.ofNat 8 v) len).andThen fun _ _ hx => hx

theorem rleDecLoop_preserves (fuel left : Nat) : Preserves p (rleDecLoop fuel left) := by
  induction fuel generalizing left with
  | zero => exact fun _ hs => hs
  | succ fuel ih =>
    intro s hs
    rw [rleDecLoop]
    split
    · exact hs
    · exact (rleDecRecord_preserves htake hput left s hs).andThen fun c => ih (left - c)

end

/-! ### The encoder -/

section
variable (hput : WriteKind.putBit.Keeps p) (henc : WriteKind.encoder.Keeps p)
include hput henc

theorem drainPending_preserves (b : Bool) (n : Nat) : Preserves p (drainPending b n) := by
  induction n with
  | zero => exact fun _ hs => hs
  | succ n ih =>
    exact (putBit_preserves hput b).andThen fun _ t ht => ih _ ((henc t ht).2 (t.euf - 1))

theorem emitBit_preserves (b : Bool) : Preserves p (emitBit b) :=
  (putBit_preserves hput b).andThen fun _ t ht =>
    drainPending_preserves hput henc _ t.euf.toNat t ht

omit hput in
theorem deferBit_preserves : Preserves p deferBit := by
  intro s hs
  refine (demand_preserves _ _ s hs).andThen fun _ t ht => ?_
  exact (henc _ ((henc t ht).2 (t.euf + 1))).1 _ _

theorem encRenorm_preserves (n : Nat) : Preserves p (encRenorm n) := by
  induction n with
  | zero => exact fun _ hs => hs
  | succ n ih =>
    intro s hs
    have hrest : Preserves p fun t => encRenorm n (shiftEnc t) := fun t ht => ih _ ((henc t ht).1 _ _)
    rw [encRenorm]
    split
    · exact (emitBit_preserves hput henc _ s hs).andThen fun _ => hrest
    · split
      · exact (deferBit_preserves henc s hs).andThen fun _ => hrest
      · exact hs

theorem encodeLatch_preserves : Preserves p encodeLatch :=
  fun s hs => encRenorm_preserves hput henc renormPasses _ ((henc s hs).1 _ _)

theorem closeSegment_preserves (hclose : WriteKind.closeEncoder.Keeps p) :
    Preserves p closeSegment := by
  intro s hs
  rw [closeSegment_eq]
  refine (putList_preserves hput (signBits s) s hs).andThen fun _ t ht => ?_
  exact (putList_preserves hput _ _ ((henc t ht).2 0)).andThen fun _ => hclose

variable (hlatch : WriteKind.latch.Keeps p) (hupdate : WriteKind.update.Keeps p)
include hlatch hupdate

theorem encSym_preserves (m : Fin 16) (sym : Nat) : Preserves p (encSym m sym) := by
  intro s hs
  have hloaded : p (loaded s m sym) := (hlatch _ ((hlatch s hs).1 _ _)).2 _
  exact (encodeLatch_preserves hput henc _ hloaded).andThen fun _ => hupdate m sym

theorem encCoefs_preserves (k n i : Nat) : Preserves p (encCoefs k n i) := by
  induction n generalizing i with
  | zero => exact fun _ hs => hs
  | succ n ih =>
    exact fun s hs => (encSym_preserves hput henc hlatch hupdate _ _ s hs).andThen fun _ => ih (i + 1)

theorem encBucket_preserves (last : Nat) : Preserves p (encBucket last) := by
  intro s hs
  rw [encBucket]
  split
  · exact hs
  · exact (encSym_preserves hput henc hlatch hupdate _ _ s hs).andThen fun _ _ ht => ht

end

/-- `RET0 <- v ; RET1 <- w`. -/
theorem setRets_keeps (hreport : WriteKind.report.Keeps p) {s : State} (hs : p s) (v w : Word) :
    p (setRet1 w (setRet0 v s)) := (hreport w _ (hreport v s hs).1).2

theorem encodeBlock_preserves (hput : WriteKind.putBit.Keeps p) (henc : WriteKind.encoder.Keeps p)
    (hlatch : WriteKind.latch.Keeps p) (hupdate : WriteKind.update.Keeps p)
    (hreport : WriteKind.report.Keeps p) : Preserves p encodeBlock := by
  have hsym := encSym_preserves hput henc hlatch hupdate
  intro s hs
  rw [encodeBlock]
  refine (hsym mLast (lastNz s) s hs).andThen fun _ => ?_
  refine (encBucket_preserves hput henc hlatch hupdate (lastNz s)).andThen fun k t ht => ?_
  refine (hsym mDc _ t ht).andThen fun _ => ?_
  exact (encCoefs_preserves hput henc hlatch hupdate k (lastNz s) 1).andThen fun _ _ hu =>
    setRets_keeps hreport hu _ _

/-! ### The decoder -/

section
variable (htake : WriteKind.takeBits.Keeps p) (hdec : WriteKind.decoder.Keeps p)
include htake hdec

theorem shiftDec_preserves : Preserves p shiftDec := fun s hs =>
  (getBit_preserves htake _ ((hdec s hs).1 _ _)).andThen fun _ t ht => (hdec t ht).2 _

theorem decRenorm_preserves (n : Nat) : Preserves p (decRenorm n) := by
  induction n with
  | zero => exact fun _ hs => hs
  | succ n ih =>
    intro s hs
    have hstraddle : p (straddleDec s) := (hdec _ ((hdec s hs).2 _)).1 _ _
    rw [decRenorm]
    split
    · exact (shiftDec_preserves htake hdec s hs).andThen fun _ => ih
    · split
      · exact (shiftDec_preserves htake hdec _ hstraddle).andThen fun _ => ih
      · exact hs

theorem removeLatch_preserves : Preserves p removeLatch :=
  fun s hs => decRenorm_preserves htake hdec renormPasses _ ((hdec s hs).1 _ _)

variable (hlatch : WriteKind.latch.Keeps p) (hcount : WriteKind.count.Keeps p)
  (hupdate : WriteKind.update.Keeps p)
include hlatch hcount hupdate

theorem decSym_preserves (m : Fin 16) : Preserves p (decSym m) := by
  intro s hs
  rw [decSym]
  have htaken : p (takeCount (latchScaleOf m s)) := hcount _ _ ((hlatch s hs).2 _)
  generalize takeCount (latchScaleOf m s) = t at htaken
  generalize ctxFind t m t.cnt.toNat = e
  refine (demand_preserves _ _ t htaken).andThen fun _ u hu => ?_
  exact (removeLatch_preserves htake hdec _ ((hlatch u hu).1 _ _)).andThen fun _ => hupdate m (e - 1)

theorem decBucket_preserves (last : Nat) : Preserves p (decBucket last) := by
  intro s hs
  rw [decBucket]
  split
  · exact hs
  · exact (decSym_preserves htake hdec hlatch hcount hupdate mIdx s hs).andThen fun _ =>
      (demand_preserves _ _).andThen fun _ _ ht => ht

variable (hzz : WriteKind.zz.Keeps p)
include hzz

theorem decCoef_preserves (m : Fin 16) (off i : Nat) : Preserves p (decCoef m off i) := by
  refine (decSym_preserves htake hdec hlatch hcount hupdate m).andThen fun sym => ?_
  refine (demand_preserves _ _).andThen fun _ t ht => ?_
  change p (putZz i ((sym : Int) - off) t)
  rw [putZz]
  split
  · exact hzz _ t ht
  · exact ht

theorem decCoefs_preserves (k n i : Nat) : Preserves p (decCoefs k n i) := by
  induction n generalizing i with
  | zero => exact fun _ hs => hs
  | succ n ih =>
    exact (decCoef_preserves htake hdec hlatch hcount hupdate hzz _ _ i).andThen fun _ => ih (i + 1)

theorem decodeBlock_preserves (hreport : WriteKind.report.Keeps p) : Preserves p decodeBlock := by
  refine (decSym_preserves htake hdec hlatch hcount hupdate mLast).andThen fun last => ?_
  refine (decBucket_preserves htake hdec hlatch hcount hupdate last).andThen fun k => ?_
  refine (decCoef_preserves htake hdec hlatch hcount hupdate hzz mDc _ 0).andThen fun _ => ?_
  exact (decCoefs_preserves htake hdec hlatch hcount hupdate hzz k last 1).andThen fun _ t ht =>
    setRets_keeps hreport (hzz _ t ht) _ _

end

/-! ### The rest -/

theorem initCtxs_keeps (hinit : WriteKind.initialise.Keeps p) {cs : List (Fin 16 × Nat)}
    (hcs : ∀ c ∈ cs, 1 ≤ c.2 ∧ c.2 ≤ 11) {s : State} (hs : p s) : p (initCtxs cs s) := by
  induction cs generalizing s with
  | nil => exact hs
  | cons c cs ih =>
    obtain ⟨⟨hlow, hhigh⟩, hrest⟩ := List.forall_mem_cons.mp hcs
    exact ih hrest (hinit c.1 c.2 s hlow hhigh hs)

theorem stdBits_legal : ∀ c ∈ stdBits, 1 ≤ c.2 ∧ c.2 ≤ 11 := by decide

theorem quantBlock_keeps (hzz : WriteKind.zz.Keeps p) (hclip : WriteKind.clipWarning.Keeps p)
    (inter : Bool) {s : State} (hs : p s) : p (quantBlock inter s) := by
  rw [quantBlock_eq]
  split
  · exact hclip true _ (hzz _ s hs)
  · exact hzz _ s hs

theorem openDecoder_keeps (htake : WriteKind.takeBits.Keeps p) (hdec : WriteKind.decoder.Keeps p)
    (hopen : WriteKind.openDecoder.Keeps p) {s : State} (hbr : flag s .brAct = true) (hs : p s) :
    (openDecoder s).All p := by
  have hinit : p (setDec 0 0xFFFF s) := (hdec s hs).1 _ _
  have hbr' : flag (setDec 0 0xFFFF s) .brAct = true := hbr
  rw [openDecoder]
  generalize setDec 0 0xFFFF s = t at hinit hbr'
  by_cases h : t.rpos.toNat + 16 ≤ t.rlen.toNat
  · rw [getBits_room h]
    exact hopen _ hbr' ((hdec _ (htake 16 t h hinit)).2 _)
  · rw [getBits_overrun h]
    exact hinit

/-! ## Every command -/

section
variable {i : Instr} {s t : State}

/-- Where its checks hold, the pseudocode of a command keeps what its kinds of write keep. -/
theorem bodyOf_keeps (hk : ∀ w ∈ writesOf i, w.Keeps p) (hchecks : firstFailing (checksOf i s) = none)
    (hs : p s) : (bodyOf i s s).All p := by
  have hok := firstFailing_eq_none.mp hchecks
  simp only [checksOf, List.forall_mem_append] at hok
  obtain ⟨hunit, hoperand⟩ := hok
  cases i <;> simp only [writesOf, List.forall_mem_cons] at hk <;>
    simp only [unitChecks, List.forall_mem_cons, needSet_ok, needClear_ok,
      Bool.not_eq_true'] at hunit <;>
    simp only [operandChecks, List.forall_mem_cons, Bool.or_eq_true, Bool.and_eq_true,
      Bool.not_eq_true', decide_eq_true_eq, bitsAvailable_ok] at hoperand
  case nop => exact hs
  case reset => exact hs
  case clrw => exact hk.1 false s hs
  case bwInit hdr => exact hk.1 hdr s (fun h => hoperand.1.resolve_left (by simp [h])) hs
  case bwPut n => exact putBits_preserves hk.1 s.arg0 n s hs
  case bwFlush => exact hk.1 s hunit.1 hunit.2.1 hs
  case brInit => exact hk.1 s hoperand.1 hs
  case brGet n =>
    obtain ⟨htake, hreport, -⟩ := hk
    exact (getBits_preserves htake n s hs).andThen fun v t ht => (hreport _ t ht).1
  case brPeek n => exact (peekBits_preserves n s hs).andThen fun v t ht => (hk.1 _ t ht).1
  case brSkip n => exact hk.1 n s hoperand.2.1 hs
  case mdlInit m bits => exact hk.1 m bits s hoperand.1.1 hoperand.1.2 hs
  case mdlInitStd => exact initCtxs_keeps hk.1 stdBits_legal hs
  case mdlUpd m sym => exact hk.1 m sym s hs
  case mdlI2s m sym => exact (hk.1 _ ((hk.1 s hs).1 _ _)).2 _
  case mdlS2i m =>
    obtain ⟨hlatch, hreport, -⟩ := hk
    exact (hlatch _ ((hlatch _ (hreport _ s hs).1).1 _ _)).2 _
  case mdlScale m =>
    obtain ⟨hlatch, hreport, -⟩ := hk
    exact (hreport _ _ ((hlatch s hs).2 _)).1
  case acEncInit =>
    obtain ⟨henc, hopen, -⟩ := hk
    exact hopen _ hunit.1 ((henc _ ((henc s hs).1 _ _)).2 _)
  case acEnc =>
    obtain ⟨hput, henc, -⟩ := hk
    exact encodeLatch_preserves hput henc s hs
  case acEncFlush =>
    obtain ⟨hput, henc, hclose, -⟩ := hk
    exact closeSegment_preserves hput henc hclose s hs
  case acDecInit =>
    obtain ⟨htake, hdec, hopen, -⟩ := hk
    exact openDecoder_keeps htake hdec hopen hunit.1 hs
  case acDecCnt =>
    obtain ⟨hcount, hreport, -⟩ := hk
    exact (hreport _ _ (hcount _ s hs)).1
  case acDecRm =>
    obtain ⟨htake, hdec, -⟩ := hk
    exact removeLatch_preserves htake hdec s hs
  case symEnc m sym =>
    obtain ⟨hput, henc, hlatch, hupdate, -⟩ := hk
    exact encSym_preserves hput henc hlatch hupdate m sym s hs
  case symDec m =>
    obtain ⟨htake, hdec, hlatch, hcount, hupdate, hreport, -⟩ := hk
    exact (decSym_preserves htake hdec hlatch hcount hupdate m s hs).andThen fun _ t ht =>
      (hreport _ t ht).1
  case blkLoad inter => exact hk.1 _ s hs
  case blkFdct => exact hk.1 _ s hs
  case blkQuant inter => exact quantBlock_keeps hk.1 hk.2.1 inter hs
  case blkLast => exact (hk.1 _ s hs).1
  case blkMidx => exact setRets_keeps hk.1 hs _ _
  case blkEnc =>
    obtain ⟨hput, henc, hlatch, hupdate, hreport, -⟩ := hk
    exact encodeBlock_preserves hput henc hlatch hupdate hreport s hs
  case blkDec =>
    obtain ⟨htake, hdec, hlatch, hcount, hupdate, hzz, hreport, -⟩ := hk
    exact decodeBlock_preserves htake hdec hlatch hcount hupdate hzz hreport s hs
  case blkDeq inter => exact hk.1 _ s hs
  case blkIdct => exact hk.1 _ s hs
  case blkRecon inter => exact hk.1 _ s hs
  case rleEnc =>
    obtain ⟨hput, hreport, -⟩ := hk
    exact (rleEncLoop_preserves hput _ _ _ 0 0 s hs).andThen fun _ t ht => (hreport _ t ht).1
  case rleDec =>
    obtain ⟨htake, hput, hreport, -⟩ := hk
    exact (rleDecLoop_preserves htake hput _ _ s hs).andThen fun _ t ht =>
      setRets_keeps hreport ht _ _

/-- A command keeps what its kinds of write, a fault and the end of a command keep; RESET what
`softReset` keeps. -/
theorem exec_keeps (hk : ∀ w ∈ writesOf i, w.Keeps p) (hraise : ∀ e u, p u → p (raiseFault e u))
    (hretire : ∀ u, p u → p (retire u)) (hreset : i = .reset → p s → p (softReset s)) (hs : p s)
    (h : exec i s = .next t) : p t := by
  rcases eq_or_ne i .reset with rfl | hi
  · obtain rfl := Host.Outcome.next.inj h
    exact hreset rfl hs
  · exact runCommand_keeps hs hraise hretire (fun _ hchecks => bodyOf_keeps hk hchecks hs)
      ((exec_eq_bodyOf hi s).symm.trans h)

end

/-! ## Every step -/

/-- What a property of the state needs so that every step keeps it. -/
structure Invariant (p : State → Prop) : Prop where
  /-- Every kind of write of the commands keeps it. -/
  writes : ∀ w : WriteKind, w.Keeps p
  /-- So does a fault (`60_exceptions.md` R285). -/
  raise : ∀ e s, p s → p (raiseFault e s)
  /-- So does counting a command (`10_state.md` R22). -/
  retire : ∀ s, p s → p (retire s)
  /-- So does RESET (`45_system.md` R272). -/
  soft : ∀ s, p s → p (softReset s)
  /-- So does a hardware reset (`10_state.md` R50). -/
  hard : ∀ c s, p s → p (hardReset c s)
  /-- So does a host write to an element that the configuration has (`20_memory.md` R61). -/
  store : ∀ width addr loc v s, locate s.cfg width addr = some loc → p s → p (writeLocation loc v s)
  /-- Neither the queue of actions nor what a host read leaves is a part of it. -/
  host : ∀ s queue data free, p s → p { s with host := queue, hostData := data, freeCount := free }

section
variable {s t : State}

theorem hostRead_keeps (hp : Invariant p) (width : BusWidth) (addr : Nat) (hs : p s) :
    p (hostRead width addr s) := by
  rw [hostRead]
  split
  · exact hp.host s s.host _ s.freeCount hs
  · exact hp.host s s.host _ _ hs

theorem hostStore_keeps (hp : Invariant p) (width : BusWidth) (addr : Nat) (v : Word) (hs : p s) :
    p (hostStore width addr v s) := by
  rw [hostStore]
  split
  · next loc hloc => exact hp.store width addr loc v s hloc hs
  · exact hs

theorem command_keeps (hp : Invariant p) (w : Word) (hs : p s) (h : command w s = .next t) : p t := by
  rw [command] at h
  split at h
  · exact exec_keeps (fun w _ => hp.writes w) hp.raise hp.retire (fun _ => hp.soft s) hs h
  · obtain rfl := Host.Outcome.next.inj h
    rw [illegalCommand]
    split
    · exact hs
    · exact hp.raise _ s hs

theorem act_keeps (hp : Invariant p) (a : HostAction) (hs : p s) (h : act a s = .next t) : p t := by
  cases a with
  | read width addr =>
    obtain rfl := Host.Outcome.next.inj h
    exact hostRead_keeps hp width addr hs
  | write width addr v =>
    rw [act] at h
    split at h
    · exact command_keeps hp v hs h
    · obtain rfl := Host.Outcome.next.inj h
      exact hostStore_keeps hp width addr v hs
  | hardwareReset c =>
    obtain rfl := Host.Outcome.next.inj h
    exact hp.hard c s hs

/-- Every step keeps an invariant. -/
theorem step_keeps (hp : Invariant p) (hs : p s) (h : step s = .next t) : p t := by
  rw [step] at h
  split at h
  · obtain rfl := Host.Outcome.next.inj h
    exact hs
  · next a rest _ => exact act_keeps hp a (hp.host s rest s.hostData s.freeCount hs) h

end

end

end Sys2Proof.Machine.Keeping

/-! PROOFS. Every step keeps STATUS and the fault registers legal (`10_state.md` R23,
`60_exceptions.md` R281, R283) and the initialised contexts (`10_state.md` R40): each is an
`Invariant`. -/

namespace Sys2Proof.Machine.Keeping

open FrequencyModel BlockCoder

/-! ## STATUS and the fault registers -/

section
variable {s t : State}

theorem statusOk_congr (h : StatusOk s) (hstatus : t.status = s.status) (hcode : t.fcode = s.fcode)
    (hinfo : t.finfo = s.finfo) : StatusOk t := by
  have hflag (f : Flag) : flag t f = flag s f := congrArg (statusFlag · f) hstatus
  obtain ⟨hreserved, hheader, hencoder, hdecoder, hclear, hset⟩ := h
  exact ⟨by rwa [hstatus], by rwa [hflag, hflag], by rwa [hflag, hflag], by rwa [hflag, hflag],
    by rwa [hflag, hcode, hinfo], by rwa [hflag, hcode]⟩

/-- A flag other than FAULT may be written where what the open segments and the header need of the
others still holds. -/
theorem statusOk_setFlag {f : Flag} {b : Bool} (hf : f ≠ .fault)
    (hheader : flag (setFlag f b s) .bwHdr = true → flag (setFlag f b s) .bwAct = true)
    (hencoder : flag (setFlag f b s) .encAct = true → flag (setFlag f b s) .bwAct = true)
    (hdecoder : flag (setFlag f b s) .decAct = true → flag (setFlag f b s) .brAct = true)
    (h : StatusOk s) : StatusOk (setFlag f b s) := by
  have hfault : flag (setFlag f b s) .fault = flag s .fault := by rw [flag_setFlag, if_neg hf]
  refine ⟨(statusWith_reserved s.status f b).trans h.reserved, hheader, hencoder, hdecoder, ?_, ?_⟩
  · rw [hfault]
    exact h.noFault
  · rw [hfault]
    exact h.faultCode

/-- BW_INIT opens the writer, which is all that a header and a segment need. -/
theorem startWriter_statusOk (hdr : Bool) (h : StatusOk s) : StatusOk (startWriter hdr s) := by
  have hopen : StatusOk (setFlag .bwAct true s) :=
    statusOk_setFlag (by decide) (by simp) (by simp) (by simpa using h.decoder) h
  have hhdr : StatusOk (setFlag .bwHdr hdr (setFlag .bwAct true s)) :=
    statusOk_setFlag (by decide) (by simp) (by simp) (by simpa using h.decoder) hopen
  exact statusOk_congr hhdr rfl rfl rfl

theorem statusWith_false_comm (st : Word) (f g : Flag) :
    statusWith (statusWith st f false) g false = statusWith (statusWith st g false) f false := by
  simp only [statusWith, Bool.false_eq_true, if_false]
  rw [BitVec.and_assoc, BitVec.and_comm (~~~_), ← BitVec.and_assoc]

/-- BW_FLUSH closes the writer, with no segment open. -/
theorem flushWriter_statusOk (henc : flag s .encAct = false) (h : StatusOk s) :
    StatusOk (flushWriter s) := by
  have hhdr : StatusOk (setFlag .bwHdr false s) :=
    statusOk_setFlag (by decide) (by simp) (by simp [henc]) (by simpa using h.decoder) h
  have hclosed : StatusOk (setFlag .bwAct false (setFlag .bwHdr false s)) :=
    statusOk_setFlag (by decide) (by simp) (by simp [henc]) (by simpa using h.decoder) hhdr
  exact statusOk_congr hclosed (statusWith_false_comm s.status .bwAct .bwHdr) rfl rfl

/-- BR_INIT opens the reader and closes the decoder's segment. -/
theorem startReader_statusOk (h : StatusOk s) : StatusOk (startReader s) := by
  have hopen : StatusOk (setFlag .brAct true s) :=
    statusOk_setFlag (by decide) (by simpa using h.header) (by simpa using h.encoder) (by simp) h
  have hclosed : StatusOk (setFlag .decAct false (setFlag .brAct true s)) :=
    statusOk_setFlag (by decide) (by simpa using h.header) (by simpa using h.encoder) (by simp) hopen
  exact statusOk_congr hclosed rfl rfl rfl

theorem errByte_legal (c : ErrCode) : 1 ≤ (errByte c).toNat ∧ (errByte c).toNat ≤ 15 := by
  cases c <;> decide

/-- A fault leaves a legal code behind (`60_exceptions.md` R281, R285). -/
theorem raiseFault_statusOk (e : Trap) (h : StatusOk s) : StatusOk (raiseFault e s) := by
  refine ⟨(statusWith_reserved s.status .fault true).trans h.reserved, ?_, ?_, ?_, by simp,
    fun _ => errByte_legal e.code⟩
  · simpa using h.header
  · simpa using h.encoder
  · simpa using h.decoder

theorem statusOk_of_zero (hstatus : t.status = 0) (hcode : t.fcode = 0) (hinfo : t.finfo = 0) :
    StatusOk t := by
  have hflag (f : Flag) : flag t f = false := by simp [flag, statusFlag, hstatus]
  refine ⟨by rw [hstatus]; rfl, ?_, ?_, ?_, fun _ => ⟨hcode, hinfo⟩, ?_⟩ <;> simp [hflag]

/-- The host writes neither STATUS nor a fault register. -/
theorem writeLocation_statusOk (loc : Location) (v : Word) (h : StatusOk s) :
    StatusOk (writeLocation loc v s) := by
  cases loc with
  | reg n =>
    simp only [writeLocation, writeReg]
    split <;> exact statusOk_congr h rfl rfl rfl
  | _ => exact statusOk_congr h rfl rfl rfl

end

theorem statusOk_writes (w : WriteKind) : w.Keeps StatusOk := by
  cases w
  case putBit =>
    intro b s _ h
    cases b <;> exact statusOk_congr h rfl rfl rfl
  case takeBits => exact fun _ _ _ h => statusOk_congr h rfl rfl rfl
  case encoder | decoder | latch =>
    exact fun _ h => ⟨fun _ _ => statusOk_congr h rfl rfl rfl, fun _ => statusOk_congr h rfl rfl rfl⟩
  case count | coef | zz | recon => exact fun _ _ h => statusOk_congr h rfl rfl rfl
  case report => exact fun _ _ h => ⟨statusOk_congr h rfl rfl rfl, statusOk_congr h rfl rfl rfl⟩
  case update => exact fun _ _ _ h => statusOk_congr h rfl rfl rfl
  case initialise => exact fun _ _ _ _ _ h => statusOk_congr h rfl rfl rfl
  case clipWarning =>
    intro b s h
    exact statusOk_setFlag (by decide) (by simpa using h.header) (by simpa using h.encoder)
      (by simpa using h.decoder) h
  case openWriter => exact fun hdr _ _ => startWriter_statusOk hdr
  case closeWriter => exact fun _ _ => flushWriter_statusOk
  case openReader => exact fun _ _ => startReader_statusOk
  case openEncoder =>
    intro s hbw h
    exact statusOk_setFlag (by decide) (by simp [hbw]) (by simp [hbw]) (by simpa using h.decoder) h
  case closeEncoder =>
    intro s h
    exact statusOk_setFlag (by decide) (by simpa using h.header) (by simp) (by simpa using h.decoder) h
  case openDecoder =>
    intro s hbr h
    exact statusOk_setFlag (by decide) (by simpa using h.header) (by simpa using h.encoder)
      (by simp [hbr]) h

theorem statusOk_invariant : Invariant StatusOk where
  writes := statusOk_writes
  raise e _ := raiseFault_statusOk e
  retire _ h := statusOk_congr h rfl rfl rfl
  soft _ _ := statusOk_of_zero rfl rfl rfl
  hard _ _ _ := statusOk_of_zero rfl rfl rfl
  store _ _ loc v _ _ := writeLocation_statusOk loc v
  host _ _ _ _ h := statusOk_congr h rfl rfl rfl

/-- Settles O56: STATUS and the fault registers are an invariant. -/
theorem stepKeepsStatus : Obligations.StepKeepsStatus :=
  fun _ _ => step_keeps statusOk_invariant

/-! ## The contexts -/

section
variable {s t : State}

/-- Update keeps the contexts: an initialised one by its updated counts, and one that is not
initialised has nothing to keep. -/
theorem updateCtx_contextsOk (m : Fin 16) (sym : Nat) (h : ContextsOk s) :
    ContextsOk (updateCtx m sym s) := by
  by_cases hbits : ctxBits s m = 0
  · intro n hn
    have hne : m ≠ n := by
      rintro rfl
      exact hn hbits
    have htable : ctxTable (updateCtx m sym s) n = ctxTable s n := by
      rw [updateCtx, ctxTable_setTable, if_neg hne]
    exact contextOk_congr (s := s) rfl htable (h n hn)
  · exact contextsOk_of_updated h hbits (updateTable_spec (h m hbits) sym) rfl rfl

/-- Without an initialised context there is nothing to keep. -/
theorem contextsOk_of_uninitialised (h : t.mbits = Vector.replicate 16 0) : ContextsOk t := by
  intro m hm
  refine absurd ?_ hm
  rw [ctxBits, h, Vector.get_replicate]
  rfl

/-- The host writes neither MBITS nor MT. -/
theorem writeLocation_contextsOk (loc : Location) (v : Word) (h : ContextsOk s) :
    ContextsOk (writeLocation loc v s) := by
  cases loc with
  | reg n =>
    simp only [writeLocation, writeReg]
    split <;> exact contextsOk_congr (s := s) rfl rfl h
  | _ => exact contextsOk_congr (s := s) rfl rfl h

end

theorem contextsOk_writes (w : WriteKind) : w.Keeps ContextsOk := by
  cases w
  case putBit =>
    intro b s _ h
    cases b <;> exact contextsOk_congr (s := s) rfl rfl h
  case encoder | decoder | latch =>
    exact fun s h => ⟨fun _ _ => contextsOk_congr (s := s) rfl rfl h,
      fun _ => contextsOk_congr (s := s) rfl rfl h⟩
  case count | coef | zz | recon | clipWarning =>
    exact fun _ s h => contextsOk_congr (s := s) rfl rfl h
  case report =>
    exact fun _ s h => ⟨contextsOk_congr (s := s) rfl rfl h, contextsOk_congr (s := s) rfl rfl h⟩
  case update => exact fun m sym _ => updateCtx_contextsOk m sym
  case initialise => exact fun m _ _ hlow hhigh h => initCtx_contextsOk h m hlow hhigh
  case takeBits => exact fun _ s _ h => contextsOk_congr (s := s) rfl rfl h
  case openWriter => exact fun _ s _ h => contextsOk_congr (s := s) rfl rfl h
  case closeWriter => exact fun s _ _ h => contextsOk_congr (s := s) rfl rfl h
  case openReader | openEncoder | openDecoder =>
    exact fun s _ h => contextsOk_congr (s := s) rfl rfl h
  case closeEncoder => exact fun s h => contextsOk_congr (s := s) rfl rfl h

theorem contextsOk_invariant : Invariant ContextsOk where
  writes := contextsOk_writes
  raise _ s h := contextsOk_congr (s := s) rfl rfl h
  retire s h := contextsOk_congr (s := s) rfl rfl h
  soft _ _ := contextsOk_of_uninitialised rfl
  hard _ _ _ := contextsOk_of_uninitialised rfl
  store _ _ loc v _ _ := writeLocation_contextsOk loc v
  host s _ _ _ h := contextsOk_congr (s := s) rfl rfl h

/-- Settles O57: the contexts are an invariant, which Update keeps by `updateTable_spec` and MDL_INIT
by `initCtx_contextsOk`. -/
theorem stepKeepsContexts : Obligations.StepKeepsContexts :=
  fun _ _ => step_keeps contextsOk_invariant

end Sys2Proof.Machine.Keeping

/-! PROOFS. Every step keeps the bit writer, the bit reader and their buffers in range and OB blank
ahead of the writer (`10_state.md` R33, R34, `40_bitio.md` R111 to R117). Only PutBit, the four
commands that open or close a cursor and a host write to IB touch what the invariant speaks of; for
everything else `cursorView` does not change. -/

namespace Sys2Proof.Machine.Keeping

/-! ## What the invariant depends on -/

/-- All of the state that the invariant of the cursors depends on. -/
def cursorView (s : State) : Config × Memory × Memory × (Word × Word × Word) × Bool × Bool × Bool :=
  (s.cfg, s.ib, s.ob, (s.wpos, s.rpos, s.rlen), flag s .bwAct, flag s .bwHdr, flag s .brAct)

section
variable {s t : State}

theorem cursorsOk_congr (h : CursorsOk s) (hview : cursorView t = cursorView s) : CursorsOk t := by
  simp only [cursorView, Prod.mk.injEq] at hview
  obtain ⟨hcfg, hib, hob, ⟨hwpos, hrpos, hrlen⟩, hact, hhdr, hbr⟩ := hview
  obtain ⟨hobCap, hibCap, hform, hobBytes, hibBytes, hheader, hwriter, hblank, hblankHeader,
    hreader⟩ := h
  exact ⟨by rwa [hcfg], by rwa [hcfg], by rwa [BuffersOk, hib, hob], by rwa [hcfg, hob],
    by rwa [hcfg, hib], by rwa [hhdr, hact], by rwa [hact, hwpos, hcfg], by rwa [hact, hwpos, hob],
    by rwa [hhdr, hwpos, hob], by rwa [hbr, hrpos, hrlen, hcfg]⟩

/-- With both cursors closed only the buffers are left to keep. -/
theorem cursorsOk_of_closed (h : CursorsOk s) (hcfg : t.cfg = s.cfg) (hform : BuffersOk t)
    (hob : withinCap s.cfg.obCap t.ob = true) (hib : withinCap s.cfg.ibCap t.ib = true)
    (hact : flag t .bwAct = false) (hhdr : flag t .bwHdr = false) (hbr : flag t .brAct = false) :
    CursorsOk t := by
  refine ⟨hcfg ▸ h.obCap, hcfg ▸ h.ibCap, hform, hcfg ▸ hob, hcfg ▸ hib, ?_, ?_, ?_, ?_, ?_⟩ <;>
    simp [hact, hhdr, hbr]

/-! ## The writer -/

theorem withinCap_setStreamBit {cap k : Nat} {m : Memory} (h : withinCap cap m = true)
    (hk : k < 8 * cap) : withinCap cap (setStreamBit m k) = true :=
  withinCap_writeByte h (by omega) _

/-- PutBit moves WPOS past the one bit it may set, which lies behind a header. -/
theorem bitPut_cursorsOk (b : Bool) (hroom : s.wpos.toNat < 8 * s.cfg.obCap) (h : CursorsOk s) :
    CursorsOk (bitPut b s) := by
  have hcap : s.cfg.obCap ≤ 2 ^ 20 := h.obCap.2
  have hpos : (bitPut b s).wpos.toNat = s.wpos.toNat + 1 := by
    rw [bitPut, setWpos_wpos]
    bv_omega
  have hother (k : Nat) (hk : k ≠ s.wpos.toNat) :
      streamBit (bitPut b s).ob k = streamBit s.ob k := by
    cases b with
    | false => rfl
    | true => exact (streamBit_setStreamBit h.form.2 _ _).trans (by simp [hk])
  obtain ⟨hform, hbytes⟩ : BuffersOk (bitPut b s) ∧
      withinCap s.cfg.obCap (bitPut b s).ob = true := by
    cases b with
    | false => exact ⟨h.form, h.obBytes⟩
    | true => exact ⟨⟨h.form.1, setStreamBit_wf h.form.2 _⟩, withinCap_setStreamBit h.obBytes hroom⟩
  have hview : ∀ f, flag (bitPut b s) f = flag s f := by cases b <;> exact fun _ => rfl
  have hcfg : (bitPut b s).cfg = s.cfg := by cases b <;> rfl
  have hib : (bitPut b s).ib = s.ib := by cases b <;> rfl
  have hrpos : (bitPut b s).rpos = s.rpos := by cases b <;> rfl
  have hrlen : (bitPut b s).rlen = s.rlen := by cases b <;> rfl
  refine ⟨by rw [hcfg]; exact h.obCap, by rw [hcfg]; exact h.ibCap, hform, by rwa [hcfg],
    by rw [hcfg, hib]; exact h.ibBytes, by rw [hview, hview]; exact h.header, fun _ => ?_,
    fun hact k hk => ?_, fun hhdr => ?_, by rw [hview, hrpos, hrlen, hcfg]; exact h.reader⟩
  · rw [hpos, hcfg]
    omega
  · rw [hpos] at hk
    rw [hother k (by omega)]
    exact h.blank (by rwa [hview] at hact) k (by omega)
  · obtain ⟨hbehind, hzero⟩ := h.blankHeader (by rwa [hview] at hhdr)
    refine ⟨by omega, fun k hk => ?_⟩
    rw [hother k (by omega)]
    exact hzero k hk

theorem streamBit_nil (k : Nat) : streamBit [] k = false := by
  simp [streamBit]

/-- BW_INIT empties OB and leaves room for a header if there is one. -/
theorem startWriter_cursorsOk (hdr : Bool) (hroom : hdr = true → 4 ≤ s.cfg.obCap) (h : CursorsOk s) :
    CursorsOk (startWriter hdr s) := by
  have hwpos : (startWriter hdr s).wpos.toNat = if hdr then 32 else 0 := by cases hdr <;> rfl
  have hbr : flag (startWriter hdr s) .brAct = flag s .brAct := by simp [startWriter]
  have hhdr : flag (startWriter hdr s) .bwHdr = hdr := by simp [startWriter]
  refine ⟨h.obCap, h.ibCap, ⟨h.form.1, rfl⟩, rfl, h.ibBytes, by simp [startWriter], fun _ => ?_,
    fun _ k _ => streamBit_nil k, fun hset => ⟨?_, fun k _ => streamBit_nil k⟩,
    by rw [hbr]; exact h.reader⟩
  · rw [hwpos]
    change _ ≤ 8 * s.cfg.obCap
    split
    · next hset => have := hroom hset; omega
    · omega
  · rw [hwpos, if_pos (hhdr.symm.trans hset)]

theorem withinCap_writeHeader {cap : Nat} {m : Memory} (h : withinCap cap m = true) (hcap : 4 ≤ cap)
    (v : Word) : withinCap cap (writeHeader m v) = true :=
  withinCap_writeByte (withinCap_writeByte (withinCap_writeByte (withinCap_writeByte h (by omega) _)
    (by omega) _) (by omega) _) (by omega) _

/-- BW_FLUSH closes the writer; the header it writes fits because WPOS is past it. -/
theorem flushWriter_cursorsOk (h : CursorsOk s) : CursorsOk (flushWriter s) := by
  have hbr : flag (flushWriter s) .brAct = flag s .brAct := by simp [flushWriter]
  have hact : flag (flushWriter s) .bwAct = false := by simp [flushWriter]
  have hhdr : flag (flushWriter s) .bwHdr = false := by simp [flushWriter]
  have hob : memoryWf (flushWriter s).ob = true ∧ withinCap s.cfg.obCap (flushWriter s).ob = true := by
    rw [BufferForm.flushWriter_ob]
    split
    · next hset =>
      have hbehind := (h.blankHeader hset).1
      have hroom := h.writer (h.header hset)
      exact ⟨writeHeader_wf h.form.2 _, withinCap_writeHeader h.obBytes (by omega) _⟩
    · exact ⟨h.form.2, h.obBytes⟩
  refine ⟨h.obCap, h.ibCap, ⟨h.form.1, hob.1⟩, hob.2, h.ibBytes, ?_, ?_, ?_, ?_,
    by rw [hbr]; exact h.reader⟩ <;> simp [hact, hhdr]

/-! ## The reader -/

/-- Bits that the reader has are taken. -/
theorem takeBits_cursorsOk (n : Nat) (hroom : s.rpos.toNat + n ≤ s.rlen.toNat) (h : CursorsOk s) :
    CursorsOk (setRpos (wordOfNat (s.rpos.toNat + n)) s) := by
  have hlt := s.rlen.isLt
  refine ⟨h.obCap, h.ibCap, h.form, h.obBytes, h.ibBytes, h.header, h.writer, h.blank,
    h.blankHeader, fun hbr => ⟨?_, (h.reader hbr).2⟩⟩
  rw [setRpos_rpos, setRpos_rlen, wordOfNat, BitVec.toNat_ofNat]
  omega

/-- BR_INIT opens the reader on a range of IB. -/
theorem startReader_cursorsOk (hrange : s.arg0.toNat + s.arg1.toNat ≤ 8 * s.cfg.ibCap)
    (h : CursorsOk s) : CursorsOk (startReader s) := by
  have hcap : s.cfg.ibCap ≤ 2 ^ 20 := h.ibCap.2
  have hact : flag (startReader s) .bwAct = flag s .bwAct := by simp [startReader]
  have hhdr : flag (startReader s) .bwHdr = flag s .bwHdr := by simp [startReader]
  have hrlen : (startReader s).rlen.toNat = s.arg0.toNat + s.arg1.toNat := by
    change (wordOfNat _).toNat = _
    rw [wordOfNat, BitVec.toNat_ofNat]
    omega
  refine ⟨h.obCap, h.ibCap, h.form, h.obBytes, h.ibBytes, by rw [hact, hhdr]; exact h.header,
    by rw [hact]; exact h.writer, by rw [hact]; exact h.blank, by rw [hhdr]; exact h.blankHeader,
    fun _ => ?_⟩
  rw [hrlen]
  exact ⟨Nat.le_add_right .., hrange⟩

/-! ## The host -/

/-- A word access reaches no byte of IB (`20_memory.md` R61). -/
theorem wordLocation_ne_ib (addr i : Nat) : wordLocation addr ≠ some (.ib i) := by
  unfold wordLocation mtLocation
  split
  · split <;> simp
  · split
    case h_12 => split <;> simp -- the page of MBITS
    all_goals simp

/-- A byte of IB that the host reaches lies below the capacity (`20_memory.md` R60). -/
theorem ib_lt_of_locate {c : Config} {width : BusWidth} {addr i : Nat}
    (h : locate c width addr = some (.ib i)) : i < c.ibCap := by
  cases width with
  | byte =>
    simp only [locate_byte, byteLocation] at h
    split at h
    · next hrange =>
      obtain rfl : addr - ibBase = i := by simpa using h
      have : addr < ibBase + c.ibCap := hrange.2
      omega
    · split at h <;> simp at h
  | half => simp [locate] at h
  | word =>
    simp only [locate] at h
    split at h
    · exact absurd h (wordLocation_ne_ib addr i)
    · simp at h

theorem writeLocation_cursorsOk {width : BusWidth} {addr : Nat} {loc : Location} (v : Word)
    (hloc : locate s.cfg width addr = some loc) (h : CursorsOk s) :
    CursorsOk (writeLocation loc v s) := by
  cases loc with
  | reg n =>
    simp only [writeLocation, writeReg]
    split <;> exact cursorsOk_congr h rfl
  | ib i =>
    exact ⟨h.obCap, h.ibCap, ⟨writeByte_wf h.form.1 i _, h.form.2⟩, h.obBytes,
      withinCap_writeByte h.ibBytes (ib_lt_of_locate hloc) _, h.header, h.writer, h.blank,
      h.blankHeader, h.reader⟩
  | _ => exact cursorsOk_congr h rfl

end

/-! ## Every step -/

theorem cursorsOk_writes (w : WriteKind) : w.Keeps CursorsOk := by
  cases w
  case putBit => exact fun b _ => bitPut_cursorsOk b
  case takeBits => exact fun n _ => takeBits_cursorsOk n
  case openWriter => exact fun hdr _ => startWriter_cursorsOk hdr
  case closeWriter => exact fun _ _ _ => flushWriter_cursorsOk
  case openReader => exact fun _ => startReader_cursorsOk
  case encoder | decoder | latch =>
    exact fun s h => ⟨fun _ _ => cursorsOk_congr h rfl, fun _ => cursorsOk_congr h rfl⟩
  case count | coef | zz | recon => exact fun _ _ h => cursorsOk_congr h rfl
  case report => exact fun _ _ h => ⟨cursorsOk_congr h rfl, cursorsOk_congr h rfl⟩
  case update => exact fun _ _ _ h => cursorsOk_congr h rfl
  case initialise => exact fun _ _ _ _ _ h => cursorsOk_congr h rfl
  case clipWarning => exact fun _ _ h => cursorsOk_congr h (by simp [cursorView])
  case openEncoder | openDecoder => exact fun _ _ h => cursorsOk_congr h (by simp [cursorView])
  case closeEncoder => exact fun _ h => cursorsOk_congr h (by simp [cursorView])

theorem cursorsOk_invariant : Invariant CursorsOk where
  writes := cursorsOk_writes
  raise _ _ h := cursorsOk_congr h (by simp [cursorView])
  retire _ h := cursorsOk_congr h rfl
  soft s h := cursorsOk_of_closed h rfl h.form h.obBytes h.ibBytes
    (CoderInvariant.flag_softReset _ s) (CoderInvariant.flag_softReset _ s)
    (CoderInvariant.flag_softReset _ s)
  hard c s h := cursorsOk_of_closed h rfl (BufferForm.hardReset_buffersOk c s)
    (withinCap_memoryOf _ c.ob) (withinCap_memoryOf _ c.ib) (CoderInvariant.flag_hardReset _ c s)
    (CoderInvariant.flag_hardReset _ c s) (CoderInvariant.flag_hardReset _ c s)
  store _ _ _ v _ := writeLocation_cursorsOk v
  host _ _ _ _ h := cursorsOk_congr h rfl

/-- Settles O59: the cursors and their buffers are an invariant. -/
theorem stepKeepsCursors : Obligations.StepKeepsCursors :=
  fun _ _ => step_keeps cursorsOk_invariant

end Sys2Proof.Machine.Keeping

/-! PROOFS. The constant registers (`10_state.md` R24), what each command may write (`20_memory.md`
R60), the two ways a command ends (`60_exceptions.md` R281, R282, R285), and the step that runs a
command (`10_state.md` R22). -/

namespace Sys2Proof.Machine.Keeping

open FaultFrame

/-! ## The constant registers -/

theorem cfg_writes (c : Config) (w : WriteKind) : w.Keeps fun t => t.cfg = c := by
  cases w
  case putBit =>
    intro b s _ h
    cases b <;> exact h
  case encoder | decoder | latch => exact fun _ h => ⟨fun _ _ => h, fun _ => h⟩
  case report => exact fun _ _ h => ⟨h, h⟩
  case initialise => exact fun _ _ _ _ _ h => h
  case takeBits | update | openWriter | closeWriter => exact fun _ _ _ h => h
  case closeEncoder => exact fun _ h => h
  all_goals exact fun _ _ h => h

theorem writeLocation_cfg (loc : Location) (v : Word) (s : State) :
    (writeLocation loc v s).cfg = s.cfg := by
  cases loc with
  | reg n =>
    simp only [writeLocation, writeReg]
    split <;> rfl
  | _ => rfl

/-- No step changes the parameters. -/
theorem cfg_invariant (c : Config) : Invariant fun t => t.cfg = c where
  writes := cfg_writes c
  raise _ _ h := h
  retire _ h := h
  soft _ h := h
  hard _ _ h := h
  store _ _ loc v s _ h := (writeLocation_cfg loc v s).trans h
  host _ _ _ _ h := h

/-- The constant registers are functions of the parameters alone (`10_state.md` R24). -/
theorem readReg_of_cfg {s t : State} (h : t.cfg = s.cfg) {n : Nat} (hlow : 22 ≤ n) (hhigh : n ≤ 25) :
    readReg t n = readReg s n := by
  interval_cases n <;> simp only [readReg, h]

theorem cfgWord_toNat (c : Config) : (cfgWord c).toNat =
    11 + 16 * 2 ^ 4 + 14 * 2 ^ 9 + c.hasRle.toNat * 2 ^ 16 + c.rleMinRun % 2 ^ 7 * 2 ^ 17 := by
  have := Bool.toNat_lt c.hasRle
  rw [cfgWord, BitVec.toNat_ofNat]
  simp only [Config.bitsMax, Config.nModel, Config.flushTail]
  omega

/-- A field of CFG as a number. -/
theorem cfgWord_field (c : Config) (start len v : Nat) (hv : v < 2 ^ len)
    (h : (cfgWord c).toNat / 2 ^ start % 2 ^ len = v) :
    (cfgWord c).extractLsb' start len = BitVec.ofNat len v := by
  apply BitVec.eq_of_toNat_eq
  rw [BitVec.extractLsb'_toNat, Nat.shiftRight_eq_div_pow, h, BitVec.toNat_ofNat,
    Nat.mod_eq_of_lt hv]

/-- Settles O60: the parameters are an invariant, and the fields of CFG are digits of one sum. -/
theorem constantRegisters : Obligations.ConstantRegisters := by
  refine ⟨fun s t n hlow hhigh h => readReg_of_cfg (step_keeps (cfg_invariant s.cfg) rfl h) hlow hhigh,
    fun s hv => ?_⟩
  have hread : readReg s 25 = cfgWord s.cfg := rfl
  have hsum := cfgWord_toNat s.cfg
  have hrle := Bool.toNat_lt s.cfg.hasRle
  have hrun := hv.minRun
  rw [hread]
  refine ⟨cfgWord_field _ 0 4 11 (by decide) (by omega), cfgWord_field _ 4 5 16 (by decide) (by omega),
    cfgWord_field _ 9 5 14 (by decide) (by omega), cfgWord_field _ 14 2 0 (by decide) (by omega),
    ?_, ?_, cfgWord_field _ 24 8 0 (by decide) (by omega), fun hdefault => ?_⟩
  · have hbit : (cfgWord s.cfg).toNat / 2 ^ 16 % 2 = s.cfg.hasRle.toNat := by omega
    rw [BitVec.getLsbD, Nat.testBit_eq_decide_div_mod_eq, hbit]
    cases s.cfg.hasRle <;> rfl
  · rw [cfgWord_field _ 17 7 s.cfg.rleMinRun (by omega) (by omega), BitVec.toNat_ofNat]
    omega
  · rw [hdefault]
    decide

/-! ## Write sets -/

/-- `t` differs from `s` only where the listed kinds of write reach, in STATUS, the fault registers,
CMDCNT, the registers that report and the coder's registers (`20_memory.md` R60, column "AACU
writes"). -/
structure WritesOnly (kinds : List WriteKind) (s t : State) : Prop where
  never : t.pix = s.pix ∧ t.ref = s.ref ∧ t.qf0 = s.qf0 ∧ t.qf1 = s.qf1 ∧ t.qi0 = s.qi0 ∧
    t.qi1 = s.qi1 ∧ t.ib = s.ib ∧ t.cfg = s.cfg ∧ t.host = s.host ∧
    t.hostData = s.hostData ∧ t.freeCount = s.freeCount
  args : t.arg0 = s.arg0 ∧ t.arg1 = s.arg1
  coef : .coef ∉ kinds → t.coef = s.coef
  zz : .zz ∉ kinds → t.zz = s.zz
  recon : .recon ∉ kinds → t.recon = s.recon
  ob : .putBit ∉ kinds ∧ .openWriter ∉ kinds ∧ .closeWriter ∉ kinds → t.ob = s.ob
  mbits : .initialise ∉ kinds → t.mbits = s.mbits
  tables : .initialise ∉ kinds ∧ .update ∉ kinds → t.tables = s.tables

/-- All of the state that `WritesOnly` compares. -/
def writtenView (s : State) :=
  ((s.pix, s.ref, s.qf0, s.qf1, s.qi0, s.qi1, s.ib, s.cfg, s.host, s.hostData, s.freeCount),
    (s.arg0, s.arg1), s.coef, s.zz, s.recon, s.ob, s.mbits, s.tables)

section
variable {kinds : List WriteKind} {s t u : State}

theorem writesOnly_refl (kinds : List WriteKind) (s : State) : WritesOnly kinds s s :=
  ⟨⟨rfl, rfl, rfl, rfl, rfl, rfl, rfl, rfl, rfl, rfl, rfl⟩, ⟨rfl, rfl⟩, fun _ => rfl, fun _ => rfl,
    fun _ => rfl, fun _ => rfl, fun _ => rfl, fun _ => rfl⟩

theorem writesOnly_congr (h : WritesOnly kinds s t) (hview : writtenView u = writtenView t) :
    WritesOnly kinds s u := by
  simp only [writtenView, Prod.mk.injEq] at hview
  obtain ⟨⟨hpix, href, hqf0, hqf1, hqi0, hqi1, hib, hcfg, hhost, hdata, hfree⟩, ⟨harg0, harg1⟩, hcoef,
    hzz, hrecon, hob, hmbits, htables⟩ := hview
  obtain ⟨hnever, hargs, hcoefs, hzzs, hrecons, hobs, hmbitss, htabless⟩ := h
  rw [← hpix, ← href, ← hqf0, ← hqf1, ← hqi0, ← hqi1, ← hib, ← hcfg, ← hhost, ← hdata,
    ← hfree] at hnever
  exact ⟨hnever, by rwa [harg0, harg1], by rwa [hcoef], by rwa [hzz], by rwa [hrecon], by rwa [hob],
    by rwa [hmbits], by rwa [htables]⟩

/-- A listed kind of write writes where it may. -/
theorem writesOnly_writes {w : WriteKind} (hw : w ∈ kinds) : w.Keeps (WritesOnly kinds s) := by
  cases w
  case putBit =>
    exact fun b t _ h => by cases b <;> exact { h with ob := fun hno => absurd hw hno.1 }
  case openWriter => exact fun _ _ _ h => { h with ob := fun hno => absurd hw hno.2.1 }
  case closeWriter => exact fun _ _ _ h => { h with ob := fun hno => absurd hw hno.2.2 }
  case update => exact fun _ _ _ h => { h with tables := fun hno => absurd hw hno.2 }
  case initialise =>
    exact fun _ _ _ _ _ h =>
      { h with mbits := fun hno => absurd hw hno, tables := fun hno => absurd hw hno.1 }
  case coef => exact fun _ _ h => { h with coef := fun hno => absurd hw hno }
  case zz => exact fun _ _ h => { h with zz := fun hno => absurd hw hno }
  case recon => exact fun _ _ h => { h with recon := fun hno => absurd hw hno }
  case encoder | decoder | latch =>
    exact fun _ h => ⟨fun _ _ => writesOnly_congr h rfl, fun _ => writesOnly_congr h rfl⟩
  case report => exact fun _ _ h => ⟨writesOnly_congr h rfl, writesOnly_congr h rfl⟩
  case takeBits => exact fun _ _ _ h => writesOnly_congr h rfl
  case closeEncoder => exact fun _ h => writesOnly_congr h rfl
  case count | clipWarning | openReader | openEncoder | openDecoder =>
    exact fun _ _ h => writesOnly_congr h rfl

/-- A command but RESET writes where its kinds of write reach only. -/
theorem exec_writesOnly {i : Instr} (hi : i ≠ .reset) (h : exec i s = .next t) :
    WritesOnly (writesOf i) s t :=
  exec_keeps (fun _ => writesOnly_writes) (fun _ _ hu => writesOnly_congr hu rfl)
    (fun _ hu => writesOnly_congr hu rfl) (fun hreset => absurd hreset hi)
    (writesOnly_refl (writesOf i) s) h

end

section
variable (i : Instr)

theorem coef_not_mem : i.opcode ∉ [0x40, 0x41, 0x49, 0x4A] → .coef ∉ writesOf i := by
  cases i <;> simp [Instr.opcode, writesOf]

theorem zz_not_mem : i.opcode ∉ [0x42, 0x48] → .zz ∉ writesOf i := by
  cases i <;> simp [Instr.opcode, writesOf]

theorem recon_not_mem : i.opcode ≠ 0x4B → .recon ∉ writesOf i := by
  cases i <;> simp [Instr.opcode, writesOf]

theorem ob_not_mem : i.opcode ∉ [0x10, 0x11, 0x12, 0x31, 0x32, 0x3C, 0x45, 0x50, 0x51] →
    .putBit ∉ writesOf i ∧ .openWriter ∉ writesOf i ∧ .closeWriter ∉ writesOf i := by
  cases i <;> simp [Instr.opcode, writesOf]

theorem mbits_not_mem : i.opcode ∉ [0x20, 0x21, 0x01] → .initialise ∉ writesOf i := by
  cases i <;> simp [Instr.opcode, writesOf]

theorem tables_not_mem : i.opcode ∉ [0x20, 0x21, 0x22, 0x3C, 0x3D, 0x45, 0x48] →
    .initialise ∉ writesOf i ∧ .update ∉ writesOf i := by
  cases i <;> simp [Instr.opcode, writesOf]

end

/-- Settles O11: every command but RESET by its kinds of write, RESET by `softReset`. -/
theorem commandWriteSets : Obligations.CommandWriteSets := by
  intro i s t h
  rcases eq_or_ne i .reset with rfl | hi
  · obtain rfl := Host.Outcome.next.inj h
    exact ⟨⟨rfl, rfl, rfl, rfl, rfl, rfl, rfl, rfl, rfl, rfl, rfl⟩, fun hne => absurd rfl hne,
      fun _ => rfl, fun _ => rfl, fun _ => rfl, fun _ => rfl, fun hno => absurd hno (by decide),
      fun _ => rfl⟩
  · obtain ⟨hnever, hargs, hcoef, hzz, hrecon, hob, hmbits, htables⟩ := exec_writesOnly hi h
    exact ⟨hnever, fun _ => hargs, fun hno => hcoef (coef_not_mem i hno),
      fun hno => hzz (zz_not_mem i hno), fun hno => hrecon (recon_not_mem i hno),
      fun hno => hob (ob_not_mem i hno), fun hno => hmbits (mbits_not_mem i hno),
      fun hno => htables (tables_not_mem i hno)⟩

/-! ## Completion -/

/-- No pseudocode writes CMDCNT or STATUS.FAULT. -/
theorem counted_writes (c : Word) (f : Bool) (w : WriteKind) :
    w.Keeps fun t => t.cmdcnt = c ∧ flag t .fault = f := by
  cases w
  case putBit =>
    intro b s _ h
    cases b <;> exact h
  case encoder | decoder | latch => exact fun _ h => ⟨fun _ _ => h, fun _ => h⟩
  case report => exact fun _ _ h => ⟨h, h⟩
  case initialise => exact fun _ _ _ _ _ h => h
  case takeBits | update => exact fun _ _ _ h => h
  case openWriter => exact fun _ _ _ h => ⟨h.1, by simpa [startWriter] using h.2⟩
  case closeWriter => exact fun _ _ _ h => ⟨h.1, by simpa [flushWriter] using h.2⟩
  case openReader => exact fun _ _ h => ⟨h.1, by simpa [startReader] using h.2⟩
  case clipWarning | openEncoder | openDecoder => exact fun _ _ h => ⟨h.1, by simpa using h.2⟩
  case closeEncoder => exact fun _ h => ⟨h.1, by simpa using h.2⟩
  case count | coef | zz | recon => exact fun _ _ h => h

/-- A command that R282 lists has no check, and its pseudocode raises nothing. -/
theorem neverFaults_no_source {i : Instr} (h : neverFaults i = true) (s : State) :
    checksOf i s = [] ∧ pseudocodeCodes i = [] := by
  revert h
  cases i <;> simp [neverFaults, checksOf, unitChecks, operandChecks, pseudocodeCodes]

theorem exec_neverFaults {i : Instr} {s t : State} (hnever : neverFaults i = true)
    (hs : flag s .fault = false) (h : exec i s = .next t) : flag t .fault = false := by
  obtain ⟨hchecks, hcodes⟩ := neverFaults_no_source hnever s
  by_contra hfault
  rcases exec_fault_cases hs h (by simpa using hfault) with ⟨e, hfails, -⟩ | ⟨c, hc, -⟩
  · simp [hchecks] at hfails
  · simp [hcodes] at hc

/-- Settles O8: a check fails, or the pseudocode ends or raises a fault, and none of its writes
reaches CMDCNT. -/
theorem completesOrFaults : Obligations.CompletesOrFaults := by
  intro i s hi hs
  have hraised (e : Trap) (u : State) (hu : u.cmdcnt = s.cmdcnt) :
      flag (raiseFault e u) .fault = true ∧ (raiseFault e u).cmdcnt = s.cmdcnt ∧
        1 ≤ (raiseFault e u).fcode.toNat ∧ (raiseFault e u).fcode.toNat ≤ 15 :=
    ⟨by simp, hu, errByte_legal e.code⟩
  have hexec := exec_eq_bodyOf hi s
  have hbody (hchecks : firstFailing (checksOf i s) = none) :=
    bodyOf_keeps (fun w _ => counted_writes s.cmdcnt false w) hchecks ⟨rfl, hs⟩
  rcases runCommand_cases (checksOf i s) (bodyOf i s) s with ⟨hfault, -⟩ | ⟨-, e, -, hrun⟩ |
    ⟨-, hchecks, u, hdone, hrun⟩ | ⟨-, hchecks, e, u, hfaulted, hrun⟩
  · exact absurd (hfault.symm.trans hs) (by decide)
  · have h := hexec.trans hrun
    exact ⟨_, h, .inr (hraised e s rfl), fun hnever => exec_neverFaults hnever hs h⟩
  · have h := hexec.trans hrun
    obtain ⟨hcount, hclear⟩ : u.cmdcnt = s.cmdcnt ∧ flag u .fault = false := by
      simpa [hdone, Run.All] using hbody hchecks
    exact ⟨_, h, .inl ⟨hclear, congrArg (· + 1) hcount⟩, fun hnever => exec_neverFaults hnever hs h⟩
  · have h := hexec.trans hrun
    obtain ⟨hcount, -⟩ : u.cmdcnt = s.cmdcnt ∧ flag u .fault = false := by
      simpa [hfaulted, Run.All] using hbody hchecks
    exact ⟨_, h, .inr (hraised e u hcount), fun hnever => exec_neverFaults hnever hs h⟩

/-! ## The step that runs a command -/

theorem isCmd_cmd (c : Config) : isCmd c .word 0 = true := rfl

/-- A write of a word to CMD runs the command that the word stands for. -/
theorem act_cmdWrite {s : State} {w : Word} {i : Instr} (h : decodeFor s.cfg.hasRle w = .ok i) :
    act (cmdWrite w) s = exec i s := by
  rw [cmdWrite, act, isCmd_cmd, if_pos rfl, command, h]

/-- Settles O6: a step performs the action at the front of the queue. -/
theorem stepRunsDecodedCommand : Obligations.StepRunsDecodedCommand := by
  intro s w i h
  have hstep (u : State) (rest : List HostAction) (hcfg : u.cfg = s.cfg)
      (hqueue : u.host = cmdWrite w :: rest) : step u = exec i { u with host := rest } := by
    rw [step, hqueue]
    exact act_cmdWrite (s := { u with host := rest }) (by rw [← h, hcfg])
  refine ⟨fun rest hqueue => hstep s rest rfl hqueue, ?_⟩
  have hword : BitVec.ofNat 32 (w.toNat % 2 ^ 32) = w := by
    rw [Nat.mod_eq_of_lt w.isLt, BitVec.ofNat_toNat, BitVec.setWidth_eq]
  exact hstep (s.withFetchWord 32 w.toNat) s.host rfl (by rw [State.withFetchWord, hword])

end Sys2Proof.Machine.Keeping

/-! PROOFS. Reset (`10_state.md` R21, R50) and the legal accesses of the host's window
(`20_memory.md` R60, R61). -/

namespace Sys2Proof.Machine.HostWindow

open CoderInvariant Keeping

/-! ## Reset -/

/-- After RESET every register holds the value of its row (`10_state.md` R21). -/
theorem readReg_softReset (s : State) {n : Nat} (h : n < 64) :
    readReg (softReset s) n = resetValue s.cfg n := by
  interval_cases n <;> rfl

theorem ctxBits_softReset (s : State) (m : Fin 16) : ctxBits (softReset s) m = 0 := by
  rw [ctxBits, softReset, Vector.get_replicate]
  rfl

/-- A buffer made of any list of bytes: those below the capacity, and of two bytes for one address
the first. -/
theorem readByte_memoryOf (cap : Nat) (cells : List Host.Cell) (a : Nat) :
    readByte (memoryOf cap cells) a = if a < cap then (cells.lookup a).getD 0 else 0 := by
  induction cells with
  | nil => simp [memoryOf]
  | cons c rest ih =>
    obtain ⟨b, v⟩ := c
    rw [memoryOf, List.lookup_cons]
    by_cases hb : b < cap
    · rw [if_pos hb, readByte_writeByte (memoryOf_wf cap rest), ih]
      by_cases hab : a = b
      · simp [hab, hb]
      · simp [hab, beq_eq_false_iff_ne.mpr hab]
    · rw [if_neg hb, ih]
      by_cases hab : a = b
      · simp [hab, hb]
      · simp [beq_eq_false_iff_ne.mpr hab]

/-- Settles O12: both resets leave the registers of `softReset`; a hardware reset brings the
memories. -/
theorem resetResults : Obligations.ResetResults := by
  intro s
  refine ⟨⟨softReset s, rfl, fun _ => readReg_softReset s, ctxBits_softReset s, rfl, rfl, rfl, rfl, rfl,
    rfl, rfl, rfl, rfl, rfl, rfl, rfl, rfl⟩, fun p => ⟨hardReset p s, rfl, fun n hn => ?_,
    ctxBits_softReset s, rfl, rfl, rfl, rfl, rfl, rfl, rfl, rfl, rfl, rfl,
    readByte_memoryOf s.cfg.ibCap p.ib, readByte_memoryOf s.cfg.obCap p.ob, rfl⟩⟩
  rw [← readReg_softReset s hn]
  interval_cases n <;> rfl

/-- The default parameters are among those the spec allows (`00_scope.md` R9, `10_state.md` R49). -/
theorem defaultConfig_valid : defaultConfig.Valid :=
  ⟨by decide, by decide, by decide, by decide +kernel, by decide⟩

/-- Settles O54: State.reset is a state that RESET leaves, with empty buffers. -/
theorem resetMeetsInvariants : Obligations.ResetMeetsInvariants := by
  have hclosed (f : Flag) : flag State.reset f = false := flag_softReset f State.reset
  have hbuffers : BuffersOk State.reset := ⟨rfl, rfl⟩
  refine ⟨fun _ => readReg_softReset State.reset, by decide, ctxBits_softReset State.reset,
    defaultConfig_valid, hbuffers, statusOk_of_zero rfl rfl rfl, contextsOk_of_uninitialised rfl,
    fun _ => segmentsOk_of_closed (hclosed _) (hclosed _), ?_⟩
  refine ⟨defaultConfig_valid.ob, defaultConfig_valid.ib, hbuffers, rfl, rfl, ?_, ?_, ?_, ?_, ?_⟩ <;>
    simp [hclosed]

/-! ## The elements that legal accesses reach -/

/-- The element at word `i` of the page of 0x100 bytes with this number (`20_memory.md` R60). -/
def pageElement (page : Nat) (i : Fin 64) : Option Location :=
  match page with
  | 0x00 => some (.reg i)
  | 0x10 => some (.pix i)
  | 0x11 => some (.ref i)
  | 0x12 => some (.recon i)
  | 0x13 => some (.coef i)
  | 0x14 => some (.zz i)
  | 0x15 => some (.qf0 i)
  | 0x16 => some (.qf1 i)
  | 0x17 => some (.qi0 i)
  | 0x18 => some (.qi1 i)
  | 0x19 => some (.zigzag i)
  | 0x1A => if i.val < 16 then some (.mbits (Fin.ofNat 16 i)) else none
  | _ => none

section
variable (c : Config)

theorem locate_page {page : Nat} (hpage : page < 0x100) (i : Fin 64) :
    locate c .word (0x100 * page + 4 * i) = pageElement page i := by
  have halign : (0x100 * page + 4 * i.val) % 4 = 0 := by omega
  have hdiv : (0x100 * page + 4 * i.val) / 0x100 = page := by omega
  have hword : (0x100 * page + 4 * i.val) % 0x100 / 4 = i := by omega
  have hindex : Fin.ofNat 64 i.val = i := Fin.ext (Nat.mod_eq_of_lt i.isLt)
  have hreg : page = 0 → (0x100 * page + 4 * i.val) / 4 = i := by omega
  have hmt : ¬(0x10000 ≤ 0x100 * page + 4 * i.val ∧ 0x100 * page + 4 * i.val < 0x50000) := by omega
  simp only [locate, halign, if_true, wordLocation, hmt, if_false, hdiv, hword, hindex, pageElement]
  split
  case h_1 => exact congrArg (some ∘ Location.reg) (hreg rfl)
  case h_13 => simp_all -- no page of the map
  all_goals rfl

/-- Registers lie 4 bytes apart from offset 0 (`10_state.md` R21). -/
theorem locate_reg {n : Nat} (h : n < 64) : locate c .word (4 * n) = some (.reg n) :=
  (congrArg (locate c .word) (Nat.zero_add _).symm).trans (locate_page c (page := 0) (by decide) ⟨n, h⟩)

theorem locate_mbits (m : Fin 16) : locate c .word (0x1A00 + 4 * m) = some (.mbits m) := by
  refine (locate_page c (page := 0x1A) (by decide) ⟨m, by omega⟩).trans ?_
  have hm : Fin.ofNat 16 m.val = m := Fin.ext (Nat.mod_eq_of_lt m.isLt)
  rw [pageElement, if_pos m.isLt, hm]

/-- Contexts lie 0x4000 apart in MT (`20_memory.md` R60). -/
theorem locate_mt (m : Fin 16) (e : Fin 2050) :
    locate c .word (0x10000 + 0x4000 * m + 4 * e) = some (.mt m e) := by
  have halign : (0x10000 + 0x4000 * m.val + 4 * e.val) % 4 = 0 := by omega
  have hrange : 0x10000 ≤ 0x10000 + 0x4000 * m.val + 4 * e.val ∧
      0x10000 + 0x4000 * m.val + 4 * e.val < 0x50000 := by omega
  have hctx : Fin.ofNat 16 ((0x10000 + 0x4000 * m.val + 4 * e.val - 0x10000) / 0x4000) = m :=
    Fin.ext (show _ % 16 = m.val by omega)
  have helem : (0x10000 + 0x4000 * m.val + 4 * e.val - 0x10000) % 0x4000 / 4 = e := by omega
  simp only [locate, halign, if_true, wordLocation, hrange, and_self, mtLocation, hctx, helem,
    e.isLt, dite_true]

theorem locate_ib {a : Nat} (h : a < c.ibCap) : locate c .byte (0x100000 + a) = some (.ib a) := by
  have hrange : 0x100000 ≤ 0x100000 + a ∧ 0x100000 + a < 0x100000 + c.ibCap := by omega
  simp only [locate_byte, byteLocation, ibBase, hrange, and_self, if_true, Nat.add_sub_cancel_left]

/-- IB ends where OB begins at the latest, its capacity being at most 2^20. -/
theorem locate_ob (hib : Config.capOk c.ibCap) {a : Nat} (h : a < c.obCap) :
    locate c .byte (0x200000 + a) = some (.ob a) := by
  have hcap : c.ibCap ≤ 2 ^ 20 := hib.2
  have hbehind : ¬(0x100000 ≤ 0x200000 + a ∧ 0x200000 + a < 0x100000 + c.ibCap) := by omega
  have hrange : 0x200000 ≤ 0x200000 + a ∧ 0x200000 + a < 0x200000 + c.obCap := by omega
  simp only [locate_byte, byteLocation, ibBase, obBase, hbehind, hrange, and_self, if_true, if_false,
    Nat.add_sub_cancel_left]

end

/-! ## What a legal access does -/

section
variable {s : State} {width : BusWidth} {addr : Nat} {loc : Location}

theorem act_read_of_locate (h : locate s.cfg width addr = some loc) :
    act (.read width addr) s = .next { s with hostData := readLocation s loc } := by
  simp only [act, hostRead, h]

theorem act_write_of_locate (h : locate s.cfg width addr = some loc) (hcmd : loc ≠ .reg 0) (v : Word) :
    act (.write width addr v) s = .next (writeLocation loc v s) := by
  have hno : isCmd s.cfg width addr = false := by simp [isCmd, h, hcmd]
  simp only [act, hno, Bool.false_eq_true, if_false, hostStore, h]

/-- A read of element `i` of a page. -/
theorem act_read_page {page : Nat} {i : Fin 64} (hpage : page < 0x100)
    (hloc : pageElement page i = some loc) :
    act (.read .word (0x100 * page + 4 * i)) s = .next { s with hostData := readLocation s loc } :=
  act_read_of_locate ((locate_page s.cfg hpage i).trans hloc)

/-- A write to element `i` of a page. -/
theorem act_write_page {page : Nat} {i : Fin 64} (hpage : page < 0x100)
    (hloc : pageElement page i = some loc) (hcmd : loc ≠ .reg 0) (v : Word) :
    act (.write .word (0x100 * page + 4 * i) v) s = .next (writeLocation loc v s) :=
  act_write_of_locate ((locate_page s.cfg hpage i).trans hloc) hcmd v

theorem act_read_reg {n : Nat} (h : n < 64) :
    act (.read .word (4 * n)) s = .next { s with hostData := readReg s n } :=
  act_read_of_locate (locate_reg s.cfg h)

theorem act_write_reg {n : Nat} (h : n < 64) (hcmd : n ≠ 0) (v : Word) :
    act (.write .word (4 * n) v) s = .next (writeReg n v s) :=
  act_write_of_locate (locate_reg s.cfg h) (by simpa using hcmd) v

end

theorem readReg_reserved (s : State) {n : Nat} (hlow : 26 ≤ n) (hhigh : n < 64) :
    readReg s n = 0 := by
  interval_cases n <;> rfl

/-- Settles O14: each address reaches its element, and the read returns it. -/
theorem hostReadsReturnElements : Obligations.HostReadsReturnElements := by
  intro s hib hob word
  have reg (n : Nat) (h : n < 64) : word (4 * n) (readReg s n) := act_read_reg h
  have page (n : Nat) (i : Fin 64) {loc : Location} (hn : n < 0x100)
      (hloc : pageElement n i = some loc) : word (0x100 * n + 4 * i) (readLocation s loc) :=
    act_read_page hn hloc
  refine ⟨⟨reg 0 (by decide), reg 1 (by decide), reg 2 (by decide), reg 3 (by decide),
    reg 4 (by decide), reg 5 (by decide), reg 6 (by decide), reg 7 (by decide), reg 8 (by decide),
    reg 9 (by decide), reg 10 (by decide), reg 11 (by decide), reg 12 (by decide), reg 13 (by decide),
    reg 14 (by decide), reg 15 (by decide), reg 16 (by decide), reg 17 (by decide),
    reg 18 (by decide), reg 19 (by decide), reg 20 (by decide), reg 21 (by decide),
    reg 22 (by decide), reg 23 (by decide), reg 24 (by decide), reg 25 (by decide)⟩,
    fun n hlow hhigh => ?_, fun i => ?_, fun m => ⟨?_, fun e he => ?_⟩, fun a ha => ?_, fun a ha => ?_⟩
  · rw [← readReg_reserved s hlow hhigh]
    exact reg n hhigh
  · exact ⟨page 0x10 i (by decide) rfl, page 0x11 i (by decide) rfl, page 0x12 i (by decide) rfl,
      page 0x13 i (by decide) rfl, page 0x14 i (by decide) rfl, page 0x15 i (by decide) rfl,
      page 0x16 i (by decide) rfl, page 0x17 i (by decide) rfl, page 0x18 i (by decide) rfl,
      page 0x19 i (by decide) rfl⟩
  · exact act_read_of_locate (locate_mbits s.cfg m)
  · exact act_read_of_locate (locate_mt s.cfg m ⟨e, he⟩)
  · exact act_read_of_locate (locate_ib s.cfg ha)
  · exact act_read_of_locate (locate_ob s.cfg hib ha)

/-- A write to any other register but CMD has no effect (`10_state.md` R21). -/
theorem writeReg_readOnly {n : Nat} (h : n ∉ [0, 4, 5, 8, 9, 10, 11]) (v : Word) (s : State) :
    writeReg n v s = s := by
  unfold writeReg
  split
  case h_7 => rfl
  all_goals simp at h

/-- Settles O15: each address reaches its element, and the write stores the bits it keeps. -/
theorem hostWritesStore : Obligations.HostWritesStore := by
  intro s v hib hob word
  have reg (n : Nat) (h : n < 64) (hcmd : n ≠ 0) : word (4 * n) (writeReg n v s) :=
    act_write_reg h hcmd v
  have page (n : Nat) (i : Fin 64) {loc : Location} (hn : n < 0x100)
      (hloc : pageElement n i = some loc) (hcmd : loc ≠ .reg 0) :
      word (0x100 * n + 4 * i) (writeLocation loc v s) := act_write_page hn hloc hcmd v
  refine ⟨⟨reg 4 (by decide) (by decide), reg 5 (by decide) (by decide), reg 8 (by decide) (by decide),
    reg 9 (by decide) (by decide), reg 10 (by decide) (by decide), reg 11 (by decide) (by decide)⟩,
    fun n hn hno => ?_, fun i => ?_, fun m => ⟨?_, fun e he => ?_⟩, fun hwf a ha => ?_, fun a ha => ?_⟩
  · rw [← writeReg_readOnly hno v s]
    exact reg n hn fun h0 => hno (by simp [h0])
  · exact ⟨page 0x10 i (by decide) rfl nofun, page 0x11 i (by decide) rfl nofun,
      page 0x12 i (by decide) rfl nofun, page 0x13 i (by decide) rfl nofun,
      page 0x14 i (by decide) rfl nofun, page 0x15 i (by decide) rfl nofun,
      page 0x16 i (by decide) rfl nofun, page 0x17 i (by decide) rfl nofun,
      page 0x18 i (by decide) rfl nofun, page 0x19 i (by decide) rfl nofun⟩
  · exact act_write_of_locate (locate_mbits s.cfg m) nofun v
  · exact act_write_of_locate (locate_mt s.cfg m ⟨e, he⟩) nofun v
  · exact ⟨writeByte s.ib a (v.setWidth 8), act_write_of_locate (locate_ib s.cfg ha) nofun v,
      readByte_writeByte hwf a _⟩
  · exact act_write_of_locate (locate_ob s.cfg hib ha) nofun v

end Sys2Proof.Machine.HostWindow

/-! PROOFS. Bit I/O (`40_bitio.md` R113 to R121): each command is its checks and one append to OB, or
one read of IB. -/

namespace Sys2Proof.Machine.BitCommands

open FrequencyModel Composite FaultFrame Keeping

/-! ## A command from its checks and its pseudocode -/

section
variable {i : Instr} {s t : State}

/-- A command whose checks hold and whose pseudocode ends completes. -/
theorem exec_of_done (hs : flag s .fault = false) (hchecks : firstFailing (checksOf i s) = none)
    (hbody : bodyOf i s s = .done () t) (hi : i ≠ .reset := by nofun) : exec i s = .next (retire t) :=
  (exec_eq_bodyOf hi s).trans (runCommand_done hs hchecks hbody)

/-- A command with a check that fails. -/
theorem exec_of_check {e : Trap} (hs : flag s .fault = false)
    (hcheck : firstFailing (checksOf i s) = some e) (hi : i ≠ .reset := by nofun) :
    exec i s = .next (faultState (errByte e.code) e.info s) :=
  (exec_eq_bodyOf hi s).trans (runCommand_faults hs hcheck)

/-- A command whose unit-state requirement fails (`60_exceptions.md` R283). -/
theorem exec_of_unready (hs : flag s .fault = false) (h : unitReady i s = false) :
    exec i s = .next (faultState 0x02 (BitVec.ofNat 32 i.opcode) s) :=
  (unitStateFaults i s hs).1 h

end

/-! ## BW_INIT -/

section
variable (st : Word)

theorem statusWith_header : statusWith (statusWith st .bwAct true) .bwHdr true = st ||| 6 :=
  BitVec.or_assoc ..

theorem statusWith_writer_closed :
    statusWith (statusWith st .bwAct false) .bwHdr false = st &&& 0xFFFFFFF9 :=
  BitVec.and_assoc ..

theorem statusWith_reader_opened :
    statusWith (statusWith st .brAct true) .decAct false = (st ||| 8) &&& 0xFFFFFFDF := rfl

end

theorem retire_startWriter (hdr : Bool) (s : State) : retire (startWriter hdr s) = { s with
    ob := [], wpos := if hdr then 32 else 0
    status := if hdr then s.status ||| 6 else (s.status ||| 2) &&& 0xFFFFFFFB
    cmdcnt := s.cmdcnt + 1 } := by
  cases hdr with
  | true => simp only [retire, startWriter, setFlag, setWpos, setOb, statusWith_header, if_true]
  | false => rfl

/-- Settles O17: the empty buffer reads as zero everywhere. -/
theorem bwInitResult : Obligations.BwInitResult := by
  intro s hdr hs
  refine ⟨fun henc hroom => ⟨[], ?_, readByte_nil⟩, fun henc => ?_, fun henc hset hshort => ?_⟩
  · have hchecks : firstFailing (checksOf (.bwInit hdr) s) = none := by
      cases hdr <;> simp_all [checksOf, unitChecks, operandChecks]
    rw [exec_of_done hs hchecks rfl, retire_startWriter]
  · exact exec_of_unready hs (by simp [unitReady, henc])
  · have hcheck : firstFailing (checksOf (.bwInit hdr) s) = some ⟨.obFull, 0⟩ := by
      simp [checksOf, unitChecks, operandChecks, henc, hset, hshort]
    exact exec_of_check hs hcheck

/-! ## BW_PUT -/

section
variable {s : State} {n : Nat}

/-- The checks of BW_PUT hold with an open writer, a legal count and room. -/
theorem firstFailing_bwPut (hact : flag s .bwAct = true) : firstFailing (checksOf (.bwPut n) s) =
    if n ≤ 32 then if s.wpos.toNat + n ≤ 8 * s.cfg.obCap then none else some ⟨.obFull, s.wpos⟩
    else some ⟨.operand, wordOfNat n⟩ := by
  simp [checksOf, unitChecks, operandChecks, hact]

/-- BW_PUT with room appends the low bits of ARG0. -/
theorem putBits_room (v : Word) (hm : memoryWf s.ob = true) (hcap : s.cfg.obCap ≤ 2 ^ 20)
    (h : s.wpos.toNat + n ≤ 8 * s.cfg.obCap) :
    ∃ m, putBits v n s = .done () (setWpos (s.wpos + BitVec.ofNat 32 n) (setOb m s)) ∧
      AppendsBits s.ob m s.wpos.toNat (lowBits v n) ∧ memoryWf m = true := by
  have hlen := lowBits_length v n
  obtain ⟨m, hput, happends, hwf⟩ := putList_room (lowBits v n) hm hcap (by rwa [hlen])
  rw [hlen] at hput
  exact ⟨m, (putBits_eq v n s).trans hput, happends, hwf⟩

end

/-- Settles O18: `putBits_room`, and the three checks in order. -/
theorem bwPutResult : Obligations.BwPutResult := by
  intro s n hs hm hcap
  refine ⟨fun hact hn hroom => ?_, fun hact => ?_, fun hact hn => ?_, fun hact hn hfull => ?_⟩
  · obtain ⟨m, hput, happends, -⟩ := putBits_room s.arg0 hm hcap hroom
    refine ⟨m, exec_of_done (i := .bwPut n) hs ?_ hput, happends⟩
    rw [firstFailing_bwPut hact, if_pos hn, if_pos hroom]
  · exact exec_of_unready hs (by simp [unitReady, hact])
  · refine exec_of_check (e := ⟨.operand, wordOfNat n⟩) hs ?_
    rw [firstFailing_bwPut hact, if_neg (by omega)]
  · refine exec_of_check (e := ⟨.obFull, s.wpos⟩) hs ?_
    rw [firstFailing_bwPut hact, if_pos hn, if_neg (by omega)]

/-! ## A sequence of BW_PUT -/

/-- ARG0 is written and BW_PUT completes. -/
def putStep (s : State) (p : Nat × Word) : Option State :=
  runAll [.bwPut p.1] { s with arg0 := p.2 }

/-- What a BW_PUT that completes leaves for the next one. -/
structure Put (s t : State) (bits : List Bool) : Prop where
  appends : AppendsBits s.ob t.ob s.wpos.toNat bits
  wpos : t.wpos.toNat = s.wpos.toNat + bits.length
  form : memoryWf t.ob = true
  cfg : t.cfg = s.cfg

theorem put_of_putStep {s t : State} {p : Nat × Word} (hm : memoryWf s.ob = true)
    (hcap : s.cfg.obCap ≤ 2 ^ 20) (h : putStep s p = some t) : Put s t (lowBits p.2 p.1) := by
  obtain ⟨n, v⟩ := p
  rw [putStep] at h
  obtain ⟨hs, hchecks, u, hbody, hrest⟩ :=
    runAll_cons_completed (exec_bwPut { s with arg0 := v } n) h
  have hroom : s.wpos.toNat + n ≤ 8 * s.cfg.obCap := of_decide_eq_true
    (firstFailing_eq_none.mp hchecks
      ⟨decide (s.wpos.toNat + n ≤ 8 * s.cfg.obCap), ⟨.obFull, s.wpos⟩⟩ (by simp))
  obtain ⟨m, hput, happends, hwf⟩ :=
    putBits_room (s := { s with arg0 := v }) v hm hcap hroom
  obtain ⟨-, rfl⟩ := Run.done.inj (hput.symm.trans hbody)
  obtain rfl := Option.some.inj hrest
  have hlt : n < 2 ^ 32 := by omega
  refine ⟨happends, ?_, hwf, rfl⟩
  change (s.wpos + BitVec.ofNat 32 n).toNat = _
  rw [lowBits_length, BitVec.toNat_add, BitVec.toNat_ofNat]
  omega

/-- A sequence of puts appends the concatenation of their bits. -/
theorem put_of_foldlM {puts : List (Nat × Word)} {s t : State} (hm : memoryWf s.ob = true)
    (hcap : s.cfg.obCap ≤ 2 ^ 20) (h : puts.foldlM putStep s = some t) :
    Put s t (puts.flatMap fun p => lowBits p.2 p.1) := by
  induction puts generalizing s with
  | nil =>
    obtain rfl := Option.some.inj h
    exact ⟨.nil _ _, rfl, hm, rfl⟩
  | cons p puts ih =>
    rw [List.foldlM_cons] at h
    obtain ⟨u, hu, hrest⟩ := Option.bind_eq_some_iff.mp h
    have hfirst := put_of_putStep hm hcap hu
    have hnext := ih hfirst.form (hfirst.cfg ▸ hcap) hrest
    have happends := hnext.appends
    rw [hfirst.wpos] at happends
    refine ⟨?_, ?_, hnext.form, hnext.cfg.trans hfirst.cfg⟩
    · rw [List.flatMap_cons]
      exact hfirst.appends.append happends
    · rw [hnext.wpos, hfirst.wpos, List.flatMap_cons, List.length_append, Nat.add_assoc]

theorem flatMap_lowBits_length (puts : List (Nat × Word)) :
    (puts.flatMap fun p => lowBits p.2 p.1).length = (puts.map Prod.fst).sum := by
  simp only [List.length_flatMap, lowBits_length]

/-- Behind the appended bits the buffer is as it was. -/
theorem streamBit_behind {old new : Memory} {pos k : Nat} {bits : List Bool}
    (h : AppendsBits old new pos bits) (hk : pos + bits.length ≤ k) :
    streamBit new k = streamBit old k := by
  have hlast : bits.getD (k - pos) false = false := by
    rw [List.getD_eq_getElem?_getD, List.getElem?_eq_none (by omega), Option.getD_none]
  rw [h.1, hlast, Bool.and_false, Bool.or_false]

/-- Settles O19: by `put_of_foldlM`. -/
theorem bitWriterConcatenates : Obligations.BitWriterConcatenates := by
  intro puts s t hm hcap h
  obtain ⟨happends, hwpos, -, -⟩ := put_of_foldlM hm hcap h
  refine ⟨by rw [hwpos, flatMap_lowBits_length], happends, fun hblank k hk => ?_⟩
  rw [streamBit_behind happends (by omega)]
  exact hblank k (by omega)

/-! ## BW_FLUSH -/

theorem retire_flushWriter (s : State) : retire (flushWriter s) = { s with
    wpos := BitVec.ofNat 32 (8 * bytesWritten s), ret0 := BitVec.ofNat 32 (bytesWritten s)
    ret1 := payloadBytes s
    ob := if flag s .bwHdr then writeHeader s.ob (payloadBytes s) else s.ob
    status := s.status &&& 0xFFFFFFF9, cmdcnt := s.cmdcnt + 1 } := by
  simp only [retire, flushWriter, setFlag, setRet1, setRet0, setOb, setWpos, statusWith_writer_closed]
  rfl

/-- With a header the payload is what was written behind it. -/
theorem payloadBytes_header {s : State} (hhdr : flag s .bwHdr = true) (hbehind : 32 ≤ s.wpos.toNat) :
    payloadBytes s = BitVec.ofNat 32 (bytesWritten s - 4) := by
  have hfour : 4 ≤ bytesWritten s := by rw [bytesWritten]; omega
  have hlt : bytesWritten s < 2 ^ 32 := by have := s.wpos.isLt; rw [bytesWritten]; omega
  rw [payloadBytes, if_pos hhdr, wordOfNat]
  bv_omega

/-- Settles O20: BW_FLUSH completes by `retire_flushWriter`, the header by `readByte_writeHeader`. -/
theorem bwFlushResult : Obligations.BwFlushResult := by
  intro s hs hm hcap hwpos total flushed
  have hdone (hact : flag s .bwAct = true) (henc : flag s .encAct = false) :
      exec .bwFlush s = .next (retire (flushWriter s)) :=
    exec_of_done hs (by simp [checksOf, unitChecks, operandChecks, hact, henc]) rfl
  refine ⟨fun hact henc hhdr => ?_, fun hact henc hhdr hbehind => ?_, fun hstate => ?_⟩
  · rw [hdone hact henc, retire_flushWriter, payloadBytes, hhdr]
    rfl
  · refine ⟨writeHeader s.ob (BitVec.ofNat 32 (total - 4)), ?_, readByte_writeHeader hm _⟩
    rw [hdone hact henc, retire_flushWriter, payloadBytes_header hhdr hbehind, hhdr]
    rfl
  · refine exec_of_unready hs ?_
    rcases hstate with hact | henc
    · simp [unitReady, hact]
    · simp [unitReady, henc]

/-! ## The bit reader -/

/-- Settles O21: one check, two registers and two flags. -/
theorem brInitResult : Obligations.BrInitResult := by
  intro s hs
  refine ⟨fun hrange => ?_, fun hrange => ?_⟩
  · rw [exec_of_done hs (by simp [checksOf, unitChecks, operandChecks, hrange]) rfl]
    simp only [retire, startReader, setFlag, setRlen, setRpos, statusWith_reader_opened]
    rfl
  · have hcheck : firstFailing (checksOf .brInit s) = some ⟨.operand, s.arg1⟩ := by
      simp [checksOf, unitChecks, operandChecks, hrange]
    exact exec_of_check hs hcheck

section
variable {s : State} {n : Nat}

/-- The three reader commands make the same checks (`40_bitio.md` R119 to R121). -/
theorem firstFailing_reader {i : Instr} (hi : i ∈ [Instr.brGet n, .brPeek n, .brSkip n])
    (hact : flag s .brAct = true) : firstFailing (checksOf i s) =
      if n ≤ 32 then if s.rpos.toNat + n ≤ s.rlen.toNat then none else some ⟨.brOverrun, s.rpos⟩
      else some ⟨.operand, wordOfNat n⟩ := by
  have hsame : checksOf i s =
      [needSet s .brAct (BitVec.ofNat 32 i.opcode), countLegal n, bitsAvailable s n] := by
    simp only [List.mem_cons, List.not_mem_nil, or_false] at hi
    rcases hi with rfl | rfl | rfl <;> rfl
  rw [hsame, firstFailing_needSet hact]
  simp

theorem ne_reset_of_reader {i : Instr} (hi : i ∈ [Instr.brGet n, .brPeek n, .brSkip n]) :
    i ≠ .reset := by
  rintro rfl
  simp at hi

/-- The number that the next bits spell, as RET0 takes it. -/
def nextBits (s : State) (n : Nat) : Word := wordOfNat (bitsValue s.ib s.rpos.toNat n)

theorem nextBits_toNat (hn : n ≤ 32) : (nextBits s n).toNat = bitsValue s.ib s.rpos.toNat n := by
  have hlt := bitsValue_lt s.ib s.rpos.toNat n
  have hpow : 2 ^ n ≤ 2 ^ 32 := Nat.pow_le_pow_right (by decide) hn
  rw [nextBits, wordOfNat, BitVec.toNat_ofNat, Nat.mod_eq_of_lt (by omega)]

theorem nextBits_getLsbD (hn : n ≤ 32) {i : Nat} (hi : i < n) :
    (nextBits s n).getLsbD (n - 1 - i) = streamBit s.ib (s.rpos.toNat + i) := by
  rw [BitVec.getLsbD, nextBits_toNat hn, bitsValue_testBit s.ib s.rpos.toNat n i hi]

theorem rpos_add (s : State) (n : Nat) :
    wordOfNat (s.rpos.toNat + n) = s.rpos + BitVec.ofNat 32 n := by
  rw [wordOfNat, BitVec.ofNat_add, BitVec.ofNat_toNat, BitVec.setWidth_eq]

end

/-- Settles O22: the value is the number that the bits spell; the checks are `firstFailing_reader`. -/
theorem bitReaderResults : Obligations.BitReaderResults := by
  intro s n hs
  have hchecks (hact : flag s .brAct = true) (hn : n ≤ 32)
      (hroom : s.rpos.toNat + n ≤ s.rlen.toNat) :
      ∀ i ∈ [Instr.brGet n, .brPeek n, .brSkip n], firstFailing (checksOf i s) = none :=
    fun i hi => by rw [firstFailing_reader hi hact, if_pos hn, if_pos hroom]
  refine ⟨fun hact hn hroom => ⟨nextBits s n, ?_, fun i => nextBits_getLsbD hn, ?_, ?_, ?_⟩,
    fun hact => ⟨?_, ?_, ?_⟩, fun hact hn i hi => ?_, fun hact hn hshort i hi => ?_⟩
  · rw [nextBits_toNat hn]
    exact bitsValue_lt ..
  · have hbody : bodyOf (.brGet n) s s =
        .done () (setRet0 (nextBits s n) (setRpos (s.rpos + BitVec.ofNat 32 n) s)) := by
      simp only [bodyOf, getBits_room hroom, done_andThen, rpos_add, nextBits]
    exact exec_of_done hs (by simp [firstFailing_reader (n := n) (i := .brGet n), *]) hbody
  · have hbody : bodyOf (.brPeek n) s s = .done () (setRet0 (nextBits s n) s) := by
      simp only [bodyOf, peekBits_room hroom, done_andThen, nextBits]
    exact exec_of_done hs (by simp [firstFailing_reader (n := n) (i := .brPeek n), *]) hbody
  · have hbody : bodyOf (.brSkip n) s s = .done () (setRpos (s.rpos + BitVec.ofNat 32 n) s) := by
      rw [bodyOf, always_eq, rpos_add]
    exact exec_of_done hs (by simp [firstFailing_reader (n := n) (i := .brSkip n), *]) hbody
  · exact exec_of_unready hs hact
  · exact exec_of_unready hs hact
  · exact exec_of_unready hs hact
  · refine exec_of_check (e := ⟨.operand, wordOfNat n⟩) hs ?_ (ne_reset_of_reader hi)
    rw [firstFailing_reader hi hact, if_neg (by omega)]
  · refine exec_of_check (e := ⟨.brOverrun, s.rpos⟩) hs ?_ (ne_reset_of_reader hi)
    rw [firstFailing_reader hi hact, if_pos hn, if_neg (by omega)]

end Sys2Proof.Machine.BitCommands

/-! PROOFS. AC_ENC where OB or the underflow counter is full (`42_coder.md` R165, `40_bitio.md`
R111): a list of bits that does not fit is written up to the end of OB, whichever loop writes it. -/

namespace Sys2Proof.Machine.EncoderFaults

open FrequencyModel Composite ArithmeticCoder FaultFrame Keeping BitCommands

/-! ## Bits that do not fit -/

/-- The run is to write `bits` from `s` on; it stops at the end of OB, with the bits before it
written. -/
def StopsFull (s : State) (bits : List Bool) (r : Run Unit) : Prop :=
  ∃ t, r = .raised ⟨.obFull, t.wpos⟩ t ∧ t.wpos.toNat = 8 * s.cfg.obCap ∧
    AppendsBits s.ob t.ob s.wpos.toNat (bits.take (8 * s.cfg.obCap - s.wpos.toNat))

section
variable {s t : State} {xs ys : List Bool}

/-- At the end of OB the first bit stops. -/
theorem stopsFull_putBit (h : s.wpos.toNat = 8 * s.cfg.obCap) (b : Bool) (bits : List Bool) :
    StopsFull s bits (putBit b s) := by
  refine ⟨s, putBit_full (by omega), h, ?_⟩
  rw [h, Nat.sub_self, List.take_zero]
  exact .nil _ _

/-- What stops in the first bits stops, whatever would follow. -/
theorem StopsFull.andThen {r : Run Unit} {k : Unit → State → Run Unit} (h : StopsFull s xs r)
    (hlen : 8 * s.cfg.obCap ≤ s.wpos.toNat + xs.length) : StopsFull s (xs ++ ys) (r.andThen k) := by
  obtain ⟨t, rfl, hwpos, happends⟩ := h
  refine ⟨t, rfl, hwpos, ?_⟩
  rwa [List.take_append_of_le_length (by omega)]

/-- What stops after the first bits are written stops with both parts. -/
theorem StopsFull.after {r : Run Unit} (hput : Put s t xs) (h : StopsFull t ys r)
    (hfit : s.wpos.toNat + xs.length ≤ 8 * s.cfg.obCap) : StopsFull s (xs ++ ys) r := by
  obtain ⟨u, rfl, hwpos, happends⟩ := h
  rw [hput.wpos, hput.cfg] at happends
  refine ⟨u, rfl, by rw [hwpos, hput.cfg], ?_⟩
  rw [List.take_append, List.take_of_length_le (by omega), Nat.sub_sub]
  exact hput.appends.append happends

/-- PutBit with room, as one bit put. -/
theorem put_putBit (hm : memoryWf s.ob = true) (hcap : s.cfg.obCap ≤ 2 ^ 20)
    (h : s.wpos.toNat < 8 * s.cfg.obCap) (b : Bool) :
    ∃ t, putBit b s = .done () t ∧ Put s t [b] ∧ t.euf = s.euf := by
  obtain ⟨m, hrun, happends, hwf⟩ := putList_room [b] hm hcap (by rwa [List.length_singleton])
  refine ⟨_, (putList_singleton b s).symm.trans hrun, ⟨happends, ?_, hwf, rfl⟩, rfl⟩
  rw [setWpos_wpos, BitVec.toNat_add, List.length_singleton, BitVec.toNat_ofNat]
  omega

/-- The pending bits that do not all fit (`42_coder.md` R165). -/
theorem drainPending_full (b : Bool) (n : Nat) (hm : memoryWf s.ob = true)
    (hcap : s.cfg.obCap ≤ 2 ^ 20) (hroom : s.wpos.toNat ≤ 8 * s.cfg.obCap)
    (hfull : 8 * s.cfg.obCap < s.wpos.toNat + n) :
    StopsFull s (List.replicate n b) (drainPending b n s) := by
  induction n generalizing s with
  | zero => omega
  | succ n ih =>
    rw [List.replicate_succ, drainPending]
    rcases hroom.eq_or_lt with heq | hlt
    · exact (stopsFull_putBit heq b [b]).andThen (by rw [heq]; exact Nat.le_add_right _ _)
    · obtain ⟨t, hrun, hput, -⟩ := put_putBit hm hcap hlt b
      have hwpos := hput.wpos
      rw [List.length_singleton] at hwpos
      rw [hrun, done_andThen]
      refine StopsFull.after (t := setEuf (t.euf - 1) t) ⟨hput.appends, hput.wpos, hput.form,
        hput.cfg⟩ (ih hput.form ?_ ?_ ?_) (by rwa [List.length_singleton])
      all_goals simp only [setEuf_cfg, setEuf_wpos, hput.cfg, hwpos]; omega

/-- A settled bit and its pending opposite bits that do not all fit (`42_coder.md` R166). -/
theorem emitBit_full (b : Bool) (hm : memoryWf s.ob = true) (hcap : s.cfg.obCap ≤ 2 ^ 20)
    (hroom : s.wpos.toNat ≤ 8 * s.cfg.obCap)
    (hfull : 8 * s.cfg.obCap < s.wpos.toNat + (s.euf.toNat + 1)) :
    StopsFull s (b :: List.replicate s.euf.toNat (!b)) (emitBit b s) := by
  rw [emitBit]
  rcases hroom.eq_or_lt with heq | hlt
  · exact (stopsFull_putBit heq b [b]).andThen (by rw [heq]; exact Nat.le_add_right _ _)
  · obtain ⟨t, hrun, hput, heuf⟩ := put_putBit hm hcap hlt b
    have hwpos := hput.wpos
    rw [List.length_singleton] at hwpos
    rw [← heuf] at hfull ⊢
    rw [hrun, done_andThen]
    refine StopsFull.after hput (drainPending_full _ _ hput.form ?_ ?_ ?_)
      (by rwa [List.length_singleton])
    all_goals rw [hput.cfg]
    · exact hcap
    all_goals omega

/-- Emitting a settled bit with room, as a list of bits put; EUF is 0 after it. -/
theorem put_emitBit (b : Bool) (hm : memoryWf s.ob = true) (hcap : s.cfg.obCap ≤ 2 ^ 20)
    (h : s.wpos.toNat + (s.euf.toNat + 1) ≤ 8 * s.cfg.obCap) :
    ∃ t, emitBit b s = .done () t ∧ Put s t (b :: List.replicate s.euf.toNat (!b)) ∧
      t.euf = 0 ∧ t.elow = s.elow ∧ t.ehigh = s.ehigh := by
  obtain ⟨m, hrun, happends, hwf⟩ := emitBit_room b hm hcap h
  refine ⟨_, hrun, ⟨happends, ?_, hwf, rfl⟩, rfl, rfl, rfl⟩
  rw [setEuf_wpos, setWpos_wpos, BitVec.toNat_add, BitVec.toNat_ofNat, List.length_cons,
    List.length_replicate]
  omega

end

/-! ## The bits of one pass -/

section
variable {low high : Half}

/-- A pass with the top bits equal emits them, and the pending bits (`42_coder.md` R165). -/
theorem renormalise_bits_of_topsAgree (hle : low.toNat ≤ high.toNat)
    (h : topsAgree low high = true) (n p : Nat) :
    (renormalise (n + 1) low.toNat high.toNat p).bits =
      (high.getLsbD 15 :: List.replicate p (!high.getLsbD 15)) ++
        (renormalise n (shiftLow low).toNat (shiftHigh high).toNat 0).bits := by
  have hlt := high.isLt
  rw [getLsbD_15, shiftLow_toNat, shiftHigh_toNat]
  rcases (topsAgree_iff hle).mp h with hlower | hupper
  · rw [renormalise, if_pos hlower, decide_eq_false (by omega), Nat.mod_eq_of_lt (by omega),
      Nat.mod_eq_of_lt (by omega)]
    rfl
  · rw [renormalise, if_neg (by omega), if_pos hupper, decide_eq_true (hupper.trans hle),
      show 2 * low.toNat % 0x10000 = 2 * (low.toNat - 0x8000) by omega,
      show 2 * high.toNat % 0x10000 = 2 * (high.toNat - 0x8000) by omega]
    rfl

/-- An E3 pass emits nothing and defers one bit more (`42_coder.md` R165). -/
theorem renormalise_bits_of_isE3 (hle : low.toNat ≤ high.toNat)
    (htops : ¬topsAgree low high = true) (h : isE3 low high = true) (n p : Nat) :
    (renormalise (n + 1) low.toNat high.toNat p).bits =
      (renormalise n (shiftLow (e3Low low)).toNat (shiftHigh (e3High high)).toNat
        (p + 1)).bits := by
  obtain ⟨hpass, -⟩ := passBy_of_isE3 hle htops h
  have hsplit := mt (topsAgree_iff hle).mpr htops
  have hquarter := (isE3_iff (low := low) (high := high) (by omega) (by omega)).mp h
  rw [hpass.low_eq, hpass.high_eq, renormalise, if_neg (by omega), if_neg (by omega),
    if_pos hquarter]
  rfl

end

/-! ## The loop -/

/-- The registers after an E3 pass, before its shift. -/
def deferred (s : State) : State := setEnc (e3Low s.elow) (e3High s.ehigh) (setEuf (s.euf + 1) s)

theorem deferBit_room {s : State} (h : s.euf.toNat < 2 ^ 32 - 1) :
    deferBit s = .done () (deferred s) := by
  rw [deferBit, decide_eq_true h, demand_true, done_andThen, deferred]

theorem deferBit_full {s : State} (h : s.euf = 0xFFFFFFFF) :
    deferBit s = .raised ⟨.ufOvf, 0xFFFFFFFF⟩ s := by
  rw [deferBit, h]
  rfl

/-- EncRenorm stops where its bits do not all fit. -/
theorem encRenorm_full (n : Nat) {s : State} (hm : memoryWf s.ob = true)
    (hcap : s.cfg.obCap ≤ 2 ^ 20) (hle : s.elow.toNat ≤ s.ehigh.toNat)
    (huf : s.euf.toNat + n < 2 ^ 32) (hroom : s.wpos.toNat ≤ 8 * s.cfg.obCap)
    (hfull : 8 * s.cfg.obCap <
      s.wpos.toNat + (renormalise n s.elow.toNat s.ehigh.toNat s.euf.toNat).bits.length) :
    StopsFull s (renormalise n s.elow.toNat s.ehigh.toNat s.euf.toNat).bits (encRenorm n s) := by
  induction n generalizing s with
  | zero =>
    rw [renormalise, List.length_nil] at hfull
    omega
  | succ n ih =>
    rw [encRenorm]
    by_cases htops : topsAgree s.elow s.ehigh = true
    · obtain ⟨off, hpass, -⟩ := passBy_of_topsAgree hle htops
      rw [if_pos htops]
      rw [renormalise_bits_of_topsAgree hle htops] at hfull ⊢
      by_cases hfit : s.wpos.toNat + (s.euf.toNat + 1) ≤ 8 * s.cfg.obCap
      · obtain ⟨t, hrun, hput, heuf, hlow, hhigh⟩ := put_emitBit (s.ehigh.getLsbD 15) hm hcap hfit
        have hwpos := hput.wpos
        rw [List.length_append, ← Nat.add_assoc, ← hwpos] at hfull
        rw [List.length_cons, List.length_replicate] at hwpos
        have hshift : renormalise n (shiftEnc t).elow.toNat (shiftEnc t).ehigh.toNat
            (shiftEnc t).euf.toNat =
              renormalise n (shiftLow s.elow).toNat (shiftHigh s.ehigh).toNat 0 := by
          simp only [shiftEnc, setEnc_elow, setEnc_ehigh, setEnc_euf, hlow, hhigh, heuf]
          rfl
        have hrest := ih (s := shiftEnc t) hput.form (hput.cfg ▸ hcap)
          (by simpa only [shiftEnc, setEnc_elow, setEnc_ehigh, hlow, hhigh] using hpass.ordered hle)
          (by simp only [shiftEnc, setEnc_euf, heuf]; change 0 + n < _; omega)
          (by simp only [shiftEnc, setEnc_wpos, setEnc_cfg, hput.cfg]; omega)
          (by rw [hshift]; simpa only [shiftEnc, setEnc_wpos, setEnc_cfg, hput.cfg] using hfull)
        rw [hrun, done_andThen]
        rw [hshift] at hrest
        exact StopsFull.after (t := shiftEnc t) ⟨hput.appends, hput.wpos, hput.form, hput.cfg⟩ hrest
          (by rwa [List.length_cons, List.length_replicate])
      · exact (emitBit_full _ hm hcap hroom (by omega)).andThen
          (by rw [List.length_cons, List.length_replicate]; omega)
    · by_cases he3 : isE3 s.elow s.ehigh = true
      · obtain ⟨hpass, -⟩ := passBy_of_isE3 hle htops he3
        have heuf : (s.euf + 1).toNat = s.euf.toNat + 1 :=
          BitVec.toNat_add_of_lt (y := 1) (by change _ + 1 < _; omega)
        rw [if_neg htops, if_pos he3, deferBit_room (by omega), done_andThen]
        rw [renormalise_bits_of_isE3 hle htops he3, ← heuf] at hfull ⊢
        exact ih (s := shiftEnc (deferred s)) hm hcap (hpass.ordered hle)
          (by simp only [shiftEnc, deferred, setEnc_euf, setEuf_euf, heuf]; omega) hroom hfull
      · rw [renormalise_of_noPass hle htops he3, List.length_nil] at hfull
        omega

/-! ## AC_ENC -/

section
variable {s : State}

/-- Coding the latch stops where the bits do not all fit. -/
theorem encodeLatch_full (h : NarrowOk s.elow s.ehigh s.symLow s.symHigh s.symScale)
    (hm : memoryWf s.ob = true) (hcap : s.cfg.obCap ≤ 2 ^ 20) (huf : s.euf.toNat + 16 < 2 ^ 32)
    (hroom : s.wpos.toNat ≤ 8 * s.cfg.obCap)
    (hfull : 8 * s.cfg.obCap < s.wpos.toNat + (encoded s).bits.length) :
    StopsFull s (encoded s).bits (encodeLatch s) := by
  have hrun := encRenorm_full 16 (s := narrowEnc s) hm hcap (narrowEnc_ordered h) huf hroom
  rw [show (narrowEnc s).euf = s.euf from rfl, encLoop_eq_encoded h] at hrun
  exact hrun hfull

/-- Coding the latch leaves CMDCNT as it was (`60_exceptions.md` R285). -/
theorem encodeLatch_cmdcnt (s : State) : (encodeLatch s).All fun t => t.cmdcnt = s.cmdcnt :=
  encodeLatch_preserves (p := fun t => t.cmdcnt = s.cmdcnt)
    (fun b _ _ h => by cases b <;> exact h) (fun _ h => ⟨fun _ _ => h, fun _ => h⟩) s rfl

/-- An E3 pass first, with the counter full, stops before anything but the interval is written. -/
theorem encodeLatch_ufOvf (hle : (narrowEnc s).elow.toNat ≤ (narrowEnc s).ehigh.toNat)
    (heuf : s.euf = 0xFFFFFFFF) (hlow : 0x4000 ≤ (narrowEnc s).elow.toNat)
    (hlow' : (narrowEnc s).elow.toNat < 0x8000) (hhigh : 0x8000 ≤ (narrowEnc s).ehigh.toNat)
    (hhigh' : (narrowEnc s).ehigh.toNat < 0xC000) :
    encodeLatch s = .raised ⟨.ufOvf, 0xFFFFFFFF⟩ (narrowEnc s) := by
  have htops : ¬topsAgree (narrowEnc s).elow (narrowEnc s).ehigh = true := by
    rw [topsAgree_iff hle]
    omega
  have he3 := (isE3_iff hlow' hhigh).mpr ⟨hlow, hhigh'⟩
  rw [encodeLatch, encRenorm, if_neg htops, if_pos he3, deferBit_full (s := narrowEnc s) heuf,
    raised_andThen]

theorem narrowEnc_eq (h : NarrowOk s.elow s.ehigh s.symLow s.symHigh s.symScale) :
    narrowEnc s = { s with
      elow := BitVec.ofNat 16 (narrowedLow s.elow.toNat s.ehigh.toNat s.symLow.toNat
        s.symScale.toNat)
      ehigh := BitVec.ofNat 16 (narrowedHigh s.elow.toNat s.ehigh.toNat s.symHigh.toNat
        s.symScale.toNat) } := by
  rw [← narrowEnc_elow h, ← narrowEnc_ehigh h, BitVec.ofNat_toNat, BitVec.ofNat_toNat,
    BitVec.setWidth_eq, BitVec.setWidth_eq]
  rfl

end

/-- Settles O33: `encodeLatch_full` for a full OB, `encodeLatch_ufOvf` for a full counter. -/
theorem acEncFaultsWhileCoding : Obligations.AcEncFaultsWhileCoding := by
  intro s hs henc hlatch hcoder
  have hok := narrowOk_of_latchOk hlatch hcoder
  have hchecks : firstFailing [needSet s .encAct 0x31, tripleOk s] = none :=
    (firstFailing_needSet henc).trans (firstFailing_legalTriple hlatch)
  rw [exec_acEnc]
  refine ⟨fun hm hcap huf hroom hfull => ?_, fun heuf hlow hlow' hhigh hhigh' => ?_⟩
  · obtain ⟨t, hrun, hwpos, happends⟩ := encodeLatch_full hok hm hcap huf hroom hfull
    have hcmdcnt := encodeLatch_cmdcnt s
    rw [hrun] at hcmdcnt
    exact ⟨_, runCommand_raised hs hchecks hrun, by simp, rfl, hwpos, rfl, hcmdcnt, happends⟩
  · rw [← narrowEnc_elow hok] at hlow hlow'
    rw [← narrowEnc_ehigh hok] at hhigh hhigh'
    rw [runCommand_raised hs hchecks
      (encodeLatch_ufOvf (narrowEnc_ordered hok) heuf hlow hlow' hhigh hhigh'), narrowEnc_eq hok]
    rfl

end Sys2Proof.Machine.EncoderFaults

/-! PROOFS. RLE_ENC (`44_rle.md` R250, R252): the loop over IB writes the bytes that the greedy
coder on lists gives, and these bytes are a coded row. -/

namespace Sys2Proof.Machine.RunLength

open FrequencyModel Composite ArithmeticCoder FaultFrame Keeping BitCommands EncoderFaults

/-! ## Bytes of a buffer -/

section
variable (m : Memory) (a : Nat)

theorem bytesAt_length (n : Nat) : (bytesAt m a n).length = n := by
  rw [bytesAt, List.length_map, List.length_range]

theorem bytesAt_add (k n : Nat) : bytesAt m a (k + n) = bytesAt m a k ++ bytesAt m (a + k) n := by
  simp only [bytesAt, List.range_add, List.map_append, List.map_map, Function.comp_def,
    Nat.add_assoc]

theorem bytesAt_one : bytesAt m a 1 = [readByte m a] := rfl

theorem bytesAt_succ (n : Nat) : bytesAt m a (n + 1) = readByte m a :: bytesAt m (a + 1) n := by
  rw [Nat.add_comm n 1, bytesAt_add, bytesAt_one, List.singleton_append]

theorem bytesAt_drop (n k : Nat) : (bytesAt m a n).drop k = bytesAt m (a + k) (n - k) := by
  rcases Nat.le_total k n with hle | hle
  · obtain ⟨j, rfl⟩ := Nat.exists_eq_add_of_le hle
    rw [bytesAt_add, List.drop_left' (bytesAt_length m a k), Nat.add_sub_cancel_left]
  · rw [List.drop_eq_nil_of_le (by rwa [bytesAt_length]), Nat.sub_eq_zero_of_le hle]
    rfl

/-- A piece of a buffer is a list exactly when its bytes are. -/
theorem bytesAt_eq_iff (vs : List Byte) :
    bytesAt m a vs.length = vs ↔ ∀ i, i < vs.length → readByte m (a + i) = vs.getD i 0 := by
  constructor
  · intro h i hi
    have hget := congrArg (·.getD i 0) h
    simp only [bytesAt, List.getD_eq_getElem?_getD, List.getElem?_map, List.getElem?_range hi,
      Option.map_some, Option.getD_some] at hget
    rw [hget, List.getD_eq_getElem?_getD]
  · intro h
    refine List.ext_getElem (bytesAt_length ..) fun i hi hi' => ?_
    simp only [bytesAt, List.getElem_map, List.getElem_range, h i hi', List.getD_eq_getElem _ _ hi']

end

/-! ## Writing bytes -/

/-- The stream bits of a byte (`20_memory.md` R64). -/
def byteBits (v : Byte) : List Bool := lowBits (v.setWidth 32) 8

theorem byteBits_length (v : Byte) : (byteBits v).length = 8 := lowBits_length ..

theorem byteBits_getD (v : Byte) {j : Nat} (hj : j < 8) :
    (byteBits v).getD j false = v.getLsbD (7 - j) := by
  simp only [byteBits, lowBits, List.getD_eq_getElem?_getD, List.getElem?_map,
    List.getElem?_range hj, Option.map_some, Option.getD_some, BitVec.getLsbD_setWidth]
  rw [decide_eq_true (by omega), Bool.true_and, Nat.sub_right_comm]

theorem flatMap_byteBits_length (vs : List Byte) :
    (vs.flatMap byteBits).length = 8 * vs.length := by
  simp only [List.length_flatMap, byteBits_length, List.map_const', List.sum_replicate, smul_eq_mul,
    Nat.mul_comm]

/-- Eight stream bits of a list of bytes are one of its bytes. -/
theorem flatMap_byteBits_getD (vs : List Byte) (i : Nat) {j : Nat} (hj : j < 8) :
    (vs.flatMap byteBits).getD (8 * i + j) false = (vs.getD i 0).getLsbD (7 - j) := by
  induction vs generalizing i with
  | nil => simp
  | cons v vs ih =>
    have hlen := byteBits_length v
    rw [List.flatMap_cons]
    cases i with
    | zero =>
      rw [List.getD_append _ _ _ _ (by omega), Nat.mul_zero, Nat.zero_add, byteBits_getD v hj,
        List.getD_cons_zero]
    | succ i =>
      rw [List.getD_append_right _ _ _ _ (by omega), hlen,
        show 8 * (i + 1) + j - 8 = 8 * i + j by omega, ih, List.getD_cons_succ]

/-- OB was `old` and is `new` after the bytes were written from address `a` on. -/
structure WritesBytes (old new : Memory) (a : Nat) (vs : List Byte) : Prop where
  bytes : bytesAt new a vs.length = vs
  others : ∀ b, b < a ∨ a + vs.length ≤ b → readByte new b = readByte old b

/-- The bits of bytes, appended at a byte boundary of a blank buffer, are the bytes. -/
theorem writesBytes_of_appendsBits {old new : Memory} {pos : Nat} {vs : List Byte}
    (hpos : pos % 8 = 0) (hblank : ∀ k, pos ≤ k → streamBit old k = false)
    (h : AppendsBits old new pos (vs.flatMap byteBits)) : WritesBytes old new (pos / 8) vs := by
  have hlen := flatMap_byteBits_length vs
  refine ⟨(bytesAt_eq_iff _ _ _).mpr fun i _ => BitVec.eq_of_getLsbD_eq fun j hj => ?_,
    fun b hb => h.byteOf (by omega)⟩
  have hbit := h.streamBit_of_blank hblank (8 * i + (7 - j))
  rw [flatMap_byteBits_getD vs i (by omega), streamBit,
    show (pos + (8 * i + (7 - j))) / 8 = pos / 8 + i by omega,
    show 7 - (pos + (8 * i + (7 - j))) % 8 = j by omega, show 7 - (7 - j) = j by omega] at hbit
  exact hbit

/-- PutByte of each byte of a list, in order. -/
def putBytes (vs : List Byte) (s : State) : Run Unit := putList (vs.flatMap byteBits) s

theorem putBytes_append (xs ys : List Byte) (s : State) :
    putBytes (xs ++ ys) s = (putBytes xs s).andThen fun _ t => putBytes ys t := by
  rw [putBytes, List.flatMap_append, putList_append]
  rfl

theorem putBytes_singleton (v : Byte) (s : State) : putBytes [v] s = putByte v s := by
  rw [putBytes, List.flatMap_singleton, putByte, putBits_eq, byteBits]

theorem putBytes_cons (v : Byte) (vs : List Byte) (s : State) :
    putBytes (v :: vs) s = (putByte v s).andThen fun _ t => putBytes vs t := by
  rw [← putBytes_singleton, ← putBytes_append, List.singleton_append]

theorem putBytes_pair {α : Type} (x y : Byte) (s : State) (k : Unit → State → Run α) :
    (putBytes [x, y] s).andThen k =
      (putBytes [x] s).andThen fun _ t => (putBytes [y] t).andThen k := by
  rw [← List.singleton_append, putBytes_append, andThen_assoc]

/-- Where writing bytes ends IB and the parameters are as before; what follows may be replaced by
what it does on such states. -/
theorem putBytes_andThen_congr {α : Type} {k l : Unit → State → Run α} (vs : List Byte) (s : State)
    (h : ∀ t : State, t.ib = s.ib → t.cfg = s.cfg → k () t = l () t) :
    (putBytes vs s).andThen k = (putBytes vs s).andThen l := by
  refine andThen_congr ((putList_ends _ s).imp ?_)
  rintro _ _ ⟨m, w, rfl⟩
  exact h _ rfl rfl

/-- With room the bytes are appended (`40_bitio.md` R112). -/
theorem putBytes_room (vs : List Byte) {s : State} (hm : memoryWf s.ob = true)
    (hcap : s.cfg.obCap ≤ 2 ^ 20) (h : s.wpos.toNat + 8 * vs.length ≤ 8 * s.cfg.obCap) :
    ∃ m, putBytes vs s = .done () (setWpos (s.wpos + BitVec.ofNat 32 (8 * vs.length)) (setOb m s)) ∧
      AppendsBits s.ob m s.wpos.toNat (vs.flatMap byteBits) ∧ memoryWf m = true := by
  have hlen := flatMap_byteBits_length vs
  obtain ⟨m, hrun, hrest⟩ := putList_room (vs.flatMap byteBits) hm hcap (by rwa [hlen])
  rw [hlen] at hrun
  exact ⟨m, hrun, hrest⟩

/-! ## Literals and runs in IB -/

section
variable (s : State)

theorem putFromIb_eq (a n : Nat) : putFromIb a n s = putBytes (bytesAt s.ib a n) s := by
  induction n generalizing a s with
  | zero => rfl
  | succ n ih =>
    rw [bytesAt_succ, putBytes_cons, putFromIb, ← putBytes_singleton]
    exact putBytes_andThen_congr _ s fun t hib _ => by rw [ih, hib]

theorem literal_length_byte {n : Nat} (h : n ≤ 127) :
    (0x80 : Byte) ||| BitVec.ofNat 8 n = BitVec.ofNat 8 (0x80 + n) := by
  refine BitVec.eq_of_toNat_eq ?_
  rw [BitVec.toNat_or, BitVec.toNat_ofNat, BitVec.toNat_ofNat, Nat.mod_eq_of_lt (by omega),
    Nat.mod_eq_of_lt (by omega)]
  exact (Nat.two_pow_add_eq_or_of_lt (i := 7) (show n < 2 ^ 7 by omega) 1).symm

/-- FlushLit writes the pending literal as a record (`44_rle.md` R252). -/
theorem flushLiteral_eq (a : Nat) {n : Nat} (hn : n ≤ 127) :
    flushLiteral a n s = putBytes (literalRecord (bytesAt s.ib a n)) s := by
  cases n with
  | zero => rfl
  | succ n =>
    have hne : bytesAt s.ib a (n + 1) ≠ [] := by rw [bytesAt_succ]; exact List.cons_ne_nil _ _
    rw [flushLiteral, if_neg (Nat.succ_ne_zero n), literalRecord, if_neg hne, bytesAt_length,
      literal_length_byte hn, putBytes_cons, ← putBytes_singleton]
    exact putBytes_andThen_congr _ s fun t hib _ => by rw [putFromIb_eq, hib]

end

section
variable {m : Memory} {a : Nat}

/-- Growing a run takes the bytes that follow and are equal, up to the limit. -/
theorem growRun_eq {v : Byte} {limit fuel r : Nat} (hfuel : limit ≤ r + fuel) :
    growRun m a v limit fuel r =
      r + ((bytesAt m (a + r) (limit - r)).takeWhile (· = v)).length := by
  induction fuel generalizing r with
  | zero =>
    rw [growRun, Nat.sub_eq_zero_of_le (Nat.add_zero r ▸ hfuel)]
    rfl
  | succ fuel ih =>
    rw [growRun]
    by_cases hr : r < limit
    · obtain ⟨k, hk⟩ : ∃ k, limit - r = k + 1 := ⟨limit - r - 1, by omega⟩
      rw [hk, bytesAt_succ]
      by_cases hv : readByte m (a + r) = v
      · rw [if_pos ⟨hr, hv⟩, ih (by omega), List.takeWhile_cons_of_pos (by simpa using hv),
          List.length_cons, Nat.add_assoc a, show limit - (r + 1) = k by omega]
        omega
      · rw [if_neg fun h => hv h.2, List.takeWhile_cons_of_neg (by simpa using hv)]
        rfl
    · rw [if_neg fun h => hr h.1, Nat.sub_eq_zero_of_le (by omega)]
      rfl

theorem takeWhile_take_length {α : Type} (p : α → Bool) (l : List α) (k : Nat) :
    ((l.take k).takeWhile p).length = min k (l.takeWhile p).length := by
  induction l generalizing k with
  | nil => simp
  | cons x l ih =>
    cases k with
    | zero => simp
    | succ k =>
      cases hx : p x <;> simp [hx, ih, Nat.succ_min_succ]

theorem bytesAt_take (n k : Nat) : (bytesAt m a n).take k = bytesAt m a (min k n) := by
  rcases Nat.le_total k n with hle | hle
  · obtain ⟨j, rfl⟩ := Nat.exists_eq_add_of_le hle
    rw [bytesAt_add, List.take_left' (bytesAt_length m a k), Nat.min_eq_left hle]
  · rw [List.take_of_length_le (by rwa [bytesAt_length]), Nat.min_eq_right hle]

/-- The run at the front of a row (`44_rle.md` R252). -/
theorem runAt_eq (left : Nat) : runAt m a (left + 1) =
    min 127 (1 + ((bytesAt m (a + 1) left).takeWhile (· = readByte m a)).length) := by
  have htake : bytesAt m (a + 1) (min (left + 1) 127 - 1) = (bytesAt m (a + 1) left).take 126 := by
    rw [bytesAt_take]
    exact congrArg _ (by omega)
  rw [runAt, growRun_eq (by simp only [Config.rleMaxRun]; omega)]
  simp only [Config.rleMaxRun, htake, takeWhile_take_length]
  omega

end

/-! ## The loop -/

/-- The run at the front of a list, as the greedy coder counts it (`44_rle.md` R252). -/
def frontRun (v : Byte) (rest : List Byte) : Nat := min 127 (1 + (rest.takeWhile (· = v)).length)

theorem greedyRow_nil (minRun fuel : Nat) (pending : List Byte) :
    greedyRow minRun fuel [] pending = literalRecord pending := by
  cases fuel <;> rfl

section
variable {minRun fuel : Nat} {v : Byte} {rest pending : List Byte}

theorem greedyRow_run (h : minRun ≤ frontRun v rest) :
    greedyRow minRun (fuel + 1) (v :: rest) pending =
      literalRecord pending ++ [BitVec.ofNat 8 (frontRun v rest), v] ++
        greedyRow minRun fuel ((v :: rest).drop (frontRun v rest)) [] := if_pos h

theorem greedyRow_flush (h : ¬minRun ≤ frontRun v rest) (hfull : pending.length = 127) :
    greedyRow minRun (fuel + 1) (v :: rest) pending =
      literalRecord pending ++ greedyRow minRun fuel rest [v] :=
  (if_neg h).trans (if_pos hfull)

theorem greedyRow_extend (h : ¬minRun ≤ frontRun v rest) (hfull : pending.length ≠ 127) :
    greedyRow minRun (fuel + 1) (v :: rest) pending =
      greedyRow minRun fuel rest (pending ++ [v]) :=
  (if_neg h).trans (if_neg hfull)

end

/-- The loop of RLE_ENC writes what the greedy coder gives for the rest of the row and the pending
literal, which stands in IB just before it (`44_rle.md` R252). -/
theorem rleEncLoop_eq (fuel : Nat) {a left ls ll : Nat} (s : State) (hll : ll ≤ 127)
    (hpending : ll = 0 ∨ ls + ll = a) :
    rleEncLoop fuel a left ls ll s =
      putBytes (greedyRow s.cfg.rleMinRun fuel (bytesAt s.ib a left) (bytesAt s.ib ls ll)) s := by
  induction fuel generalizing a left ls ll s with
  | zero => exact flushLiteral_eq s ls hll
  | succ fuel ih =>
    rw [rleEncLoop]
    cases left with
    | zero =>
      rw [if_pos rfl, flushLiteral_eq s ls hll]
      exact congrArg (putBytes · s) (greedyRow_nil ..).symm
    | succ left =>
      have hrun : runAt s.ib a (left + 1) =
          frontRun (readByte s.ib a) (bytesAt s.ib (a + 1) left) :=
        runAt_eq left
      have hdrop := bytesAt_drop s.ib a (left + 1)
      rw [if_neg (Nat.succ_ne_zero left), flushLiteral_eq s ls hll]
      rw [bytesAt_succ] at hdrop ⊢
      by_cases hlong : s.cfg.rleMinRun ≤ runAt s.ib a (left + 1)
      · rw [if_pos hlong]
        rw [hrun] at hlong
        have hrest (t : State) (hib : t.ib = s.ib) (hcfg : t.cfg = s.cfg) :
            rleEncLoop fuel (a + runAt t.ib a (left + 1)) (left + 1 - runAt t.ib a (left + 1)) 0 0
              t =
              putBytes (greedyRow s.cfg.rleMinRun fuel
                ((readByte s.ib a :: bytesAt s.ib (a + 1) left).drop
                  (frontRun (readByte s.ib a) (bytesAt s.ib (a + 1) left))) []) t := by
          rw [ih t (Nat.zero_le _) (.inl rfl), hib, hcfg, hrun, hdrop]
          rfl
        rw [greedyRow_run hlong, putBytes_append, putBytes_append, andThen_assoc]
        refine putBytes_andThen_congr _ s fun t hib hcfg => ?_
        rw [putBytes_pair, hib, hrun, ← putBytes_singleton]
        refine putBytes_andThen_congr _ t fun u hib' hcfg' => ?_
        rw [hib', hib, ← putBytes_singleton]
        refine putBytes_andThen_congr _ u fun x hib'' hcfg'' => ?_
        exact hrest x (hib''.trans (hib'.trans hib)) (hcfg''.trans (hcfg'.trans hcfg))
      · rw [if_neg hlong]
        rw [hrun] at hlong
        by_cases hfull : ll = 127
        · rw [if_pos hfull, greedyRow_flush hlong ((bytesAt_length ..).trans hfull),
            putBytes_append]
          refine putBytes_andThen_congr _ s fun t hib hcfg => ?_
          rw [ih t (by decide) (.inr rfl), hib, hcfg, bytesAt_one, Nat.add_sub_cancel]
        · have hextend : bytesAt s.ib (if ll = 0 then a else ls) (ll + 1) =
              bytesAt s.ib ls ll ++ [readByte s.ib a] := by
            rcases hpending with rfl | hpending
            · rfl
            · rw [bytesAt_add, bytesAt_one]
              split
              case isTrue hzero => subst hzero; simp_all [bytesAt]
              case isFalse => rw [hpending]
          rw [if_neg hfull, greedyRow_extend hlong ((bytesAt_length ..).trans_ne hfull), ← hextend]
          refine ih s (by omega) (.inr ?_)
          split <;> omega

/-! ## What the greedy coder gives -/

section
variable {minRun : Nat}

theorem literalRecord_length (pending : List Byte) :
    (literalRecord pending).length = if pending = [] then 0 else 1 + pending.length := by
  rw [literalRecord]
  split
  · rfl
  · rw [List.length_cons, Nat.add_comm]

theorem frontRun_le (v : Byte) (rest : List Byte) : frontRun v rest ≤ rest.length + 1 := by
  have := (List.takeWhile_sublist (· = v) (l := rest)).length_le
  rw [frontRun]
  omega

theorem one_le_frontRun (v : Byte) (rest : List Byte) : 1 ≤ frontRun v rest := by
  rw [frontRun]
  omega

/-- The run at the front is a run. -/
theorem replicate_frontRun (v : Byte) (rest : List Byte) :
    List.replicate (frontRun v rest) v ++ (v :: rest).drop (frontRun v rest) = v :: rest := by
  obtain ⟨k, hk⟩ : ∃ k, frontRun v rest = k + 1 := Nat.exists_eq_add_of_le' (one_le_frontRun v rest)
  have hle : k ≤ (rest.takeWhile (· = v)).length := by
    rw [frontRun] at hk
    omega
  have htake : rest.take k = List.replicate k v := by
    refine List.eq_replicate_iff.mpr ⟨?_, fun b hb => ?_⟩
    · have := (List.takeWhile_sublist (· = v) (l := rest)).length_le
      rw [List.length_take]
      omega
    · have hprefix := List.prefix_iff_eq_take.mp (List.takeWhile_prefix (· = v) (l := rest))
      have hmem : b ∈ rest.takeWhile (· = v) := by
        rw [hprefix]
        exact (List.take_prefix_take_left hle).subset hb
      simpa using List.mem_takeWhile_imp hmem
  rw [hk, List.replicate_succ, List.drop_succ_cons, List.cons_append, ← htake,
    List.take_append_drop]

/-- A pending literal in front of a coded row (`44_rle.md` R250). -/
theorem rleRow_literalRecord {zeros : Bool} {pending coded row : List Byte}
    (hpending : pending.length ≤ 127) (h : RleRow zeros coded row) :
    RleRow zeros (literalRecord pending ++ coded) (pending ++ row) := by
  rw [literalRecord]
  split
  case isTrue hnil => rwa [hnil]
  case isFalse hne => exact .literal pending coded row (List.length_pos_iff.mpr hne) hpending h

/-- The greedy coding stands for the pending literal and the row behind it (`44_rle.md` R250). -/
theorem rleRow_greedyRow (fuel : Nat) {row pending : List Byte} (hfuel : row.length ≤ fuel)
    (hpending : pending.length ≤ 127) :
    RleRow false (greedyRow minRun fuel row pending) (pending ++ row) := by
  induction fuel generalizing row pending with
  | zero =>
    obtain rfl := List.length_eq_zero_iff.mp (Nat.le_zero.mp hfuel)
    simpa [greedyRow] using rleRow_literalRecord hpending .nil
  | succ fuel ih =>
    cases row with
    | nil => simpa [greedyRow] using rleRow_literalRecord hpending .nil
    | cons v rest =>
      rw [List.length_cons] at hfuel
      by_cases hlong : minRun ≤ frontRun v rest
      · have hone := one_le_frontRun v rest
        have hrest := ih (row := (v :: rest).drop (frontRun v rest)) (pending := [])
          (by rw [List.length_drop, List.length_cons]; omega) (Nat.zero_le _)
        have hrun := RleRow.run _ v _ _ hone (Nat.min_le_left ..) hrest
        rw [List.nil_append, replicate_frontRun] at hrun
        rw [greedyRow_run hlong, List.append_assoc]
        exact rleRow_literalRecord hpending hrun
      · by_cases hfull : pending.length = 127
        · rw [greedyRow_flush hlong hfull]
          exact rleRow_literalRecord hpending (ih (by omega) (by simp))
        · have hnext : (pending ++ [v]).length ≤ 127 := by
            rw [List.length_append, List.length_singleton]
            omega
          rw [greedyRow_extend hlong hfull, List.append_cons pending v rest]
          exact ih (Nat.le_of_succ_le_succ hfuel) hnext

/-- At most two bytes for each byte of the row, beside the pending literal. -/
theorem greedyRow_length_le (fuel : Nat) (row pending : List Byte) :
    (greedyRow minRun fuel row pending).length ≤
      2 * row.length + (literalRecord pending).length := by
  induction fuel generalizing row pending with
  | zero => exact Nat.le_add_left ..
  | succ fuel ih =>
    cases row with
    | nil => exact Nat.le_add_left ..
    | cons v rest =>
      have hlen := literalRecord_length
      rw [List.length_cons]
      by_cases hlong : minRun ≤ frontRun v rest
      · have hone := one_le_frontRun v rest
        have hle := frontRun_le v rest
        have hrest := ih ((v :: rest).drop (frontRun v rest)) []
        rw [hlen, if_pos rfl, List.length_drop, List.length_cons] at hrest
        rw [greedyRow_run hlong, List.length_append, List.length_append, List.length_cons,
          List.length_singleton]
        omega
      · by_cases hfull : pending.length = 127
        · have hrest := ih rest [v]
          rw [hlen, if_neg (List.cons_ne_nil _ _), List.length_singleton] at hrest
          rw [greedyRow_flush hlong hfull, List.length_append]
          omega
        · have hrest := ih rest (pending ++ [v])
          rw [hlen, if_neg (by simp), List.length_append, List.length_singleton] at hrest
          have hp := hlen pending
          rw [greedyRow_extend hlong hfull]
          split at hp
          case isTrue hnil => subst hnil; simp at hrest ⊢; omega
          case isFalse => omega

/-- With runs of 3 or more, one byte for each 127 of the row beside its own (`44_rle.md` R252). -/
theorem greedyRow_length_le_of_three (fuel : Nat) {row pending : List Byte}
    (hpending : pending.length ≤ 127) :
    (greedyRow 3 fuel row pending).length ≤
      (row.length + pending.length) + (row.length + pending.length + 126) / 127 := by
  have hrecord : (literalRecord pending).length ≤
      pending.length + (pending.length + 126) / 127 := by
    rw [literalRecord_length]
    split
    · exact Nat.zero_le _
    case isFalse hne =>
      have := List.length_pos_iff.mpr hne
      omega
  induction fuel generalizing row pending with
  | zero =>
    rw [greedyRow]
    omega
  | succ fuel ih =>
    cases row with
    | nil =>
      rw [greedyRow]
      omega
    | cons v rest =>
      rw [List.length_cons]
      by_cases hlong : 3 ≤ frontRun v rest
      · have hle := frontRun_le v rest
        have hrest := ih (row := (v :: rest).drop (frontRun v rest)) (pending := [])
          (by decide) (by decide)
        rw [List.length_drop, List.length_cons, List.length_nil] at hrest
        rw [greedyRow_run hlong, List.length_append, List.length_append, List.length_cons,
          List.length_singleton]
        omega
      · by_cases hfull : pending.length = 127
        · have hrest := ih (row := rest) (pending := [v]) (by simp) (by simp [literalRecord])
          rw [List.length_singleton] at hrest
          rw [greedyRow_flush hlong hfull, List.length_append]
          omega
        · have hnext : (literalRecord (pending ++ [v])).length ≤
              (pending ++ [v]).length + ((pending ++ [v]).length + 126) / 127 := by
            rw [literalRecord_length, if_neg (by simp), List.length_append, List.length_singleton]
            omega
          have hrest := ih (row := rest) (pending := pending ++ [v])
            (by rw [List.length_append, List.length_singleton]; omega) hnext
          rw [List.length_append, List.length_singleton] at hrest
          rw [greedyRow_extend hlong hfull]
          omega

end

/-! ## RLE_ENC -/

/-- The row that RLE_ENC codes. -/
def sourceRow (s : State) : List Byte := bytesAt s.ib s.arg0.toNat s.arg1.toNat

/-- What RLE_ENC writes for it. -/
def codedRow (s : State) : List Byte := greedyRow s.cfg.rleMinRun s.arg1.toNat (sourceRow s) []

section
variable {s : State}

theorem sourceRow_length (s : State) : (sourceRow s).length = s.arg1.toNat := bytesAt_length ..

theorem rleRow_codedRow (s : State) : RleRow false (codedRow s) (sourceRow s) :=
  rleRow_greedyRow _ (sourceRow_length s).le (Nat.zero_le _)

theorem codedRow_length_le (s : State) : (codedRow s).length ≤ 2 * s.arg1.toNat := by
  have hle := greedyRow_length_le (minRun := s.cfg.rleMinRun) s.arg1.toNat (sourceRow s) []
  rwa [sourceRow_length] at hle

theorem rleEncode_eq (s : State) : rleEncode s = (putBytes (codedRow s) s).andThen fun _ t =>
    .done () (setRet0 (wordOfNat ((t.wpos.toNat - s.wpos.toNat) / 8)) t) := by
  have hloop := rleEncLoop_eq s.arg1.toNat (a := s.arg0.toNat) (left := s.arg1.toNat) (ls := 0)
    (ll := 0) s (Nat.zero_le _) (.inl rfl)
  rw [rleEncode, hloop]
  rfl

/-- The state after RLE_ENC has written its bytes. -/
def encodedState (m : Memory) (s : State) : State :=
  setRet0 (BitVec.ofNat 32 (codedRow s).length)
    (setWpos (s.wpos + BitVec.ofNat 32 (8 * (codedRow s).length)) (setOb m s))

theorem wpos_add_bytes {n : Nat} (hcap : s.cfg.obCap ≤ 2 ^ 20)
    (h : s.wpos.toNat + 8 * n ≤ 8 * s.cfg.obCap) :
    (s.wpos + BitVec.ofNat 32 (8 * n)).toNat = s.wpos.toNat + 8 * n := by
  rw [BitVec.toNat_add, BitVec.toNat_ofNat]
  omega

/-- RLE_ENC with room for its bytes. -/
theorem rleEncode_room (hm : memoryWf s.ob = true) (hcap : s.cfg.obCap ≤ 2 ^ 20)
    (h : s.wpos.toNat + 8 * (codedRow s).length ≤ 8 * s.cfg.obCap) :
    ∃ m, rleEncode s = .done () (encodedState m s) ∧
      AppendsBits s.ob m s.wpos.toNat ((codedRow s).flatMap byteBits) := by
  obtain ⟨m, hrun, happends, -⟩ := putBytes_room (codedRow s) hm hcap h
  refine ⟨m, ?_, happends⟩
  rw [rleEncode_eq, hrun, done_andThen, setWpos_wpos, wpos_add_bytes hcap h,
    Nat.add_sub_cancel_left, Nat.mul_div_cancel_left _ (by decide)]
  rfl

theorem firstFailing_rleEnc (hready : unitReady .rleEnc s = true) :
    firstFailing (checksOf .rleEnc s) =
      if s.arg0.toNat + s.arg1.toNat ≤ s.cfg.ibCap then none else some ⟨.operand, s.arg1⟩ := by
  rw [firstFailing_of_ready hready]
  simp [operandChecks]

end

/-- Settles O51: the loop writes the greedy coding, by `rleEncLoop_eq`; what that is, by
`rleRow_greedyRow` and the two bounds on its length. -/
theorem rleEncResult : Obligations.RleEncResult := by
  intro s hs hact henc haligned
  have hready : unitReady .rleEnc s = true := by simp [unitReady, hact, henc, haligned]
  have hchecks := firstFailing_rleEnc hready
  refine ⟨fun hrange hm hcap _ hblank hroom => ?_, fun hrange => ?_⟩
  · have hlen := codedRow_length_le s
    obtain ⟨m, hrun, happends⟩ := rleEncode_room hm hcap (by omega)
    obtain ⟨hbytes, hothers⟩ := writesBytes_of_appendsBits haligned hblank happends
    refine ⟨m, exec_of_done hs (hchecks.trans (if_pos hrange)) hrun, hbytes, hothers,
      rleRow_codedRow s, fun hthree => ?_⟩
    have hle := greedyRow_length_le_of_three s.arg1.toNat (row := sourceRow s) (pending := [])
      (by decide)
    rw [sourceRow_length, ← hthree] at hle
    exact hle
  · exact exec_of_check (e := ⟨.operand, s.arg1⟩) hs (hchecks.trans (if_neg (by omega)))

end Sys2Proof.Machine.RunLength

/-! PROOFS. RLE_DEC (`44_rle.md` R258, R259) by induction on the coded row: each record moves the
reader past its bytes and appends what it stands for; then the round trip of R254. -/

namespace Sys2Proof.Machine.RunLength

open FrequencyModel Composite ArithmeticCoder FaultFrame Keeping BitCommands

/-! ## Reading a byte -/

/-- Eight stream bits at a byte boundary spell the byte (`20_memory.md` R64). -/
theorem bitsValue_byte (m : Memory) {pos : Nat} (hpos : pos % 8 = 0) :
    bitsValue m pos 8 = (readByte m (pos / 8)).toNat := by
  refine Nat.eq_of_testBit_eq fun j => ?_
  by_cases hj : j < 8
  · have hbit := bitsValue_testBit m pos 8 (7 - j) (by omega)
    rw [show 8 - 1 - (7 - j) = j by omega, streamBit, show (pos + (7 - j)) / 8 = pos / 8 by omega,
      show 7 - (pos + (7 - j)) % 8 = j by omega] at hbit
    exact hbit
  · have hpow : 2 ^ 8 ≤ 2 ^ j := Nat.pow_le_pow_right (by decide) (by omega)
    rw [Nat.testBit_lt_two_pow ((bitsValue_lt m pos 8).trans_le hpow),
      Nat.testBit_lt_two_pow ((readByte m (pos / 8)).isLt.trans_le hpow)]

section
variable {s : State}

/-- `GetBits(8)` at a byte boundary is the next byte. -/
theorem getByte_room (hpos : s.rpos.toNat % 8 = 0) (h : s.rpos.toNat + 8 ≤ s.rlen.toNat) :
    getBits 8 s =
      .done (readByte s.ib (s.rpos.toNat / 8)).toNat (setRpos (s.rpos + BitVec.ofNat 32 8) s) := by
  rw [getBits_room h, bitsValue_byte s.ib hpos, rpos_add]

theorem rpos_toNat_add {n : Nat} (h : s.rpos.toNat + n ≤ s.rlen.toNat) :
    (s.rpos + BitVec.ofNat 32 n).toNat = s.rpos.toNat + n := by
  have := s.rlen.isLt
  rw [BitVec.toNat_add, BitVec.toNat_ofNat]
  omega

end

/-! ## Both cursors of the codec -/

/-- The reader has moved by `n` bytes of IB, the bytes `row` are appended to OB, and nothing else
has changed. -/
structure Decoded (s t : State) (n : Nat) (row : List Byte) : Prop where
  state : ∃ m, t = { s with
    ob := m, wpos := s.wpos + BitVec.ofNat 32 (8 * row.length)
    rpos := s.rpos + BitVec.ofNat 32 (8 * n) }
  appends : AppendsBits s.ob t.ob s.wpos.toNat (row.flatMap byteBits)
  form : memoryWf t.ob = true

/-- What the codec needs: a canonical OB, the reader at a byte boundary, `n` bytes to read and room
for `k` bytes. -/
structure CodecReady (s : State) (n k : Nat) : Prop where
  form : memoryWf s.ob = true
  cap : s.cfg.obCap ≤ 2 ^ 20
  aligned : s.rpos.toNat % 8 = 0
  input : s.rpos.toNat + 8 * n ≤ s.rlen.toNat
  room : s.wpos.toNat + 8 * k ≤ 8 * s.cfg.obCap

section
variable {s t u : State} {n k : Nat} {xs ys : List Byte}

theorem CodecReady.mono (h : CodecReady s n k) {n' k' : Nat} (hn : n' ≤ n) (hk : k' ≤ k) :
    CodecReady s n' k' :=
  ⟨h.form, h.cap, h.aligned, by have := h.input; omega, by have := h.room; omega⟩

/-- What is left of the input and the room. -/
theorem Decoded.ready (h : Decoded s t n xs) (hs : CodecReady s (n + k) (xs.length + ys.length)) :
    CodecReady t k ys.length ∧ t.ib = s.ib ∧ t.rpos.toNat / 8 = s.rpos.toNat / 8 + n := by
  obtain ⟨⟨m, rfl⟩, -, hform⟩ := h
  obtain ⟨-, hcap, haligned, hinput, hroom⟩ := hs
  have hrpos : (s.rpos + BitVec.ofNat 32 (8 * n)).toNat = s.rpos.toNat + 8 * n :=
    rpos_toNat_add (by omega)
  have hwpos : (s.wpos + BitVec.ofNat 32 (8 * xs.length)).toNat = s.wpos.toNat + 8 * xs.length :=
    wpos_add_bytes hcap (by omega)
  refine ⟨⟨hform, hcap, ?_, ?_, ?_⟩, rfl, ?_⟩
  · change (s.rpos + BitVec.ofNat 32 (8 * n)).toNat % 8 = 0
    omega
  · change (s.rpos + BitVec.ofNat 32 (8 * n)).toNat + 8 * k ≤ s.rlen.toNat
    omega
  · change (s.wpos + BitVec.ofNat 32 (8 * xs.length)).toNat + 8 * ys.length ≤ 8 * s.cfg.obCap
    omega
  · change (s.rpos + BitVec.ofNat 32 (8 * n)).toNat / 8 = s.rpos.toNat / 8 + n
    omega

theorem Decoded.trans (h : Decoded s t n xs) (h' : Decoded t u k ys)
    (hcap : s.cfg.obCap ≤ 2 ^ 20) (hroom : s.wpos.toNat + 8 * xs.length ≤ 8 * s.cfg.obCap) :
    Decoded s u (n + k) (xs ++ ys) := by
  obtain ⟨⟨m, rfl⟩, happends, -⟩ := h
  obtain ⟨⟨m', rfl⟩, happends', hform⟩ := h'
  refine ⟨⟨m', ?_⟩, ?_, hform⟩
  · simp only [BitVec.add_assoc, ← BitVec.ofNat_add, List.length_append, Nat.mul_add]
  · rw [List.flatMap_append]
    refine happends.append ?_
    rw [flatMap_byteBits_length, ← wpos_add_bytes hcap hroom]
    exact happends'

theorem decoded_refl (h : memoryWf s.ob = true) : Decoded s s 0 [] :=
  ⟨⟨s.ob, by simp⟩, .nil _ _, h⟩

/-- With what it needs, and `bytes` before the reader, the body ends with `a`, past the bytes and
with `row` written. -/
def Decodes {α : Type} (body : State → Run α) (bytes : List Byte) (a : α)
    (row : List Byte) : Prop :=
  ∀ s, CodecReady s bytes.length row.length →
    bytesAt s.ib (s.rpos.toNat / 8) bytes.length = bytes →
    ∃ t, body s = .done a t ∧ Decoded s t bytes.length row

end

section
variable {α β : Type} {xs ys row row' : List Byte} {a : α} {b : β}

/-- Two bodies in sequence decode what stands for both, one after the other. -/
theorem Decodes.andThen {body : State → Run α} {k : α → State → Run β}
    (h : Decodes body xs a row) (h' : Decodes (k a) ys b row') :
    Decodes (fun s => (body s).andThen k) (xs ++ ys) b (row ++ row') := by
  intro s hs hbytes
  rw [List.length_append, List.length_append] at hs
  rw [List.length_append, bytesAt_add] at hbytes
  obtain ⟨hfirst, hsecond⟩ := List.append_inj hbytes (bytesAt_length ..)
  obtain ⟨t, hrun, hst⟩ := h s (hs.mono (Nat.le_add_right ..) (Nat.le_add_right ..)) hfirst
  obtain ⟨ht, hib, hrpos⟩ := hst.ready hs
  obtain ⟨u, hrun', htu⟩ := h' t ht (by rw [hib, hrpos]; exact hsecond)
  refine ⟨u, (congrArg (·.andThen k) hrun).trans hrun', ?_⟩
  rw [List.length_append]
  exact hst.trans htu hs.cap (hs.mono (Nat.zero_le _) (Nat.le_add_right ..)).room

theorem decodes_done (a : α) : Decodes (.done a) [] a [] :=
  fun s hs _ => ⟨s, rfl, decoded_refl hs.form⟩

/-- An answer after the body. -/
theorem Decodes.answer {body : State → Run α} (h : Decodes body xs a row) (b : β) :
    Decodes (fun s => (body s).andThen fun _ s => .done b s) xs b row := by
  have hseq := h.andThen (k := fun _ => .done b) (decodes_done b)
  rwa [List.append_nil, List.append_nil] at hseq

theorem decodes_demand {ok : Bool} (hok : ok = true) (e : State → Trap) :
    Decodes (fun s => demand ok (e s) s) [] () [] := by
  subst hok
  exact decodes_done ()

theorem decodes_getByte (v : Byte) : Decodes (getBits 8) [v] v.toNat [] := by
  intro s hs hbytes
  obtain rfl : readByte s.ib (s.rpos.toNat / 8) = v := List.head_eq_of_cons_eq hbytes
  exact ⟨_, getByte_room hs.aligned hs.input, ⟨s.ob, by simp [setRpos]⟩, .nil _ _, hs.form⟩

theorem decodes_putByte (v : Byte) : Decodes (putByte v) [] () [v] := by
  intro s hs _
  obtain ⟨m, hrun, happends, hform⟩ := putBytes_room [v] hs.form hs.cap hs.room
  exact ⟨_, (putBytes_singleton v s).symm.trans hrun, ⟨m, by simp [setWpos, setOb]⟩, happends,
    hform⟩

end

/-! ## Records and rows -/

/-- A literal record copies its bytes (`44_rle.md` R258). -/
theorem decodes_copyBytes (bytes : List Byte) :
    Decodes (copyBytes bytes.length) bytes () bytes := by
  induction bytes with
  | nil => exact decodes_done ()
  | cons v bytes ih =>
    refine (decodes_getByte v).andThen (row' := v :: bytes) ?_
    rw [BitVec.ofNat_toNat, BitVec.setWidth_eq]
    exact (decodes_putByte v).andThen ih

/-- A run record writes its byte over and over (`44_rle.md` R258). -/
theorem decodes_repeatByte (v : Byte) (n : Nat) :
    Decodes (repeatByte v n) [] () (List.replicate n v) := by
  induction n with
  | zero => exact decodes_done ()
  | succ n ih => exact (decodes_putByte v).andThen ih

theorem byte_toNat {n : Nat} (h : n < 256) : (BitVec.ofNat 8 n).toNat = n := Nat.mod_eq_of_lt h

/-- A literal record of a row that wants as many bytes. -/
theorem decodes_literal {left : Nat} {bytes : List Byte} (hpos : 1 ≤ bytes.length)
    (hle : bytes.length ≤ 127) (hleft : bytes.length ≤ left) :
    Decodes (rleDecRecord left) (BitVec.ofNat 8 (0x80 + bytes.length) :: bytes) bytes.length
      bytes := by
  have hlen := byte_toNat (n := 0x80 + bytes.length) (by omega)
  have hget := decodes_getByte (BitVec.ofNat 8 (0x80 + bytes.length))
  rw [hlen] at hget
  refine hget.andThen (row' := bytes) ?_
  refine (decodes_demand (bne_iff_ne.mpr (by omega)) _).andThen (row' := bytes) ?_
  simp only [show 0x80 < 0x80 + bytes.length by omega, if_true, Nat.add_sub_cancel_left]
  refine (decodes_demand (by simpa using hleft) _).andThen (row' := bytes) ?_
  exact (decodes_copyBytes bytes).answer bytes.length

/-- A run record, of length 0 too, of a row that wants as many bytes. -/
theorem decodes_run {left r : Nat} (v : Byte) (hle : r ≤ 127) (hleft : r ≤ left) :
    Decodes (rleDecRecord left) [BitVec.ofNat 8 r, v] r (List.replicate r v) := by
  have hget := decodes_getByte (BitVec.ofNat 8 r)
  rw [byte_toNat (by omega)] at hget
  refine hget.andThen (ys := [v]) (row' := List.replicate r v) ?_
  refine (decodes_demand (bne_iff_ne.mpr (by omega)) _).andThen (ys := [v])
    (row' := List.replicate r v) ?_
  simp only [show ¬0x80 < r by omega, if_false]
  refine (decodes_getByte v).andThen (ys := []) (row' := List.replicate r v) ?_
  refine (decodes_demand (by simpa using hleft) _).andThen (ys := [])
    (row' := List.replicate r v) ?_
  rw [BitVec.ofNat_toNat, BitVec.setWidth_eq]
  exact (decodes_repeatByte v r).answer r

/-- A pass of the loop decodes a record, and the rest of the row follows. -/
theorem decodes_pass {fuel : Nat} {record coded part row : List Byte} (hrow : part ++ row ≠ [])
    (hrecord : Decodes (rleDecRecord (part ++ row).length) record part.length part)
    (hrest : Decodes (rleDecLoop fuel row.length) coded () row) :
    Decodes (rleDecLoop (fuel + 1) (part ++ row).length) (record ++ coded) () (part ++ row) := by
  intro s
  rw [rleDecLoop, if_neg (mt List.length_eq_zero_iff.mp hrow)]
  refine hrecord.andThen ?_ s
  rwa [List.length_append, Nat.add_sub_cancel_left]

/-- RLE_DEC's loop decodes every coded row (`44_rle.md` R250, R258). -/
theorem decodes_row {coded row : List Byte} (h : RleRow true coded row) {fuel : Nat}
    (hfuel : coded.length ≤ fuel) : Decodes (rleDecLoop fuel row.length) coded () row := by
  induction h generalizing fuel with
  | nil => cases fuel <;> exact decodes_done ()
  | run r v coded row hpos hle _ ih =>
    obtain ⟨fuel, rfl⟩ := Nat.exists_eq_add_of_le' (Nat.le_of_add_left_le hfuel)
    have hrecord := decodes_run v hle (left := (List.replicate r v ++ row).length) (by simp)
    refine decodes_pass (record := [BitVec.ofNat 8 r, v]) (by simp; omega) ?_
      (ih (by simp at hfuel; omega))
    rwa [List.length_replicate]
  | literal bytes coded row hpos hle _ ih =>
    obtain ⟨fuel, rfl⟩ := Nat.exists_eq_add_of_le' (Nat.le_of_add_left_le hfuel)
    rw [List.cons_append, List.length_cons, List.length_append] at hfuel
    refine decodes_pass (List.append_ne_nil_of_left_ne_nil (List.length_pos_iff.mp hpos) _) ?_
      (ih (by omega))
    exact decodes_literal hpos hle (by simp)
  | zero v coded row _ hne _ ih =>
    obtain ⟨fuel, rfl⟩ := Nat.exists_eq_add_of_le' (Nat.le_of_add_left_le hfuel)
    exact decodes_pass (part := []) (record := [0, v]) hne
      (decodes_run v (r := 0) (Nat.zero_le _) (Nat.zero_le _)) (ih (by simp at hfuel; omega))

/-! ## RLE_DEC -/

section
variable {s : State}

/-- The unit state that RLE_DEC asks for (`60_exceptions.md` R283). -/
theorem aligned_of_ready (h : unitReady .rleDec s = true) :
    s.rpos.toNat % 8 = 0 ∧ s.wpos.toNat % 8 = 0 := by
  simp only [unitReady, Bool.and_eq_true, beq_iff_eq] at h
  obtain ⟨⟨-, hrpos⟩, hwpos⟩ := h
  exact ⟨hrpos, hwpos⟩

theorem firstFailing_rleDec (h : unitReady .rleDec s = true) :
    firstFailing (checksOf .rleDec s) = none := firstFailing_of_ready h

/-- RLE_DEC on a coded row of ARG1 bytes (`44_rle.md` R258). -/
theorem rleDecode_row {coded row : List Byte} (h : RleRow true coded row)
    (hrow : row.length = s.arg1.toNat) (hs : CodecReady s coded.length row.length)
    (hbytes : bytesAt s.ib (s.rpos.toNat / 8) coded.length = coded) :
    ∃ t, Decoded s t coded.length row ∧ rleDecode s =
      .done () (setRet1 (BitVec.ofNat 32 coded.length) (setRet0 s.arg1 t)) := by
  have hinput := hs.input
  have hfuel : coded.length ≤ rleDecFuel s := by rw [rleDecFuel]; omega
  obtain ⟨t, hrun, hst⟩ := decodes_row h hfuel s hs hbytes
  rw [hrow] at hrun
  refine ⟨t, hst, ?_⟩
  obtain ⟨m, rfl⟩ := hst.state
  simp only [rleDecode, hrun, done_andThen]
  rw [rpos_toNat_add hinput, Nat.add_sub_cancel_left, Nat.mul_div_cancel_left _ (by decide)]
  rfl

/-- A fault of the first record is a fault of RLE_DEC. -/
theorem exec_rleDec_of_raised {e : Trap} {t : State} (hs : flag s .fault = false)
    (hready : unitReady .rleDec s = true) (hleft : 1 ≤ s.arg1.toNat)
    (h : rleDecRecord s.arg1.toNat s = .raised e t) :
    exec .rleDec s = .next (raiseFault e t) := by
  refine (exec_eq_bodyOf (by nofun) s).trans
    (runCommand_raised hs (firstFailing_rleDec hready) ?_)
  rw [bodyOf, rleDecode, rleDecFuel, rleDecLoop, if_neg (by omega), h]
  rfl

section
variable {left : Nat} (haligned : s.rpos.toNat % 8 = 0) (hread : s.rpos.toNat + 8 ≤ s.rlen.toNat)
include haligned hread

/-- The length byte 0x80 stands for nothing (`44_rle.md` R259). -/
theorem rleDecRecord_format (h : (readByte s.ib (s.rpos.toNat / 8)).toNat = 0x80) :
    rleDecRecord left s = .raised ⟨.rleFormat, s.rpos⟩ { s with rpos := s.rpos + 8 } := by
  rw [rleDecRecord, getByte_room haligned hread, done_andThen, h]
  exact congrArg (fun info => Run.raised ⟨.rleFormat, info⟩ _) (BitVec.add_sub_cancel s.rpos 8)

/-- A literal beyond the end of the row (`44_rle.md` R259). -/
theorem rleDecRecord_longLiteral (h : 0x80 < (readByte s.ib (s.rpos.toNat / 8)).toNat)
    (hlong : left < (readByte s.ib (s.rpos.toNat / 8)).toNat - 0x80) :
    rleDecRecord left s = .raised ⟨.rleOverrun, s.rpos⟩ { s with rpos := s.rpos + 8 } := by
  rw [rleDecRecord, getByte_room haligned hread, done_andThen, bne_iff_ne.mpr (by omega),
    demand_true, done_andThen, if_pos h, decide_eq_false (by omega), demand_false, raised_andThen]
  exact congrArg (fun info => Run.raised ⟨.rleOverrun, info⟩ _) (BitVec.add_sub_cancel s.rpos 8)

/-- A run beyond the end of the row (`44_rle.md` R259). -/
theorem rleDecRecord_longRun (h : (readByte s.ib (s.rpos.toNat / 8)).toNat < 0x80)
    (hlong : left < (readByte s.ib (s.rpos.toNat / 8)).toNat)
    (hvalue : s.rpos.toNat + 16 ≤ s.rlen.toNat) :
    rleDecRecord left s = .raised ⟨.rleOverrun, s.rpos⟩ { s with rpos := s.rpos + 16 } := by
  have hnext : (s.rpos + BitVec.ofNat 32 8).toNat = s.rpos.toNat + 8 := rpos_toNat_add hread
  have hget := getByte_room (s := setRpos (s.rpos + BitVec.ofNat 32 8) s)
    (by rw [setRpos_rpos, hnext]; omega) (by rw [setRpos_rpos, setRpos_rlen, hnext]; omega)
  rw [rleDecRecord, getByte_room haligned hread, done_andThen, bne_iff_ne.mpr (by omega),
    demand_true, done_andThen, if_neg (by omega), hget, done_andThen, decide_eq_false (by omega),
    demand_false, raised_andThen]
  simp only [setRpos, BitVec.add_assoc]
  exact congrArg (fun info => Run.raised ⟨.rleOverrun, info⟩ _) (BitVec.add_sub_cancel s.rpos 16)

end

end

/-- Settles O52: a coded row by `rleDecode_row`; the faults are those of the first record. -/
theorem rleDecResult : Obligations.RleDecResult := by
  intro s hs hready hm hcap
  obtain ⟨haligned, hboundary⟩ := aligned_of_ready hready
  refine ⟨fun coded row hcoded hrow hbytes hinput hroom hblank => ?_, fun hleft hread => ?_⟩
  · obtain ⟨t, ⟨⟨m, rfl⟩, happends, -⟩, hrun⟩ :=
      rleDecode_row hcoded hrow ⟨hm, hcap, haligned, hinput, hroom⟩ hbytes
    obtain ⟨hwritten, hothers⟩ := writesBytes_of_appendsBits hboundary hblank happends
    exact ⟨m, exec_of_done hs (firstFailing_rleDec hready) hrun, hwritten, hothers⟩
  · refine ⟨fun hlen => ?_, fun hlen hlong => ?_, fun hlen hlong hvalue => ?_⟩
    · exact exec_rleDec_of_raised hs hready hleft (rleDecRecord_format haligned hread hlen)
    · exact exec_rleDec_of_raised hs hready hleft
        (rleDecRecord_longLiteral haligned hread hlen hlong)
    · exact exec_rleDec_of_raised hs hready hleft
        (rleDecRecord_longRun haligned hread hlen hlong hvalue)

/-! ## The round trip -/

/-- A coded row without runs of length 0 is a coded row (`44_rle.md` R250, R258). -/
theorem rleRow_withZeros {coded row : List Byte} (h : RleRow false coded row) :
    RleRow true coded row := by
  induction h with
  | nil => exact .nil
  | run r v coded row hpos hle _ ih => exact .run r v coded row hpos hle ih
  | literal bytes coded row hpos hle _ ih => exact .literal bytes coded row hpos hle ih
  | zero _ _ _ hzeros => cases hzeros

section
variable {s : State}

/-- Bits that do not all fit do not get written (`40_bitio.md` R111). -/
theorem putList_noRoom (bits : List Bool) (hcap : s.cfg.obCap ≤ 2 ^ 20) (hne : bits ≠ [])
    (h : 8 * s.cfg.obCap < s.wpos.toNat + bits.length) (t : State) :
    putList bits s ≠ .done () t := by
  induction bits generalizing s with
  | nil => exact absurd rfl hne
  | cons b bits ih =>
    rw [putList]
    by_cases hlt : s.wpos.toNat < 8 * s.cfg.obCap
    · have hwpos : (s.wpos + 1).toNat = s.wpos.toNat + 1 :=
        BitVec.toNat_add_of_lt (y := 1) (by change _ + 1 < _; omega)
      rw [List.length_cons] at h
      rw [putBit_room hlt, done_andThen]
      have hrest : bits ≠ [] := by
        rintro rfl
        rw [List.length_nil] at h
        omega
      refine ih ?_ hrest ?_
      · cases b <;> exact hcap
      · cases b <;> simp only [setWpos_cfg, setWpos_wpos, setOb_cfg, if_true, if_false,
          Bool.false_eq_true, hwpos] <;> omega
    · rw [putBit_full hlt]
      nofun

/-- RLE_ENC that completes had room for its bytes, or had none to write. -/
theorem rleEncode_done {t : State} (hm : memoryWf s.ob = true) (hcap : s.cfg.obCap ≤ 2 ^ 20)
    (h : rleEncode s = .done () t) :
    t.ret0.toNat = (codedRow s).length ∧
      AppendsBits s.ob t.ob s.wpos.toNat ((codedRow s).flatMap byteBits) := by
  by_cases hroom : s.wpos.toNat + 8 * (codedRow s).length ≤ 8 * s.cfg.obCap
  · obtain ⟨m, hrun, happends⟩ := rleEncode_room hm hcap hroom
    obtain ⟨-, rfl⟩ := Run.done.inj (hrun.symm.trans h)
    exact ⟨Nat.mod_eq_of_lt (by omega), happends⟩
  · rw [rleEncode_eq, andThen_eq_done] at h
    obtain ⟨_, u, hput, hend⟩ := h
    obtain ⟨-, rfl⟩ := Run.done.inj hend
    have hnone : (codedRow s).flatMap byteBits = [] := by
      by_contra hne
      refine putList_noRoom _ hcap hne ?_ u hput
      rw [flatMap_byteBits_length]
      omega
    have hlen := flatMap_byteBits_length (codedRow s)
    rw [putBytes, hnone] at hput
    rw [hnone, List.length_nil] at hlen
    obtain ⟨-, rfl⟩ := Run.done.inj hput
    refine ⟨?_, hnone ▸ .nil _ _⟩
    rw [show (codedRow s).length = 0 by omega, setRet0_ret0, Nat.sub_self]
    rfl

end

/-- Where no check fails the unit is ready (`60_exceptions.md` R283). -/
theorem ready_of_checks {i : Instr} {s : State} (h : firstFailing (checksOf i s) = none) :
    unitReady i s = true := by
  by_contra hready
  rw [firstFailing_of_unready (Bool.eq_false_iff.mpr hready)] at h
  cases h

/-- Settles O53: RLE_ENC wrote a coded row, by `rleEncode_done`, and RLE_DEC decodes coded rows. -/
theorem rleRoundTrip : Obligations.RleRoundTrip := by
  intro e e' d hexec hfault hm hcap hmin hblank hd hready hdm hdcap harg hbytes hinput hroom hdblank
  obtain ⟨-, hchecks, t, hrun, rfl⟩ :=
    runCommand_completed ((exec_eq_bodyOf (by nofun) e).symm.trans hexec) hfault
  obtain ⟨hlen, happends⟩ := rleEncode_done hm hcap hrun
  have haligned : e.wpos.toNat % 8 = 0 := by
    have hencReady := ready_of_checks hchecks
    simp only [unitReady, Bool.and_eq_true, beq_iff_eq] at hencReady
    exact hencReady.2
  have hwritten := (writesBytes_of_appendsBits haligned hblank happends).bytes
  have hrow : (sourceRow e).length = d.arg1.toNat := by rw [sourceRow_length, harg]
  rw [retire_ret0, hlen] at hbytes hinput
  rw [retire_ob, hwritten] at hbytes
  obtain ⟨m, hdec, hdecoded, -⟩ := (rleDecResult d hd hready hdm hdcap).1 (codedRow e)
    (sourceRow e) (rleRow_withZeros (rleRow_codedRow e)) hrow hbytes hinput (hrow ▸ hroom) hdblank
  rw [hrow] at hdecoded
  refine ⟨_, hdec, hd, hdecoded, BitVec.eq_of_toNat_eq ?_⟩
  rw [retire_ret0, hlen, BitVec.toNat_ofNat]
  exact Nat.mod_eq_of_lt (hlen ▸ t.ret0.isLt)

end Sys2Proof.Machine.RunLength
